-- ==== Sys2Proof/Word.lean ====
section
/-! DEFINITION. The word and byte types and the few constant words every file names. -/

namespace Sys2Proof

/-- A 64-bit register or memory element: a u64, an i64 or a binary64 bit pattern (R9, R81). -/
abbrev Word := BitVec 64

/-- A byte lane of the host's data path (R81). -/
abbrev Byte := BitVec 8

/-- The binary64 pattern of `+0.0`. -/
abbrev posZero : Word := 0x0000000000000000

/-- The binary64 pattern of `1.0`. -/
abbrev fOne : Word := 0x3FF0000000000000

/-- The binary64 pattern of `2.0`. -/
abbrev fTwo : Word := 0x4000000000000000

/-- The binary64 pattern of `3.0`. -/
abbrev fThree : Word := 0x4008000000000000

end Sys2Proof
end

