-- ==== Sys2Proof/Syntax.lean ====
section
/-! DEFINITION. The commands of the block: one constructor of `Instr` for each row of spec/opcode_table.json (R118). -/

namespace Sys2Proof

/-- The three fields a block can hold, conventionally R, G and B (R3). -/
inductive Chan where
  | c0 | c1 | c2
  deriving DecidableEq, Repr

/-- The CH field of a command word (R110, R112): a channel number, or `0b11`, which is ALL in the class `one-or-all` and an
error in the class `one`. -/
inductive ChSel where
  | ch (c : Chan)
  | all
  deriving DecidableEq, Repr

/-- The parameter mask M of SETP and SETP_SPREAD (R115): which fields of the partial record are present. -/
structure ParamMask where
  r : Bool
  mu : Bool
  sigma : Bool
  dt : Bool
  kmu : Bool
  ksigma : Bool
  deriving DecidableEq, Repr

/-- Where PLACE takes its pattern (R116): SRC = 0 the PATTERN region, SRC = 1 the active field of channel ARG3. -/
inductive PatternSource where
  | pattern
  | field
  deriving DecidableEq, Repr

/-- A command (R22: the block's "instruction"), one constructor for each row of the opcode map R118. -/
inductive Instr where
  | nop
  | init
  | importCfg
  | setp (ch : ChSel) (mask : ParamMask)
  | setpSpread (mask : ParamMask)
  | buildKernel (ch : ChSel)
  | buildGrowth (ch : ChSel)
  | step
  | run
  | loadf (ch : ChSel)
  | fftFwd
  | fftInv
  | cmul (ch : ChSel)
  | growth (ch : ChSel)
  | swap (ch : ChSel)
  | stats (inc : Bool)
  | clear (ch : ChSel)
  | randomize (ch : ChSel)
  | place (ch : ChSel) (src : PatternSource)
  | circle (ch : ChSel)
  | setv (ch : ChSel)
  | getv (ch : ChSel)
  | geval (ch : ChSel)
  | lookup (ch : ChSel)
  deriving DecidableEq, Repr

end Sys2Proof
end

