-- ==== Sys2Proof/WellFormed.lean ====
section
/-! DEFINITION. The check on a command that its CH class makes before any state is known (R112). -/

namespace Sys2Proof

/-- The CH classes of R112. -/
inductive ChClass where
  | none
  | one
  | oneOrAll
  deriving DecidableEq, Repr

/-- The CH class of a command (R118). -/
def Instr.chClass : Instr → ChClass
  | .nop => .none
  | .init => .none
  | .importCfg => .none
  | .setp _ _ => .oneOrAll
  | .setpSpread _ => .none
  | .buildKernel _ => .oneOrAll
  | .buildGrowth _ => .oneOrAll
  | .step => .none
  | .run => .none
  | .loadf _ => .one
  | .fftFwd => .none
  | .fftInv => .none
  | .cmul _ => .one
  | .growth _ => .one
  | .swap _ => .oneOrAll
  | .stats _ => .none
  | .clear _ => .oneOrAll
  | .randomize _ => .oneOrAll
  | .place _ _ => .oneOrAll
  | .circle _ => .oneOrAll
  | .setv _ => .oneOrAll
  | .getv _ => .one
  | .geval _ => .one
  | .lookup _ => .one

/-- The CH field of a command; a command of the class `none` has CH = 0b00. -/
def Instr.chSel : Instr → ChSel
  | .nop => .ch .c0
  | .init => .ch .c0
  | .importCfg => .ch .c0
  | .setp c _ => c
  | .setpSpread _ => .ch .c0
  | .buildKernel c => c
  | .buildGrowth c => c
  | .step => .ch .c0
  | .run => .ch .c0
  | .loadf c => c
  | .fftFwd => .ch .c0
  | .fftInv => .ch .c0
  | .cmul c => c
  | .growth c => c
  | .swap c => c
  | .stats _ => .ch .c0
  | .clear c => c
  | .randomize c => c
  | .place c _ => c
  | .circle c => c
  | .setv c => c
  | .getv c => c
  | .geval c => c
  | .lookup c => c

/-- A command is well formed when its CH field is one its class admits: a command of the class `one` is not addressed to
0b11, which is a channel error in every state (R112). Every command, well formed or not, has an encoding and decodes. -/
def Instr.wellFormed (i : Instr) : Bool :=
  !(i.chClass == .one && i.chSel == .all)

end Sys2Proof
end

