-- ==== Sys2Proof/Decode.lean ====
section
/-! DEFINITION. Decoding a command word (R110, R118 to R120) and, after it, the encoder written from the same table. -/

namespace Sys2Proof

/-- Why a word is no command (R120). -/
inductive DecodeError where
  /-- OPC is unassigned. -/
  | illegalOpcode
  /-- OPC is assigned, but a bit under the row's mask differs. -/
  | illegalCmd
  deriving DecidableEq, Repr

/-- The OPC field, bits 7:0 (R110). -/
def opcOf (w : Word) : BitVec 8 := w.extractLsb' 0 8

/-- The CH field, bits 9:8 (R110). -/
def chOf (w : Word) : BitVec 2 := w.extractLsb' 8 2

/-- The FLAGS field, bits 15:10 (R110). -/
def flagsOf (w : Word) : BitVec 6 := w.extractLsb' 10 6

/-- The CH field as a selector: 0b11 is ALL (R112). -/
def chSelOfBits (b : BitVec 2) : ChSel :=
  if b = 0 then .ch .c0 else if b = 1 then .ch .c1 else if b = 2 then .ch .c2 else .all

/-- The bits of a CH selector (R112). -/
def ChSel.bits : ChSel → BitVec 2
  | .ch .c0 => 0
  | .ch .c1 => 1
  | .ch .c2 => 2
  | .all => 3

/-- The parameter mask in FLAGS[5:0] (R115). -/
def maskOfFlags (f : BitVec 6) : ParamMask :=
  { r := f.getLsbD 0, mu := f.getLsbD 1, sigma := f.getLsbD 2, dt := f.getLsbD 3, kmu := f.getLsbD 4, ksigma := f.getLsbD 5 }

/-- The FLAGS bits of a parameter mask (R115): bit k selects parameter k. -/
def ParamMask.bits (m : ParamMask) : BitVec 6 :=
  BitVec.ofBool m.ksigma ++ BitVec.ofBool m.kmu ++ BitVec.ofBool m.dt ++ BitVec.ofBool m.sigma ++ BitVec.ofBool m.mu
    ++ BitVec.ofBool m.r

/-- SRC of PLACE in FLAGS[0] (R116). -/
def srcOfFlags (f : BitVec 6) : PatternSource := if f.getLsbD 0 then .field else .pattern

/-- FLAGS of PLACE (R116). -/
def PatternSource.bits : PatternSource → BitVec 6
  | .pattern => 0
  | .field => 1

/-- A row of the opcode map R118: its OPC, its match and mask values, and the command a selected word stands for. -/
structure Row where
  opc : BitVec 8
  pattern : Word
  mask : Word
  build : ChSel → BitVec 6 → Instr

/-- The opcode map R118, row by row in the spec's order. -/
def rows : List Row :=
  [ ⟨0x00, 0x0000000000000000, 0xFFFFFFFFFFFFFFFF, fun _ _ => .nop⟩,
    ⟨0x01, 0x0000000000000001, 0xFFFFFFFFFFFFFFFF, fun _ _ => .init⟩,
    ⟨0x02, 0x0000000000000002, 0xFFFFFFFFFFFFFFFF, fun _ _ => .importCfg⟩,
    ⟨0x08, 0x0000000000000008, 0xFFFFFFFFFFFF00FF, fun c f => .setp c (maskOfFlags f)⟩,
    ⟨0x09, 0x0000000000000009, 0xFFFFFFFFFFFF03FF, fun _ f => .setpSpread (maskOfFlags f)⟩,
    ⟨0x0A, 0x000000000000000A, 0xFFFFFFFFFFFFFCFF, fun c _ => .buildKernel c⟩,
    ⟨0x0B, 0x000000000000000B, 0xFFFFFFFFFFFFFCFF, fun c _ => .buildGrowth c⟩,
    ⟨0x10, 0x0000000000000010, 0xFFFFFFFFFFFFFFFF, fun _ _ => .step⟩,
    ⟨0x11, 0x0000000000000011, 0xFFFFFFFFFFFFFFFF, fun _ _ => .run⟩,
    ⟨0x18, 0x0000000000000018, 0xFFFFFFFFFFFFFCFF, fun c _ => .loadf c⟩,
    ⟨0x19, 0x0000000000000019, 0xFFFFFFFFFFFFFFFF, fun _ _ => .fftFwd⟩,
    ⟨0x1A, 0x000000000000001A, 0xFFFFFFFFFFFFFFFF, fun _ _ => .fftInv⟩,
    ⟨0x1B, 0x000000000000001B, 0xFFFFFFFFFFFFFCFF, fun c _ => .cmul c⟩,
    ⟨0x1C, 0x000000000000001C, 0xFFFFFFFFFFFFFCFF, fun c _ => .growth c⟩,
    ⟨0x1D, 0x000000000000001D, 0xFFFFFFFFFFFFFCFF, fun c _ => .swap c⟩,
    ⟨0x1E, 0x000000000000001E, 0xFFFFFFFFFFFFFBFF, fun _ f => .stats (f.getLsbD 0)⟩,
    ⟨0x20, 0x0000000000000020, 0xFFFFFFFFFFFFFCFF, fun c _ => .clear c⟩,
    ⟨0x21, 0x0000000000000021, 0xFFFFFFFFFFFFFCFF, fun c _ => .randomize c⟩,
    ⟨0x22, 0x0000000000000022, 0xFFFFFFFFFFFFF8FF, fun c f => .place c (srcOfFlags f)⟩,
    ⟨0x23, 0x0000000000000023, 0xFFFFFFFFFFFFFCFF, fun c _ => .circle c⟩,
    ⟨0x24, 0x0000000000000024, 0xFFFFFFFFFFFFFCFF, fun c _ => .setv c⟩,
    ⟨0x25, 0x0000000000000025, 0xFFFFFFFFFFFFFCFF, fun c _ => .getv c⟩,
    ⟨0x28, 0x0000000000000028, 0xFFFFFFFFFFFFFCFF, fun c _ => .geval c⟩,
    ⟨0x29, 0x0000000000000029, 0xFFFFFFFFFFFFFCFF, fun c _ => .lookup c⟩ ]

/-- The first two checks of R119: the row by OPC, then the bits under its mask. -/
def decode (w : Word) : Except DecodeError Instr :=
  match rows.find? (fun r => r.opc == opcOf w) with
  | none => .error .illegalOpcode
  | some r => if w &&& r.mask = r.pattern then .ok (r.build (chSelOfBits (chOf w)) (flagsOf w)) else .error .illegalCmd

/-- The OPC of a command (R118). -/
def Instr.opcode : Instr → BitVec 8
  | .nop => 0x00
  | .init => 0x01
  | .importCfg => 0x02
  | .setp _ _ => 0x08
  | .setpSpread _ => 0x09
  | .buildKernel _ => 0x0A
  | .buildGrowth _ => 0x0B
  | .step => 0x10
  | .run => 0x11
  | .loadf _ => 0x18
  | .fftFwd => 0x19
  | .fftInv => 0x1A
  | .cmul _ => 0x1B
  | .growth _ => 0x1C
  | .swap _ => 0x1D
  | .stats _ => 0x1E
  | .clear _ => 0x20
  | .randomize _ => 0x21
  | .place _ _ => 0x22
  | .circle _ => 0x23
  | .setv _ => 0x24
  | .getv _ => 0x25
  | .geval _ => 0x28
  | .lookup _ => 0x29

/-- The FLAGS of a command (R115, R116). -/
def Instr.flagBits : Instr → BitVec 6
  | .nop => 0
  | .init => 0
  | .importCfg => 0
  | .setp _ m => m.bits
  | .setpSpread m => m.bits
  | .buildKernel _ => 0
  | .buildGrowth _ => 0
  | .step => 0
  | .run => 0
  | .loadf _ => 0
  | .fftFwd => 0
  | .fftInv => 0
  | .cmul _ => 0
  | .growth _ => 0
  | .swap _ => 0
  | .stats inc => if inc then 1 else 0
  | .clear _ => 0
  | .randomize _ => 0
  | .place _ src => src.bits
  | .circle _ => 0
  | .setv _ => 0
  | .getv _ => 0
  | .geval _ => 0
  | .lookup _ => 0

/-- The command word (R110): RSV, FLAGS, CH and OPC from the high end down. -/
def encode (i : Instr) : Word :=
  (0 : BitVec 48) ++ i.flagBits ++ i.chSel.bits ++ i.opcode

/-- The command that the decoder reads from an instruction whose bits are `w`: one 64-bit word, the only length (R110);
bits at and above `nbits` are 0. -/
def decodeTableWord (nbits w : Nat) : Option Instr :=
  (decode (BitVec.ofNat 64 (w % 2 ^ nbits))).toOption

end Sys2Proof
end

