-- ==== Sys2Proof/Config.lean ====
section
/-! DEFINITION. What one instance of the block fixes and the spec leaves OPEN (R7), and the free values of the spec:
opaque constants, of which nothing can be evaluated or proved but their types. -/

namespace Sys2Proof

/-- LOG2_NMAX of the instance, less one: any of 1..12 (R7, D11; assumption 4). -/
opaque Config.log2NMaxPred : Fin 12

/-- RES_MAX of the instance, less 2048: any of 2048..2^24 (R7, D13; assumption 4). -/
opaque Config.resMaxExtra : Fin 16775169

/-- SPREAD_DMU of the instance: any binary64 (R7, D21; assumption 4). -/
opaque Config.spreadDMu : Word

/-- SPREAD_DSIGMA of the instance: any binary64 (R7, D21; assumption 4). -/
opaque Config.spreadDSigma : Word

/-- The RNG stream (R7, R283): draw number `k` is a binary64 in [0, 1): a pattern below that of 1.0, or -0.0, for which the
last value stands (assumption 2). -/
opaque Config.rng : Nat → Fin 0x3FF0000000000001

/-- NAN_DRAW (R7, R14): the sign and the 51 payload bits of quiet NaN number `k` (assumption 1). -/
opaque Config.nanDraw : Nat → Bool × BitVec 51

/-- What a byte of local memory that nothing has written holds (R242, R361): by the count of the events that left its
array unspecified, and its address (assumption 3). -/
opaque Config.unspecified : Nat → Nat → Byte

/-- The value of `exp64` at a word where no rung of the precision ladder decides the rounding; no such word is known
(assumption 5). -/
opaque Config.expUndecided : Word → Word

/-- The rounded cosine of `2*pi*k/2^n` where no rung of the precision ladder decides the rounding; there is none for the
block's tables (assumption 6). -/
opaque Config.cosUndecided : Nat → Nat → Word

end Sys2Proof
end

