-- ==== Sys2Proof/Machine/State.lean ====
section
/-! DEFINITION. The block's whole state as plain data (10_state.md, 20_memory.md R85), and its value after reset (R360). -/

namespace Sys2Proof.Machine

/-- One value for each channel. -/
structure Per3 (α : Type) where
  c0 : α
  c1 : α
  c2 : α
  deriving DecidableEq, Repr

/-- A parameter record in the source's field order (R50): R, mu, sigma, dt, kernelMu, kernelSigma; each a binary64. -/
structure Params where
  r : Word
  mu : Word
  sigma : Word
  dt : Word
  kmu : Word
  ksigma : Word
  deriving DecidableEq, Repr

/-- The fields of a parameter record, in the order k = 0..5 of R50. -/
inductive ParamIx where
  | r | mu | sigma | dt | kmu | ksigma
  deriving DecidableEq, Repr

/-- The completion codes 0x00..0x0B of R320. -/
inductive Err where
  | ok
  | illegalOpcode
  | illegalCmd
  | notReady
  | badChannel
  | gridNotPow2
  | gridRange
  | badChannelsCfg
  | badResolution
  | kernelZeroMass
  | sizeMismatch
  | badArg
  deriving DecidableEq, Repr

/-- The instance parameters that registers show (R7, R33, R53): LOG2_NMAX = `log2NMaxPred + 1` in 1..12, RES_MAX =
`resMaxExtra + 2048` in 2048..2^24, and the two spread constants the source does not give. No event changes them. -/
structure Instance where
  log2NMaxPred : Fin 12
  resMaxExtra : Fin 16775169
  spreadDMu : Word
  spreadDSigma : Word
  deriving DecidableEq, Repr

/-- The single-channel and the multi-channel engine (R3, R45). -/
inductive ChanCount where
  | one
  | three
  deriving DecidableEq, Repr

/-- The geometry latched by INIT (R47): LOG2N = `log2NPred + 1` in 1..12, the channel count, RES = `resExtra + 2` in
2..2^24. -/
structure Geometry where
  log2NPred : Fin 12
  channels : ChanCount
  resExtra : Fin 16777215
  deriving DecidableEq, Repr

/-- The registers the host writes for the commands to read, and no command writes (R38, R43 to R46, R49, R50, R56, R366). -/
structure StagedRegs where
  arg0 : Word
  arg1 : Word
  arg2 : Word
  arg3 : Word
  gridSize : Word
  channelsCfg : Word
  resCfg : Word
  importSize : Word
  patW : Word
  patH : Word
  stg : Params
  impP : Per3 Params
  impCom : Params
  deriving DecidableEq, Repr

/-- The executing command (R59): its word and the operand registers, latched at the accept event (R89, R366), and the values
IRQ_EN and ERR_CMD had at that event, which host reads return until the command completes (R90). -/
structure Running where
  word : Word
  regs : StagedRegs
  irqEn : Word
  errCmd : Word
  deriving DecidableEq, Repr

/-- IRQ_EN (R41) and IRQ_STATUS (R42). -/
structure IrqRegs where
  doneEn : Bool
  errEn : Bool
  donePend : Bool
  errPend : Bool
  deriving DecidableEq, Repr

/-- The statistics registers (R54) and STATS_FLAGS.CENTROID_VALID (R55). -/
structure StatsRegs where
  step : Word
  mass : Word
  centerX : Word
  centerY : Word
  velocity : Word
  centroidValid : Bool
  deriving DecidableEq, Repr

/-- The positions in the streams of R10's `draw_nan()` and `draw_rng()`. `rng` is the spec's hidden RNG position (R59);
`nan` is the model's own count of NaN draws (assumption 1). -/
structure Draws where
  nan : Nat
  rng : Nat
  deriving DecidableEq, Repr

/-- How often the scratch arrays (R242), the IMPORT_STAGE arrays (R242) and the whole local memory (R361) have become
unspecified: the model's own counts, which select fresh free values (assumption 3). -/
structure Epochs where
  scratch : Nat
  stage : Nat
  power : Nat
  deriving DecidableEq, Repr

/-- A single-beat host access (R80) of `size` bytes; only 8 is legal (R82). -/
inductive BusAccess where
  | read (addr : BitVec 36) (size : Nat)
  | write (addr : BitVec 36) (size : Nat) (data : Word)
  deriving DecidableEq, Repr

/-- The response to a host access (R80, R88): the read data (0 for a write) and SLVERR instead of OKAY. -/
structure BusResp where
  data : Word
  slverr : Bool
  deriving DecidableEq, Repr

/-- An event of the total order R91: a host access, the complete event of the executing command (R89), or an assertion of
the reset input (R360). -/
inductive HostEvent where
  | access (a : BusAccess)
  | complete
  | resetInput
  deriving DecidableEq, Repr

/-- The state of the block and, in `schedule`, of the events that are still to come. -/
structure State where
  /-- The instance constants (HWCFG, SPREAD_DMU, SPREAD_DSIGMA; R33, R53). -/
  inst : Instance
  /-- The engine state (R58): none is Uninitialized, some is Ready with the latched N, CHANNELS, RES and LOG2N (R47). -/
  engine : Option Geometry
  /-- The executing command (R59); STATUS.BUSY is 1 exactly while there is one (R35). -/
  running : Option Running
  /-- CMD (R37): the last accepted command word. -/
  cmd : Word
  /-- The operand, configuration and staging registers. -/
  staged : StagedRegs
  /-- RESULT (R39). -/
  result : Word
  /-- STATUS.LAST_ERR (R35). -/
  lastErr : Err
  /-- STATUS.FIRST_ERR (R35); STATUS.ERR is 1 exactly while it is not OK. -/
  firstErr : Err
  /-- ERR_CMD (R40). -/
  errCmd : Word
  /-- STATUS.BUS_ERR (R35). -/
  busErr : Bool
  /-- STATUS.OVERRUN (R35). -/
  overrun : Bool
  /-- IRQ_EN and IRQ_STATUS. -/
  irq : IrqRegs
  /-- BANK: the active bank b[c] of each channel (R48, R59). -/
  bank : Per3 Bool
  /-- COM, the common parameter record (R52). -/
  com : Params
  /-- P, the parameter register file (R51). -/
  p : Per3 Params
  /-- The statistics registers. -/
  stats : StatsRegs
  /-- Local memory (R85): listed bytes by address, addresses strictly rising; an unlisted byte is one nothing has written
  since it became unspecified (assumption 3). -/
  mem : List Host.Cell
  /-- The stream positions. -/
  draws : Draws
  /-- The counts that select the free values of unspecified memory. -/
  epochs : Epochs
  /-- The events still to come, in their total order (assumption 7). -/
  schedule : List HostEvent
  /-- The response to the latest host access (assumption 15). -/
  resp : Option BusResp
  deriving DecidableEq, Repr

/-- Why a step could stop with a fault: there is no such reason. Every accepted command completes and every host access
gets a response (93_implementation_defined.md part 2). -/
inductive Fault where
  deriving DecidableEq, Repr

/-- Why a step can be refused. -/
inductive Refusal where
  /-- Raised by `exec` for a command that has no meaning in the model yet; safe: the run stops there. -/
  | notModelled (mnemonic : String)
  deriving DecidableEq, Repr

/-- A parameter record of `+0.0` (R360). -/
def Params.zero : Params := ⟨posZero, posZero, posZero, posZero, posZero, posZero⟩

/-- The same value for every channel. -/
def Per3.const {α : Type} (a : α) : Per3 α := ⟨a, a, a⟩

/-- The operand, configuration and staging registers after reset (R360): CHANNELS_CFG 1, RES_CFG 2048, all else 0. -/
def StagedRegs.reset : StagedRegs :=
  { arg0 := 0, arg1 := 0, arg2 := 0, arg3 := 0, gridSize := 0, channelsCfg := 1, resCfg := 2048, importSize := 0,
    patW := 0, patH := 0, stg := .zero, impP := .const .zero, impCom := .zero }

/-- The statistics registers after reset and after INIT (R360, R220). -/
def StatsRegs.zero : StatsRegs :=
  { step := 0, mass := posZero, centerX := posZero, centerY := posZero, velocity := posZero, centroidValid := false }

/-- The instance the reset state belongs to: the OPEN parameters of R7. -/
def Instance.config : Instance :=
  { log2NMaxPred := Config.log2NMaxPred, resMaxExtra := Config.resMaxExtra, spreadDMu := Config.spreadDMu,
    spreadDSigma := Config.spreadDSigma }

/-- The reset state R360 to R362 of an instance, with the stream positions, the free-value counts, the events still to
come and the last response as given: those are not the block's registers or memories. -/
def State.afterReset (inst : Instance) (draws : Draws) (epochs : Epochs) (schedule : List HostEvent)
    (resp : Option BusResp) : State :=
  { inst := inst, engine := none, running := none, cmd := 0, staged := .reset, result := 0, lastErr := .ok,
    firstErr := .ok, errCmd := 0, busErr := false, overrun := false, irq := ⟨false, false, false, false⟩,
    bank := .const false, com := .zero, p := .const .zero, stats := .zero, mem := [], draws := draws, epochs := epochs,
    schedule := schedule, resp := resp }

/-- The machine right after its first reset (R360 to R362): no event is scheduled, no draw has been taken (assumptions 1,
2, 3, 7 and 15 for the fields that are not the spec's). -/
def State.reset : State :=
  State.afterReset Instance.config ⟨0, 0⟩ ⟨0, 0, 0⟩ [] none

end Sys2Proof.Machine
end

