-- ==== Sys2Proof/Machine/Binary64.lean ====
section
/-! DEFINITION. IEEE-754 binary64 arithmetic on bit patterns (R12 to R14, R16): exact integers in units of 2^-1074, the
smallest subnormal, rounded once to nearest, ties to even. -/

namespace Sys2Proof.Machine

/-- A computation that may take `draw_nan()` and `draw_rng()` values (R10): it threads the two stream positions. -/
abbrev Num := StateM Draws

/-- What a binary64 pattern stands for (R81): `fin neg k` is the real `±k * 2^-1074`. -/
inductive Real64 where
  | nan
  | inf (neg : Bool)
  | fin (neg : Bool) (k : Nat)
  deriving DecidableEq, Repr

/-- The sign bit, bit 63 (R81). -/
def signBit (w : Word) : Bool := w.msb

/-- Bits 62:0: biased exponent and fraction (R81). -/
def magnitude (w : Word) : Nat := w.toNat % 2 ^ 63

/-- The magnitude pattern of infinity. -/
def infMagnitude : Nat := 0x7FF0000000000000

/-- The value of a finite magnitude pattern, in units of 2^-1074: the fraction alone for a subnormal, the fraction with
its hidden bit shifted by the biased exponent less one otherwise. -/
def unitsOfMagnitude (p : Nat) : Nat :=
  if p < 2 ^ 52 then p else (2 ^ 52 + p % 2 ^ 52) * 2 ^ (p / 2 ^ 52 - 1)

/-- The value of a binary64 pattern (R81). -/
def unpack (w : Word) : Real64 :=
  if magnitude w < infMagnitude then .fin (signBit w) (unitsOfMagnitude (magnitude w))
  else if magnitude w = infMagnitude then .inf (signBit w)
  else .nan

/-- The word with a given sign and magnitude pattern. -/
def ofMagnitude (neg : Bool) (p : Nat) : Word := BitVec.ofNat 64 ((if neg then 2 ^ 63 else 0) + p)

/-- The magnitude pattern nearest to the positive rational `num/den` units, ties to even (R12): the quotient is cut at
53 significant bits, or at one unit below 2^53 units, and rounded up when the rest is more than half, or is half and the
kept part is odd. A carry runs into the exponent; from the largest binade it gives infinity. -/
def roundUnits (num den : Nat) : Nat :=
  let q := (num / den).log2 - 52
  let d := den * 2 ^ q
  let m := num / d
  let rest := num % d
  let up := decide (d < 2 * rest) || (decide (2 * rest = d) && decide (m % 2 = 1))
  min (q * 2 ^ 52 + (if up then m + 1 else m)) infMagnitude

/-- Infinity with a sign. -/
def infinity (neg : Bool) : Word := ofMagnitude neg infMagnitude

/-- Zero with a sign. -/
def signedZero (neg : Bool) : Word := ofMagnitude neg 0

/-- The quiet NaN with a given sign and payload (R14). -/
def quietNan (d : Bool × BitVec 51) : Word := ofMagnitude d.1 (0x7FF8000000000000 + d.2.toNat)

/-- `draw_nan()` (R10, R14): the next quiet NaN of the stream. -/
def drawNan : Num Word :=
  modifyGet fun d => (quietNan (Config.nanDraw d.nan), { d with nan := d.nan + 1 })

/-- The binary64 in [0, 1) that a value of the RNG stream stands for: the non-negative ones by their pattern, and -0.0. -/
def rngWord (k : Fin 0x3FF0000000000001) : Word :=
  if k.val < 0x3FF0000000000000 then BitVec.ofNat 64 k.val else 0x8000000000000000

/-- `draw_rng()` (R10, R283): the next binary64 in [0, 1) of the stream. -/
def drawRng : Num Word :=
  modifyGet fun d => (rngWord (Config.rng d.rng), { d with rng := d.rng + 1 })

/-- Whether a pattern is a NaN. -/
def isNan (w : Word) : Bool := decide (infMagnitude < magnitude w)

/-- `-v`: flips the sign bit (R13). -/
def fneg (w : Word) : Word := w ^^^ 0x8000000000000000

/-- `abs(v)`: clears the sign bit (R13). -/
def fabs (w : Word) : Word := w &&& 0x7FFFFFFFFFFFFFFF

/-- The integer of a sign and a number of units. -/
def signedUnits (neg : Bool) (k : Nat) : Int := if neg then -(k : Int) else (k : Int)

/-- `a + b` (R12). An exact zero sum is -0.0 only when both operands are -0.0. -/
def fadd (a b : Word) : Num Word :=
  match unpack a, unpack b with
  | .nan, _ => drawNan
  | _, .nan => drawNan
  | .inf s, .inf t => if s = t then pure (infinity s) else drawNan
  | .inf s, .fin _ _ => pure (infinity s)
  | .fin _ _, .inf t => pure (infinity t)
  | .fin s j, .fin t k =>
    let x := signedUnits s j + signedUnits t k
    if x = 0 then pure (signedZero (s && t)) else pure (ofMagnitude (decide (x < 0)) (roundUnits x.natAbs 1))

/-- `a - b` (R12): the sum with the sign of `b` flipped. -/
def fsub (a b : Word) : Num Word := fadd a (fneg b)

/-- `a * b` (R12). -/
def fmul (a b : Word) : Num Word :=
  match unpack a, unpack b with
  | .nan, _ => drawNan
  | _, .nan => drawNan
  | .inf s, .inf t => pure (infinity (s ^^ t))
  | .inf s, .fin t k => if k = 0 then drawNan else pure (infinity (s ^^ t))
  | .fin s j, .inf t => if j = 0 then drawNan else pure (infinity (s ^^ t))
  | .fin s j, .fin t k => pure (ofMagnitude (s ^^ t) (roundUnits (j * k) (2 ^ 1074)))

/-- `a / b` (R12). -/
def fdiv (a b : Word) : Num Word :=
  match unpack a, unpack b with
  | .nan, _ => drawNan
  | _, .nan => drawNan
  | .inf _, .inf _ => drawNan
  | .inf s, .fin t _ => pure (infinity (s ^^ t))
  | .fin s _, .inf t => pure (signedZero (s ^^ t))
  | .fin s j, .fin t k =>
    if k = 0 then (if j = 0 then drawNan else pure (infinity (s ^^ t)))
    else pure (ofMagnitude (s ^^ t) (roundUnits (j * 2 ^ 1074) k))

/-- The bits of an integer square root, high to low: `r` holds the bits found, `b` bits are still to find. -/
def isqrtBits (v : Nat) : Nat → Nat → Nat
  | 0, r => r
  | b + 1, r => isqrtBits v b (if (r + 2 ^ b) * (r + 2 ^ b) ≤ v then r + 2 ^ b else r)

/-- The integer square root, rounded down. -/
def isqrt (v : Nat) : Nat := isqrtBits v (v.log2 / 2 + 1) 0

/-- The magnitude pattern nearest to the square root of `k` units, `k > 0` (R12). The root is the square root of the
integer `k * 2^1074`, of which the leading bits are taken and a last bit marks a rest that is not zero; the root lies far
above 2^53 units, so that the cut of `roundUnits` falls within the leading bits. -/
def sqrtMagnitude (k : Nat) : Nat :=
  let v := k * 2 ^ 1074
  let h := (v.log2 - 126) / 2
  let r := isqrt (v / 2 ^ (2 * h))
  let sticky := if r * r * 2 ^ (2 * h) = v then 0 else 1
  roundUnits ((2 * r + sticky) * 2 ^ h) 2

/-- `sqrt(v)` (R12): a negative operand gives a NaN, and -0.0 gives -0.0. -/
def fsqrt (a : Word) : Num Word :=
  match unpack a with
  | .nan => drawNan
  | .inf false => pure (infinity false)
  | .inf true => drawNan
  | .fin s k => if k = 0 then pure (signedZero s) else if s then drawNan else pure (ofMagnitude false (sqrtMagnitude k))

/-- The place of a pattern that is no NaN in the order of the reals: its signed magnitude pattern, both zeros at 0. -/
def orderKey (w : Word) : Int := signedUnits (signBit w) (magnitude w)

/-- `a < b` (R13): false with a NaN operand. -/
def flt (a b : Word) : Bool := !isNan a && !isNan b && decide (orderKey a < orderKey b)

/-- `a <= b` (R13): false with a NaN operand. -/
def fle (a b : Word) : Bool := !isNan a && !isNan b && decide (orderKey a ≤ orderKey b)

/-- `binary64(n)` (R13) for a non-negative integer. -/
def ofNat64 (n : Nat) : Word := ofMagnitude false (roundUnits (n * 2 ^ 1074) 1)

/-- `floor(v)` for a finite non-negative v (R16), the only values it is applied to (assumption 19 for the others). -/
def floorNat (w : Word) : Nat :=
  match unpack w with
  | .fin false k => k / 2 ^ 1074
  | _ => 0

/-- `clamp01(v)` (R17). -/
def clamp01 (v : Word) : Word :=
  if isNan v then posZero
  else if flt v posZero then posZero
  else if flt fOne v then fOne
  else v

end Sys2Proof.Machine
end

