-- ==== Sys2Proof/Machine/Elementary.lean ====
section
/-! DEFINITION. The correctly rounded `exp64` (R15), the correctly rounded cosines and sines of the twiddle tables (R140),
and the closed-form growth function `gg` (R20). Each real value is enclosed between two rationals with a given number of
fraction bits; where both round to one binary64 pattern, that is the nearest to the real value. -/

namespace Sys2Proof.Machine

/-- The numbers of fraction bits that are tried, in turn. -/
def precisionLadder : List Nat := [192, 384, 768, 1536]

/-- The first pattern on which both ends of an enclosure agree, going up the ladder. -/
def firstAgreed (enclose : Nat → Word × Word) : List Nat → Option Word
  | [] => none
  | p :: ps => if (enclose p).1 = (enclose p).2 then some (enclose p).1 else firstAgreed enclose ps

/-- `a/b` rounded up. -/
def ceilDiv (a b : Nat) : Nat := (a + b - 1) / b

/-- A lower bound of the series `1 + y/i (1 + y/(i+1) (...))` in Horner form, with `p` fraction bits, `y = x/2^p`: terms
`i` down to 1 are folded into the tail `h`, each quotient rounded down. -/
def expSeriesLo (p x : Nat) : Nat → Nat → Nat
  | 0, h => h
  | i + 1, h => expSeriesLo p x i (2 ^ p + x * h / ((i + 1) * 2 ^ p))

/-- The same with each quotient rounded up: an upper bound. -/
def expSeriesHi (p x : Nat) : Nat → Nat → Nat
  | 0, h => h
  | i + 1, h => expSeriesHi p x i (2 ^ p + ceilDiv (x * h) ((i + 1) * 2 ^ p))

/-- `h^(2^n)` with `p` fraction bits, rounded down at each squaring. -/
def squaresLo (p : Nat) : Nat → Nat → Nat
  | 0, h => h
  | n + 1, h => squaresLo p n (h * h / 2 ^ p)

/-- `h^(2^n)` with `p` fraction bits, rounded up at each squaring. -/
def squaresHi (p : Nat) : Nat → Nat → Nat
  | 0, h => h
  | n + 1, h => squaresHi p n (ceilDiv (h * h) (2 ^ p))

/-- An enclosure of `e^(k * 2^-1074)` with `p` fraction bits, for `k * 2^-1074` at most 746: the series at `y`, the
2048th part of the argument, which is below 1/2 (so that the tail after `p/4` terms lies between 1 and 2), and eleven
squarings. -/
def expEnclosure (p k : Nat) : Nat × Nat :=
  (squaresLo p 11 (expSeriesLo p (k * 2 ^ p / 2 ^ 1085) (p / 4) (2 ^ p)),
   squaresHi p 11 (expSeriesHi p (ceilDiv (k * 2 ^ p) (2 ^ 1085)) (p / 4) (2 * 2 ^ p)))

/-- The patterns of the two ends of the enclosure of `e^x`, `x = ±k * 2^-1074`; for a negative `x` of the reciprocals. -/
def expPatterns (neg : Bool) (k p : Nat) : Word × Word :=
  let e := expEnclosure p k
  if neg then
    (ofMagnitude false (roundUnits (2 ^ p * 2 ^ 1074) e.2), ofMagnitude false (roundUnits (2 ^ p * 2 ^ 1074) e.1))
  else
    (ofMagnitude false (roundUnits (e.1 * 2 ^ 1074) (2 ^ p)), ofMagnitude false (roundUnits (e.2 * 2 ^ 1074) (2 ^ p)))

/-- `exp64(x)` (R15): the binary64 nearest to `e^x`. Beyond 746 in magnitude the result is infinite, or rounds to +0.0. -/
def exp64 (x : Word) : Num Word :=
  match unpack x with
  | .nan => drawNan
  | .inf true => pure posZero
  | .inf false => pure (infinity false)
  | .fin neg k =>
    if k = 0 then pure fOne
    else if 746 * 2 ^ 1074 < k then pure (if neg then posZero else infinity false)
    else pure ((firstAgreed (expPatterns neg k) precisionLadder).getD (Config.expUndecided x))

/-- The enclosure of `cos t` from that of `cos 2t`, `0 <= t <= pi/2`: the square root of `(1 + cos 2t)/2`, rounded down
and up, with `p` fraction bits. -/
def halfAngle (p : Nat) (c : Int × Int) : Int × Int :=
  let lo := (2 ^ p + c.1).toNat * 2 ^ p / 2
  let hi := ceilDiv ((2 ^ p + c.2).toNat * 2 ^ p) 2
  ((isqrt lo : Int), if isqrt hi * isqrt hi = hi then (isqrt hi : Int) else (isqrt hi : Int) + 1)

/-- An enclosure of `cos(2*pi*k/2^n)`, `2k <= 2^n`, with `p` fraction bits: exact at 0 and pi/2, by the half-angle formula
below pi/2, and by `cos t = -cos(pi - t)` above. -/
def cosEnclosure (p : Nat) : Nat → Nat → Int × Int
  | 0, _ => (2 ^ p, 2 ^ p)
  | n + 1, k =>
    if k = 0 then (2 ^ p, 2 ^ p)
    else if 4 * k = 2 ^ (n + 1) then (0, 0)
    else if 4 * k < 2 ^ (n + 1) then halfAngle p (cosEnclosure p n k)
    else
      let c := halfAngle p (cosEnclosure p n (2 ^ n - k))
      (-c.2, -c.1)

/-- The pattern nearest to `x / 2^p`; zero is +0.0. -/
def roundFixed (p : Nat) (x : Int) : Word := ofMagnitude (decide (x < 0)) (roundUnits (x.natAbs * 2 ^ 1074) (2 ^ p))

/-- `RN(cos(2*pi*k/2^n))`, `2k <= 2^n` (R140). -/
def cosTurn (n k : Nat) : Word :=
  (firstAgreed (fun p => (roundFixed p (cosEnclosure p n k).1, roundFixed p (cosEnclosure p n k).2)) precisionLadder).getD
    (Config.cosUndecided n k)

/-- `RN(sin(2*pi*k/2^n))`, `2k < 2^n` (R140): the cosine of the angle's distance from pi/2, in quarters of `1/2^n` of a
turn. -/
def sinTurn (n k : Nat) : Word :=
  cosTurn (n + 2) (if 4 * k ≤ 2 ^ n then 2 ^ n - 4 * k else 4 * k - 2 ^ n)

/-- `gg(u, mu, sigma)` (R20), in its order of evaluation. -/
def gg (u mu sigma : Word) : Num Word := do
  let t ← fsub u mu
  let num ← fmul t t
  let ss ← fmul sigma sigma
  let den ← fmul fTwo ss
  let q ← fdiv num den
  let e ← exp64 (fneg q)
  let e2 ← fmul fTwo e
  fsub e2 fOne

end Sys2Proof.Machine
end

