-- ==== Sys2Proof/Machine/Operands.lean ====
section
/-! DEFINITION. Operand forms: channels and channel sets (R112, R113), ARG forms (R117), coordinates (R11, R18, R19), the
latched geometry (R47), parameter records (R50, R224, R225, R233). -/

namespace Sys2Proof

/-- The number of a channel. -/
def Chan.index : Chan → Nat
  | .c0 => 0
  | .c1 => 1
  | .c2 => 2

end Sys2Proof

namespace Sys2Proof.Machine

/-- The value of a channel. -/
def Per3.get {α : Type} (t : Per3 α) : Chan → α
  | .c0 => t.c0
  | .c1 => t.c1
  | .c2 => t.c2

/-- Give one channel a value. -/
def Per3.set {α : Type} (t : Per3 α) (c : Chan) (a : α) : Per3 α :=
  match c with
  | .c0 => { t with c0 := a }
  | .c1 => { t with c1 := a }
  | .c2 => { t with c2 := a }

/-- Field `k` of a parameter record (R50). -/
def Params.get (p : Params) : ParamIx → Word
  | .r => p.r
  | .mu => p.mu
  | .sigma => p.sigma
  | .dt => p.dt
  | .kmu => p.kmu
  | .ksigma => p.ksigma

/-- Give field `k` of a parameter record a value. -/
def Params.set (p : Params) (k : ParamIx) (w : Word) : Params :=
  match k with
  | .r => { p with r := w }
  | .mu => { p with mu := w }
  | .sigma => { p with sigma := w }
  | .dt => { p with dt := w }
  | .kmu => { p with kmu := w }
  | .ksigma => { p with ksigma := w }

/-- `merge(p, M)` (R224): the fields that M selects come from the staged record. -/
def Params.merge (p staged : Params) (m : ParamMask) : Params :=
  { r := if m.r then staged.r else p.r
    mu := if m.mu then staged.mu else p.mu
    sigma := if m.sigma then staged.sigma else p.sigma
    dt := if m.dt then staged.dt else p.dt
    kmu := if m.kmu then staged.kmu else p.kmu
    ksigma := if m.ksigma then staged.ksigma else p.ksigma }

/-- Whether the bits of R, KMU or KSIGMA differ (R225, R226). -/
def Params.kernelDiffers (p q : Params) : Bool :=
  p.r != q.r || p.kmu != q.kmu || p.ksigma != q.ksigma

/-- Whether the bits of MU or SIGMA differ (R225, R226). -/
def Params.tableDiffers (p q : Params) : Bool :=
  p.mu != q.mu || p.sigma != q.sigma

/-- SPREAD_DR = 2.0 (R53). -/
def spreadDR : Word := fTwo

/-- `spread(p, i)` (R233): channel 0 subtracts the spread constants, channel 1 copies, channel 2 adds them. -/
def Params.spread (inst : Instance) (p : Params) : Chan → Num Params
  | .c0 => do
    let r ← fsub p.r spreadDR
    let mu ← fsub p.mu inst.spreadDMu
    let sigma ← fsub p.sigma inst.spreadDSigma
    pure { p with r := r, mu := mu, sigma := sigma }
  | .c1 => pure p
  | .c2 => do
    let r ← fadd p.r spreadDR
    let mu ← fadd p.mu inst.spreadDMu
    let sigma ← fadd p.sigma inst.spreadDSigma
    pure { p with r := r, mu := mu, sigma := sigma }

/-- LOG2_NMAX (R7). -/
def Instance.log2NMax (i : Instance) : Nat := i.log2NMaxPred.val + 1

/-- N_MAX (R7). -/
def Instance.nMax (i : Instance) : Nat := 2 ^ i.log2NMax

/-- RES_MAX (R7). -/
def Instance.resMax (i : Instance) : Nat := i.resMaxExtra.val + 2048

/-- The number of channels C. -/
def ChanCount.count : ChanCount → Nat
  | .one => 1
  | .three => 3

/-- LOG2N (R47). -/
def Geometry.log2n (g : Geometry) : Nat := g.log2NPred.val + 1

/-- N (R47). -/
def Geometry.n (g : Geometry) : Nat := 2 ^ g.log2n

/-- N², the number of cells of a field (R8). -/
def Geometry.cells (g : Geometry) : Nat := g.n * g.n

/-- RES (R47). -/
def Geometry.res (g : Geometry) : Nat := g.resExtra.val + 2

/-- C (R47). -/
def Geometry.chanCount (g : Geometry) : Nat := g.channels.count

/-- Whether `c < C`. -/
def Geometry.active (g : Geometry) (c : Chan) : Bool := decide (c.index < g.chanCount)

/-- The active channels 0..C-1 in increasing order (R112). -/
def Geometry.chans (g : Geometry) : List Chan :=
  match g.channels with
  | .one => [.c0]
  | .three => [.c0, .c1, .c2]

/-- The channel of a command of the class `one` (R112, R119): CH = 0b11 and CH >= C are channel errors. -/
def chanOfOne (g : Geometry) : ChSel → Except Err Chan
  | .ch c => if g.active c then .ok c else .error .badChannel
  | .all => .error .badChannel

/-- The channel set of a command of the class `one-or-all` (R112, R119). -/
def chansOf (g : Geometry) : ChSel → Except Err (List Chan)
  | .ch c => if g.active c then .ok [c] else .error .badChannel
  | .all => .ok g.chans

/-- `off(c)` (R113, R114). -/
def paintOffset (g : Geometry) (sel : ChSel) (c : Chan) : Int :=
  if sel = .all ∧ g.channels = .three then (c.index : Int) - 1 else 0

/-- The operand registers a command reads: those latched at its accept event (R89, R366). In a state where no command is
executing they are the registers themselves, which an accept event would latch. -/
def State.operands (s : State) : StagedRegs :=
  match s.running with
  | some r => r.regs
  | none => s.staged

/-- An ARG read in the form `I` (R117): an i64 as an integer. -/
def argInt (w : Word) : Int := w.toInt

/-- An ARG read in the form `U` (R117). -/
def argNat (w : Word) : Nat := w.toNat

/-- `mod(a, n)` (R18): the representative in 0..n-1. -/
def wrapMod (a : Int) (n : Nat) : Nat := (a % (n : Int)).toNat

/-- `tdist(a, b)` on an axis of length n (R19). -/
def tdist (n : Nat) (a b : Int) : Nat := min (wrapMod (a - b) n) (n - wrapMod (a - b) n)

/-- `idx(x, y)` (R11). -/
def Geometry.idx (g : Geometry) (x y : Nat) : Nat := y * g.n + x

/-- The Euclidean length in cells of an integer offset: `sqrt(binary64(dx*dx + dy*dy))` (R170, R282, R296). -/
def cellDistance (dx dy : Nat) : Num Word := fsqrt (ofNat64 (dx * dx + dy * dy))

/-- Do `f` for every element in order and list the results. -/
def forEach {α β : Type} (f : α → Num β) : List α → Num (List β)
  | [] => pure []
  | a :: as => do
    let b ← f a
    let bs ← forEach f as
    pure (b :: bs)

end Sys2Proof.Machine
end

