-- ==== Sys2Proof/Machine/Flags.lean ====
section
/-! DEFINITION. The flag registers: STATUS (R35, R36), IRQ_EN (R41), IRQ_STATUS (R42), STATS_FLAGS (R55), the completion
record (R330) and the interrupt line (R335). -/

namespace Sys2Proof.Machine

/-- The error codes of R320. -/
def Err.code : Err → BitVec 8
  | .ok => 0x00
  | .illegalOpcode => 0x01
  | .illegalCmd => 0x02
  | .notReady => 0x03
  | .badChannel => 0x04
  | .gridNotPow2 => 0x05
  | .gridRange => 0x06
  | .badChannelsCfg => 0x07
  | .badResolution => 0x08
  | .kernelZeroMass => 0x09
  | .sizeMismatch => 0x0A
  | .badArg => 0x0B

/-- STATUS.BUSY (R35). -/
def State.busy (s : State) : Bool := s.running.isSome

/-- STATUS.READY (R35, R58). -/
def State.ready (s : State) : Bool := s.engine.isSome

/-- STATUS.ERR: 1 iff FIRST_ERR != 0 (R35). -/
def State.err (s : State) : Bool := s.firstErr != .ok

/-- The STATUS word (R35): FIRST_ERR, LAST_ERR, three zero bits, OVERRUN, BUS_ERR, ERR, READY, BUSY from the high end. -/
def State.statusWord (s : State) : Word :=
  (0 : BitVec 40) ++ s.firstErr.code ++ s.lastErr.code ++ (0 : BitVec 3) ++ BitVec.ofBool s.overrun
    ++ BitVec.ofBool s.busErr ++ BitVec.ofBool s.err ++ BitVec.ofBool s.ready ++ BitVec.ofBool s.busy

/-- A host write to STATUS (R36): W1C of bits 2, 3 and 4; every other written bit is ignored. -/
def State.writeStatus (s : State) (w : Word) : State :=
  { s with
    firstErr := if w.getLsbD 2 then .ok else s.firstErr
    errCmd := if w.getLsbD 2 then 0 else s.errCmd
    busErr := if w.getLsbD 3 then false else s.busErr
    overrun := if w.getLsbD 4 then false else s.overrun }

/-- The IRQ_EN word (R41). -/
def IrqRegs.enableWord (i : IrqRegs) : Word := (0 : BitVec 62) ++ BitVec.ofBool i.errEn ++ BitVec.ofBool i.doneEn

/-- The IRQ_STATUS word (R42). -/
def IrqRegs.statusWord (i : IrqRegs) : Word := (0 : BitVec 62) ++ BitVec.ofBool i.errPend ++ BitVec.ofBool i.donePend

/-- A host write to IRQ_EN (R41): bits 63:2 are ignored. -/
def State.writeIrqEn (s : State) (w : Word) : State :=
  { s with irq := { s.irq with doneEn := w.getLsbD 0, errEn := w.getLsbD 1 } }

/-- A host write to IRQ_STATUS (R42): writing 1 to a bit clears it. -/
def State.writeIrqStatus (s : State) (w : Word) : State :=
  { s with
    irq := { s.irq with
      donePend := s.irq.donePend && !w.getLsbD 0
      errPend := s.irq.errPend && !w.getLsbD 1 } }

/-- The interrupt output (R335). -/
def IrqRegs.line (i : IrqRegs) : Bool := (i.donePend && i.doneEn) || (i.errPend && i.errEn)

/-- The STATS_FLAGS word (R55). -/
def StatsRegs.flagsWord (t : StatsRegs) : Word := (0 : BitVec 63) ++ BitVec.ofBool t.centroidValid

/-- The completion record (R330, R331): what the complete event of a command with code `e` writes whatever the command. -/
def State.recordCompletion (s : State) (e : Err) : State :=
  { s with
    lastErr := e
    firstErr := if e ≠ .ok ∧ s.firstErr = .ok then e else s.firstErr
    errCmd := if e ≠ .ok ∧ s.firstErr = .ok then s.cmd else s.errCmd
    irq := { s.irq with donePend := true, errPend := s.irq.errPend || e != .ok }
    running := none }

end Sys2Proof.Machine
end

