-- ==== Sys2Proof/Machine/Memory.lean ====
section
/-! DEFINITION. Local memory as a canonical list of bytes, and the byte order of a word (R81). -/

namespace Sys2Proof.Machine

/-- The canonical form: addresses strictly rising. An unlisted address reads as no value, so no entry can equal what an
unlisted address reads as; equal memories are equal lists. -/
abbrev Memory.wf (m : List Host.Cell) : Prop := m.Pairwise (fun c d => c.1 < d.1)

/-- The byte listed at an address; none where nothing is listed. -/
def Memory.read : List Host.Cell → Nat → Option Byte
  | [], _ => none
  | c :: m, a => if c.1 = a then some c.2 else Memory.read m a

/-- The cells of consecutive bytes from an address up. -/
def Memory.cells (a : Nat) : List Byte → List Host.Cell
  | [] => []
  | b :: bs => (a, b) :: Memory.cells (a + 1) bs

/-- Store consecutive bytes from an address up; every other byte is kept. -/
def Memory.store (m : List Host.Cell) (a : Nat) (bs : List Byte) : List Host.Cell :=
  m.filter (fun c => c.1 < a) ++ (Memory.cells a bs ++ m.filter (fun c => a + bs.length ≤ c.1))

/-- Unlist the bytes from `lo` up to but not including `hi`: they become unspecified. -/
def Memory.forget (m : List Host.Cell) (lo hi : Nat) : List Host.Cell :=
  m.filter (fun c => c.1 < lo || hi ≤ c.1)

/-- Byte lane `j` of a word: bits [8j+7:8j] (R81). -/
def byteLane (w : Word) (j : Nat) : Byte := w.extractLsb' (8 * j) 8

/-- The eight bytes of a word, lane 0 at the lowest address (R81: little-endian). -/
def wordBytes (w : Word) : List Byte :=
  [byteLane w 0, byteLane w 1, byteLane w 2, byteLane w 3, byteLane w 4, byteLane w 5, byteLane w 6, byteLane w 7]

/-- The word whose lane `j` is `b j` (R81). -/
def wordOfLanes (b : Nat → Byte) : Word :=
  b 7 ++ b 6 ++ b 5 ++ b 4 ++ b 3 ++ b 2 ++ b 1 ++ b 0

end Sys2Proof.Machine
end

