-- ==== Sys2Proof/Machine/Ops.lean ====
section
/-! DEFINITION. The shared operations: local arrays over memory (R85, R86), values that become unspecified (R242, R361),
ending a command with its code (R329, R330: this block's whole exception entry, with no trap and no return from one, R332,
R333), and reset (R360). -/

namespace Sys2Proof.Machine

/-- The local arrays (R85, R59): those the windows show, and of each field the bank that its window does not show. -/
inductive Arr where
  | field (c : Chan) (bank : Bool)
  | kernel (c : Chan)
  | ktfRe (c : Chan)
  | ktfIm (c : Chan)
  | sre
  | sim
  | gtab (c : Chan)
  | twCos
  | twSin
  | bitrev
  | pattern
  | stage (c : Chan)
  deriving DecidableEq, Repr

/-- The region of an array (R85). Bank 1 of a field lies 256 regions up, beyond the host's 36 address bits (assumption
18). -/
def Arr.region : Arr → Nat
  | .field c bank => 0x01 + c.index + (if bank then 0x100 else 0)
  | .kernel c => 0x04 + c.index
  | .ktfRe c => 0x07 + c.index
  | .ktfIm c => 0x0A + c.index
  | .sre => 0x0D
  | .sim => 0x0E
  | .gtab c => 0x0F + c.index
  | .twCos => 0x12
  | .twSin => 0x13
  | .bitrev => 0x14
  | .pattern => 0x15
  | .stage c => 0x16 + c.index

/-- The address of byte 0 of an array: regions are 2^28 bytes apart (R83). -/
def Arr.base (a : Arr) : Nat := a.region * 2 ^ 28

/-- The address of element `i` of an array (R85). -/
def Arr.addr (a : Arr) (i : Nat) : Nat := a.base + 8 * i

/-- Which count selects the free value of an unlisted byte: that of the scratch arrays, of the IMPORT_STAGE arrays, or of
the whole memory, by the byte's region. -/
def Epochs.at (e : Epochs) (addr : Nat) : Nat :=
  let r := addr / 2 ^ 28
  if r = 0x0D ∨ r = 0x0E then e.scratch
  else if 0x16 ≤ r ∧ r ≤ 0x18 then e.stage
  else e.power

/-- The byte at an address of local memory: the listed byte, or the free value of an unspecified one (assumption 3). -/
def State.readByte (s : State) (addr : Nat) : Byte :=
  match Memory.read s.mem addr with
  | some b => b
  | none => Config.unspecified (s.epochs.at addr) addr

/-- Element `i` of an array. -/
def State.readElem (s : State) (a : Arr) (i : Nat) : Word :=
  wordOfLanes (fun j => s.readByte (a.addr i + j))

/-- The first `n` elements of an array. -/
def State.readArray (s : State) (a : Arr) (n : Nat) : List Word :=
  (List.range n).map (fun i => s.readElem a i)

/-- Give element `i` of an array a value. -/
def State.writeElem (s : State) (a : Arr) (i : Nat) (w : Word) : State :=
  { s with mem := Memory.store s.mem (a.addr i) (wordBytes w) }

/-- Give an array its elements from element 0 up. -/
def State.writeArray (s : State) (a : Arr) (ws : List Word) : State :=
  { s with mem := Memory.store s.mem a.base (ws.flatMap wordBytes) }

/-- SRE and SIM become unspecified (R242): nothing is listed in them, and their free values are fresh. -/
def State.forgetScratch (s : State) : State :=
  { s with
    mem := Memory.forget s.mem (Arr.base .sre) (Arr.base .sim + 2 ^ 28)
    epochs := { s.epochs with scratch := s.epochs.scratch + 1 } }

/-- Every array but PATTERN is dropped, and the scratch and IMPORT_STAGE arrays are unspecified (R95, R242): what INIT does
to local memory before it writes the arrays it sizes. -/
def State.forgetSized (s : State) : State :=
  { s with
    mem := s.mem.filter (fun c => decide (Arr.base .pattern ≤ c.1) && decide (c.1 < Arr.base .pattern + 2 ^ 28))
    epochs := { s.epochs with scratch := s.epochs.scratch + 1, stage := s.epochs.stage + 1 } }

/-- Run a computation at the state's stream positions and move them on. -/
def State.drawing {α : Type} (s : State) (m : Num α) : α × State :=
  ((m.run s.draws).1, { s with draws := (m.run s.draws).2 })

/-- The active bank of a channel's field: the array its window shows (R59). -/
def State.activeField (s : State) (c : Chan) : Arr := .field c (s.bank.get c)

/-- The inactive bank of a channel's field (R59). -/
def State.inactiveField (s : State) (c : Chan) : Arr := .field c (!s.bank.get c)

/-- The complete event of a command (R89, R329, R330): with its effect and the code OK, or with an error's code and no
other effect. -/
def finish (s : State) (effect : Except Err State) : Host.Outcome State Fault Refusal :=
  match effect with
  | .ok t => .next (t.recordCompletion .ok)
  | .error e => .next (s.recordCompletion e)

/-- The READY check (R119), which every command but NOP and INIT passes through. -/
def whenReady (s : State) (body : Geometry → Except Err State) : Except Err State :=
  match s.engine with
  | none => .error .notReady
  | some g => body g

/-- A command of the class `none` in the Ready state. -/
def runCommandNone (s : State) (body : Geometry → Except Err State) : Host.Outcome State Fault Refusal :=
  finish s (whenReady s body)

/-- A command of the class `one`: READY, then the channel check (R119), then the command. -/
def runCommandOne (s : State) (sel : ChSel) (body : Geometry → Chan → Except Err State) :
    Host.Outcome State Fault Refusal :=
  finish s (whenReady s fun g =>
    match chanOfOne g sel with
    | .error e => .error e
    | .ok c => body g c)

/-- A command of the class `one-or-all`: READY, then the channel check (R119), then the command. -/
def runCommandMany (s : State) (sel : ChSel) (body : Geometry → List Chan → Except Err State) :
    Host.Outcome State Fault Refusal :=
  finish s (whenReady s fun g =>
    match chansOf g sel with
    | .error e => .error e
    | .ok cs => body g cs)

/-- Both resets (R360 to R362, R364): every register and memory of the block is as after reset; the instance constants
are kept, the RNG stream is not restarted, and what was in local memory is unspecified anew (assumptions 3 and 17). -/
def State.resetBlock (s : State) : State :=
  State.afterReset s.inst s.draws
    { scratch := s.epochs.scratch + 1, stage := s.epochs.stage + 1, power := s.epochs.power + 1 } s.schedule s.resp

end Sys2Proof.Machine
end

