-- ==== Sys2Proof/Machine/Bus.lean ====
section
/-! DEFINITION. The host bus: register map (R32), windows (R85, R86), SLVERR (R88), accesses while BUSY (R90), the accept
event of a command (R37, R89), soft reset (R34), and the completion of a word that is no command (R120). -/

namespace Sys2Proof.Machine

/-- The registers of region 0 (R32). -/
inductive Reg where
  | id | hwcfg | ctrl | status | cmd | arg0 | arg1 | arg2 | arg3 | result | errCmd | irqEn | irqStatus
  | gridSize | channelsCfg | resCfg | importSize | n | channels | res | log2n | bank | patW | patH
  | stg (k : ParamIx) | com (k : ParamIx) | spreadDr | spreadDMu | spreadDSigma
  | p (c : Chan) (k : ParamIx)
  | step | mass | centerX | centerY | velocity | statsFlags
  | impP (c : Chan) (k : ParamIx) | impCom (k : ParamIx)
  deriving DecidableEq, Repr

/-- The index k of a parameter field (R50). -/
def ParamIx.index : ParamIx → Nat
  | .r => 0
  | .mu => 1
  | .sigma => 2
  | .dt => 3
  | .kmu => 4
  | .ksigma => 5

/-- The byte offset of a register in region 0 (R32, C8). -/
def Reg.offset : Reg → Nat
  | .id => 0x000
  | .hwcfg => 0x008
  | .ctrl => 0x010
  | .status => 0x018
  | .cmd => 0x020
  | .arg0 => 0x028
  | .arg1 => 0x030
  | .arg2 => 0x038
  | .arg3 => 0x040
  | .result => 0x048
  | .errCmd => 0x050
  | .irqEn => 0x058
  | .irqStatus => 0x060
  | .gridSize => 0x080
  | .channelsCfg => 0x088
  | .resCfg => 0x090
  | .importSize => 0x098
  | .n => 0x0A0
  | .channels => 0x0A8
  | .res => 0x0B0
  | .log2n => 0x0B8
  | .bank => 0x0C0
  | .patW => 0x0C8
  | .patH => 0x0D0
  | .stg k => 0x100 + 8 * k.index
  | .com k => 0x140 + 8 * k.index
  | .spreadDr => 0x170
  | .spreadDMu => 0x178
  | .spreadDSigma => 0x180
  | .p c k => 0x200 + 0x40 * c.index + 8 * k.index
  | .step => 0x300
  | .mass => 0x308
  | .centerX => 0x310
  | .centerY => 0x318
  | .velocity => 0x320
  | .statsFlags => 0x328
  | .impP c k => 0x400 + 0x40 * c.index + 8 * k.index
  | .impCom k => 0x4C0 + 8 * k.index

/-- The six fields of a parameter record in order. -/
def paramIxs : List ParamIx := [.r, .mu, .sigma, .dt, .kmu, .ksigma]

/-- All registers. -/
def allRegs : List Reg :=
  List.flatten
    [ [.id, .hwcfg, .ctrl, .status, .cmd, .arg0, .arg1, .arg2, .arg3, .result, .errCmd, .irqEn, .irqStatus],
      [.gridSize, .channelsCfg, .resCfg, .importSize, .n, .channels, .res, .log2n, .bank, .patW, .patH],
      paramIxs.map Reg.stg,
      paramIxs.map Reg.com,
      [.spreadDr, .spreadDMu, .spreadDSigma],
      paramIxs.map (Reg.p .c0),
      paramIxs.map (Reg.p .c1),
      paramIxs.map (Reg.p .c2),
      [.step, .mass, .centerX, .centerY, .velocity, .statsFlags],
      paramIxs.map (Reg.impP .c0),
      paramIxs.map (Reg.impP .c1),
      paramIxs.map (Reg.impP .c2),
      paramIxs.map Reg.impCom ]

/-- The register at an offset of region 0; none at a reserved offset (R57). -/
def Reg.ofOffset (off : Nat) : Option Reg := allRegs.find? (fun r => r.offset == off)

/-- ID (R30). -/
def idWord : Word := 0x4C454E4941000001

/-- HWCFG (R33): LOG2_NMAX, MAX_CHANNELS = 3, RES_MAX. -/
def Instance.hwcfgWord (i : Instance) : Word :=
  (0 : BitVec 16) ++ BitVec.ofNat 32 i.resMax ++ (3 : BitVec 8) ++ BitVec.ofNat 8 i.log2NMax

/-- A geometry register (R47): 0 in the Uninitialized state. -/
def State.geometryWord (s : State) (f : Geometry → Nat) : Word :=
  match s.engine with
  | none => 0
  | some g => BitVec.ofNat 64 (f g)

/-- Whether channel `c` is below C (R48: bits of BANK at and above C read 0). -/
def State.activeChan (s : State) (c : Chan) : Bool :=
  match s.engine with
  | none => false
  | some g => g.active c

/-- BANK (R48). -/
def State.bankWord (s : State) : Word :=
  (0 : BitVec 61) ++ BitVec.ofBool (s.bank.c2 && s.activeChan .c2) ++ BitVec.ofBool (s.bank.c1 && s.activeChan .c1)
    ++ BitVec.ofBool (s.bank.c0 && s.activeChan .c0)

/-- What a host read of ERR_CMD returns (R40): while a command is executing, its value at the accept event (R90). -/
def State.errCmdWord (s : State) : Word :=
  match s.running with
  | some r => r.errCmd
  | none => s.errCmd

/-- What a host read of IRQ_EN returns (R41): while a command is executing, its value at the accept event (R90). -/
def State.irqEnWord (s : State) : Word :=
  match s.running with
  | some r => r.irqEn
  | none => s.irq.enableWord

/-- What a host read of a register returns (R32). Of the registers that can change while a command is executing, STATUS and
IRQ_STATUS show the host's writes since the accept event and the others do not (R90). -/
def State.readReg (s : State) : Reg → Word
  | .id => idWord
  | .hwcfg => s.inst.hwcfgWord
  | .ctrl => 0
  | .status => s.statusWord
  | .cmd => s.cmd
  | .arg0 => s.staged.arg0
  | .arg1 => s.staged.arg1
  | .arg2 => s.staged.arg2
  | .arg3 => s.staged.arg3
  | .result => s.result
  | .errCmd => s.errCmdWord
  | .irqEn => s.irqEnWord
  | .irqStatus => s.irq.statusWord
  | .gridSize => s.staged.gridSize
  | .channelsCfg => s.staged.channelsCfg
  | .resCfg => s.staged.resCfg
  | .importSize => s.staged.importSize
  | .n => s.geometryWord Geometry.n
  | .channels => s.geometryWord Geometry.chanCount
  | .res => s.geometryWord Geometry.res
  | .log2n => s.geometryWord Geometry.log2n
  | .bank => s.bankWord
  | .patW => s.staged.patW
  | .patH => s.staged.patH
  | .stg k => s.staged.stg.get k
  | .com k => s.com.get k
  | .spreadDr => spreadDR
  | .spreadDMu => s.inst.spreadDMu
  | .spreadDSigma => s.inst.spreadDSigma
  | .p c k => (s.p.get c).get k
  | .step => s.stats.step
  | .mass => s.stats.mass
  | .centerX => s.stats.centerX
  | .centerY => s.stats.centerY
  | .velocity => s.stats.velocity
  | .statsFlags => s.stats.flagsWord
  | .impP c k => (s.staged.impP.get c).get k
  | .impCom k => s.staged.impCom.get k

/-- A write to a register that only stores (R32: RW but CTRL and IRQ_EN, and all 64 bits, R57); none for every other
register. -/
def StagedRegs.write (r : StagedRegs) (w : Word) : Reg → Option StagedRegs
  | .arg0 => some { r with arg0 := w }
  | .arg1 => some { r with arg1 := w }
  | .arg2 => some { r with arg2 := w }
  | .arg3 => some { r with arg3 := w }
  | .gridSize => some { r with gridSize := w }
  | .channelsCfg => some { r with channelsCfg := w }
  | .resCfg => some { r with resCfg := w }
  | .importSize => some { r with importSize := w }
  | .patW => some { r with patW := w }
  | .patH => some { r with patH := w }
  | .stg k => some { r with stg := r.stg.set k w }
  | .impP c k => some { r with impP := r.impP.set c ((r.impP.get c).set k w) }
  | .impCom k => some { r with impCom := r.impCom.set k w }
  | .id => none
  | .hwcfg => none
  | .ctrl => none
  | .status => none
  | .cmd => none
  | .result => none
  | .errCmd => none
  | .irqEn => none
  | .irqStatus => none
  | .n => none
  | .channels => none
  | .res => none
  | .log2n => none
  | .bank => none
  | .com _ => none
  | .spreadDr => none
  | .spreadDMu => none
  | .spreadDSigma => none
  | .p _ _ => none
  | .step => none
  | .mass => none
  | .centerX => none
  | .centerY => none
  | .velocity => none
  | .statsFlags => none

/-- The accept event (R37, R89, R90): the word, the operand registers, IRQ_EN and ERR_CMD are latched, and BUSY is 1. -/
def State.accept (s : State) (w : Word) : State :=
  { s with cmd := w, running := some { word := w, regs := s.staged, irqEn := s.irq.enableWord, errCmd := s.errCmd } }

/-- An access answered OKAY with data. -/
def State.okay (s : State) (data : Word) : State := { s with resp := some { data := data, slverr := false } }

/-- An access answered SLVERR (R88): data 0, BUS_ERR set, nothing else. -/
def State.slverr (s : State) : State := { s with busErr := true, resp := some { data := 0, slverr := true } }

/-- A host write to a register (R32, R34, R36, R37, R41, R42, R57, R90). -/
def State.writeReg (s : State) (r : Reg) (w : Word) : State :=
  match r with
  | .status => (s.writeStatus w).okay 0
  | .irqEn => (s.writeIrqEn w).okay 0
  | .irqStatus => (s.writeIrqStatus w).okay 0
  | .cmd => if s.busy then { s with overrun := true }.slverr else (s.accept w).okay 0
  | .ctrl => if s.busy then s.slverr else if w.getLsbD 0 then s.resetBlock.okay 0 else s.okay 0
  | r =>
    if s.busy then s.slverr
    else
      match s.staged.write w r with
      | some staged => { s with staged := staged }.okay 0
      | none => s.slverr

/-- A window's array, and whether the host may write it (R85). -/
structure Window where
  arr : Arr
  writable : Bool
  deriving DecidableEq, Repr

/-- The window of a region (R85); none for region 0 and the reserved regions (R83). -/
def State.windowOf (s : State) (r : Nat) : Option Window :=
  match r with
  | 0x01 => some ⟨s.activeField .c0, true⟩
  | 0x02 => some ⟨s.activeField .c1, true⟩
  | 0x03 => some ⟨s.activeField .c2, true⟩
  | 0x04 => some ⟨.kernel .c0, false⟩
  | 0x05 => some ⟨.kernel .c1, false⟩
  | 0x06 => some ⟨.kernel .c2, false⟩
  | 0x07 => some ⟨.ktfRe .c0, false⟩
  | 0x08 => some ⟨.ktfRe .c1, false⟩
  | 0x09 => some ⟨.ktfRe .c2, false⟩
  | 0x0A => some ⟨.ktfIm .c0, false⟩
  | 0x0B => some ⟨.ktfIm .c1, false⟩
  | 0x0C => some ⟨.ktfIm .c2, false⟩
  | 0x0D => some ⟨.sre, true⟩
  | 0x0E => some ⟨.sim, true⟩
  | 0x0F => some ⟨.gtab .c0, false⟩
  | 0x10 => some ⟨.gtab .c1, false⟩
  | 0x11 => some ⟨.gtab .c2, false⟩
  | 0x12 => some ⟨.twCos, false⟩
  | 0x13 => some ⟨.twSin, false⟩
  | 0x14 => some ⟨.bitrev, false⟩
  | 0x15 => some ⟨.pattern, true⟩
  | 0x16 => some ⟨.stage .c0, true⟩
  | 0x17 => some ⟨.stage .c1, true⟩
  | 0x18 => some ⟨.stage .c2, true⟩
  | _ => none

/-- A size that is 0 unless the engine is Ready with channel `c` active (R85). -/
def State.sizeForChan (s : State) (c : Chan) (f : Geometry → Nat) : Nat :=
  match s.engine with
  | none => 0
  | some g => if g.active c then f g else 0

/-- A size that is 0 unless the engine is Ready (R85). -/
def State.sizeOf (s : State) (f : Geometry → Nat) : Nat :=
  match s.engine with
  | none => 0
  | some g => f g

/-- `size(r)`, in elements, of an array's window (R85). -/
def State.arrSize (s : State) : Arr → Nat
  | .field c _ => s.sizeForChan c Geometry.cells
  | .kernel c => s.sizeForChan c Geometry.cells
  | .ktfRe c => s.sizeForChan c Geometry.cells
  | .ktfIm c => s.sizeForChan c Geometry.cells
  | .sre => s.sizeOf Geometry.cells
  | .sim => s.sizeOf Geometry.cells
  | .gtab c => s.sizeForChan c Geometry.res
  | .twCos => s.sizeOf (fun g => g.n / 2)
  | .twSin => s.sizeOf (fun g => g.n / 2)
  | .bitrev => s.sizeOf Geometry.n
  | .pattern => s.inst.nMax * s.inst.nMax
  | .stage c => s.sizeForChan c Geometry.cells

/-- `addr[35:28]` (R83). -/
def regionOf (addr : BitVec 36) : Nat := (addr.extractLsb' 28 8).toNat

/-- `addr[27:0]` (R83). -/
def offsetOf (addr : BitVec 36) : Nat := (addr.extractLsb' 0 28).toNat

/-- A single 8-byte access at an aligned address (R82). -/
def legalBeat (addr : BitVec 36) (size : Nat) : Bool := decide (size = 8) && decide (addr.extractLsb' 0 3 = 0)

/-- A host read of an aligned word (R57, R83, R86, R90). -/
def State.readWord (s : State) (addr : BitVec 36) : State :=
  if regionOf addr = 0 then
    match Reg.ofOffset (offsetOf addr) with
    | some r => s.okay (s.readReg r)
    | none => s.slverr
  else
    match s.windowOf (regionOf addr) with
    | none => s.slverr
    | some w =>
      if s.busy then s.slverr
      else if offsetOf addr / 8 < s.arrSize w.arr then s.okay (s.readElem w.arr (offsetOf addr / 8))
      else s.slverr

/-- A host write of an aligned word (R57, R83, R86, R90). -/
def State.writeWord (s : State) (addr : BitVec 36) (data : Word) : State :=
  if regionOf addr = 0 then
    match Reg.ofOffset (offsetOf addr) with
    | some r => s.writeReg r data
    | none => s.slverr
  else
    match s.windowOf (regionOf addr) with
    | none => s.slverr
    | some w =>
      if s.busy then s.slverr
      else if w.writable && decide (offsetOf addr / 8 < s.arrSize w.arr) then
        (s.writeElem w.arr (offsetOf addr / 8) data).okay 0
      else s.slverr

/-- A host access (R80 to R92). -/
def State.performAccess (s : State) : BusAccess → State
  | .read addr size => if legalBeat addr size then s.readWord addr else s.slverr
  | .write addr size data => if legalBeat addr size then s.writeWord addr data else s.slverr

/-- The error code of a word that is no command (R119, R120). -/
def DecodeError.err : DecodeError → Err
  | .illegalOpcode => .illegalOpcode
  | .illegalCmd => .illegalCmd

/-- The complete event of a word that is no command: the completion record alone (R120, R329). -/
def State.rejectWord (s : State) (e : DecodeError) : Host.Outcome State Fault Refusal :=
  finish s (.error (DecodeError.err e))

/-- The event order as plain data (R91): the next event, and the state with that event taken off the schedule. With an
empty schedule an executing command completes (R89, R376). -/
def State.nextEvent (s : State) : Option HostEvent × State :=
  match s.schedule with
  | e :: es => (some e, { s with schedule := es })
  | [] => (if s.busy then some .complete else none, s)

/-- The state in which the very next event is the complete event of the command word `w`, accepted with the operand
registers as they are (assumption 8). -/
def State.acceptForNextStep (s : State) (w : Word) : State :=
  { s.accept w with schedule := .complete :: s.schedule }

end Sys2Proof.Machine
end

