-- ==== Sys2Proof/Machine/Growth.lean ====
section
/-! DEFINITION. The growth table and the state update (42_growth.md): BUILD_GROWTH, GEVAL, LOOKUP, GROWTH. -/

namespace Sys2Proof.Machine

/-- The sample point `u_k` (R191). -/
def samplePoint (res k : Nat) : Num Word := fdiv (ofNat64 k) (ofNat64 (res - 1))

/-- `build_table(mu, sigma, RES)` (R192). -/
def buildTable (mu sigma : Word) (res : Nat) : Num (List Word) :=
  forEach (fun k => do
    let u ← samplePoint res k
    gg u mu sigma) (List.range res)

/-- The index `lookup` reads (R193): floor quantization of the clamped operand, clamped to the table. -/
def lookupIndex (res : Nat) (u : Word) : Num Nat := do
  let x ← fmul (clamp01 u) (ofNat64 (res - 1))
  pure (min (floorNat x) (res - 1))

/-- `lookup(GTAB[c], u)` (R193). -/
def State.lookupGrowth (s : State) (g : Geometry) (c : Chan) (u : Word) : Num Word := do
  let i ← lookupIndex g.res u
  pure (s.readElem (.gtab c) i)

/-- Build a channel's growth table from its parameters and store it (R192). -/
def State.rebuildTable (s : State) (g : Geometry) (c : Chan) : State :=
  (s.drawing (buildTable (s.p.get c).mu (s.p.get c).sigma g.res)).2.writeArray (.gtab c)
    (s.drawing (buildTable (s.p.get c).mu (s.p.get c).sigma g.res)).1

/-- The update of one cell (R200): `f` the field value, `u` the potential. -/
def State.nextCell (s : State) (g : Geometry) (c : Chan) (f u : Word) : Num Word := do
  let gr ← s.lookupGrowth g c u
  let d ← fmul (s.p.get c).dt gr
  let v ← fadd f d
  pure (clamp01 v)

/-- The next field of a channel, cell by cell in index order (R201). -/
def State.nextField (s : State) (g : Geometry) (c : Chan) : Num (List Word) :=
  forEach (fun i => s.nextCell g c (s.readElem (s.activeField c) i) (s.readElem .sre i)) (List.range g.cells)

/-- GROWTH's effect (R201): the next field goes into the inactive bank. -/
def State.growField (s : State) (g : Geometry) (c : Chan) : State :=
  (s.drawing (s.nextField g c)).2.writeArray (s.inactiveField c) (s.drawing (s.nextField g c)).1

/-- BUILD_GROWTH (R195). -/
def execBuildGrowth (ch : ChSel) (s : State) : Host.Outcome State Fault Refusal :=
  runCommandMany s ch fun g cs => .ok (cs.foldl (fun t c => t.rebuildTable g c) s)

/-- GROWTH (R201). -/
def execGrowth (ch : ChSel) (s : State) : Host.Outcome State Fault Refusal :=
  runCommandOne s ch fun g c => .ok (s.growField g c)

/-- Store a drawn word in RESULT (R39). -/
def State.resultOf (s : State) (m : Num Word) : State :=
  { (s.drawing m).2 with result := (s.drawing m).1 }

/-- GEVAL (R198). -/
def execGeval (ch : ChSel) (s : State) : Host.Outcome State Fault Refusal :=
  runCommandOne s ch fun _ c => .ok (s.resultOf (gg s.operands.arg0 (s.p.get c).mu (s.p.get c).sigma))

/-- LOOKUP (R199). -/
def execLookup (ch : ChSel) (s : State) : Host.Outcome State Fault Refusal :=
  runCommandOne s ch fun g c => .ok (s.resultOf (s.lookupGrowth g c s.operands.arg0))

end Sys2Proof.Machine
end

