-- ==== Sys2Proof/Machine/Spectral.lean ====
section
/-! DEFINITION. The spectral transform and the complex multiplier (40_spectral.md): LOADF, FFT_FWD, FFT_INV, CMUL. -/

namespace Sys2Proof.Machine

/-- `i` with its low `n` bits reversed (R141). -/
def reverseBits : Nat → Nat → Nat
  | 0, _ => 0
  | n + 1, i => i % 2 * 2 ^ n + reverseBits n (i / 2)

/-- The cosine twiddle table for N = 2^log2n (R140). -/
def cosTable (log2n : Nat) : List Word := (List.range (2 ^ log2n / 2)).map (fun k => cosTurn log2n k)

/-- The sine twiddle table for N = 2^log2n (R140). -/
def sinTable (log2n : Nat) : List Word := (List.range (2 ^ log2n / 2)).map (fun k => sinTurn log2n k)

/-- The bit-reversal table for N = 2^log2n (R141): u64 elements. -/
def bitrevTable (log2n : Nat) : List Word :=
  (List.range (2 ^ log2n)).map (fun i => BitVec.ofNat 64 (reverseBits log2n i))

/-- What the transform reads of the state: its geometry and tables. -/
structure FftTables where
  log2n : Nat
  cos : List Word
  sin : List Word
  rev : List Nat

/-- The tables as local memory holds them (R140, R141). -/
def State.fftTables (s : State) (g : Geometry) : FftTables :=
  { log2n := g.log2n
    cos := s.readArray .twCos (g.n / 2)
    sin := s.readArray .twSin (g.n / 2)
    rev := (s.readArray .bitrev g.n).map BitVec.toNat }

/-- A sequence of complex numbers: real and imaginary parts (the line buffer R147, or a whole array). -/
structure Cplx where
  re : List Word
  im : List Word
  deriving DecidableEq, Repr

/-- Exchange two elements of a list. -/
def swapAt (ws : List Word) (i j : Nat) : List Word :=
  (ws.set i (ws.getD j posZero)).set j (ws.getD i posZero)

/-- The bit-reversal permutation, `fft1`'s first stage (R142). -/
def permute (t : FftTables) (v : Cplx) : Cplx :=
  (List.range (2 ^ t.log2n)).foldl
    (fun v i =>
      let j := t.rev.getD i 0
      if i < j then { re := swapAt v.re i j, im := swapAt v.im i j } else v) v

/-- One butterfly (R143) on elements `lo = base+j` and `hi = base+j+half` with twiddle `k`. -/
def butterfly (t : FftTables) (inv : Bool) (k lo hi : Nat) (v : Cplx) : Num Cplx := do
  let wr := t.cos.getD k posZero
  let wi := if inv then t.sin.getD k posZero else fneg (t.sin.getD k posZero)
  let ar := v.re.getD hi posZero
  let ai := v.im.getD hi posZero
  let wrar ← fmul wr ar
  let wiai ← fmul wi ai
  let tr ← fsub wrar wiai
  let wrai ← fmul wr ai
  let wiar ← fmul wi ar
  let ti ← fadd wrai wiar
  let ur := v.re.getD lo posZero
  let ui := v.im.getD lo posZero
  let rl ← fadd ur tr
  let il ← fadd ui ti
  let rh ← fsub ur tr
  let ih ← fsub ui ti
  pure { re := (v.re.set lo rl).set hi rh, im := (v.im.set lo il).set hi ih }

/-- One stage of butterflies (R143), `len = 2*half`: for every base and every j in 0..half-1. -/
def fftStage (t : FftTables) (inv : Bool) (half : Nat) (v : Cplx) : Num Cplx :=
  ((List.range (2 ^ t.log2n / (2 * half))).flatMap (fun b => (List.range half).map (fun j => (b, j)))).foldlM
    (fun v bj =>
      butterfly t inv (bj.2 * (2 ^ t.log2n / (2 * half))) (bj.1 * (2 * half) + bj.2) (bj.1 * (2 * half) + bj.2 + half) v) v

/-- The LOG2N stages (R143), the first with `len = 2`. -/
def fftStages (t : FftTables) (inv : Bool) : Nat → Nat → Cplx → Num Cplx
  | 0, _, v => pure v
  | n + 1, half, v => do
    let w ← fftStage t inv half v
    fftStages t inv n (2 * half) w

/-- `fft1` (R142 to R144): the permutation, the stages, and for the inverse the division of every output by N. -/
def fft1 (t : FftTables) (inv : Bool) (v : Cplx) : Num Cplx := do
  let w ← fftStages t inv t.log2n 1 (permute t v)
  if inv then
    let re ← forEach (fun x => fdiv x (ofNat64 (2 ^ t.log2n))) w.re
    let im ← forEach (fun x => fdiv x (ofNat64 (2 ^ t.log2n))) w.im
    pure { re := re, im := im }
  else pure w

/-- Row `y` of an N by N array in row-major order (R145). -/
def rowOf (n : Nat) (a : Cplx) (y : Nat) : Cplx :=
  { re := (List.range n).map (fun x => a.re.getD (y * n + x) posZero)
    im := (List.range n).map (fun x => a.im.getD (y * n + x) posZero) }

/-- Column `x` of an N by N array in row-major order (R145). -/
def columnOf (n : Nat) (a : Cplx) (x : Nat) : Cplx :=
  { re := (List.range n).map (fun y => a.re.getD (y * n + x) posZero)
    im := (List.range n).map (fun y => a.im.getD (y * n + x) posZero) }

/-- The array whose rows are given. -/
def ofRows (rows : List Cplx) : Cplx := { re := rows.flatMap Cplx.re, im := rows.flatMap Cplx.im }

/-- The N by N array whose columns are given. -/
def ofColumns (n : Nat) (cols : List Cplx) : Cplx :=
  { re := (List.range (n * n)).map (fun i => (cols.getD (i % n) ⟨[], []⟩).re.getD (i / n) posZero)
    im := (List.range (n * n)).map (fun i => (cols.getD (i % n) ⟨[], []⟩).im.getD (i / n) posZero) }

/-- `fft2` (R145): every row in increasing order, then every column. -/
def fft2 (t : FftTables) (inv : Bool) (a : Cplx) : Num Cplx := do
  let n := 2 ^ t.log2n
  let rows ← forEach (fun y => fft1 t inv (rowOf n a y)) (List.range n)
  let cols ← forEach (fun x => fft1 t inv (columnOf n (ofRows rows) x)) (List.range n)
  pure (ofColumns n cols)

/-- LOADF's effect (R150). -/
def State.loadField (s : State) (g : Geometry) (c : Chan) : State :=
  (s.writeArray .sre (s.readArray (s.activeField c) g.cells)).writeArray .sim (List.replicate g.cells posZero)

/-- The scratch arrays as a complex array (R146). -/
def State.scratch (s : State) (g : Geometry) : Cplx :=
  { re := s.readArray .sre g.cells, im := s.readArray .sim g.cells }

/-- Store a complex array into the scratch arrays. -/
def State.writeScratch (s : State) (v : Cplx) : State :=
  (s.writeArray .sre v.re).writeArray .sim v.im

/-- The 2D transform of the scratch arrays in place (R151, R152). -/
def State.transformScratch (s : State) (g : Geometry) (inv : Bool) : State :=
  (s.drawing (fft2 (s.fftTables g) inv (s.scratch g))).2.writeScratch
    (s.drawing (fft2 (s.fftTables g) inv (s.scratch g))).1

/-- The product of two complex numbers, each product rounded (R153). -/
def complexMul (a b c d : Word) : Num (Word × Word) := do
  let ac ← fmul a c
  let bd ← fmul b d
  let re ← fsub ac bd
  let ad ← fmul a d
  let bc ← fmul b c
  let im ← fadd ad bc
  pure (re, im)

/-- CMUL on the elements `i` of a list (R153). -/
def multiplyElems (s : State) (c : Chan) (cells : Nat) : Num (List (Word × Word)) :=
  forEach (fun i => complexMul (s.readElem .sre i) (s.readElem .sim i) (s.readElem (.ktfRe c) i) (s.readElem (.ktfIm c) i))
    (List.range cells)

/-- CMUL's effect (R153). -/
def State.multiplyScratch (s : State) (g : Geometry) (c : Chan) : State :=
  (s.drawing (multiplyElems s c g.cells)).2.writeScratch
    { re := (s.drawing (multiplyElems s c g.cells)).1.map Prod.fst
      im := (s.drawing (multiplyElems s c g.cells)).1.map Prod.snd }

/-- LOADF (R150). -/
def execLoadf (ch : ChSel) (s : State) : Host.Outcome State Fault Refusal :=
  runCommandOne s ch fun g c => .ok (s.loadField g c)

/-- FFT_FWD (R151). -/
def execFftFwd (s : State) : Host.Outcome State Fault Refusal :=
  runCommandNone s fun g => .ok (s.transformScratch g false)

/-- FFT_INV (R152). -/
def execFftInv (s : State) : Host.Outcome State Fault Refusal :=
  runCommandNone s fun g => .ok (s.transformScratch g true)

/-- CMUL (R153). -/
def execCmul (ch : ChSel) (s : State) : Host.Outcome State Fault Refusal :=
  runCommandOne s ch fun g c => .ok (s.multiplyScratch g c)

end Sys2Proof.Machine
end

