-- ==== Sys2Proof/Machine/Kernel.lean ====
section
/-! DEFINITION. Kernel synthesis (41_kernel.md): BUILD_KERNEL, and the checks and rebuilds other commands share. -/

namespace Sys2Proof.Machine

/-- `val(x, y)` (R170, R171) for grid side `n` and the parameters R, KMU, KSIGMA of `p`. -/
def kernelVal (n : Nat) (p : Params) (x y : Nat) : Num Word := do
  let d ← cellDistance (tdist n x (n / 2 : Nat)) (tdist n y (n / 2 : Nat))
  let r ← fdiv d p.r
  if flt r fOne then
    let t ← fsub r p.kmu
    let num ← fmul t t
    let ss ← fmul p.ksigma p.ksigma
    let den ← fmul fTwo ss
    let q ← fdiv num den
    exp64 (fneg q)
  else pure posZero

/-- A sum in list order from +0.0 (R172). -/
def sumFromZero (ws : List Word) : Num Word := ws.foldlM fadd posZero

/-- `kernel_raw` (R172): the N² values in row-major order and their sum. -/
def kernelRaw (n : Nat) (p : Params) : Num (List Word × Word) := do
  let vals ← forEach (fun i => kernelVal n p (i % n) (i / n)) (List.range (n * n))
  let sum ← sumFromZero vals
  pure (vals, sum)

/-- `kernel_ok` (R172): the sum is above zero, which a NaN sum is not. -/
def kernelOk (n : Nat) (p : Params) : Num Bool := do
  let r ← kernelRaw n p
  pure (flt posZero r.2)

/-- Whether every record of a list gives a valid kernel (R227), in list order. -/
def kernelsOk (n : Nat) : List Params → Num Bool
  | [] => pure true
  | p :: ps => do
    let ok ← kernelOk n p
    if ok then kernelsOk n ps else pure false

/-- fftShift (R174): element (x, y) is taken from (x + N/2, y + N/2), wrapped. -/
def fftShift (n : Nat) (k : List Word) : List Word :=
  (List.range (n * n)).map (fun i => k.getD ((i / n + n / 2) % n * n + (i % n + n / 2) % n) posZero)

/-- The three arrays of a channel's kernel (R175). -/
structure KernelArrays where
  kernel : List Word
  ktf : Cplx

/-- `build_kernel` (R173 to R175). -/
def buildKernel (t : FftTables) (p : Params) : Num KernelArrays := do
  let n := 2 ^ t.log2n
  let raw ← kernelRaw n p
  let k ← forEach (fun v => fdiv v raw.2) raw.1
  let ktf ← fft2 t false { re := fftShift n k, im := List.replicate (n * n) posZero }
  pure { kernel := k, ktf := ktf }

/-- Store a channel's kernel arrays. -/
def State.writeKernel (s : State) (c : Chan) (k : KernelArrays) : State :=
  ((s.writeArray (.kernel c) k.kernel).writeArray (.ktfRe c) k.ktf.re).writeArray (.ktfIm c) k.ktf.im

/-- Build a channel's kernel from its parameters and the tables in memory, and store it. -/
def State.rebuildKernel (s : State) (g : Geometry) (c : Chan) : State :=
  (s.drawing (buildKernel (s.fftTables g) (s.p.get c))).2.writeKernel c
    (s.drawing (buildKernel (s.fftTables g) (s.p.get c))).1

/-- BUILD_KERNEL's effect (R177): every selected channel is checked before the first is rebuilt. -/
def State.buildKernels (s : State) (g : Geometry) (cs : List Chan) : Except Err State :=
  let checked := s.drawing (kernelsOk g.n (cs.map s.p.get))
  if checked.1 then .ok (cs.foldl (fun t c => t.rebuildKernel g c) checked.2).forgetScratch
  else .error .kernelZeroMass

/-- BUILD_KERNEL (R177). -/
def execBuildKernel (ch : ChSel) (s : State) : Host.Outcome State Fault Refusal :=
  runCommandMany s ch fun g cs => s.buildKernels g cs

end Sys2Proof.Machine
end

