-- ==== Sys2Proof/Machine/Statistics.lean ====
section
/-! DEFINITION. The statistics accumulator (44_statistics.md): STATS. -/

namespace Sys2Proof.Machine

/-- The value of cell `i` the statistics are computed on (R260, R265): the field of the single-channel engine, the
average of the three fields of the multi-channel engine. -/
def State.statsCell (s : State) (g : Geometry) (i : Nat) : Num Word :=
  match g.channels with
  | .one => pure (s.readElem (s.activeField .c0) i)
  | .three => do
    let a ← fadd (s.readElem (s.activeField .c0) i) (s.readElem (s.activeField .c1) i)
    let b ← fadd a (s.readElem (s.activeField .c2) i)
    fdiv b fThree

/-- The three sums of R260. -/
structure Sums where
  mass : Word
  sx : Word
  sy : Word
  deriving DecidableEq, Repr

/-- Add a cell at (x, y) with value `v` to the sums (R261). -/
def addCell (t : Sums) (x y : Nat) (v : Word) : Num Sums := do
  let mass ← fadd t.mass v
  let xv ← fmul (ofNat64 x) v
  let sx ← fadd t.sx xv
  let yv ← fmul (ofNat64 y) v
  let sy ← fadd t.sy yv
  pure { mass := mass, sx := sx, sy := sy }

/-- The sums over all cells, one pass in row-major order (R261). -/
def State.fieldSums (s : State) (g : Geometry) : Num Sums :=
  (List.range g.cells).foldlM
    (fun t i => do
      let v ← s.statsCell g i
      addCell t (i % g.n) (i / g.n) v) { mass := posZero, sx := posZero, sy := posZero }

/-- `wrapd(d)` (R263): the toroidal correction of a displacement. -/
def wrapDisplacement (n : Nat) (d : Word) : Num Word := do
  let half ← fdiv (ofNat64 n) fTwo
  if flt half (fabs d) then
    if flt posZero d then fsub d (ofNat64 n) else fadd d (ofNat64 n)
  else pure d

/-- The velocity from the centroid before to the centroid `(cx, cy)` (R262, R263). -/
def velocityTo (n : Nat) (old : StatsRegs) (cx cy : Word) : Num Word :=
  if old.centroidValid then do
    let ddx ← fsub cx old.centerX
    let dx ← wrapDisplacement n ddx
    let ddy ← fsub cy old.centerY
    let dy ← wrapDisplacement n ddy
    let xx ← fmul dx dx
    let yy ← fmul dy dy
    let ss ← fadd xx yy
    fsqrt ss
  else pure posZero

/-- The statistics record from the sums (R260, R264); STEP is counted with INC (R266). -/
def statsFromSums (n : Nat) (inc : Bool) (old : StatsRegs) (t : Sums) : Num StatsRegs :=
  let step := if inc then old.step + 1 else old.step
  if flt posZero t.mass then do
    let cx ← fdiv t.sx t.mass
    let cy ← fdiv t.sy t.mass
    let vel ← velocityTo n old cx cy
    pure { step := step, mass := t.mass, centerX := cx, centerY := cy, velocity := vel, centroidValid := true }
  else
    pure { old with step := step, mass := t.mass, velocity := posZero }

/-- The new statistics record (R260). -/
def State.nextStats (s : State) (g : Geometry) (inc : Bool) : Num StatsRegs := do
  let t ← s.fieldSums g
  statsFromSums g.n inc s.stats t

/-- STATS's effect (R260). -/
def State.recomputeStats (s : State) (g : Geometry) (inc : Bool) : State :=
  { (s.drawing (s.nextStats g inc)).2 with stats := (s.drawing (s.nextStats g inc)).1 }

/-- STATS (R260). -/
def execStats (inc : Bool) (s : State) : Host.Outcome State Fault Refusal :=
  runCommandNone s fun g => .ok (s.recomputeStats g inc)

end Sys2Proof.Machine
end

