-- ==== Sys2Proof/Machine/Engine.lean ====
section
/-! DEFINITION. Engine commands (43_engine.md): NOP, INIT, SETP, SETP_SPREAD, STEP, RUN, SWAP. -/

namespace Sys2Proof.Machine

/-- NOP (R223): legal in both engine states, no effect but the completion record. -/
def execNop (s : State) : Host.Outcome State Fault Refusal :=
  finish s (.ok s)

/-- Replace `P[c]` with the selective rebuild of R226. -/
def State.replaceParams (s : State) (g : Geometry) (c : Chan) (new : Params) : State :=
  let old := s.p.get c
  let s1 := { s with p := s.p.set c new }
  let s2 := if old.kernelDiffers new then s1.rebuildKernel g c else s1
  if old.tableDiffers new then s2.rebuildTable g c else s2

/-- The atomic parameter change of R227 for the channels `cs`, from the state `s` in which the new records were computed:
the kernels of the records whose kernel bits differ are checked in channel order; then COM is replaced and every channel
is, with its rebuilds; the scratch arrays are unspecified if a kernel was rebuilt (R242). -/
def State.commitParams (s : State) (g : Geometry) (cs : List Chan) (newCom : Params) (newP : Per3 Params) :
    Except Err State :=
  let changed := cs.filter (fun c => (s.p.get c).kernelDiffers (newP.get c))
  let checked := s.drawing (kernelsOk g.n (changed.map newP.get))
  if checked.1 then
    let t := cs.foldl (fun t c => t.replaceParams g c (newP.get c)) { checked.2 with com := newCom }
    .ok (if changed.isEmpty then t else t.forgetScratch)
  else .error .kernelZeroMass

/-- The three records that `spread` derives from a common record (R233), in channel order. -/
def spreadAll (inst : Instance) (p : Params) : Num (Per3 Params) := do
  let p0 ← p.spread inst .c0
  let p1 ← p.spread inst .c1
  let p2 ← p.spread inst .c2
  pure ⟨p0, p1, p2⟩

/-- SETP's effect (R228): no spread, COM untouched (R229). -/
def State.setParams (s : State) (g : Geometry) (cs : List Chan) (m : ParamMask) : Except Err State :=
  s.commitParams g cs s.com
    ⟨s.p.c0.merge s.operands.stg m, s.p.c1.merge s.operands.stg m, s.p.c2.merge s.operands.stg m⟩

/-- SETP (R228). -/
def execSetp (ch : ChSel) (m : ParamMask) (s : State) : Host.Outcome State Fault Refusal :=
  runCommandMany s ch fun g cs => s.setParams g cs m

/-- SETP_SPREAD's effect (R231): the multi-channel engine only; COM is merged, and every channel is derived from it. -/
def State.setCommonParams (s : State) (g : Geometry) (m : ParamMask) : Except Err State :=
  match g.channels with
  | .one => .error .badChannel
  | .three =>
    let newCom := s.com.merge s.operands.stg m
    let spreaded := s.drawing (spreadAll s.inst newCom)
    spreaded.2.commitParams g g.chans newCom spreaded.1

/-- SETP_SPREAD (R231). -/
def execSetpSpread (m : ParamMask) (s : State) : Host.Outcome State Fault Refusal :=
  runCommandNone s fun g => s.setCommonParams g m

/-- The structural checks of INIT in their order (R220, R321): the geometry to latch, or the first error. -/
def initGeometry (inst : Instance) (r : StagedRegs) : Except Err Geometry :=
  let n := r.gridSize
  if n = 0 ∨ n &&& (n - 1) ≠ 0 then .error .gridNotPow2
  else if n.toNat < 2 ∨ inst.nMax < n.toNat then .error .gridRange
  else if r.channelsCfg ≠ 1 ∧ r.channelsCfg ≠ 3 then .error .badChannelsCfg
  else if r.resCfg.toNat < 2 ∨ inst.resMax < r.resCfg.toNat then .error .badResolution
  else
    .ok { log2NPred := Fin.ofNat 12 (n.toNat.log2 - 1)
          channels := if r.channelsCfg = 1 then .one else .three
          resExtra := Fin.ofNat 16777215 (r.resCfg.toNat - 2) }

/-- The parameter records INIT gives the channels (R220, R221): the staged record, or its spread; channels at and above C
keep theirs. -/
def initParams (inst : Instance) (g : Geometry) (p : Per3 Params) (stg : Params) : Num (Per3 Params) :=
  match g.channels with
  | .one => pure { p with c0 := stg }
  | .three => spreadAll inst stg

/-- Write the twiddle and bit-reversal tables of the latched N (R140, R141). -/
def State.writeTables (s : State) (g : Geometry) : State :=
  ((s.writeArray .twCos (cosTable g.log2n)).writeArray .twSin (sinTable g.log2n)).writeArray .bitrev
    (bitrevTable g.log2n)

/-- What INIT builds for one channel (R220, R222): its kernel, its growth table, and both field banks at +0.0. -/
def State.initChannel (s : State) (g : Geometry) (c : Chan) : State :=
  (((s.rebuildKernel g c).rebuildTable g c).writeArray (.field c false) (List.replicate g.cells posZero)).writeArray
    (.field c true) (List.replicate g.cells posZero)

/-- The commit of INIT (R220) for a checked geometry and new parameter records. -/
def State.commitInit (s : State) (g : Geometry) (newP : Per3 Params) : State :=
  let s1 := { s.forgetSized with
    engine := some g, com := s.operands.stg, p := newP, bank := .const false, stats := .zero }
  g.chans.foldl (fun t c => t.initChannel g c) (s1.writeTables g)

/-- INIT's effect (R220): every check first, the kernels in channel order last, then the commit. -/
def State.initEngine (s : State) : Except Err State :=
  match initGeometry s.inst s.operands with
  | .error e => .error e
  | .ok g =>
    let newP := s.drawing (initParams s.inst g s.p s.operands.stg)
    let checked := newP.2.drawing (kernelsOk g.n (g.chans.map newP.1.get))
    if checked.1 then .ok (checked.2.commitInit g newP.1) else .error .kernelZeroMass

/-- INIT (R220): legal in both engine states. -/
def execInit (s : State) : Host.Outcome State Fault Refusal :=
  finish s s.initEngine

/-- SWAP's effect on one channel (R241). -/
def State.swapBank (s : State) (c : Chan) : State :=
  { s with bank := s.bank.set c (!s.bank.get c) }

/-- SWAP (R241). -/
def execSwap (ch : ChSel) (s : State) : Host.Outcome State Fault Refusal :=
  runCommandMany s ch fun _ cs => .ok (cs.foldl State.swapBank s)

/-- Phases 1 to 6 of a step for one channel (R236, R237). -/
def State.stepChannel (s : State) (g : Geometry) (c : Chan) : State :=
  (((((s.loadField g c).transformScratch g false).multiplyScratch g c).transformScratch g true).growField g c).swapBank c

/-- The body of STEP (R236): every channel in increasing order, then the statistics; the scratch arrays are left
unspecified. -/
def State.stepOnce (s : State) (g : Geometry) : State :=
  ((g.chans.foldl (fun t c => t.stepChannel g c) s).recomputeStats g true).forgetScratch

/-- STEP (R236). -/
def execStep (s : State) : Host.Outcome State Fault Refusal :=
  runCommandNone s fun g => .ok (s.stepOnce g)

/-- The body of STEP, a number of times (R240). -/
def State.runSteps (g : Geometry) : Nat → State → State
  | 0, s => s
  | n + 1, s => State.runSteps g n (s.stepOnce g)

/-- RUN (R240): ARG0 steps. -/
def execRun (s : State) : Host.Outcome State Fault Refusal :=
  runCommandNone s fun g => .ok (State.runSteps g (argNat s.operands.arg0) s)

end Sys2Proof.Machine
end

