-- ==== Sys2Proof/Machine/Interface.lean ====
section
/-! DEFINITION. The import of a configuration (46_interface.md): IMPORT. -/

namespace Sys2Proof.Machine

/-- Copy a channel's IMPORT_STAGE array into its active field bit for bit (R311). -/
def State.importField (s : State) (g : Geometry) (c : Chan) : State :=
  s.writeArray (s.activeField c) (s.readArray (.stage c) g.cells)

/-- The new parameter records of IMPORT (R310): IMP_P for the active channels; the others keep theirs. -/
def importParams (g : Geometry) (p imp : Per3 Params) : Per3 Params :=
  match g.channels with
  | .one => { p with c0 := imp.c0 }
  | .three => imp

/-- IMPORT's effect (R310, R311). -/
def State.importConfig (s : State) (g : Geometry) : Except Err State :=
  if argNat s.operands.importSize ≠ g.n then .error .sizeMismatch
  else
    match s.commitParams g g.chans s.operands.impCom (importParams g s.p s.operands.impP) with
    | .error e => .error e
    | .ok t => .ok (g.chans.foldl (fun u c => u.importField g c) t)

/-- IMPORT (R310). -/
def execImportCfg (s : State) : Host.Outcome State Fault Refusal :=
  runCommandNone s fun g => s.importConfig g

end Sys2Proof.Machine
end

