-- ==== Sys2Proof/Machine/Paint.lean ====
section
/-! DEFINITION. Paint and seed commands (45_paint.md): CLEAR, RANDOMIZE, PLACE, CIRCLE, SETV, GETV. Each writes only the
active bank of the selected channels. -/

namespace Sys2Proof.Machine

/-- STEP <- 0 and MASS <- +0.0 (R281). -/
def State.resetStepMass (s : State) : State :=
  { s with stats := { s.stats with step := 0, mass := posZero } }

/-- Zero the active field of a channel (R280). -/
def State.clearField (s : State) (g : Geometry) (c : Chan) : State :=
  s.writeArray (s.activeField c) (List.replicate g.cells posZero)

/-- CLEAR (R280). -/
def execClear (ch : ChSel) (s : State) : Host.Outcome State Fault Refusal :=
  runCommandMany s ch fun g cs => .ok (cs.foldl (fun t c => t.clearField g c) s).resetStepMass

/-- What RANDOMIZE leaves in cell `i` (R282 to R285), with draws taken by `draw`: a cell of the disc takes one draw for the
test, and a second for its value if the test passes. -/
def randomCell (draw : Num Word) (g : Geometry) (density lim : Word) (i : Nat) : Num Word := do
  let d ← cellDistance ((i % g.n : Nat) - (g.n / 2 : Nat) : Int).natAbs ((i / g.n : Nat) - (g.n / 2 : Nat) : Int).natAbs
  if fle d lim then
    let p ← draw
    if flt p density then draw else pure posZero
  else pure posZero

/-- The field RANDOMIZE leaves (R282), cell by cell in row-major order. -/
def randomField (draw : Num Word) (g : Geometry) (density lim : Word) : Num (List Word) :=
  forEach (randomCell draw g density lim) (List.range g.cells)

/-- RANDOMIZE's effect on one channel (R282). -/
def State.randomizeField (s : State) (g : Geometry) (density lim : Word) (c : Chan) : State :=
  (s.drawing (randomField drawRng g density lim)).2.writeArray (s.activeField c)
    (s.drawing (randomField drawRng g density lim)).1

/-- RANDOMIZE's effect (R282): `lim = ARG1 * binary64(N)`, then channel after channel. -/
def State.randomizeFields (s : State) (g : Geometry) (cs : List Chan) : State :=
  let lim := s.drawing (fmul s.operands.arg1 (ofNat64 g.n))
  (cs.foldl (fun t c => t.randomizeField g s.operands.arg0 lim.1 c) lim.2).resetStepMass

/-- RANDOMIZE (R282). -/
def execRandomize (ch : ChSel) (s : State) : Host.Outcome State Fault Refusal :=
  runCommandMany s ch fun g cs => .ok (s.randomizeFields g cs)

/-- A pattern PLACE resamples (R290): its width and height, and where element (i, j) is read. -/
structure Pattern where
  width : Nat
  height : Nat
  arr : Arr
  stride : Nat

/-- The pattern of PLACE (R290 to R292): the PATTERN region with PAT_W and PAT_H, or the active field of channel ARG3; with
the first checks of R321. -/
def State.placePattern (s : State) (g : Geometry) : PatternSource → Except Err Pattern
  | .pattern =>
    let w := argNat s.operands.patW
    let h := argNat s.operands.patH
    let limit := s.inst.nMax * s.inst.nMax
    if limit < w ∨ limit < h ∨ limit < w * h then .error .badArg
    else .ok { width := w, height := h, arr := .pattern, stride := w }
  | .field =>
    let sc := argNat s.operands.arg3
    if sc < g.chanCount then
      .ok { width := g.n, height := g.n, stride := g.n
            arr := s.activeField (if sc = 0 then .c0 else if sc = 1 then .c1 else .c2) }
    else .error .badChannel

/-- `span(L)` (R290, R293): the scaled size of an axis, or none where it exceeds N. -/
def scaledSpan (g : Geometry) (scale : Word) (l : Nat) : Num (Option Nat) := do
  let p ← fmul (ofNat64 l) scale
  if fle fOne p then
    if flt (ofNat64 g.n) p then pure none else pure (some (floorNat p))
  else pure (some 0)

/-- Both scaled sizes, width before height (R321). -/
def scaledSpans (g : Geometry) (scale : Word) (p : Pattern) : Num (Option (Nat × Nat)) := do
  let sw ← scaledSpan g scale p.width
  match sw with
  | none => pure none
  | some w =>
    let sh ← scaledSpan g scale p.height
    match sh with
    | none => pure none
    | some h => pure (some (w, h))

/-- The source index of a destination offset on an axis of source length `l` (R294). -/
def sourceIndex (scale : Word) (l i : Nat) : Num Nat := do
  let q ← fdiv (ofNat64 i) scale
  pure (min (floorNat q) (l - 1))

/-- Composite destination offset (i, j) of a pattern into a field whose cells are `f` (R290): the pattern is read from
`src`, the state before any write (R292). -/
def placeCell (src : State) (g : Geometry) (scale : Word) (p : Pattern) (span : Nat × Nat) (x y : Int) (f : List Word)
    (ij : Nat × Nat) : Num (List Word) := do
  let sx ← sourceIndex scale p.width ij.1
  let sy ← sourceIndex scale p.height ij.2
  let tx := wrapMod (x + ij.1 - (span.1 / 2 : Nat)) g.n
  let ty := wrapMod (y + ij.2 - (span.2 / 2 : Nat)) g.n
  let v ← fadd (f.getD (g.idx tx ty) posZero) (src.readElem p.arr (sy * p.stride + sx))
  pure (f.set (g.idx tx ty) (clamp01 v))

/-- The destination offsets (i, j) of a span, row-major (R290). -/
def spanOffsets (span : Nat × Nat) : List (Nat × Nat) :=
  (List.range span.2).flatMap (fun j => (List.range span.1).map (fun i => (i, j)))

/-- PLACE's effect on one channel, at (x, y) (R290, R295). -/
def State.placeInto (s src : State) (g : Geometry) (p : Pattern) (span : Nat × Nat) (x y : Int) (c : Chan) : State :=
  let m := (spanOffsets span).foldlM (placeCell src g src.operands.arg2 p span x y) (s.readArray (s.activeField c) g.cells)
  (s.drawing m).2.writeArray (s.activeField c) (s.drawing m).1

/-- PLACE's effect (R290). -/
def State.placeFields (s : State) (g : Geometry) (sel : ChSel) (cs : List Chan) (source : PatternSource) :
    Except Err State :=
  match s.placePattern g source with
  | .error e => .error e
  | .ok p =>
    let spans := s.drawing (scaledSpans g s.operands.arg2 p)
    match spans.1 with
    | none => .error .badArg
    | some span =>
      .ok (cs.foldl
        (fun t c =>
          let o := 2 * paintOffset g sel c
          t.placeInto s g p span (argInt s.operands.arg0 + o) (argInt s.operands.arg1 + o) c) spans.2)

/-- PLACE (R290). -/
def execPlace (ch : ChSel) (source : PatternSource) (s : State) : Host.Outcome State Fault Refusal :=
  runCommandMany s ch fun g cs => s.placeFields g ch cs source

/-- What CIRCLE leaves in cell `i`, which holds `old`, for a circle of value `v` at (cx, cy) (R296). -/
def circleCell (g : Geometry) (cx cy : Int) (radius v : Word) (i : Nat) (old : Word) : Num Word := do
  let d ← cellDistance (tdist g.n (i % g.n : Nat) cx) (tdist g.n (i / g.n : Nat) cy)
  if fle d radius then pure v else pure old

/-- The field CIRCLE leaves in a channel (R296). -/
def State.circledField (s : State) (g : Geometry) (cx cy : Int) (radius v : Word) (c : Chan) : Num (List Word) :=
  forEach (fun i => circleCell g cx cy radius v i (s.readElem (s.activeField c) i)) (List.range g.cells)

/-- CIRCLE's effect on one channel (R296). -/
def State.circleField (s : State) (g : Geometry) (cx cy : Int) (radius v : Word) (c : Chan) : State :=
  (s.drawing (s.circledField g cx cy radius v c)).2.writeArray (s.activeField c)
    (s.drawing (s.circledField g cx cy radius v c)).1

/-- CIRCLE (R296): the centre of channel c is shifted by `off(c)` on both axes. -/
def execCircle (ch : ChSel) (s : State) : Host.Outcome State Fault Refusal :=
  runCommandMany s ch fun g cs => .ok (cs.foldl
    (fun t c => t.circleField g (argInt s.operands.arg0 + paintOffset g ch c) (argInt s.operands.arg1 + paintOffset g ch c)
      s.operands.arg2 (clamp01 s.operands.arg3) c) s)

/-- The cell that SETV and GETV address (R297, R298). -/
def State.addressedCell (s : State) (g : Geometry) : Nat :=
  g.idx (wrapMod (argInt s.operands.arg0) g.n) (wrapMod (argInt s.operands.arg1) g.n)

/-- SETV (R297): the same cell of every selected channel. -/
def execSetv (ch : ChSel) (s : State) : Host.Outcome State Fault Refusal :=
  runCommandMany s ch fun g cs => .ok (cs.foldl
    (fun t c => t.writeElem (t.activeField c) (s.addressedCell g) (clamp01 s.operands.arg2)) s)

/-- GETV (R298). -/
def execGetv (ch : ChSel) (s : State) : Host.Outcome State Fault Refusal :=
  runCommandOne s ch fun g c => .ok { s with result := s.readElem (s.activeField c) (s.addressedCell g) }

end Sys2Proof.Machine
end

