-- ==== Sys2Proof/Machine/Dispatch.lean ====
section
/-! DEFINITION. The complete event of a decoded command: one arm per constructor. -/

namespace Sys2Proof.Machine

def exec (i : Instr) (s : State) : Host.Outcome State Fault Refusal :=
  match i with
  | .nop => Sys2Proof.Machine.execNop s
  | .init => Sys2Proof.Machine.execInit s
  | .importCfg => Sys2Proof.Machine.execImportCfg s
  | .setp ch mask => Sys2Proof.Machine.execSetp ch mask s
  | .setpSpread mask => Sys2Proof.Machine.execSetpSpread mask s
  | .buildKernel ch => Sys2Proof.Machine.execBuildKernel ch s
  | .buildGrowth ch => Sys2Proof.Machine.execBuildGrowth ch s
  | .step => Sys2Proof.Machine.execStep s
  | .run => Sys2Proof.Machine.execRun s
  | .loadf ch => Sys2Proof.Machine.execLoadf ch s
  | .fftFwd => Sys2Proof.Machine.execFftFwd s
  | .fftInv => Sys2Proof.Machine.execFftInv s
  | .cmul ch => Sys2Proof.Machine.execCmul ch s
  | .growth ch => Sys2Proof.Machine.execGrowth ch s
  | .swap ch => Sys2Proof.Machine.execSwap ch s
  | .stats inc => Sys2Proof.Machine.execStats inc s
  | .clear ch => Sys2Proof.Machine.execClear ch s
  | .randomize ch => Sys2Proof.Machine.execRandomize ch s
  | .place ch src => Sys2Proof.Machine.execPlace ch src s
  | .circle ch => Sys2Proof.Machine.execCircle ch s
  | .setv ch => Sys2Proof.Machine.execSetv ch s
  | .getv ch => Sys2Proof.Machine.execGetv ch s
  | .geval ch => Sys2Proof.Machine.execGeval ch s
  | .lookup ch => Sys2Proof.Machine.execLookup ch s

end Sys2Proof.Machine
end

