-- ==== Sys2Proof/Machine/Step.lean ====
section
/-! DEFINITION. One event of the machine (R91), and where the next command comes from. -/

namespace Sys2Proof.Machine

/-- The complete event of the latched word: the decoded command runs, and a word that is no command ends with its code. -/
def completeWord (s : State) (w : Word) : Host.Outcome State Fault Refusal :=
  match decode w with
  | .ok i => exec i s
  | .error e => s.rejectWord e

/-- The complete event (R89); with no command executing there is nothing to complete (assumption 16). -/
def completeEvent (s : State) : Host.Outcome State Fault Refusal :=
  match s.running with
  | some r => completeWord s r.word
  | none => .next s

/-- One event of the total order: a host access, a complete event, or the reset input. With no event left and no command
executing the block is idle and keeps every value (R342). -/
def step (s : State) : Host.Outcome State Fault Refusal :=
  match s.nextEvent with
  | (some (.access a), t) => .next (t.performAccess a)
  | (some .complete, t) => completeEvent t
  | (some .resetInput, t) => .next t.resetBlock
  | (none, t) => .next t

/-- `s` with the command word stored where the next step takes it: accepted, with its complete event the next event. -/
def State.withFetchWord (s : State) (nbits w : Nat) : State :=
  s.acceptForNextStep (BitVec.ofNat 64 (w % 2 ^ nbits))

end Sys2Proof.Machine
end

