-- ==== Sys2Proof/Safety.lean ====
section
/-! DEFINITION. What counts as a safe run, in the terms statements use: a run whose commands all complete with the code OK
and whose accesses are all answered OKAY. -/

namespace Sys2Proof.Machine

/-- No error is recorded (R331) and no access was answered SLVERR (R88) since the host last cleared the record. -/
def State.clean (s : State) : Bool := s.firstErr == .ok && !s.busErr && !s.overrun

/-- A step that answers a next state whose record is clean. -/
def cleanStep (s : State) : Bool :=
  match step s with
  | .next t => t.clean
  | .fault _ => false
  | .refused _ => false

end Sys2Proof.Machine
end

