-- ==== Sys2Proof/Certificates/Slice0/Obligations.lean ====
section
/-! DEFINITION. The statements for the provers, and the vocabulary they share. -/

namespace Sys2Proof.Claims

open Sys2Proof Sys2Proof.Machine

/-- The completion record R330 in `t`, of a command with code `e` that completed in `s`: LAST_ERR, FIRST_ERR and ERR_CMD,
ERR, DONE_PEND, ERR_PEND, and BUSY <- 0. -/
def CompletedWith (s t : State) (e : Err) : Prop :=
  t.lastErr = e ∧
  t.firstErr = (if e ≠ .ok ∧ s.firstErr = .ok then e else s.firstErr) ∧
  t.errCmd = (if e ≠ .ok ∧ s.firstErr = .ok then s.cmd else s.errCmd) ∧
  (t.err = true ↔ t.firstErr ≠ .ok) ∧
  t.irq.donePend = true ∧
  t.irq.errPend = (s.irq.errPend || e != .ok) ∧
  t.busy = false

/-- What no command writes: the instance constants, CMD, the staged registers, BUS_ERR, OVERRUN, IRQ_EN; and the model's
event list and last bus response. -/
def HostSideKept (s t : State) : Prop :=
  t.inst = s.inst ∧ t.cmd = s.cmd ∧ t.staged = s.staged ∧ t.busErr = s.busErr ∧ t.overrun = s.overrun ∧
  t.irq.doneEn = s.irq.doneEn ∧ t.irq.errEn = s.irq.errEn ∧ t.schedule = s.schedule ∧ t.resp = s.resp

/-- The engine's registers: READY with the latched geometry, RESULT, BANK, COM, P and the statistics. -/
def EngineRegsAs (u t : State) : Prop :=
  t.engine = u.engine ∧ t.result = u.result ∧ t.bank = u.bank ∧ t.com = u.com ∧ t.p = u.p ∧ t.stats = u.stats

/-- `t` is `s` after a command that completed with OK, with the engine's registers as in `u`. -/
def Ran (s u t : State) : Prop := CompletedWith s t .ok ∧ HostSideKept s t ∧ EngineRegsAs u t

/-- Byte `x` lies in the first `n` elements of array `a`. -/
def InArr (a : Arr) (n x : Nat) : Prop := a.base ≤ x ∧ x < a.base + 8 * n

/-- Byte `x` lies in element `i` of array `a`. -/
def InElem (a : Arr) (i x : Nat) : Prop := a.addr i ≤ x ∧ x < a.addr i + 8

/-- Every byte of memory outside `w` reads as before. -/
def BytesKeptOutside (s t : State) (w : Nat → Prop) : Prop := ∀ x, ¬ w x → t.readByte x = s.readByte x

/-- Byte `x` lies in one of the two regions of the scratch arrays. -/
def InScratch (x : Nat) : Prop := InArr .sre (2 ^ 25) x ∨ InArr .sim (2 ^ 25) x

/-- Byte `x` lies in a kernel array of channel `c`. -/
def InKernel (g : Geometry) (c : Chan) (x : Nat) : Prop :=
  InArr (.kernel c) g.cells x ∨ InArr (.ktfRe c) g.cells x ∨ InArr (.ktfIm c) g.cells x

/-- The kernel arrays of channel `c` in `t` are those `build_kernel` gives for the channel's parameters (R175), for some
values of the NaN draws. -/
def KernelBuilt (t : State) (g : Geometry) (c : Chan) : Prop :=
  ∃ d : Draws,
    t.readArray (.kernel c) g.cells = ((buildKernel (t.fftTables g) (t.p.get c)).run d).1.kernel ∧
    t.readArray (.ktfRe c) g.cells = ((buildKernel (t.fftTables g) (t.p.get c)).run d).1.ktf.re ∧
    t.readArray (.ktfIm c) g.cells = ((buildKernel (t.fftTables g) (t.p.get c)).run d).1.ktf.im

/-- The growth table of channel `c` in `t` is the one `build_table` gives (R192), for some values of the NaN draws. -/
def TableBuilt (t : State) (g : Geometry) (c : Chan) : Prop :=
  ∃ d : Draws, t.readArray (.gtab c) g.res = ((buildTable (t.p.get c).mu (t.p.get c).sigma g.res).run d).1

/-- The twiddle and bit-reversal tables in memory are those of the latched N (R140, R141). -/
def TablesBuilt (t : State) (g : Geometry) : Prop :=
  t.readArray .twCos (g.n / 2) = cosTable g.log2n ∧ t.readArray .twSin (g.n / 2) = sinTable g.log2n ∧
  t.readArray .bitrev g.n = bitrevTable g.log2n

/-- A value in [0, 1], -0.0 counted as 0 (R200). -/
def InUnit (w : Word) : Prop := fle posZero w = true ∧ fle w fOne = true

/-- The completion codes of R320. -/
def errCode : Err → BitVec 8
  | .ok => 0x00
  | .illegalOpcode => 0x01
  | .illegalCmd => 0x02
  | .notReady => 0x03
  | .badChannel => 0x04
  | .gridNotPow2 => 0x05
  | .gridRange => 0x06
  | .badChannelsCfg => 0x07
  | .badResolution => 0x08
  | .kernelZeroMass => 0x09
  | .sizeMismatch => 0x0A
  | .badArg => 0x0B

/-- The opcodes R120 lists as unassigned. -/
def UnassignedOpc (b : BitVec 8) : Prop :=
  (0x03 ≤ b ∧ b ≤ 0x07) ∨ (0x0C ≤ b ∧ b ≤ 0x0F) ∨ (0x12 ≤ b ∧ b ≤ 0x17) ∨ b = 0x1F ∨ b = 0x26 ∨ b = 0x27 ∨ 0x2A ≤ b

/-- The commands of a list, one after another, each from the state the one before leaves. -/
def execAll : List Instr → State → Host.Outcome State Fault Refusal
  | [], s => .next s
  | i :: is, s =>
    match exec i s with
    | .next t => execAll is t
    | .fault r => .fault r
    | .refused r => .refused r

/-- The primitive commands of one step (R239). -/
def stepPrimitives (g : Geometry) : List Instr :=
  g.chans.flatMap (fun c =>
    [.loadf (.ch c), .fftFwd, .cmul (.ch c), .fftInv, .growth (.ch c), .swap (.ch c)]) ++ [.stats true]

/-- The value R360 gives a register after reset, for an instance. -/
def resetWord (inst : Instance) : Reg → Word
  | .id => 0x4C454E4941000001
  | .hwcfg => inst.hwcfgWord
  | .channelsCfg => 1
  | .resCfg => 2048
  | .spreadDr => 0x4000000000000000
  | .spreadDMu => inst.spreadDMu
  | .spreadDSigma => inst.spreadDSigma
  | _ => 0

/-- The invariant of the machine: memory is canonical; the latched geometry is one the instance supports; bits of BANK at
and above C are 0; ERR_CMD is 0 while FIRST_ERR is; the latched command is the one the registers show, and the latched
IRQ_EN has no bit above 1; and before the first INIT the engine's registers and every window but PATTERN are as reset left
them. -/
def MachineInv (s : State) : Prop :=
  Memory.wf s.mem ∧
  (∀ g, s.engine = some g → g.log2n ≤ s.inst.log2NMax ∧ g.res ≤ s.inst.resMax) ∧
  (∀ c, s.activeChan c = false → s.bank.get c = false) ∧
  (s.firstErr = .ok → s.errCmd = 0) ∧
  (∀ r, s.running = some r → r.word = s.cmd ∧ r.regs = s.staged ∧ r.irqEn.extractLsb' 2 62 = 0) ∧
  (s.engine = none → s.p = .const .zero ∧ s.com = .zero ∧ s.stats = .zero ∧ s.result = 0 ∧
    ∀ x, ¬ InArr .pattern (2 ^ 25) x → Memory.read s.mem x = none)

/-- The cache invariant R61 at a state, NaN bits of a table apart (assumption 1). -/
def CachesValid (s : State) : Prop :=
  ∀ g, s.engine = some g → TablesBuilt s g ∧ ∀ c, g.active c = true → KernelBuilt s g c ∧ TableBuilt s g c

/-- The real value of a finite magnitude pattern. -/
noncomputable def realOf (p : Nat) : ℝ := (unitsOfMagnitude p : ℝ) / 2 ^ 1074

/-- The real value of a finite word. -/
noncomputable def realWord (w : Word) : ℝ := if signBit w then -realOf (magnitude w) else realOf (magnitude w)

/-- The extended real a word that is no NaN stands for. -/
noncomputable def extendedWord (w : Word) : EReal :=
  if magnitude w < infMagnitude then (realWord w : EReal) else if signBit w then ⊥ else ⊤

/-- `w` is the real `y` rounded once to binary64, to nearest with ties to even (R12): no NaN, with the sign of `y` (either
sign for 0), infinite exactly from half a unit in the last place beyond the largest finite value, and otherwise with no
finite magnitude nearer, and even where another is as near. -/
def Rounded (w : Word) (y : ℝ) : Prop :=
  magnitude w ≤ infMagnitude ∧
  (signBit w = true → y ≤ 0) ∧ (signBit w = false → 0 ≤ y) ∧
  (magnitude w = infMagnitude ↔ (2 ^ 54 - 1) * 2 ^ 970 ≤ abs y) ∧
  (magnitude w < infMagnitude → ∀ p, p < infMagnitude →
    abs (realOf (magnitude w) - abs y) ≤ abs (realOf p - abs y) ∧
    (abs (realOf (magnitude w) - abs y) = abs (realOf p - abs y) → p ≠ magnitude w → magnitude w % 2 = 0))

/-- A computation answers `w` wherever the streams stand. -/
def Answers (m : Num Word) (w : Word) : Prop := ∀ d : Draws, (m.run d).1 = w

/-- A computation answers a NaN wherever the streams stand. -/
def AnswersNan (m : Num Word) : Prop := ∀ d : Draws, isNan (m.run d).1 = true

/-- A computation answers the real `y`, rounded once, wherever the streams stand, and takes no draw. -/
def AnswersRounded (m : Num Word) (y : ℝ) : Prop := ∀ d : Draws, Rounded (m.run d).1 y ∧ (m.run d).2 = d

/-- A register access type of the map R32. -/
inductive Access where
  | ro
  | rw
  | w1c
  | cmd
  deriving DecidableEq, Repr

/-- The access column of the register map R32. -/
def accessOf : Reg → Access
  | .id => .ro
  | .hwcfg => .ro
  | .ctrl => .rw
  | .status => .w1c
  | .cmd => .cmd
  | .arg0 => .rw
  | .arg1 => .rw
  | .arg2 => .rw
  | .arg3 => .rw
  | .result => .ro
  | .errCmd => .ro
  | .irqEn => .rw
  | .irqStatus => .w1c
  | .gridSize => .rw
  | .channelsCfg => .rw
  | .resCfg => .rw
  | .importSize => .rw
  | .n => .ro
  | .channels => .ro
  | .res => .ro
  | .log2n => .ro
  | .bank => .ro
  | .patW => .rw
  | .patH => .rw
  | .stg _ => .rw
  | .com _ => .ro
  | .spreadDr => .ro
  | .spreadDMu => .ro
  | .spreadDSigma => .ro
  | .p _ _ => .ro
  | .step => .ro
  | .mass => .ro
  | .centerX => .ro
  | .centerY => .ro
  | .velocity => .ro
  | .statsFlags => .ro
  | .impP _ _ => .rw
  | .impCom _ => .rw

/-- The registers of which a host write stores all 64 bits and does nothing else (R57, R92): the RW ones but CTRL and
IRQ_EN. -/
def Storing (r : Reg) : Prop := accessOf r = .rw ∧ r ≠ .ctrl ∧ r ≠ .irqEn

/-- A host read of 8 bytes at `addr` is answered OKAY with `w` and changes nothing but the response. -/
def ReadsAs (s : State) (addr : BitVec 36) (w : Word) : Prop :=
  s.performAccess (.read addr 8) = { s with resp := some ⟨w, false⟩ }

/-- The address of field `k` of a parameter record whose first field is at `base` (R50). -/
def paramAddr (base : Nat) (k : ParamIx) : BitVec 36 := BitVec.ofNat 36 (base + 8 * k.index)

/-- A row of the window map R85: region number, array, RW instead of RO, and size in elements. -/
structure WindowRow where
  region : Nat
  arr : Arr
  writable : Bool
  size : Nat
  deriving DecidableEq, Repr

/-- The window map R85, by region number: each field's window shows the active bank (R59, R87); N, C and RES are 0 before
the first INIT, which leaves PATTERN alone with elements. -/
def windowMap (s : State) : List WindowRow :=
  let n := match s.engine with | none => 0 | some g => g.n
  let res := match s.engine with | none => 0 | some g => g.res
  let count := match s.engine with | none => 0 | some g => g.chanCount
  let perChan (c : Chan) (size : Nat) := if c.index < count then size else 0
  [Chan.c0, .c1, .c2].flatMap (fun c =>
    [ ⟨0x01 + c.index, .field c (s.bank.get c), true, perChan c (n * n)⟩,
      ⟨0x04 + c.index, .kernel c, false, perChan c (n * n)⟩,
      ⟨0x07 + c.index, .ktfRe c, false, perChan c (n * n)⟩,
      ⟨0x0A + c.index, .ktfIm c, false, perChan c (n * n)⟩,
      ⟨0x0F + c.index, .gtab c, false, perChan c res⟩,
      ⟨0x16 + c.index, .stage c, true, perChan c (n * n)⟩ ]) ++
  [ ⟨0x0D, .sre, true, n * n⟩,
    ⟨0x0E, .sim, true, n * n⟩,
    ⟨0x12, .twCos, false, n / 2⟩,
    ⟨0x13, .twSin, false, n / 2⟩,
    ⟨0x14, .bitrev, false, n⟩,
    ⟨0x15, .pattern, true, 2 ^ s.inst.log2NMax * 2 ^ s.inst.log2NMax⟩ ]

/-- The host address of element `i` of a region (R83, R85). -/
def windowAddr (region i : Nat) : BitVec 36 := BitVec.ofNat 36 (region * 2 ^ 28 + 8 * i)

/-- Element `i` of a complex sequence. -/
def Cplx.at (v : Cplx) (i : Nat) : Word × Word := (v.re.getD i posZero, v.im.getD i posZero)

/-- A complex sequence of length 2^LOG2N. -/
def Cplx.Sized (t : FftTables) (v : Cplx) : Prop := v.re.length = 2 ^ t.log2n ∧ v.im.length = 2 ^ t.log2n

/-- The butterfly R143 on the pair `u` and `a` with the twiddle `w`: the pairs it leaves, `u + w*a` and `u - w*a`, with each
operation rounded. -/
def butterflyOf (w u a : Word × Word) : Num ((Word × Word) × (Word × Word)) := do
  let p ← fmul w.1 a.1
  let q ← fmul w.2 a.2
  let tr ← fsub p q
  let p' ← fmul w.1 a.2
  let q' ← fmul w.2 a.1
  let ti ← fadd p' q'
  let lowRe ← fadd u.1 tr
  let lowIm ← fadd u.2 ti
  let highRe ← fsub u.1 tr
  let highIm ← fsub u.2 ti
  pure ((lowRe, lowIm), (highRe, highIm))

/-- The LOG2N stages in their order, `half = 1, 2, 4, ...` (R143), after the permutation. -/
def stagesOf (t : FftTables) (inv : Bool) (v : Cplx) : Num Cplx :=
  (List.range t.log2n).foldlM (fun w m => fftStage t inv (2 ^ m) w) (permute t v)

/-- `(a+bi)(c+di)` of R153, each operation rounded: `(a*c) - (b*d)` and `(a*d) + (b*c)`. -/
def productOf (a b c d : Word) : Num (Word × Word) := do
  let ac ← fmul a c
  let bd ← fmul b d
  let re ← fsub ac bd
  let ad ← fmul a d
  let bc ← fmul b c
  let im ← fadd ad bc
  pure (re, im)

/-- The value STATS takes for cell `i` (R260, R265): that of F[0], or `((F[0] + F[1]) + F[2]) / 3.0`, of the active banks. -/
def cellAverage (s : State) (g : Geometry) (i : Nat) : Num Word :=
  if g.chanCount = 1 then pure (s.readElem (.field .c0 s.bank.c0) i)
  else do
    let a ← fadd (s.readElem (.field .c0 s.bank.c0) i) (s.readElem (.field .c1 s.bank.c1) i)
    let b ← fadd a (s.readElem (.field .c2 s.bank.c2) i)
    fdiv b 0x4008000000000000

/-- The sums R260 over the cells of a list in their order (R261), with `x = i mod N` and `y = i / N`: from `mass`, `sx` and
`sy`, add `v`, `binary64(x) * v` and `binary64(y) * v`, each operation rounded. -/
def statsSums (s : State) (g : Geometry) : List Nat → Word → Word → Word → Num Sums
  | [], mass, sx, sy => pure ⟨mass, sx, sy⟩
  | i :: is, mass, sx, sy => do
    let v ← cellAverage s g i
    let mass' ← fadd mass v
    let xv ← fmul (ofNat64 (i % g.n)) v
    let sx' ← fadd sx xv
    let yv ← fmul (ofNat64 (i / g.n)) v
    let sy' ← fadd sy yv
    statsSums s g is mass' sx' sy'

/-- `gg(u, mu, sigma)` of R20, each operation rounded. -/
def growthOf (u mu sigma : Word) : Num Word := do
  let t ← fsub u mu
  let num ← fmul t t
  let ss ← fmul sigma sigma
  let den ← fmul 0x4000000000000000 ss
  let q ← fdiv num den
  let e ← exp64 (fneg q)
  let e2 ← fmul 0x4000000000000000 e
  fsub e2 0x3FF0000000000000

/-- Entry `k` of a growth table (R191, R192): the growth function at the sample point `k / (RES - 1)`. -/
def growthAt (mu sigma : Word) (res k : Nat) : Num Word := do
  let u ← fdiv (ofNat64 k) (ofNat64 (res - 1))
  growthOf u mu sigma

/-- `tdist(a, N/2)` of a coordinate (R19, R170): the shorter way to the centre. -/
def centreDistance (n a : Nat) : Nat :=
  let t := wrapMod ((a : Int) - (n / 2 : Nat)) n
  min t (n - t)

/-- `val(x, y)` of R170 and R171, each operation rounded. -/
def kernelValueOf (n : Nat) (p : Params) (x y : Nat) : Num Word := do
  let dx := centreDistance n x
  let dy := centreDistance n y
  let d ← fsqrt (ofNat64 (dx * dx + dy * dy))
  let r ← fdiv d p.r
  if flt r 0x3FF0000000000000 then
    let t ← fsub r p.kmu
    let num ← fmul t t
    let ss ← fmul p.ksigma p.ksigma
    let den ← fmul 0x4000000000000000 ss
    let q ← fdiv num den
    exp64 (fneg q)
  else pure 0x0000000000000000

/-- The sum of a list in its order, each addition rounded, from `s` (R172). -/
def sumOf (s : Word) : List Word → Num Word
  | [] => pure s
  | v :: vs => do
    let t ← fadd s v
    sumOf t vs

/-- The same bits, or a NaN each (assumption 1). -/
def SameValue (a b : Word) : Prop := a = b ∨ (isNan a = true ∧ isNan b = true)

/-- `wrapd(d)` of R263. -/
def wrapdOf (n : Nat) (d : Word) : Num Word :=
  if flt (ofNat64 (n / 2)) (fabs d) then
    (if flt posZero d then fsub d (ofNat64 n) else fadd d (ofNat64 n))
  else pure d

/-- The velocity R262 between two centroids. -/
def velocityBetween (n : Nat) (x0 y0 x1 y1 : Word) : Num Word := do
  let ddx ← fsub x1 x0
  let dx ← wrapdOf n ddx
  let ddy ← fsub y1 y0
  let dy ← wrapdOf n ddy
  let xx ← fmul dx dx
  let yy ← fmul dy dy
  let ss ← fadd xx yy
  fsqrt ss

/-- RNG draw number `k` (R283). -/
def rngDraw (k : Nat) : Word := rngWord (Config.rng k)

/-- What R282 leaves in the cells of a list, in their order, and the RNG position after them, from the position `k`: a cell
of the disc takes one draw for the test, and a second for its value if the test passes. -/
def seedCells (density : Word) (inDisc : Nat → Bool) : List Nat → Nat → List Word × Nat
  | [], k => ([], k)
  | i :: is, k =>
    if inDisc i then
      if flt (rngDraw k) density then
        (rngDraw (k + 1) :: (seedCells density inDisc is (k + 2)).1, (seedCells density inDisc is (k + 2)).2)
      else (posZero :: (seedCells density inDisc is (k + 1)).1, (seedCells density inDisc is (k + 1)).2)
    else (posZero :: (seedCells density inDisc is k).1, (seedCells density inDisc is k).2)

/-- The fields R282 leaves in the channels of a list, one after another, and the RNG position after them. -/
def seedFields (density : Word) (inDisc : Nat → Bool) (cells : Nat) : List Chan → Nat → List (Chan × List Word) × Nat
  | [], k => ([], k)
  | c :: cs, k =>
    ((c, (seedCells density inDisc (List.range cells) k).1) ::
      (seedFields density inDisc cells cs (seedCells density inDisc (List.range cells) k).2).1,
     (seedFields density inDisc cells cs (seedCells density inDisc (List.range cells) k).2).2)

/-- Whether cell `i` is within radius times N of the grid centre (R282, R284), for `lim` that product. -/
def inDiscOf (g : Geometry) (lim : Word) (d : Draws) (i : Nat) : Bool :=
  fle ((cellDistance ((i % g.n : Nat) - (g.n / 2 : Nat) : Int).natAbs
    ((i / g.n : Nat) - (g.n / 2 : Nat) : Int).natAbs).run d).1 lim

/-- A rung of the precision ladder decides the rounding of `cos(2*pi*k/2^n)`. -/
def CosDecided (n k : Nat) : Prop :=
  ∃ w, firstAgreed (fun p => (roundFixed p (cosEnclosure p n k).1, roundFixed p (cosEnclosure p n k).2)) precisionLadder =
    some w

/-- `m` is the floor of a finite word that is not negative (R16). -/
def FloorOf (w : Word) (m : Nat) : Prop := (m : ℝ) ≤ realWord w ∧ realWord w < m + 1

end Sys2Proof.Claims

open Sys2Proof Sys2Proof.Machine Sys2Proof.Claims

/-! ### Encoding -/

/-- Decoding the word of a command gives the command back, for every command with every channel field, mask and flag. -/
def Obligations.DecodeInvertsEncode : Prop := ∀ i : Instr, decode (encode i) = .ok i

/-- A word that decodes is the word of the command it decodes to: every bit of an accepted word is accounted for. -/
def Obligations.EncodeInvertsDecode : Prop := ∀ (w : Word) (i : Instr), decode w = .ok i → encode i = w

/-- The example words of R121 decode to the commands it gives them for. -/
def Obligations.ExampleWordsDecode : Prop :=
  decode 0x0000000000000000 = .ok .nop ∧
  decode 0x0000000000000001 = .ok .init ∧
  decode 0x0000000000002008 = .ok (.setp (.ch .c0) ⟨false, false, false, true, false, false⟩) ∧
  decode 0x0000000000000409 = .ok (.setpSpread ⟨true, false, false, false, false, false⟩) ∧
  decode 0x0000000000000010 = .ok .step ∧
  decode 0x000000000000041E = .ok (.stats true) ∧
  decode 0x0000000000000320 = .ok (.clear .all) ∧
  decode 0x0000000000000722 = .ok (.place .all .field) ∧
  decode 0x0000000000000225 = .ok (.getv (.ch .c2))

/-- A word that decodes to no command completes with E_ILLEGAL_OPCODE where its OPC is on R120's list of unassigned
opcodes and with E_ILLEGAL_CMD elsewhere, and changes nothing else; an OPC on the list never decodes. -/
def Obligations.IllegalWordsEndWithTheirCode : Prop :=
  (∀ (s : State) (r : Running) (es : List HostEvent), s.running = some r → s.schedule = .complete :: es →
    (∀ i, decode r.word ≠ .ok i) →
    (UnassignedOpc (opcOf r.word) → step s = .next ({ s with schedule := es }.recordCompletion .illegalOpcode)) ∧
    (¬ UnassignedOpc (opcOf r.word) → step s = .next ({ s with schedule := es }.recordCompletion .illegalCmd))) ∧
  (∀ (w : Word) (i : Instr), UnassignedOpc (opcOf w) → decode w ≠ .ok i)

/-! ### Steps and completion -/

/-- A complete event runs the command that the latched word decodes to: when it is the next event of the list, and when
the list is empty. A host access that is the next event of the list is performed. With no event left and no command executing
the block keeps every value. (The event list, and completion with an empty one, are the model's choice: assumptions 7 and
16.) -/
def Obligations.StepRunsTheLatchedCommand : Prop :=
  (∀ (s : State) (r : Running) (i : Instr), s.running = some r → decode r.word = .ok i →
    (∀ es, s.schedule = .complete :: es → step s = exec i { s with schedule := es }) ∧
    (s.schedule = [] → step s = exec i s)) ∧
  (∀ (s : State) (a : BusAccess) (es : List HostEvent), s.schedule = .access a :: es →
    step s = .next ({ s with schedule := es }.performAccess a)) ∧
  (∀ s : State, s.schedule = [] → s.running = none → step s = .next s)

/-- Every command completes, in every state: the complete event writes the completion record R330 for some code, and no
command writes the registers of the host's side (R35, R37, R38, R41, R50, R56). A latched word that is no command completes
too. The record that the other statements name is that one and nothing else. (That the event list and the last bus response
are kept too is about fields of the model: assumptions 7 and 15.) -/
def Obligations.EveryCommandCompletes : Prop :=
  (∀ (s : State) (e : Err), CompletedWith s (s.recordCompletion e) e ∧
    s.recordCompletion e = { s with
      lastErr := e
      firstErr := (s.recordCompletion e).firstErr
      errCmd := (s.recordCompletion e).errCmd
      irq := ⟨s.irq.doneEn, s.irq.errEn, true, s.irq.errPend || e != .ok⟩
      running := none }) ∧
  (∀ (i : Instr) (s : State), ∃ t e, exec i s = .next t ∧ CompletedWith s t e ∧ HostSideKept s t) ∧
  (∀ (s : State) (r : Running), s.running = some r →
    ∃ t e, completeEvent s = .next t ∧ CompletedWith s t e ∧ HostSideKept s t)

/-- No event stops the machine. -/
def Obligations.StepNeverStops : Prop := ∀ s : State, ∃ t, step s = .next t

/-- A command that ends with an error changes nothing but the completion record: errors are precise. -/
def Obligations.FailedCommandChangesNothing : Prop :=
  ∀ (i : Instr) (s t : State), exec i s = .next t → t.lastErr ≠ .ok → t = s.recordCompletion t.lastErr

/-- In the Uninitialized state every command but NOP and INIT ends with E_NOT_READY. -/
def Obligations.UninitializedRefusesCommands : Prop :=
  ∀ (i : Instr) (s : State), s.engine = none → i ≠ .nop → i ≠ .init → exec i s = .next (s.recordCompletion .notReady)

/-- In the Ready state a channel command ends with E_BAD_CHANNEL for CH >= C, and for CH = 0b11 in the class `one`. The
channel set of a CH below C is that channel, and that of CH = 0b11 all channels below C, in increasing order. -/
def Obligations.InactiveChannelsAreRefused : Prop :=
  (∀ (i : Instr) (s : State) (g : Geometry), s.engine = some g → i.chClass ≠ .none →
    ((i.chClass = .one ∧ i.chSel = .all) ∨ ∃ c, i.chSel = .ch c ∧ g.chanCount ≤ c.index) →
    exec i s = .next (s.recordCompletion .badChannel)) ∧
  (∀ (g : Geometry),
    (∀ c : Chan, (g.active c = true ↔ c.index < g.chanCount) ∧ (c.index < g.chanCount → chansOf g (.ch c) = .ok [c])) ∧
    chansOf g .all = .ok g.chans ∧ (g.chanCount = 1 ∧ g.chans = [.c0] ∨ g.chanCount = 3 ∧ g.chans = [.c0, .c1, .c2]))

/-! ### The host bus -/

/-- A CMD write while idle latches the word, the operand registers, IRQ_EN and ERR_CMD and is answered OKAY; while busy it is
dropped with OVERRUN and SLVERR; and CMD reads as the last accepted word. A command's operands are the latched registers.
(Which registers the latch copies, and that without a latch they are the registers themselves, is assumption 9; that the
answer stays in the state is assumption 15.) -/
def Obligations.CmdWriteAcceptsOrOverruns : Prop :=
  ∀ (s : State) (w : Word),
    (s.busy = false → s.performAccess (.write 0x020 8 w) =
      { s with cmd := w, running := some ⟨w, s.staged, s.irq.enableWord, s.errCmd⟩, resp := some ⟨0, false⟩ }) ∧
    (s.busy = true → s.performAccess (.write 0x020 8 w) =
      { s with overrun := true, busErr := true, resp := some ⟨0, true⟩ }) ∧
    s.performAccess (.read 0x020 8) = { s with resp := some ⟨s.cmd, false⟩ } ∧
    (∀ r, s.running = some r → s.operands = r.regs) ∧ (s.running = none → s.operands = s.staged)

/-- A STATUS write clears, busy or not, FIRST_ERR and ERR_CMD by bit 2, BUS_ERR by bit 3 and OVERRUN by bit 4, and nothing
else; it is answered OKAY. -/
def Obligations.StatusWriteClearsNamedBits : Prop :=
  ∀ (s : State) (w : Word), s.performAccess (.write 0x018 8 w) =
    { s with
      firstErr := if w.getLsbD 2 then .ok else s.firstErr
      errCmd := if w.getLsbD 2 then 0 else s.errCmd
      busErr := if w.getLsbD 3 then false else s.busErr
      overrun := if w.getLsbD 4 then false else s.overrun
      resp := some ⟨0, false⟩ }

/-- A write to IRQ_EN stores bits 1:0, one to IRQ_STATUS clears the pending bits written as 1, busy or not, and neither
changes anything else; the interrupt output is high exactly while a pending bit and its enable are both 1, as the two
registers read while idle. -/
def Obligations.InterruptRegistersAndLine : Prop :=
  ∀ (s : State) (w : Word),
    s.performAccess (.write 0x058 8 w) =
      { s with irq := ⟨w.getLsbD 0, w.getLsbD 1, s.irq.donePend, s.irq.errPend⟩, resp := some ⟨0, false⟩ } ∧
    s.performAccess (.write 0x060 8 w) =
      { s with
        irq := ⟨s.irq.doneEn, s.irq.errEn, s.irq.donePend && !w.getLsbD 0, s.irq.errPend && !w.getLsbD 1⟩
        resp := some ⟨0, false⟩ } ∧
    (s.irq.line = true ↔ (s.irq.donePend = true ∧ s.irq.doneEn = true) ∨ (s.irq.errPend = true ∧ s.irq.errEn = true)) ∧
    (s.busy = false → (s.irq.line = true ↔ (s.readReg .irqStatus &&& s.readReg .irqEn) ≠ 0))

/-- While a command is executing, every access to a region other than 0 is answered SLVERR, and so is every write to a
register other than STATUS, IRQ_EN, IRQ_STATUS and CMD; nothing but BUS_ERR and the response changes. No access ends the
command, and every register but STATUS and IRQ_STATUS goes on reading as it did; the accept event itself changes the reading
of CMD and STATUS only. -/
def Obligations.BusyRefusesAccesses : Prop :=
  (∀ (s : State), s.busy = true →
    (∀ (addr : BitVec 36) (size : Nat) (w : Word), regionOf addr ≠ 0 →
      s.performAccess (.read addr size) = s.slverr ∧ s.performAccess (.write addr size w) = s.slverr) ∧
    (∀ (r : Reg) (w : Word), r ≠ .status → r ≠ .irqEn → r ≠ .irqStatus → r ≠ .cmd →
      s.performAccess (.write (BitVec.ofNat 36 r.offset) 8 w) = s.slverr) ∧
    (∀ a : BusAccess, (s.performAccess a).running = s.running ∧
      ∀ r : Reg, r ≠ .status → r ≠ .irqStatus → (s.performAccess a).readReg r = s.readReg r)) ∧
  (∀ (s : State) (w : Word), s.busy = false →
    ∀ r : Reg, r ≠ .status → r ≠ .cmd → (s.performAccess (.write 0x020 8 w)).readReg r = s.readReg r)

/-- A read changes nothing but the response, and BUS_ERR when it is answered SLVERR with data 0. (That a read sets BUS_ERR
is R88 against R92: assumption 13.) -/
def Obligations.ReadsHaveNoSideEffect : Prop :=
  ∀ (s : State) (addr : BitVec 36) (size : Nat),
    (∃ w, s.performAccess (.read addr size) = { s with resp := some ⟨w, false⟩ }) ∨
    s.performAccess (.read addr size) = { s with busErr := true, resp := some ⟨0, true⟩ }

/-- The register map: every register reads at its offset, STATUS, HWCFG and BANK field by field, N, CHANNELS, RES and LOG2N
from the latched geometry, IRQ_EN and ERR_CMD as they were at the accept event while a command is executing; every other
offset of region 0 is answered SLVERR with data 0; the completion codes are 0x00 to 0x0B. (While a command is executing, that
STATUS shows at once a BUS_ERR or OVERRUN which a refused access set is assumption 11, and that a reserved offset is still
answered SLVERR is assumption 12.) -/
def Obligations.RegistersReadAtTheirOffsets : Prop :=
  ∀ (s : State),
    (∀ r : Reg, s.performAccess (.read (BitVec.ofNat 36 r.offset) 8) = { s with resp := some ⟨s.readReg r, false⟩ }) ∧
    (∀ addr : BitVec 36, regionOf addr = 0 → (∀ r : Reg, r.offset ≠ offsetOf addr) →
      s.performAccess (.read addr 8) = s.slverr) ∧
    ReadsAs s 0x000 0x4C454E4941000001 ∧
    (∃ w : Word, ReadsAs s 0x008 w ∧ (w.extractLsb' 0 8).toNat = s.inst.log2NMax ∧ w.extractLsb' 8 8 = 3 ∧
      (w.extractLsb' 16 32).toNat = s.inst.resMax ∧ w.extractLsb' 48 16 = 0) ∧
    ReadsAs s 0x010 0 ∧
    (∃ w : Word, ReadsAs s 0x018 w ∧ (w.getLsbD 0 = true ↔ ∃ r, s.running = some r) ∧
      (w.getLsbD 1 = true ↔ ∃ g, s.engine = some g) ∧ (w.getLsbD 2 = true ↔ s.firstErr ≠ .ok) ∧
      w.getLsbD 3 = s.busErr ∧ w.getLsbD 4 = s.overrun ∧ w.extractLsb' 5 3 = 0 ∧
      w.extractLsb' 8 8 = s.lastErr.code ∧ w.extractLsb' 16 8 = s.firstErr.code ∧ w.extractLsb' 24 40 = 0) ∧
    ReadsAs s 0x020 s.cmd ∧ ReadsAs s 0x028 s.staged.arg0 ∧ ReadsAs s 0x030 s.staged.arg1 ∧
    ReadsAs s 0x038 s.staged.arg2 ∧ ReadsAs s 0x040 s.staged.arg3 ∧ ReadsAs s 0x048 s.result ∧
    (s.running = none → ReadsAs s 0x050 s.errCmd ∧ ∃ w : Word, ReadsAs s 0x058 w ∧
      w.getLsbD 0 = s.irq.doneEn ∧ w.getLsbD 1 = s.irq.errEn ∧ w.extractLsb' 2 62 = 0) ∧
    (∀ r, s.running = some r → ReadsAs s 0x050 r.errCmd ∧ ReadsAs s 0x058 r.irqEn) ∧
    (∃ w : Word, ReadsAs s 0x060 w ∧ w.getLsbD 0 = s.irq.donePend ∧ w.getLsbD 1 = s.irq.errPend ∧
      w.extractLsb' 2 62 = 0) ∧
    ReadsAs s 0x080 s.staged.gridSize ∧ ReadsAs s 0x088 s.staged.channelsCfg ∧ ReadsAs s 0x090 s.staged.resCfg ∧
    ReadsAs s 0x098 s.staged.importSize ∧
    (s.engine = none → ReadsAs s 0x0A0 0 ∧ ReadsAs s 0x0A8 0 ∧ ReadsAs s 0x0B0 0 ∧ ReadsAs s 0x0B8 0) ∧
    (∀ g, s.engine = some g → ∃ n c res l : Word,
      (ReadsAs s 0x0A0 n ∧ n.toNat = g.n) ∧ (ReadsAs s 0x0A8 c ∧ c.toNat = g.chanCount) ∧
      (ReadsAs s 0x0B0 res ∧ res.toNat = g.res) ∧ (ReadsAs s 0x0B8 l ∧ l.toNat = g.log2n ∧ n.toNat = 2 ^ l.toNat)) ∧
    (∃ w : Word, ReadsAs s 0x0C0 w ∧ w.extractLsb' 3 61 = 0 ∧
      (∀ (g : Geometry) (c : Chan), s.engine = some g →
        w.getLsbD c.index = (decide (c.index < g.chanCount) && s.bank.get c)) ∧
      (s.engine = none → w = 0)) ∧
    ReadsAs s 0x0C8 s.staged.patW ∧ ReadsAs s 0x0D0 s.staged.patH ∧
    (∀ k : ParamIx, ReadsAs s (paramAddr 0x100 k) (s.staged.stg.get k) ∧ ReadsAs s (paramAddr 0x140 k) (s.com.get k) ∧
      ReadsAs s (paramAddr 0x200 k) (s.p.c0.get k) ∧ ReadsAs s (paramAddr 0x240 k) (s.p.c1.get k) ∧
      ReadsAs s (paramAddr 0x280 k) (s.p.c2.get k) ∧ ReadsAs s (paramAddr 0x400 k) (s.staged.impP.c0.get k) ∧
      ReadsAs s (paramAddr 0x440 k) (s.staged.impP.c1.get k) ∧ ReadsAs s (paramAddr 0x480 k) (s.staged.impP.c2.get k) ∧
      ReadsAs s (paramAddr 0x4C0 k) (s.staged.impCom.get k)) ∧
    ReadsAs s 0x170 0x4000000000000000 ∧ ReadsAs s 0x178 s.inst.spreadDMu ∧ ReadsAs s 0x180 s.inst.spreadDSigma ∧
    ReadsAs s 0x300 s.stats.step ∧ ReadsAs s 0x308 s.stats.mass ∧ ReadsAs s 0x310 s.stats.centerX ∧
    ReadsAs s 0x318 s.stats.centerY ∧ ReadsAs s 0x320 s.stats.velocity ∧
    (∃ w : Word, ReadsAs s 0x328 w ∧ w.getLsbD 0 = s.stats.centroidValid ∧ w.extractLsb' 1 63 = 0) ∧
    (∀ e : Err, e.code = errCode e)

/-- A write while idle to a storing register, an RW register of the map but CTRL and IRQ_EN, is answered OKAY, reads back
whole, and leaves every other register and all of memory as they were; these are the registers the model stores. A write of
CTRL while idle with bit 0 = 0 is answered OKAY and has no effect. -/
def Obligations.StagedRegisterWriteReadsBack : Prop :=
  (∀ (s : State) (r : Reg) (w : Word), s.busy = false → Storing r →
    ∃ t, s.performAccess (.write (BitVec.ofNat 36 r.offset) 8 w) = t ∧ t.resp = some ⟨0, false⟩ ∧ t.readReg r = w ∧
      (∀ q : Reg, q ≠ r → t.readReg q = s.readReg q) ∧ t.mem = s.mem ∧ t.epochs = s.epochs) ∧
  (∀ (r : Reg) (w : Word) (g : StagedRegs), (g.write w r).isSome = true ↔ Storing r) ∧
  (∀ (s : State) (w : Word), s.busy = false → w.getLsbD 0 = false →
    s.performAccess (.write 0x010 8 w) = { s with resp := some ⟨0, false⟩ })

/-- Each region of the window map shows its array with its size and access, a field's the active bank, and no other region
shows any. A read of an element of any window while idle is answered OKAY with that element. A write to an element of a
writable window while idle is answered OKAY, reads back bit for bit, and leaves every other byte of memory and every register
as they were. Element i of an array is its bytes 8i to 8i+7, lane 0 first, and an array is its elements in order. -/
def Obligations.WindowWriteReadsBack : Prop :=
  (∀ (s : State), ∀ row ∈ windowMap s,
    s.windowOf row.region = some ⟨row.arr, row.writable⟩ ∧ s.arrSize row.arr = row.size ∧
    (s.busy = false → ∀ i, i < row.size → ReadsAs s (windowAddr row.region i) (s.readElem row.arr i))) ∧
  (∀ (s : State) (r : Nat), (∀ row ∈ windowMap s, row.region ≠ r) → s.windowOf r = none) ∧
  (∀ (s : State) (addr : BitVec 36) (w : Word) (win : Window), s.busy = false → legalBeat addr 8 = true →
    s.windowOf (regionOf addr) = some win → win.writable = true → offsetOf addr / 8 < s.arrSize win.arr →
    ∃ t, s.performAccess (.write addr 8 w) = t ∧ t.resp = some ⟨0, false⟩ ∧
      t.performAccess (.read addr 8) = { t with resp := some ⟨w, false⟩ } ∧
      BytesKeptOutside s t (InElem win.arr (offsetOf addr / 8)) ∧
      t = { s with mem := t.mem, resp := t.resp }) ∧
  (∀ (s : State) (a : Arr) (i : Nat),
    (∀ j, j < 8 → (s.readElem a i).extractLsb' (8 * j) 8 = s.readByte (a.base + 8 * i + j)) ∧
    ∀ n, (s.readArray a n).length = n ∧ (i < n → (s.readArray a n).getD i posZero = s.readElem a i))

/-- Misaligned and wrong-sized accesses, reserved regions, reserved offsets of region 0, elements beyond a window's size and
writes to read-only windows and registers are answered SLVERR and change nothing but BUS_ERR, busy or not (assumption
12). -/
def Obligations.RefusedAccessesChangeNothing : Prop :=
  ∀ (s : State) (addr : BitVec 36) (size : Nat) (w : Word),
    (legalBeat addr size = false →
      s.performAccess (.read addr size) = s.slverr ∧ s.performAccess (.write addr size w) = s.slverr) ∧
    (0x18 < regionOf addr →
      s.performAccess (.read addr size) = s.slverr ∧ s.performAccess (.write addr size w) = s.slverr) ∧
    (∀ win, s.windowOf (regionOf addr) = some win → s.arrSize win.arr ≤ offsetOf addr / 8 →
      s.performAccess (.read addr size) = s.slverr ∧ s.performAccess (.write addr size w) = s.slverr) ∧
    (∀ win, s.windowOf (regionOf addr) = some win → win.writable = false →
      s.performAccess (.write addr size w) = s.slverr) ∧
    (regionOf addr = 0 → (∀ r : Reg, r.offset ≠ offsetOf addr) →
      s.performAccess (.read addr size) = s.slverr ∧ s.performAccess (.write addr size w) = s.slverr) ∧
    (∀ r : Reg, accessOf r = .ro → s.performAccess (.write (BitVec.ofNat 36 r.offset) 8 w) = s.slverr) ∧
    s.slverr = { s with busErr := true, resp := some ⟨0, true⟩ }

/-- A soft reset, and the reset input at any time, leave every register at its reset value, no command executing, no
window but PATTERN with an element, and the instance constants and the RNG position as they were. -/
def Obligations.ResetsLeaveTheResetState : Prop :=
  ∀ (s t : State),
    (s.busy = false ∧ (∃ w : Word, w.getLsbD 0 = true ∧ s.performAccess (.write 0x010 8 w) = t)) ∨
      (∃ es, s.schedule = .resetInput :: es ∧ step s = .next t) →
    (∀ r : Reg, t.readReg r = resetWord s.inst r) ∧ t.busy = false ∧ t.inst = s.inst ∧
    (∀ a : Arr, a ≠ .pattern → t.arrSize a = 0) ∧ t.draws.rng = s.draws.rng ∧ Memory.wf t.mem

/-! ### Engine commands -/

/-- NOP completes in both engine states and changes nothing but the completion record. -/
def Obligations.NopOnlyCompletes : Prop :=
  ∀ s : State, ∃ t, exec .nop s = .next t ∧ Ran s s t ∧ t.mem = s.mem ∧ t.draws = s.draws ∧ t.epochs = s.epochs

/-- INIT refuses a bad configuration, with the code of the first check that fails and no other change: a GRID_SIZE that is
no power of two, then one out of range, then a CHANNELS_CFG that is neither 1 nor 3, then a RES_CFG out of range. -/
def Obligations.InitChecksInOrder : Prop :=
  ∀ s : State,
    ((¬ ∃ k, s.operands.gridSize.toNat = 2 ^ k) → exec .init s = .next (s.recordCompletion .gridNotPow2)) ∧
    ((∃ k, s.operands.gridSize.toNat = 2 ^ k) →
      (s.operands.gridSize.toNat < 2 ∨ 2 ^ s.inst.log2NMax < s.operands.gridSize.toNat →
        exec .init s = .next (s.recordCompletion .gridRange)) ∧
      (2 ≤ s.operands.gridSize.toNat → s.operands.gridSize.toNat ≤ 2 ^ s.inst.log2NMax →
        (s.operands.channelsCfg ≠ 1 → s.operands.channelsCfg ≠ 3 →
          exec .init s = .next (s.recordCompletion .badChannelsCfg)) ∧
        (s.operands.channelsCfg = 1 ∨ s.operands.channelsCfg = 3 →
          s.operands.resCfg.toNat < 2 ∨ s.inst.resMax < s.operands.resCfg.toNat →
          exec .init s = .next (s.recordCompletion .badResolution))))

/-- INIT with a legal configuration whose kernels have mass builds the engine: the latched geometry, COM and P, empty
fields in both banks, zero statistics, bank 0, the tables, kernels and growth tables; PATTERN and RESULT are kept. -/
def Obligations.InitBuildsTheEngine : Prop :=
  ∀ (s : State) (k : Nat) (g : Geometry), 1 ≤ k → k ≤ s.inst.log2NMax → s.operands.gridSize.toNat = 2 ^ k →
    (s.operands.channelsCfg = 1 ∨ s.operands.channelsCfg = 3) →
    2 ≤ s.operands.resCfg.toNat → s.operands.resCfg.toNat ≤ s.inst.resMax →
    g.log2n = k → g.chanCount = s.operands.channelsCfg.toNat → g.res = s.operands.resCfg.toNat →
    ((kernelsOk g.n (g.chans.map ((initParams s.inst g s.p s.operands.stg).run s.draws).1.get)).run
      ((initParams s.inst g s.p s.operands.stg).run s.draws).2).1 = true →
    ∃ t, exec .init s = .next t ∧
      Ran s { s with
        engine := some g
        com := s.operands.stg
        p := ((initParams s.inst g s.p s.operands.stg).run s.draws).1
        bank := .const false
        stats := .zero } t ∧
      (∀ (c : Chan) (b : Bool) (i : Nat), g.active c = true → i < g.cells → t.readElem (.field c b) i = posZero) ∧
      CachesValid t ∧
      (∀ x, InArr .pattern (2 ^ 25) x → t.readByte x = s.readByte x)

/-- The records INIT gives the channels: the staged record in the single-channel engine, which leaves P[1] and P[2] alone,
and its spread in the multi-channel engine, whose channel 1 gets the literal record. -/
def Obligations.InitParamsSpreadTheStagedRecord : Prop :=
  ∀ (inst : Instance) (g : Geometry) (p : Per3 Params) (stg : Params) (d : Draws),
    (g.channels = .one → ((initParams inst g p stg).run d).1 = ⟨stg, p.c1, p.c2⟩) ∧
    (g.channels = .three → ((initParams inst g p stg).run d).1.c1 = stg ∧
      ((initParams inst g p stg).run d).1.c0.r = ((fsub stg.r 0x4000000000000000).run d).1 ∧
      (∃ e, ((initParams inst g p stg).run d).1.c0.mu = ((fsub stg.mu inst.spreadDMu).run e).1) ∧
      (∃ e, ((initParams inst g p stg).run d).1.c0.sigma = ((fsub stg.sigma inst.spreadDSigma).run e).1) ∧
      (∃ e, ((initParams inst g p stg).run d).1.c2.r = ((fadd stg.r 0x4000000000000000).run e).1) ∧
      (∃ e, ((initParams inst g p stg).run d).1.c2.mu = ((fadd stg.mu inst.spreadDMu).run e).1) ∧
      (∃ e, ((initParams inst g p stg).run d).1.c2.sigma = ((fadd stg.sigma inst.spreadDSigma).run e).1) ∧
      ∀ c, (((initParams inst g p stg).run d).1.get c).dt = stg.dt ∧
        (((initParams inst g p stg).run d).1.get c).kmu = stg.kmu ∧
        (((initParams inst g p stg).run d).1.get c).ksigma = stg.ksigma)

/-- SETP whose changed kernels have mass merges the masked staged fields into the records of its channels, rebuilds a
channel's kernel only where the bits of R, KMU or KSIGMA changed and its table only where those of MU or SIGMA did, and
writes nothing else: not COM, and the scratch arrays only if a kernel was rebuilt. Bits 10 to 15 of the word are the mask, in
the order R, MU, SIGMA, DT, KMU, KSIGMA; the merge takes a field from the staged record where its bit is 1 and keeps it
elsewhere; and a field changed where its bits differ. -/
def Obligations.SetpMergesAndRebuildsSelectively : Prop :=
  (∀ (sel : ChSel) (m : ParamMask) (w : Word), w = encode (.setp sel m) ∨ w = encode (.setpSpread m) →
    w.getLsbD 10 = m.r ∧ w.getLsbD 11 = m.mu ∧ w.getLsbD 12 = m.sigma ∧ w.getLsbD 13 = m.dt ∧ w.getLsbD 14 = m.kmu ∧
    w.getLsbD 15 = m.ksigma) ∧
  (∀ (p q : Params) (m : ParamMask), p.merge q m =
    ⟨if m.r then q.r else p.r, if m.mu then q.mu else p.mu, if m.sigma then q.sigma else p.sigma,
      if m.dt then q.dt else p.dt, if m.kmu then q.kmu else p.kmu, if m.ksigma then q.ksigma else p.ksigma⟩) ∧
  (∀ p q : Params,
    (p.kernelDiffers q = true ↔ p.r ≠ q.r ∨ p.kmu ≠ q.kmu ∨ p.ksigma ≠ q.ksigma) ∧
    (p.tableDiffers q = true ↔ p.mu ≠ q.mu ∨ p.sigma ≠ q.sigma)) ∧
  ∀ (s : State) (g : Geometry) (sel : ChSel) (cs : List Chan) (m : ParamMask),
    s.engine = some g → chansOf g sel = .ok cs →
    ((kernelsOk g.n ((cs.filter fun c => (s.p.get c).kernelDiffers ((s.p.get c).merge s.operands.stg m)).map
      fun c => (s.p.get c).merge s.operands.stg m)).run s.draws).1 = true →
    ∃ t, exec (.setp sel m) s = .next t ∧ Ran s { s with p := t.p } t ∧
      (∀ c, t.p.get c = if c ∈ cs then (s.p.get c).merge s.operands.stg m else s.p.get c) ∧
      (∀ c ∈ cs, (s.p.get c).kernelDiffers (t.p.get c) = true → KernelBuilt t g c) ∧
      (∀ c ∈ cs, (s.p.get c).tableDiffers (t.p.get c) = true → TableBuilt t g c) ∧
      BytesKeptOutside s t (fun x =>
        (∃ c ∈ cs, (s.p.get c).kernelDiffers (t.p.get c) = true ∧ (InKernel g c x ∨ InScratch x)) ∨
        (∃ c ∈ cs, (s.p.get c).tableDiffers (t.p.get c) = true ∧ InArr (.gtab c) g.res x))

/-- A command that would give a channel a kernel without mass ends with E_KERNEL_ZERO_MASS and changes nothing else: INIT,
SETP, SETP_SPREAD, IMPORT and BUILD_KERNEL. -/
def Obligations.ZeroMassKernelIsRefused : Prop :=
  (∀ (s : State) (g : Geometry), initGeometry s.inst s.operands = .ok g →
    ((kernelsOk g.n (g.chans.map ((initParams s.inst g s.p s.operands.stg).run s.draws).1.get)).run
      ((initParams s.inst g s.p s.operands.stg).run s.draws).2).1 = false →
    exec .init s = .next (s.recordCompletion .kernelZeroMass)) ∧
  ∀ (s : State) (g : Geometry), s.engine = some g →
    (∀ (sel : ChSel) (cs : List Chan) (m : ParamMask), chansOf g sel = .ok cs →
      ((kernelsOk g.n ((cs.filter fun c => (s.p.get c).kernelDiffers ((s.p.get c).merge s.operands.stg m)).map
        fun c => (s.p.get c).merge s.operands.stg m)).run s.draws).1 = false →
      exec (.setp sel m) s = .next (s.recordCompletion .kernelZeroMass)) ∧
    (∀ (m : ParamMask), g.channels = .three →
      ((kernelsOk g.n ((g.chans.filter fun c => (s.p.get c).kernelDiffers
          (((spreadAll s.inst (s.com.merge s.operands.stg m)).run s.draws).1.get c)).map
        ((spreadAll s.inst (s.com.merge s.operands.stg m)).run s.draws).1.get)).run
          ((spreadAll s.inst (s.com.merge s.operands.stg m)).run s.draws).2).1 = false →
      exec (.setpSpread m) s = .next (s.recordCompletion .kernelZeroMass)) ∧
    (s.operands.importSize.toNat = g.n →
      ((kernelsOk g.n ((g.chans.filter fun c => (s.p.get c).kernelDiffers (s.operands.impP.get c)).map
        s.operands.impP.get)).run s.draws).1 = false →
      exec .importCfg s = .next (s.recordCompletion .kernelZeroMass)) ∧
    (∀ (sel : ChSel) (cs : List Chan), chansOf g sel = .ok cs →
      ((kernelsOk g.n (cs.map s.p.get)).run s.draws).1 = false →
      exec (.buildKernel sel) s = .next (s.recordCompletion .kernelZeroMass))

/-- SETP_SPREAD on the three-channel engine merges COM and derives every channel's record from it, with the selective
rebuild; in the single-channel engine it ends with E_BAD_CHANNEL. Channel 0's R, MU and SIGMA are those of COM less the
spread constants, channel 2's those plus them, and channel 1's record is COM bit for bit; DT, KMU and KSIGMA are copied. -/
def Obligations.SetpSpreadDerivesEveryChannel : Prop :=
  (∀ (inst : Instance) (p : Params) (d : Draws) (q : Per3 Params), q = ((spreadAll inst p).run d).1 →
    q.c1 = p ∧
    (∃ e, q.c0.r = ((fsub p.r 0x4000000000000000).run e).1) ∧ (∃ e, q.c0.mu = ((fsub p.mu inst.spreadDMu).run e).1) ∧
    (∃ e, q.c0.sigma = ((fsub p.sigma inst.spreadDSigma).run e).1) ∧
    (∃ e, q.c2.r = ((fadd p.r 0x4000000000000000).run e).1) ∧ (∃ e, q.c2.mu = ((fadd p.mu inst.spreadDMu).run e).1) ∧
    (∃ e, q.c2.sigma = ((fadd p.sigma inst.spreadDSigma).run e).1) ∧
    ∀ c, (q.get c).dt = p.dt ∧ (q.get c).kmu = p.kmu ∧ (q.get c).ksigma = p.ksigma) ∧
  ∀ (s : State) (g : Geometry) (m : ParamMask), s.engine = some g →
    (g.channels = .one → exec (.setpSpread m) s = .next (s.recordCompletion .badChannel)) ∧
    (g.channels = .three →
      ((kernelsOk g.n ((g.chans.filter fun c => (s.p.get c).kernelDiffers
          (((spreadAll s.inst (s.com.merge s.operands.stg m)).run s.draws).1.get c)).map
        ((spreadAll s.inst (s.com.merge s.operands.stg m)).run s.draws).1.get)).run
          ((spreadAll s.inst (s.com.merge s.operands.stg m)).run s.draws).2).1 = true →
      ∃ t, exec (.setpSpread m) s = .next t ∧
        Ran s { s with
          com := s.com.merge s.operands.stg m
          p := ((spreadAll s.inst (s.com.merge s.operands.stg m)).run s.draws).1 } t ∧
        (∀ c, (s.p.get c).kernelDiffers (t.p.get c) = true → KernelBuilt t g c) ∧
        (∀ c, (s.p.get c).tableDiffers (t.p.get c) = true → TableBuilt t g c) ∧
        BytesKeptOutside s t (fun x => ∃ c,
          ((s.p.get c).kernelDiffers (t.p.get c) = true ∧ (InKernel g c x ∨ InScratch x)) ∨
          ((s.p.get c).tableDiffers (t.p.get c) = true ∧ InArr (.gtab c) g.res x)))

/-- IMPORT with a size other than N ends with E_SIZE_MISMATCH; with size N and kernels that have mass it takes COM and the
active channels' records as staged, without a spread, copies each IMPORT_STAGE array bit for bit into the active field, and
leaves the statistics, BANK, RESULT and all other memory but the rebuilt arrays as they were. -/
def Obligations.ImportTakesTheStagedConfig : Prop :=
  ∀ (s : State) (g : Geometry), s.engine = some g →
    (s.operands.importSize.toNat ≠ g.n → exec .importCfg s = .next (s.recordCompletion .sizeMismatch)) ∧
    (s.operands.importSize.toNat = g.n →
      ((kernelsOk g.n ((g.chans.filter fun c => (s.p.get c).kernelDiffers (s.operands.impP.get c)).map
        s.operands.impP.get)).run s.draws).1 = true →
      ∃ t, exec .importCfg s = .next t ∧ Ran s { s with com := s.operands.impCom, p := t.p } t ∧
        (∀ c, t.p.get c = if g.active c then s.operands.impP.get c else s.p.get c) ∧
        (∀ c i, g.active c = true → i < g.cells → t.readElem (s.activeField c) i = s.readElem (.stage c) i) ∧
        (∀ c, (s.p.get c).kernelDiffers (t.p.get c) = true → KernelBuilt t g c) ∧
        (∀ c, (s.p.get c).tableDiffers (t.p.get c) = true → TableBuilt t g c) ∧
        BytesKeptOutside s t (fun x => ∃ c, g.active c = true ∧ (InArr (s.activeField c) g.cells x ∨
          ((s.p.get c).kernelDiffers (t.p.get c) = true ∧ (InKernel g c x ∨ InScratch x)) ∨
          ((s.p.get c).tableDiffers (t.p.get c) = true ∧ InArr (.gtab c) g.res x))))

/-- BUILD_KERNEL of channels whose kernels have mass builds their kernel arrays and leaves every other byte outside the
scratch arrays, and every engine register, as it was. Those arrays are: each cell's value, summed in row-major order from
+0.0; the kernel is valid exactly if the sum is above zero; KERNEL is each value divided by the sum, and the transform
arrays are the forward transform of the shifted KERNEL with imaginary part +0.0. -/
def Obligations.BuildKernelWritesKernelArrays : Prop :=
  (∀ (s : State) (g : Geometry) (sel : ChSel) (cs : List Chan), s.engine = some g → chansOf g sel = .ok cs →
    ((kernelsOk g.n (cs.map s.p.get)).run s.draws).1 = true →
    ∃ t, exec (.buildKernel sel) s = .next t ∧ Ran s s t ∧ (∀ c ∈ cs, KernelBuilt t g c) ∧
      BytesKeptOutside s t (fun x => InScratch x ∨ ∃ c ∈ cs, InKernel g c x)) ∧
  (∀ (n : Nat) (p : Params) (d : Draws),
    ((kernelRaw n p).run d).1.1.length = n * n ∧
    (∀ i, i < n * n → ∃ e,
      ((kernelRaw n p).run d).1.1.getD i posZero = ((kernelValueOf n p (i % n) (i / n)).run e).1) ∧
    (∃ e, ((kernelRaw n p).run d).1.2 = ((sumOf 0x0000000000000000 ((kernelRaw n p).run d).1.1).run e).1) ∧
    (((kernelOk n p).run d).1 = true ↔ flt 0x0000000000000000 ((kernelRaw n p).run d).1.2 = true)) ∧
  (∀ (n : Nat) (ps : List Params) (d : Draws),
    ((kernelsOk n ps).run d).1 = true ↔ ∀ p ∈ ps, ∀ e, ((kernelOk n p).run e).1 = true) ∧
  (∀ (t : FftTables) (p : Params) (d : Draws) (n : Nat), n = 2 ^ t.log2n →
    ((buildKernel t p).run d).1.kernel.length = n * n ∧
    (∀ i, i < n * n → ∃ e, ((buildKernel t p).run d).1.kernel.getD i posZero =
      ((fdiv (((kernelRaw n p).run d).1.1.getD i posZero) ((kernelRaw n p).run d).1.2).run e).1) ∧
    ∃ e, ((buildKernel t p).run d).1.ktf =
      ((fft2 t false ⟨fftShift n ((buildKernel t p).run d).1.kernel, List.replicate (n * n) 0x0000000000000000⟩).run e).1)

/-- BUILD_GROWTH builds the growth tables of its channels and leaves every other byte and every engine register as it
was. Entry k of a table of RES entries is the growth function at `k / (RES - 1)`. -/
def Obligations.BuildGrowthWritesGrowthTables : Prop :=
  (∀ (s : State) (g : Geometry) (sel : ChSel) (cs : List Chan), s.engine = some g → chansOf g sel = .ok cs →
    ∃ t, exec (.buildGrowth sel) s = .next t ∧ Ran s s t ∧ (∀ c ∈ cs, TableBuilt t g c) ∧
      (∀ c ∈ cs, ∀ k, k < g.res → ∃ e,
        t.readElem (.gtab c) k = ((growthAt (s.p.get c).mu (s.p.get c).sigma g.res k).run e).1) ∧
      BytesKeptOutside s t (fun x => ∃ c ∈ cs, InArr (.gtab c) g.res x)) ∧
  (∀ (mu sigma : Word) (res : Nat) (d : Draws),
    ((buildTable mu sigma res).run d).1.length = res ∧
    ∀ k, k < res → ∃ e, ((buildTable mu sigma res).run d).1.getD k posZero = ((growthAt mu sigma res k).run e).1)

/-! ### The phases of a step -/

/-- LOADF copies the active field bit for bit into SRE and zeroes SIM; nothing else changes. -/
def Obligations.LoadfCopiesTheField : Prop :=
  ∀ (s : State) (g : Geometry) (c : Chan), s.engine = some g → g.active c = true →
    ∃ t, exec (.loadf (.ch c)) s = .next t ∧ Ran s s t ∧
      (∀ i, i < g.cells →
        t.readElem .sre i = s.readElem (s.activeField c) i ∧ t.readElem .sim i = 0x0000000000000000) ∧
      BytesKeptOutside s t (fun x => InArr .sre g.cells x ∨ InArr .sim g.cells x)

/-- FFT_FWD and FFT_INV replace the scratch arrays by their 2D transform with the tables in memory; nothing else changes.
That transform is: every row, then every column, by a 1D transform that permutes by bit reversal, applies the stages
`half = 1, 2, 4, ...`, in each of which every pair of elements `half` apart is replaced by its butterfly, and for the
inverse divides every part by N. The tables are TW_COS, TW_SIN and BITREV, and the array is SRE and SIM. -/
def Obligations.FftTransformsTheScratchArrays : Prop :=
  (∀ (s : State) (g : Geometry),
    s.fftTables g = ⟨g.log2n, s.readArray .twCos (2 ^ g.log2n / 2), s.readArray .twSin (2 ^ g.log2n / 2),
      (s.readArray .bitrev (2 ^ g.log2n)).map BitVec.toNat⟩ ∧
    s.scratch g = ⟨s.readArray .sre (2 ^ g.log2n * 2 ^ g.log2n), s.readArray .sim (2 ^ g.log2n * 2 ^ g.log2n)⟩) ∧
  (∀ (s : State) (g : Geometry) (inv : Bool), s.engine = some g →
    ∃ t, exec (if inv then .fftInv else .fftFwd) s = .next t ∧ Ran s s t ∧
      t.scratch g = ((fft2 (s.fftTables g) inv (s.scratch g)).run s.draws).1 ∧
      BytesKeptOutside s t (fun x => InArr .sre g.cells x ∨ InArr .sim g.cells x)) ∧
  (∀ (t : FftTables) (inv : Bool) (a : Cplx) (d : Draws), ∃ rows cols : Nat → Cplx,
    (∀ y, y < 2 ^ t.log2n → ∃ e, rows y = ((fft1 t inv
      { re := (List.range (2 ^ t.log2n)).map fun x => a.re.getD (y * 2 ^ t.log2n + x) posZero
        im := (List.range (2 ^ t.log2n)).map fun x => a.im.getD (y * 2 ^ t.log2n + x) posZero }).run e).1) ∧
    (∀ x, x < 2 ^ t.log2n → ∃ e, cols x = ((fft1 t inv
      { re := (List.range (2 ^ t.log2n)).map fun y => (rows y).re.getD x posZero
        im := (List.range (2 ^ t.log2n)).map fun y => (rows y).im.getD x posZero }).run e).1) ∧
    ∀ x y, x < 2 ^ t.log2n → y < 2 ^ t.log2n →
      Cplx.at ((fft2 t inv a).run d).1 (y * 2 ^ t.log2n + x) = Cplx.at (cols x) y) ∧
  (∀ (t : FftTables) (v : Cplx), Cplx.Sized t v → t.rev = (List.range (2 ^ t.log2n)).map (reverseBits t.log2n) →
    ∀ i, i < 2 ^ t.log2n → Cplx.at (permute t v) i = Cplx.at v (reverseBits t.log2n i)) ∧
  (∀ (t : FftTables) (inv : Bool) (v : Cplx) (d : Draws) (m : Nat), Cplx.Sized t v → m < t.log2n →
    ∀ b j, b < 2 ^ (t.log2n - (m + 1)) → j < 2 ^ m → ∃ e,
      (Cplx.at ((fftStage t inv (2 ^ m) v).run d).1 (b * 2 ^ (m + 1) + j),
        Cplx.at ((fftStage t inv (2 ^ m) v).run d).1 (b * 2 ^ (m + 1) + j + 2 ^ m)) =
      ((butterflyOf
        (t.cos.getD (j * 2 ^ (t.log2n - (m + 1))) posZero,
          if inv then t.sin.getD (j * 2 ^ (t.log2n - (m + 1))) posZero
          else fneg (t.sin.getD (j * 2 ^ (t.log2n - (m + 1))) posZero))
        (Cplx.at v (b * 2 ^ (m + 1) + j)) (Cplx.at v (b * 2 ^ (m + 1) + j + 2 ^ m))).run e).1) ∧
  (∀ (t : FftTables) (v : Cplx) (d : Draws), Cplx.Sized t v →
    (fft1 t false v).run d = (stagesOf t false v).run d ∧
    ∀ i, i < 2 ^ t.log2n → ∃ e e',
      Cplx.at ((fft1 t true v).run d).1 i =
        (((fdiv (Cplx.at ((stagesOf t true v).run d).1 i).1 (ofNat64 (2 ^ t.log2n))).run e).1,
          ((fdiv (Cplx.at ((stagesOf t true v).run d).1 i).2 (ofNat64 (2 ^ t.log2n))).run e').1))

/-- CMUL replaces each element `a + bi` of the scratch arrays by its product with the element `c + di` of the kernel
transform, `(a*c) - (b*d)` and `(a*d) + (b*c)`, each operation rounded; nothing else changes. -/
def Obligations.CmulMultipliesElementwise : Prop :=
  (∀ a b c d : Word, complexMul a b c d = productOf a b c d) ∧
  ∀ (s : State) (g : Geometry) (c : Chan), s.engine = some g → g.active c = true →
    ∃ t, exec (.cmul (.ch c)) s = .next t ∧ Ran s s t ∧
      (∀ i, i < g.cells → ∃ d : Draws,
        (t.readElem .sre i, t.readElem .sim i) =
          ((productOf (s.readElem .sre i) (s.readElem .sim i) (s.readElem (.ktfRe c) i)
            (s.readElem (.ktfIm c) i)).run d).1) ∧
      BytesKeptOutside s t (fun x => InArr .sre g.cells x ∨ InArr .sim g.cells x)

/-- GROWTH writes the inactive bank only: each cell is `clamp01(F + dt*lookup(U))` and lies in [0, 1]. Operation by
operation, with each rounded: the table's index is the floor of the clamped U times RES - 1, and the new value the clamped
sum of F and the product of DT and the entry. -/
def Obligations.GrowthWritesTheInactiveBank : Prop :=
  ∀ (s : State) (g : Geometry) (c : Chan), s.engine = some g → g.active c = true →
    ∃ t, exec (.growth (.ch c)) s = .next t ∧ Ran s s t ∧
      (∀ i, i < g.cells → InUnit (t.readElem (s.inactiveField c) i) ∧
        (∃ d : Draws, t.readElem (s.inactiveField c) i =
          ((s.nextCell g c (s.readElem (s.activeField c) i) (s.readElem .sre i)).run d).1) ∧
        ∃ (x dg v : Word) (k : Nat) (d d' d'' : Draws),
          x = ((fmul (clamp01 (s.readElem .sre i)) (ofNat64 (g.res - 1))).run d).1 ∧ FloorOf x k ∧ k < g.res ∧
          dg = ((fmul (s.p.get c).dt (s.readElem (.gtab c) k)).run d').1 ∧
          v = ((fadd (s.readElem (.field c (s.bank.get c)) i) dg).run d'').1 ∧
          t.readElem (.field c (!s.bank.get c)) i = clamp01 v) ∧
      BytesKeptOutside s t (InArr (s.inactiveField c) g.cells)

/-- SWAP flips the bank bit of each of its channels and moves no data. -/
def Obligations.SwapFlipsBanks : Prop :=
  ∀ (s : State) (g : Geometry) (sel : ChSel) (cs : List Chan), s.engine = some g → chansOf g sel = .ok cs →
    ∃ t, exec (.swap sel) s = .next t ∧ Ran s { s with bank := t.bank } t ∧
      (∀ c, t.bank.get c = if c ∈ cs then !s.bank.get c else s.bank.get c) ∧
      t.mem = s.mem ∧ t.draws = s.draws ∧ t.epochs = s.epochs

/-- STATS writes the statistics registers only: MASS and the sums of the centroid are those of the cells in row-major order,
of the three-channel engine of the cells' averages, each operation rounded; a mass that is not above zero gives velocity
+0.0 and keeps the centroid; one above zero makes the centroid valid, with velocity +0.0 if none was, and otherwise the
length of the displacement with each axis more than N/2 corrected by N; INC counts STEP. -/
def Obligations.StatsRecomputesTheRecord : Prop :=
  ∀ (s : State) (g : Geometry) (inc : Bool), s.engine = some g →
    ∃ t, exec (.stats inc) s = .next t ∧ Ran s { s with stats := t.stats } t ∧ t.mem = s.mem ∧ t.epochs = s.epochs ∧
      s.fieldSums g = statsSums s g (List.range (g.n * g.n)) 0x0000000000000000 0x0000000000000000 0x0000000000000000 ∧
      t.stats.mass = ((s.fieldSums g).run s.draws).1.mass ∧
      t.stats.step = (if inc then s.stats.step + 1 else s.stats.step) ∧
      (flt posZero t.stats.mass = false → t.stats.velocity = posZero ∧ t.stats.centerX = s.stats.centerX ∧
        t.stats.centerY = s.stats.centerY ∧ t.stats.centroidValid = s.stats.centroidValid) ∧
      (flt posZero t.stats.mass = true → t.stats.centroidValid = true ∧
        (∃ d, t.stats.centerX = ((fdiv ((s.fieldSums g).run s.draws).1.sx t.stats.mass).run d).1) ∧
        (∃ d, t.stats.centerY = ((fdiv ((s.fieldSums g).run s.draws).1.sy t.stats.mass).run d).1) ∧
        (s.stats.centroidValid = false → t.stats.velocity = posZero) ∧
        (∃ d, t.stats.velocity = ((velocityTo g.n s.stats t.stats.centerX t.stats.centerY).run d).1) ∧
        (s.stats.centroidValid = true → ∃ d, t.stats.velocity =
          ((velocityBetween g.n s.stats.centerX s.stats.centerY t.stats.centerX t.stats.centerY).run d).1))

/-- STEP equals the primitive sequence: the primitives of every channel and STATS inc, run as commands, end in a state
that differs from the one STEP leaves only in that STEP leaves the scratch arrays unspecified: their bytes are fresh free
values (assumption 3), and every other byte and every register is kept. -/
def Obligations.StepEqualsThePrimitiveSequence : Prop :=
  (∀ (s : State) (g : Geometry), s.engine = some g →
    ∃ u, execAll (stepPrimitives g) s = .next u ∧ exec .step s = .next u.forgetScratch) ∧
  ∀ u : State,
    u.forgetScratch = { u with
      mem := u.forgetScratch.mem, epochs := { u.epochs with scratch := u.epochs.scratch + 1 } } ∧
    BytesKeptOutside u u.forgetScratch InScratch ∧
    ∀ x, InScratch x → u.forgetScratch.readByte x = Config.unspecified (u.epochs.scratch + 1) x

/-- STEP completes: every active channel's bank flips, its new field lies in [0, 1], STEP is counted once, and nothing but
the statistics, the formerly inactive banks of active channels and the scratch arrays is written. -/
def Obligations.StepAdvancesTheFields : Prop :=
  ∀ (s : State) (g : Geometry), s.engine = some g →
    ∃ t, exec .step s = .next t ∧ Ran s { s with bank := t.bank, stats := t.stats } t ∧
      (∀ c, t.bank.get c = if g.active c then !s.bank.get c else s.bank.get c) ∧
      (∀ c i, g.active c = true → i < g.cells → InUnit (t.readElem (t.activeField c) i)) ∧
      t.stats.step = s.stats.step + 1 ∧
      BytesKeptOutside s t (fun x => InScratch x ∨ ∃ c, g.active c = true ∧ InArr (s.inactiveField c) g.cells x)

/-- RUN with count n is n STEP commands, for n >= 1; with count 0 it changes nothing but the completion record. -/
def Obligations.RunRepeatsStep : Prop :=
  ∀ (s : State) (g : Geometry), s.engine = some g →
    (s.operands.arg0 = 0 → exec .run s = .next (s.recordCompletion .ok)) ∧
    (s.operands.arg0 ≠ 0 →
      ∃ t, exec .run s = .next t ∧ execAll (List.replicate s.operands.arg0.toNat .step) s = .next t)

/-! ### Paint commands and scalar results -/

/-- CLEAR zeroes the active field of its channels, STEP and MASS; the rest of the statistics, the inactive banks and all
other memory are kept. -/
def Obligations.ClearZeroesTheFields : Prop :=
  ∀ (s : State) (g : Geometry) (sel : ChSel) (cs : List Chan), s.engine = some g → chansOf g sel = .ok cs →
    ∃ t, exec (.clear sel) s = .next t ∧ Ran s { s with stats := { s.stats with step := 0, mass := 0 } } t ∧
      (∀ c ∈ cs, ∀ i, i < g.cells → t.readElem (s.activeField c) i = 0) ∧
      BytesKeptOutside s t (fun x => ∃ c ∈ cs, InArr (s.activeField c) g.cells x)

/-- RANDOMIZE completes for every channel set, density and radius. Channel after channel and cell after cell in row-major
order, a cell within the radius takes one draw for the test, and if that is below the density a second as its value; every
other cell gets +0.0. The RNG position moves by the draws taken; every value lies in [0, 1); STEP and MASS are zeroed, and
nothing else is written. -/
def Obligations.RandomizeSeedsADisc : Prop :=
  ∀ (s : State) (g : Geometry) (sel : ChSel) (cs : List Chan), s.engine = some g → chansOf g sel = .ok cs →
    ∃ t, exec (.randomize sel) s = .next t ∧ Ran s { s with stats := { s.stats with step := 0, mass := 0 } } t ∧
      BytesKeptOutside s t (fun x => ∃ c ∈ cs, InArr (s.activeField c) g.cells x) ∧
      ∀ lim : Word, lim = ((fmul s.operands.arg1 (ofNat64 g.n)).run s.draws).1 →
        (∀ cw ∈ (seedFields s.operands.arg0 (inDiscOf g lim s.draws) g.cells cs s.draws.rng).1,
          t.readArray (s.activeField cw.1) g.cells = cw.2) ∧
        t.draws.rng = (seedFields s.operands.arg0 (inDiscOf g lim s.draws) g.cells cs s.draws.rng).2 ∧
        ∀ c ∈ cs, ∀ i, i < g.cells →
          (fle 0x0000000000000000 (t.readElem (s.activeField c) i) = true ∧
            flt (t.readElem (s.activeField c) i) 0x3FF0000000000000 = true) ∧
          (inDiscOf g lim s.draws i = false → t.readElem (s.activeField c) i = 0)

/-- No command but RANDOMIZE moves the position in the RNG stream. -/
def Obligations.OnlyRandomizeTakesRngDraws : Prop :=
  ∀ (i : Instr) (s t : State), (∀ sel, i ≠ .randomize sel) → exec i s = .next t → t.draws.rng = s.draws.rng

/-- PLACE with a legal pattern and spans composites it: destination offset (i, j) of channel c gets the clamped sum of its
cell and the resampled source element; every other cell, and all other memory, is as before. The pattern is PATTERN with PAT_W
and PAT_H, or the active field of channel ARG3; a span is 0 for a product that is not at least 1.0 and otherwise its floor;
a source index is the floor of the quotient, at most the last. The spans are those of the width and the height, and cell
(x, y) is element `y*N + x`. -/
def Obligations.PlaceCompositesThePattern : Prop :=
  (∀ (g : Geometry) (x y : Nat), g.idx x y = y * g.n + x ∧ g.cells = g.n * g.n ∧ g.n = 2 ^ g.log2n) ∧
  (∀ (g : Geometry) (scale : Word) (p : Pattern) (d : Draws) (w h : Nat),
    ((scaledSpans g scale p).run d).1 = some (w, h) →
    (∃ e, ((scaledSpan g scale p.width).run e).1 = some w) ∧ ∃ e, ((scaledSpan g scale p.height).run e).1 = some h) ∧
  (∀ (s : State) (g : Geometry) (n : Nat), n = 2 ^ s.inst.log2NMax →
    (s.operands.patW.toNat ≤ n * n → s.operands.patH.toNat ≤ n * n →
      s.operands.patW.toNat * s.operands.patH.toNat ≤ n * n →
      s.placePattern g .pattern = .ok ⟨s.operands.patW.toNat, s.operands.patH.toNat, .pattern, s.operands.patW.toNat⟩) ∧
    (∀ c : Chan, g.active c = true → s.operands.arg3.toNat = c.index →
      s.placePattern g .field = .ok ⟨g.n, g.n, s.activeField c, g.n⟩)) ∧
  (∀ (g : Geometry) (scale p : Word) (l : Nat) (d : Draws), p = ((fmul (ofNat64 l) scale).run d).1 →
    (fle fOne p = false → ((scaledSpan g scale l).run d).1 = some 0) ∧
    (fle fOne p = true → flt (ofNat64 g.n) p = false →
      ∃ m, ((scaledSpan g scale l).run d).1 = some m ∧ m ≤ g.n ∧ FloorOf p m)) ∧
  (∀ (scale q : Word) (l i : Nat) (d : Draws), q = ((fdiv (ofNat64 i) scale).run d).1 →
    magnitude q < infMagnitude → signBit q = false →
    ∃ m, ((sourceIndex scale l i).run d).1 = min m (l - 1) ∧ FloorOf q m) ∧
  (∀ (s : State) (g : Geometry) (sel : ChSel) (cs : List Chan) (source : PatternSource) (p : Pattern) (w h : Nat),
    s.engine = some g → chansOf g sel = .ok cs → s.placePattern g source = .ok p →
    ((scaledSpans g s.operands.arg2 p).run s.draws).1 = some (w, h) →
    ∃ t, exec (.place sel source) s = .next t ∧ Ran s s t ∧
      (∀ c ∈ cs, ∀ i j, i < w → j < h → ∃ d : Draws,
        t.readElem (s.activeField c)
            (g.idx (wrapMod (argInt s.operands.arg0 + 2 * paintOffset g sel c + i - (w / 2 : Nat)) g.n)
              (wrapMod (argInt s.operands.arg1 + 2 * paintOffset g sel c + j - (h / 2 : Nat)) g.n)) =
          clamp01 ((fadd
            (s.readElem (s.activeField c)
              (g.idx (wrapMod (argInt s.operands.arg0 + 2 * paintOffset g sel c + i - (w / 2 : Nat)) g.n)
                (wrapMod (argInt s.operands.arg1 + 2 * paintOffset g sel c + j - (h / 2 : Nat)) g.n)))
            (s.readElem p.arr (((sourceIndex s.operands.arg2 p.height j).run s.draws).1 * p.stride +
              ((sourceIndex s.operands.arg2 p.width i).run s.draws).1))).run d).1) ∧
      BytesKeptOutside s t (fun x => ∃ c ∈ cs, ∃ i j, i < w ∧ j < h ∧
        InElem (s.activeField c)
          (g.idx (wrapMod (argInt s.operands.arg0 + 2 * paintOffset g sel c + i - (w / 2 : Nat)) g.n)
            (wrapMod (argInt s.operands.arg1 + 2 * paintOffset g sel c + j - (h / 2 : Nat)) g.n)) x))

/-- PLACE's own errors: a pattern larger than the PATTERN region is E_BAD_ARG, a source channel at or above C is
E_BAD_CHANNEL, and a scaled size above N is E_BAD_ARG; nothing else changes. -/
def Obligations.PlaceRefusesBadPatterns : Prop :=
  ∀ (s : State) (g : Geometry) (sel : ChSel) (cs : List Chan), s.engine = some g → chansOf g sel = .ok cs →
    (s.inst.nMax * s.inst.nMax < s.operands.patW.toNat ∨ s.inst.nMax * s.inst.nMax < s.operands.patH.toNat ∨
        s.inst.nMax * s.inst.nMax < s.operands.patW.toNat * s.operands.patH.toNat →
      exec (.place sel .pattern) s = .next (s.recordCompletion .badArg)) ∧
    (g.chanCount ≤ s.operands.arg3.toNat →
      exec (.place sel .field) s = .next (s.recordCompletion .badChannel)) ∧
    (∀ (source : PatternSource) (p : Pattern), s.placePattern g source = .ok p →
      ((scaledSpans g s.operands.arg2 p).run s.draws).1 = none →
      exec (.place sel source) s = .next (s.recordCompletion .badArg)) ∧
    (∀ (source : PatternSource) (p : Pattern), s.placePattern g source = .ok p →
      flt (ofNat64 g.n) ((fmul (ofNat64 p.width) s.operands.arg2).run s.draws).1 = true ∨
        flt (ofNat64 g.n) ((fmul (ofNat64 p.height) s.operands.arg2).run s.draws).1 = true →
      exec (.place sel source) s = .next (s.recordCompletion .badArg))

/-- CIRCLE sets every cell within the radius to the clamped value, by the toroidal distance from the channel's centre, and
leaves every other cell and all other memory as they were. The offset of channel c in a command to ALL of the
three-channel engine is c - 1, and 0 otherwise; the distance on an axis is the shorter way round, and the length of the two
the rounded root of the sum of their squares; the centre is read as two signed integers. -/
def Obligations.CircleSetsTheDisc : Prop :=
  (∀ (g : Geometry) (sel : ChSel) (c : Chan),
    (sel = .all → g.chanCount = 3 → paintOffset g sel c = match c with | .c0 => -1 | .c1 => 0 | .c2 => 1) ∧
    (sel ≠ .all ∨ g.chanCount = 1 → paintOffset g sel c = 0)) ∧
  (∀ (n : Nat) (a b : Int), 0 < n →
    ∃ t : Nat, t < n ∧ (∃ q : Int, a - b - t = q * n) ∧ tdist n a b = min t (n - t) ∧ tdist n a b ≤ n / 2) ∧
  (∀ dx dy : Nat, cellDistance dx dy = fsqrt (ofNat64 (dx * dx + dy * dy))) ∧
  (∀ w : Word, argInt w = w.toInt) ∧
  ∀ (s : State) (g : Geometry) (sel : ChSel) (cs : List Chan), s.engine = some g → chansOf g sel = .ok cs →
    ∃ t, exec (.circle sel) s = .next t ∧ Ran s s t ∧
      (∀ c ∈ cs, ∀ i, i < g.cells → t.readElem (s.activeField c) i =
        if fle ((cellDistance (tdist g.n (i % g.n : Nat) (argInt s.operands.arg0 + paintOffset g sel c))
            (tdist g.n (i / g.n : Nat) (argInt s.operands.arg1 + paintOffset g sel c))).run s.draws).1 s.operands.arg2
        then clamp01 s.operands.arg3 else s.readElem (s.activeField c) i) ∧
      BytesKeptOutside s t (fun x => ∃ c ∈ cs, InArr (s.activeField c) g.cells x)

/-- SETV writes the clamped value to the wrapped cell of each of its channels and nothing else. -/
def Obligations.SetvWritesOneCell : Prop :=
  ∀ (s : State) (g : Geometry) (sel : ChSel) (cs : List Chan), s.engine = some g → chansOf g sel = .ok cs →
    ∃ t, exec (.setv sel) s = .next t ∧ Ran s s t ∧
      (∀ c ∈ cs, t.readElem (s.activeField c)
        (wrapMod s.operands.arg1.toInt g.n * g.n + wrapMod s.operands.arg0.toInt g.n) = clamp01 s.operands.arg2) ∧
      BytesKeptOutside s t (fun x => ∃ c ∈ cs, InElem (s.activeField c)
        (wrapMod s.operands.arg1.toInt g.n * g.n + wrapMod s.operands.arg0.toInt g.n) x)

/-- GETV puts the wrapped cell of the active field into RESULT, unclamped, and writes nothing else. -/
def Obligations.GetvReadsOneCell : Prop :=
  ∀ (s : State) (g : Geometry) (c : Chan), s.engine = some g → g.active c = true →
    ∃ t, exec (.getv (.ch c)) s = .next t ∧
      t.result = s.readElem (s.activeField c)
        (wrapMod s.operands.arg1.toInt g.n * g.n + wrapMod s.operands.arg0.toInt g.n) ∧
      Ran s { s with result := t.result } t ∧
      t.mem = s.mem ∧ t.draws = s.draws ∧ t.epochs = s.epochs

/-- GEVAL puts `gg(ARG0, MU, SIGMA)` into RESULT, operation by operation and with the operand unclamped, and writes nothing
else; the model's `gg` is that formula. -/
def Obligations.GevalEvaluatesTheClosedForm : Prop :=
  (∀ u mu sigma : Word, gg u mu sigma = growthOf u mu sigma) ∧
  ∀ (s : State) (g : Geometry) (c : Chan), s.engine = some g → g.active c = true →
    ∃ t, exec (.geval (.ch c)) s = .next t ∧
      Ran s { s with result := ((growthOf s.operands.arg0 (s.p.get c).mu (s.p.get c).sigma).run s.draws).1 } t ∧
      t.mem = s.mem ∧ t.epochs = s.epochs

/-- LOOKUP puts an entry of the channel's growth table into RESULT: entry 0 for a NaN, a negative operand and both zeros,
the last entry for an operand of 1.0 or more, and otherwise the entry at the floor of the scaled operand; the model's floor
is the floor for every finite word without a sign. -/
def Obligations.LookupReadsTheTable : Prop :=
  (∀ w : Word, magnitude w < infMagnitude → signBit w = false → FloorOf w (floorNat w)) ∧
  ∀ (s : State) (g : Geometry) (c : Chan), s.engine = some g → g.active c = true →
    ∃ t i, exec (.lookup (.ch c)) s = .next t ∧ i < g.res ∧ Ran s { s with result := s.readElem (.gtab c) i } t ∧
      t.mem = s.mem ∧ t.epochs = s.epochs ∧
      (isNan s.operands.arg0 = true ∨ fle s.operands.arg0 posZero = true → i = 0) ∧
      (fle fOne s.operands.arg0 = true → i = g.res - 1) ∧
      (flt posZero s.operands.arg0 = true → flt s.operands.arg0 fOne = true →
        i = floorNat ((fmul s.operands.arg0 (ofNat64 (g.res - 1))).run s.draws).1)

/-! ### Invariants -/

/-- Every event keeps the machine's invariant. -/
def Obligations.StepKeepsTheMachineInvariant : Prop :=
  ∀ s t : State, MachineInv s → step s = .next t → MachineInv t

/-- Every event keeps the cache invariant: KERNEL, KTF, GTAB and the tables of the transform are those of P, N and RES,
NaN bits apart (assumption 1). -/
def Obligations.StepKeepsTheCachesValid : Prop :=
  ∀ s t : State, CachesValid s → step s = .next t → CachesValid t

/-- The reset state satisfies both invariants, and its registers hold the reset values of the spec's table. -/
def Obligations.ResetStateSatisfiesTheInvariants : Prop :=
  MachineInv State.reset ∧ CachesValid State.reset ∧
  ∀ r : Reg, State.reset.readReg r = resetWord State.reset.inst r

/-! ### Numerics -/

/-- Rounding is to nearest, ties to even: no finite magnitude is nearer to `num/den` units than the rounded one, the
rounded one is even where another is as near, and the result is infinite exactly from half a unit in the last place beyond
the largest finite magnitude. The sum, difference, product, quotient and square root of finite words are the exact results,
rounded once, with the IEEE signs of zeros and infinities; the invalid operations and those on a NaN give a NaN. The
comparisons are false with a NaN and otherwise the order of the extended reals, for which -0.0 and +0.0 are equal; negation
and the absolute value set the sign alone; and an integer is converted rounded once, up to 2^53 exactly. -/
def Obligations.RoundingIsToNearestEven : Prop :=
  (∀ num den : Nat, 0 < den →
    (roundUnits num den = infMagnitude ↔ den * ((2 ^ 54 - 1) * 2 ^ 2044) ≤ num) ∧
    (roundUnits num den < infMagnitude → ∀ p, p < infMagnitude →
      ((unitsOfMagnitude (roundUnits num den) * den : Nat) - (num : Int) : Int).natAbs ≤
        ((unitsOfMagnitude p * den : Nat) - (num : Int) : Int).natAbs ∧
      (((unitsOfMagnitude (roundUnits num den) * den : Nat) - (num : Int) : Int).natAbs =
          ((unitsOfMagnitude p * den : Nat) - (num : Int) : Int).natAbs →
        p ≠ roundUnits num den → roundUnits num den % 2 = 0))) ∧
  (∀ (a b : Word), magnitude a < infMagnitude → magnitude b < infMagnitude →
    AnswersRounded (fadd a b) (realWord a + realWord b) ∧
    (realWord a + realWord b = 0 → Answers (fadd a b) (if signBit a && signBit b then 0x8000000000000000 else 0)) ∧
    AnswersRounded (fsub a b) (realWord a - realWord b) ∧
    (realWord a - realWord b = 0 → Answers (fsub a b) (if signBit a && !signBit b then 0x8000000000000000 else 0)) ∧
    AnswersRounded (fmul a b) (realWord a * realWord b) ∧
    (∀ d, signBit ((fmul a b).run d).1 = (signBit a ^^ signBit b)) ∧
    (realWord b ≠ 0 → AnswersRounded (fdiv a b) (realWord a / realWord b) ∧
      ∀ d, signBit ((fdiv a b).run d).1 = (signBit a ^^ signBit b)) ∧
    (realWord b = 0 → realWord a ≠ 0 →
      Answers (fdiv a b) (if signBit a ^^ signBit b then 0xFFF0000000000000 else 0x7FF0000000000000)) ∧
    (realWord b = 0 → realWord a = 0 → AnswersNan (fdiv a b)) ∧
    (0 ≤ realWord a → AnswersRounded (fsqrt a) (Real.sqrt (realWord a))) ∧
    (realWord a = 0 → Answers (fsqrt a) a) ∧
    (realWord a < 0 → AnswersNan (fsqrt a))) ∧
  (∀ (a b : Word), isNan a = true ∨ isNan b = true →
    AnswersNan (fadd a b) ∧ AnswersNan (fsub a b) ∧ AnswersNan (fmul a b) ∧ AnswersNan (fdiv a b)) ∧
  (∀ a : Word, isNan a = true → AnswersNan (fsqrt a)) ∧
  (∀ (a b : Word), magnitude a = infMagnitude → magnitude b < infMagnitude →
    Answers (fadd a b) a ∧ Answers (fadd b a) a ∧ Answers (fsub a b) a ∧ Answers (fsub b a) (fneg a) ∧
    (realWord b = 0 → AnswersNan (fmul a b) ∧ AnswersNan (fmul b a)) ∧
    (realWord b ≠ 0 → Answers (fmul a b) (if signBit b then fneg a else a) ∧
      Answers (fmul b a) (if signBit b then fneg a else a)) ∧
    Answers (fdiv a b) (if signBit b then fneg a else a) ∧
    Answers (fdiv b a) (if signBit a ^^ signBit b then 0x8000000000000000 else 0)) ∧
  (∀ (a b : Word), magnitude a = infMagnitude → magnitude b = infMagnitude →
    (signBit a = signBit b → Answers (fadd a b) a ∧ AnswersNan (fsub a b)) ∧
    (signBit a ≠ signBit b → AnswersNan (fadd a b) ∧ Answers (fsub a b) a) ∧
    Answers (fmul a b) (if signBit b then fneg a else a) ∧ AnswersNan (fdiv a b)) ∧
  Answers (fsqrt 0x7FF0000000000000) 0x7FF0000000000000 ∧ AnswersNan (fsqrt 0xFFF0000000000000) ∧
  (∀ a b : Word,
    (flt a b = true ↔ isNan a = false ∧ isNan b = false ∧ extendedWord a < extendedWord b) ∧
    (fle a b = true ↔ isNan a = false ∧ isNan b = false ∧ extendedWord a ≤ extendedWord b)) ∧
  extendedWord 0x8000000000000000 = extendedWord 0x0000000000000000 ∧
  (∀ a : Word, (signBit (fneg a) = !signBit a) ∧ magnitude (fneg a) = magnitude a ∧
    signBit (fabs a) = false ∧ magnitude (fabs a) = magnitude a) ∧
  (∀ n : Nat, Rounded (ofNat64 n) n ∧ (n ≤ 2 ^ 53 → magnitude (ofNat64 n) < infMagnitude ∧ realWord (ofNat64 n) = n))

/-- `clamp01`: NaN and negative operands give +0.0, operands above 1.0 give 1.0, every other operand is returned as it
is; the result lies in [0, 1]. -/
def Obligations.ClampLandsInTheUnitInterval : Prop :=
  ∀ v : Word,
    (isNan v = true → clamp01 v = 0x0000000000000000) ∧
    (flt v 0x0000000000000000 = true → clamp01 v = 0x0000000000000000) ∧
    (flt 0x3FF0000000000000 v = true → clamp01 v = 0x3FF0000000000000) ∧
    (isNan v = false → flt v 0x0000000000000000 = false → flt 0x3FF0000000000000 v = false → clamp01 v = v) ∧
    InUnit (clamp01 v)

/-- `mod(a, n)` is the unique representative of `a` in 0..n-1. -/
def Obligations.WrapModIsTheRepresentative : Prop :=
  ∀ (a : Int) (n : Nat), 0 < n →
    wrapMod a n < n ∧ (∃ q : Int, a - (wrapMod a n : Int) = q * n) ∧
    ∀ r : Nat, r < n → (∃ q : Int, a - (r : Int) = q * n) → r = wrapMod a n

/-- The kernel is symmetric under exchange of the axes and under reflection at its centre on each axis: the unnormalized
cell values, and the elements of KERNEL, bit for bit but for the bits of a NaN (assumption 1). KERNEL of a valid kernel
with a finite sum holds no NaN. (Values in [0, 1], as R171 gives them, have a finite sum; the free value of assumption 5
is not known to lie there.) -/
def Obligations.KernelIsSymmetric : Prop :=
  (∀ (g : Geometry) (p : Params) (x y : Nat), x < g.n → y < g.n →
    kernelVal g.n p x y = kernelVal g.n p y x ∧
    kernelVal g.n p ((g.n - x) % g.n) y = kernelVal g.n p x y ∧
    kernelVal g.n p x ((g.n - y) % g.n) = kernelVal g.n p x y) ∧
  (∀ (t : FftTables) (p : Params) (d : Draws) (n : Nat) (k : Nat → Nat → Word), n = 2 ^ t.log2n →
    (∀ x y, k x y = ((buildKernel t p).run d).1.kernel.getD (y * n + x) posZero) →
    (∀ x y, x < n → y < n → SameValue (k x y) (k y x)) ∧
    (∀ a b : Int,
      SameValue (k (wrapMod ((n / 2 : Nat) + a) n) (wrapMod ((n / 2 : Nat) + b) n))
        (k (wrapMod ((n / 2 : Nat) - a) n) (wrapMod ((n / 2 : Nat) + b) n)) ∧
      SameValue (k (wrapMod ((n / 2 : Nat) + a) n) (wrapMod ((n / 2 : Nat) + b) n))
        (k (wrapMod ((n / 2 : Nat) + a) n) (wrapMod ((n / 2 : Nat) - b) n))) ∧
    (((kernelOk n p).run d).1 = true → magnitude ((kernelRaw n p).run d).1.2 < infMagnitude →
      ∀ x y, x < n → y < n → isNan (k x y) = false))

/-- fftShift takes element (x, y) from (x + N/2, y + N/2), wrapped, so that the kernel's centre moves to cell (0, 0), and is
its own inverse. -/
def Obligations.FftShiftIsAnInvolution : Prop :=
  ∀ (g : Geometry) (k : List Word), k.length = g.cells →
    (∀ x y, x < g.n → y < g.n → (fftShift g.n k).getD (g.idx x y) posZero =
      k.getD (g.idx (wrapMod ((x : Int) + (g.n / 2 : Nat)) g.n) (wrapMod ((y : Int) + (g.n / 2 : Nat)) g.n)) posZero) ∧
    (fftShift g.n k).getD 0 posZero = k.getD (g.idx (g.n / 2) (g.n / 2)) posZero ∧
    fftShift g.n (fftShift g.n k) = k

/-- Bit reversal is an involution of 0..N-1, so the permutation of the transform is one of exchanges; the table holds its
values. -/
def Obligations.BitReversalIsAnInvolution : Prop :=
  (∀ n i : Nat, i < 2 ^ n → reverseBits n i < 2 ^ n ∧ reverseBits n (reverseBits n i) = i ∧
    ∀ j, j < n → (reverseBits n i).testBit j = i.testBit (n - 1 - j)) ∧
  ∀ n : Nat, (bitrevTable n).length = 2 ^ n ∧
    ∀ i, i < 2 ^ n → (bitrevTable n).getD i 0 = BitVec.ofNat 64 (reverseBits n i)

/-- The enclosure of `cos(2*pi*k/2^n)` encloses it, with every number of fraction bits. The twiddles `cosTurn n k` and
`sinTurn n k` are the cosine and the sine of that angle, rounded once, wherever a rung of the precision ladder decides them;
the tables consist of them; and their entries at the angles 0 and pi/2 are exact. (The enclosures and the ladder are the
model's means of computing the rounded tables: assumption 6.) -/
def Obligations.CosEnclosureEncloses : Prop :=
  (∀ p n k : Nat, 2 * k ≤ 2 ^ n →
    ((cosEnclosure p n k).1 : ℝ) / 2 ^ p ≤ Real.cos (2 * Real.pi * k / 2 ^ n) ∧
    Real.cos (2 * Real.pi * k / 2 ^ n) ≤ ((cosEnclosure p n k).2 : ℝ) / 2 ^ p) ∧
  (∀ n k : Nat, 2 * k ≤ 2 ^ n → CosDecided n k → Rounded (cosTurn n k) (Real.cos (2 * Real.pi * k / 2 ^ n))) ∧
  (∀ n k : Nat, 2 * k < 2 ^ n → CosDecided (n + 2) (if 4 * k ≤ 2 ^ n then 2 ^ n - 4 * k else 4 * k - 2 ^ n) →
    Rounded (sinTurn n k) (Real.sin (2 * Real.pi * k / 2 ^ n))) ∧
  (∀ n k : Nat, k < 2 ^ n / 2 →
    (cosTable n).getD k posZero = cosTurn n k ∧ (sinTable n).getD k posZero = sinTurn n k) ∧
  (∀ n : Nat, cosTurn n 0 = 0x3FF0000000000000 ∧ sinTurn n 0 = 0x0000000000000000 ∧
    cosTurn (n + 2) (2 ^ n) = 0x0000000000000000 ∧ sinTurn (n + 2) (2 ^ n) = 0x3FF0000000000000)

/-- `exp64` of a finite word is the exponential of its value, rounded once, for zeros, for magnitudes beyond 746, and for
every other word wherever a rung of the precision ladder decides it. It is 1.0 for both zeros, +0.0 below -746 and for -Inf,
+Inf above 746 and for +Inf, and a NaN for a NaN. (The ladder is the model's: assumption 5.) -/
def Obligations.Exp64IsNearest : Prop :=
  (∀ (x : Word) (neg : Bool) (k : Nat), unpack x = .fin neg k →
    (0 < k → k ≤ 746 * 2 ^ 1074 → ∃ w, firstAgreed (expPatterns neg k) precisionLadder = some w) →
    AnswersRounded (exp64 x) (Real.exp (realWord x))) ∧
  (∀ x : Word, magnitude x < infMagnitude → (realWord x < -746 → Answers (exp64 x) 0x0000000000000000) ∧
    (746 < realWord x → Answers (exp64 x) 0x7FF0000000000000)) ∧
  Answers (exp64 0x0000000000000000) 0x3FF0000000000000 ∧ Answers (exp64 0x8000000000000000) 0x3FF0000000000000 ∧
  Answers (exp64 0xFFF0000000000000) 0x0000000000000000 ∧ Answers (exp64 0x7FF0000000000000) 0x7FF0000000000000 ∧
  (∀ x : Word, isNan x = true → AnswersNan (exp64 x))
end

