-- ==== Sys2Proof/Laws/State.lean ====
section
/-! SUPPORT. What each primitive update does to each field of the state: one lemma a field, by rfl. -/

namespace Sys2Proof.Machine

section writeElemLaws

@[simp] theorem writeElem_inst (s : State) (a : Arr) (i : Nat) (w : Word) :
    (s.writeElem a i w).inst = s.inst := rfl
@[simp] theorem writeElem_engine (s : State) (a : Arr) (i : Nat) (w : Word) :
    (s.writeElem a i w).engine = s.engine := rfl
@[simp] theorem writeElem_running (s : State) (a : Arr) (i : Nat) (w : Word) :
    (s.writeElem a i w).running = s.running := rfl
@[simp] theorem writeElem_cmd (s : State) (a : Arr) (i : Nat) (w : Word) :
    (s.writeElem a i w).cmd = s.cmd := rfl
@[simp] theorem writeElem_staged (s : State) (a : Arr) (i : Nat) (w : Word) :
    (s.writeElem a i w).staged = s.staged := rfl
@[simp] theorem writeElem_result (s : State) (a : Arr) (i : Nat) (w : Word) :
    (s.writeElem a i w).result = s.result := rfl
@[simp] theorem writeElem_lastErr (s : State) (a : Arr) (i : Nat) (w : Word) :
    (s.writeElem a i w).lastErr = s.lastErr := rfl
@[simp] theorem writeElem_firstErr (s : State) (a : Arr) (i : Nat) (w : Word) :
    (s.writeElem a i w).firstErr = s.firstErr := rfl
@[simp] theorem writeElem_errCmd (s : State) (a : Arr) (i : Nat) (w : Word) :
    (s.writeElem a i w).errCmd = s.errCmd := rfl
@[simp] theorem writeElem_busErr (s : State) (a : Arr) (i : Nat) (w : Word) :
    (s.writeElem a i w).busErr = s.busErr := rfl
@[simp] theorem writeElem_overrun (s : State) (a : Arr) (i : Nat) (w : Word) :
    (s.writeElem a i w).overrun = s.overrun := rfl
@[simp] theorem writeElem_irq (s : State) (a : Arr) (i : Nat) (w : Word) :
    (s.writeElem a i w).irq = s.irq := rfl
@[simp] theorem writeElem_bank (s : State) (a : Arr) (i : Nat) (w : Word) :
    (s.writeElem a i w).bank = s.bank := rfl
@[simp] theorem writeElem_com (s : State) (a : Arr) (i : Nat) (w : Word) :
    (s.writeElem a i w).com = s.com := rfl
@[simp] theorem writeElem_p (s : State) (a : Arr) (i : Nat) (w : Word) :
    (s.writeElem a i w).p = s.p := rfl
@[simp] theorem writeElem_stats (s : State) (a : Arr) (i : Nat) (w : Word) :
    (s.writeElem a i w).stats = s.stats := rfl
@[simp] theorem writeElem_mem (s : State) (a : Arr) (i : Nat) (w : Word) :
    (s.writeElem a i w).mem = Memory.store s.mem (a.addr i) (wordBytes w) := rfl
@[simp] theorem writeElem_draws (s : State) (a : Arr) (i : Nat) (w : Word) :
    (s.writeElem a i w).draws = s.draws := rfl
@[simp] theorem writeElem_epochs (s : State) (a : Arr) (i : Nat) (w : Word) :
    (s.writeElem a i w).epochs = s.epochs := rfl
@[simp] theorem writeElem_schedule (s : State) (a : Arr) (i : Nat) (w : Word) :
    (s.writeElem a i w).schedule = s.schedule := rfl
@[simp] theorem writeElem_resp (s : State) (a : Arr) (i : Nat) (w : Word) :
    (s.writeElem a i w).resp = s.resp := rfl

end writeElemLaws

section writeArrayLaws

@[simp] theorem writeArray_inst (s : State) (a : Arr) (ws : List Word) :
    (s.writeArray a ws).inst = s.inst := rfl
@[simp] theorem writeArray_engine (s : State) (a : Arr) (ws : List Word) :
    (s.writeArray a ws).engine = s.engine := rfl
@[simp] theorem writeArray_running (s : State) (a : Arr) (ws : List Word) :
    (s.writeArray a ws).running = s.running := rfl
@[simp] theorem writeArray_cmd (s : State) (a : Arr) (ws : List Word) :
    (s.writeArray a ws).cmd = s.cmd := rfl
@[simp] theorem writeArray_staged (s : State) (a : Arr) (ws : List Word) :
    (s.writeArray a ws).staged = s.staged := rfl
@[simp] theorem writeArray_result (s : State) (a : Arr) (ws : List Word) :
    (s.writeArray a ws).result = s.result := rfl
@[simp] theorem writeArray_lastErr (s : State) (a : Arr) (ws : List Word) :
    (s.writeArray a ws).lastErr = s.lastErr := rfl
@[simp] theorem writeArray_firstErr (s : State) (a : Arr) (ws : List Word) :
    (s.writeArray a ws).firstErr = s.firstErr := rfl
@[simp] theorem writeArray_errCmd (s : State) (a : Arr) (ws : List Word) :
    (s.writeArray a ws).errCmd = s.errCmd := rfl
@[simp] theorem writeArray_busErr (s : State) (a : Arr) (ws : List Word) :
    (s.writeArray a ws).busErr = s.busErr := rfl
@[simp] theorem writeArray_overrun (s : State) (a : Arr) (ws : List Word) :
    (s.writeArray a ws).overrun = s.overrun := rfl
@[simp] theorem writeArray_irq (s : State) (a : Arr) (ws : List Word) :
    (s.writeArray a ws).irq = s.irq := rfl
@[simp] theorem writeArray_bank (s : State) (a : Arr) (ws : List Word) :
    (s.writeArray a ws).bank = s.bank := rfl
@[simp] theorem writeArray_com (s : State) (a : Arr) (ws : List Word) :
    (s.writeArray a ws).com = s.com := rfl
@[simp] theorem writeArray_p (s : State) (a : Arr) (ws : List Word) :
    (s.writeArray a ws).p = s.p := rfl
@[simp] theorem writeArray_stats (s : State) (a : Arr) (ws : List Word) :
    (s.writeArray a ws).stats = s.stats := rfl
@[simp] theorem writeArray_mem (s : State) (a : Arr) (ws : List Word) :
    (s.writeArray a ws).mem = Memory.store s.mem a.base (ws.flatMap wordBytes) := rfl
@[simp] theorem writeArray_draws (s : State) (a : Arr) (ws : List Word) :
    (s.writeArray a ws).draws = s.draws := rfl
@[simp] theorem writeArray_epochs (s : State) (a : Arr) (ws : List Word) :
    (s.writeArray a ws).epochs = s.epochs := rfl
@[simp] theorem writeArray_schedule (s : State) (a : Arr) (ws : List Word) :
    (s.writeArray a ws).schedule = s.schedule := rfl
@[simp] theorem writeArray_resp (s : State) (a : Arr) (ws : List Word) :
    (s.writeArray a ws).resp = s.resp := rfl

end writeArrayLaws

section forgetScratchLaws

@[simp] theorem forgetScratch_inst (s : State) :
    (s.forgetScratch).inst = s.inst := rfl
@[simp] theorem forgetScratch_engine (s : State) :
    (s.forgetScratch).engine = s.engine := rfl
@[simp] theorem forgetScratch_running (s : State) :
    (s.forgetScratch).running = s.running := rfl
@[simp] theorem forgetScratch_cmd (s : State) :
    (s.forgetScratch).cmd = s.cmd := rfl
@[simp] theorem forgetScratch_staged (s : State) :
    (s.forgetScratch).staged = s.staged := rfl
@[simp] theorem forgetScratch_result (s : State) :
    (s.forgetScratch).result = s.result := rfl
@[simp] theorem forgetScratch_lastErr (s : State) :
    (s.forgetScratch).lastErr = s.lastErr := rfl
@[simp] theorem forgetScratch_firstErr (s : State) :
    (s.forgetScratch).firstErr = s.firstErr := rfl
@[simp] theorem forgetScratch_errCmd (s : State) :
    (s.forgetScratch).errCmd = s.errCmd := rfl
@[simp] theorem forgetScratch_busErr (s : State) :
    (s.forgetScratch).busErr = s.busErr := rfl
@[simp] theorem forgetScratch_overrun (s : State) :
    (s.forgetScratch).overrun = s.overrun := rfl
@[simp] theorem forgetScratch_irq (s : State) :
    (s.forgetScratch).irq = s.irq := rfl
@[simp] theorem forgetScratch_bank (s : State) :
    (s.forgetScratch).bank = s.bank := rfl
@[simp] theorem forgetScratch_com (s : State) :
    (s.forgetScratch).com = s.com := rfl
@[simp] theorem forgetScratch_p (s : State) :
    (s.forgetScratch).p = s.p := rfl
@[simp] theorem forgetScratch_stats (s : State) :
    (s.forgetScratch).stats = s.stats := rfl
@[simp] theorem forgetScratch_mem (s : State) :
    (s.forgetScratch).mem = Memory.forget s.mem (Arr.base .sre) (Arr.base .sim + 2 ^ 28) := rfl
@[simp] theorem forgetScratch_draws (s : State) :
    (s.forgetScratch).draws = s.draws := rfl
@[simp] theorem forgetScratch_epochs (s : State) :
    (s.forgetScratch).epochs = { s.epochs with scratch := s.epochs.scratch + 1 } := rfl
@[simp] theorem forgetScratch_schedule (s : State) :
    (s.forgetScratch).schedule = s.schedule := rfl
@[simp] theorem forgetScratch_resp (s : State) :
    (s.forgetScratch).resp = s.resp := rfl

end forgetScratchLaws

section forgetSizedLaws

@[simp] theorem forgetSized_inst (s : State) :
    (s.forgetSized).inst = s.inst := rfl
@[simp] theorem forgetSized_engine (s : State) :
    (s.forgetSized).engine = s.engine := rfl
@[simp] theorem forgetSized_running (s : State) :
    (s.forgetSized).running = s.running := rfl
@[simp] theorem forgetSized_cmd (s : State) :
    (s.forgetSized).cmd = s.cmd := rfl
@[simp] theorem forgetSized_staged (s : State) :
    (s.forgetSized).staged = s.staged := rfl
@[simp] theorem forgetSized_result (s : State) :
    (s.forgetSized).result = s.result := rfl
@[simp] theorem forgetSized_lastErr (s : State) :
    (s.forgetSized).lastErr = s.lastErr := rfl
@[simp] theorem forgetSized_firstErr (s : State) :
    (s.forgetSized).firstErr = s.firstErr := rfl
@[simp] theorem forgetSized_errCmd (s : State) :
    (s.forgetSized).errCmd = s.errCmd := rfl
@[simp] theorem forgetSized_busErr (s : State) :
    (s.forgetSized).busErr = s.busErr := rfl
@[simp] theorem forgetSized_overrun (s : State) :
    (s.forgetSized).overrun = s.overrun := rfl
@[simp] theorem forgetSized_irq (s : State) :
    (s.forgetSized).irq = s.irq := rfl
@[simp] theorem forgetSized_bank (s : State) :
    (s.forgetSized).bank = s.bank := rfl
@[simp] theorem forgetSized_com (s : State) :
    (s.forgetSized).com = s.com := rfl
@[simp] theorem forgetSized_p (s : State) :
    (s.forgetSized).p = s.p := rfl
@[simp] theorem forgetSized_stats (s : State) :
    (s.forgetSized).stats = s.stats := rfl
@[simp] theorem forgetSized_draws (s : State) :
    (s.forgetSized).draws = s.draws := rfl
@[simp] theorem forgetSized_epochs (s : State) :
    (s.forgetSized).epochs = { s.epochs with scratch := s.epochs.scratch + 1, stage := s.epochs.stage + 1 } := rfl
@[simp] theorem forgetSized_schedule (s : State) :
    (s.forgetSized).schedule = s.schedule := rfl
@[simp] theorem forgetSized_resp (s : State) :
    (s.forgetSized).resp = s.resp := rfl

end forgetSizedLaws

section drawingLaws

@[simp] theorem drawing_inst (s : State) {α : Type} (m : Num α) :
    (s.drawing m).2.inst = s.inst := rfl
@[simp] theorem drawing_engine (s : State) {α : Type} (m : Num α) :
    (s.drawing m).2.engine = s.engine := rfl
@[simp] theorem drawing_running (s : State) {α : Type} (m : Num α) :
    (s.drawing m).2.running = s.running := rfl
@[simp] theorem drawing_cmd (s : State) {α : Type} (m : Num α) :
    (s.drawing m).2.cmd = s.cmd := rfl
@[simp] theorem drawing_staged (s : State) {α : Type} (m : Num α) :
    (s.drawing m).2.staged = s.staged := rfl
@[simp] theorem drawing_result (s : State) {α : Type} (m : Num α) :
    (s.drawing m).2.result = s.result := rfl
@[simp] theorem drawing_lastErr (s : State) {α : Type} (m : Num α) :
    (s.drawing m).2.lastErr = s.lastErr := rfl
@[simp] theorem drawing_firstErr (s : State) {α : Type} (m : Num α) :
    (s.drawing m).2.firstErr = s.firstErr := rfl
@[simp] theorem drawing_errCmd (s : State) {α : Type} (m : Num α) :
    (s.drawing m).2.errCmd = s.errCmd := rfl
@[simp] theorem drawing_busErr (s : State) {α : Type} (m : Num α) :
    (s.drawing m).2.busErr = s.busErr := rfl
@[simp] theorem drawing_overrun (s : State) {α : Type} (m : Num α) :
    (s.drawing m).2.overrun = s.overrun := rfl
@[simp] theorem drawing_irq (s : State) {α : Type} (m : Num α) :
    (s.drawing m).2.irq = s.irq := rfl
@[simp] theorem drawing_bank (s : State) {α : Type} (m : Num α) :
    (s.drawing m).2.bank = s.bank := rfl
@[simp] theorem drawing_com (s : State) {α : Type} (m : Num α) :
    (s.drawing m).2.com = s.com := rfl
@[simp] theorem drawing_p (s : State) {α : Type} (m : Num α) :
    (s.drawing m).2.p = s.p := rfl
@[simp] theorem drawing_stats (s : State) {α : Type} (m : Num α) :
    (s.drawing m).2.stats = s.stats := rfl
@[simp] theorem drawing_mem (s : State) {α : Type} (m : Num α) :
    (s.drawing m).2.mem = s.mem := rfl
@[simp] theorem drawing_draws (s : State) {α : Type} (m : Num α) :
    (s.drawing m).2.draws = (m.run s.draws).2 := rfl
@[simp] theorem drawing_epochs (s : State) {α : Type} (m : Num α) :
    (s.drawing m).2.epochs = s.epochs := rfl
@[simp] theorem drawing_schedule (s : State) {α : Type} (m : Num α) :
    (s.drawing m).2.schedule = s.schedule := rfl
@[simp] theorem drawing_resp (s : State) {α : Type} (m : Num α) :
    (s.drawing m).2.resp = s.resp := rfl

end drawingLaws

section recordCompletionLaws

@[simp] theorem recordCompletion_inst (s : State) (e : Err) :
    (s.recordCompletion e).inst = s.inst := rfl
@[simp] theorem recordCompletion_engine (s : State) (e : Err) :
    (s.recordCompletion e).engine = s.engine := rfl
@[simp] theorem recordCompletion_running (s : State) (e : Err) :
    (s.recordCompletion e).running = none := rfl
@[simp] theorem recordCompletion_cmd (s : State) (e : Err) :
    (s.recordCompletion e).cmd = s.cmd := rfl
@[simp] theorem recordCompletion_staged (s : State) (e : Err) :
    (s.recordCompletion e).staged = s.staged := rfl
@[simp] theorem recordCompletion_result (s : State) (e : Err) :
    (s.recordCompletion e).result = s.result := rfl
@[simp] theorem recordCompletion_lastErr (s : State) (e : Err) :
    (s.recordCompletion e).lastErr = e := rfl
@[simp] theorem recordCompletion_firstErr (s : State) (e : Err) :
    (s.recordCompletion e).firstErr = (if e ≠ .ok ∧ s.firstErr = .ok then e else s.firstErr) := rfl
@[simp] theorem recordCompletion_errCmd (s : State) (e : Err) :
    (s.recordCompletion e).errCmd = (if e ≠ .ok ∧ s.firstErr = .ok then s.cmd else s.errCmd) := rfl
@[simp] theorem recordCompletion_busErr (s : State) (e : Err) :
    (s.recordCompletion e).busErr = s.busErr := rfl
@[simp] theorem recordCompletion_overrun (s : State) (e : Err) :
    (s.recordCompletion e).overrun = s.overrun := rfl
@[simp] theorem recordCompletion_irq (s : State) (e : Err) :
    (s.recordCompletion e).irq = { s.irq with donePend := true, errPend := s.irq.errPend || e != .ok } := rfl
@[simp] theorem recordCompletion_bank (s : State) (e : Err) :
    (s.recordCompletion e).bank = s.bank := rfl
@[simp] theorem recordCompletion_com (s : State) (e : Err) :
    (s.recordCompletion e).com = s.com := rfl
@[simp] theorem recordCompletion_p (s : State) (e : Err) :
    (s.recordCompletion e).p = s.p := rfl
@[simp] theorem recordCompletion_stats (s : State) (e : Err) :
    (s.recordCompletion e).stats = s.stats := rfl
@[simp] theorem recordCompletion_mem (s : State) (e : Err) :
    (s.recordCompletion e).mem = s.mem := rfl
@[simp] theorem recordCompletion_draws (s : State) (e : Err) :
    (s.recordCompletion e).draws = s.draws := rfl
@[simp] theorem recordCompletion_epochs (s : State) (e : Err) :
    (s.recordCompletion e).epochs = s.epochs := rfl
@[simp] theorem recordCompletion_schedule (s : State) (e : Err) :
    (s.recordCompletion e).schedule = s.schedule := rfl
@[simp] theorem recordCompletion_resp (s : State) (e : Err) :
    (s.recordCompletion e).resp = s.resp := rfl

end recordCompletionLaws

section writeStatusLaws

@[simp] theorem writeStatus_inst (s : State) (w : Word) :
    (s.writeStatus w).inst = s.inst := rfl
@[simp] theorem writeStatus_engine (s : State) (w : Word) :
    (s.writeStatus w).engine = s.engine := rfl
@[simp] theorem writeStatus_running (s : State) (w : Word) :
    (s.writeStatus w).running = s.running := rfl
@[simp] theorem writeStatus_cmd (s : State) (w : Word) :
    (s.writeStatus w).cmd = s.cmd := rfl
@[simp] theorem writeStatus_staged (s : State) (w : Word) :
    (s.writeStatus w).staged = s.staged := rfl
@[simp] theorem writeStatus_result (s : State) (w : Word) :
    (s.writeStatus w).result = s.result := rfl
@[simp] theorem writeStatus_lastErr (s : State) (w : Word) :
    (s.writeStatus w).lastErr = s.lastErr := rfl
@[simp] theorem writeStatus_firstErr (s : State) (w : Word) :
    (s.writeStatus w).firstErr = (if w.getLsbD 2 then .ok else s.firstErr) := rfl
@[simp] theorem writeStatus_errCmd (s : State) (w : Word) :
    (s.writeStatus w).errCmd = (if w.getLsbD 2 then 0 else s.errCmd) := rfl
@[simp] theorem writeStatus_busErr (s : State) (w : Word) :
    (s.writeStatus w).busErr = (if w.getLsbD 3 then false else s.busErr) := rfl
@[simp] theorem writeStatus_overrun (s : State) (w : Word) :
    (s.writeStatus w).overrun = (if w.getLsbD 4 then false else s.overrun) := rfl
@[simp] theorem writeStatus_irq (s : State) (w : Word) :
    (s.writeStatus w).irq = s.irq := rfl
@[simp] theorem writeStatus_bank (s : State) (w : Word) :
    (s.writeStatus w).bank = s.bank := rfl
@[simp] theorem writeStatus_com (s : State) (w : Word) :
    (s.writeStatus w).com = s.com := rfl
@[simp] theorem writeStatus_p (s : State) (w : Word) :
    (s.writeStatus w).p = s.p := rfl
@[simp] theorem writeStatus_stats (s : State) (w : Word) :
    (s.writeStatus w).stats = s.stats := rfl
@[simp] theorem writeStatus_mem (s : State) (w : Word) :
    (s.writeStatus w).mem = s.mem := rfl
@[simp] theorem writeStatus_draws (s : State) (w : Word) :
    (s.writeStatus w).draws = s.draws := rfl
@[simp] theorem writeStatus_epochs (s : State) (w : Word) :
    (s.writeStatus w).epochs = s.epochs := rfl
@[simp] theorem writeStatus_schedule (s : State) (w : Word) :
    (s.writeStatus w).schedule = s.schedule := rfl
@[simp] theorem writeStatus_resp (s : State) (w : Word) :
    (s.writeStatus w).resp = s.resp := rfl

end writeStatusLaws

section writeIrqEnLaws

@[simp] theorem writeIrqEn_inst (s : State) (w : Word) :
    (s.writeIrqEn w).inst = s.inst := rfl
@[simp] theorem writeIrqEn_engine (s : State) (w : Word) :
    (s.writeIrqEn w).engine = s.engine := rfl
@[simp] theorem writeIrqEn_running (s : State) (w : Word) :
    (s.writeIrqEn w).running = s.running := rfl
@[simp] theorem writeIrqEn_cmd (s : State) (w : Word) :
    (s.writeIrqEn w).cmd = s.cmd := rfl
@[simp] theorem writeIrqEn_staged (s : State) (w : Word) :
    (s.writeIrqEn w).staged = s.staged := rfl
@[simp] theorem writeIrqEn_result (s : State) (w : Word) :
    (s.writeIrqEn w).result = s.result := rfl
@[simp] theorem writeIrqEn_lastErr (s : State) (w : Word) :
    (s.writeIrqEn w).lastErr = s.lastErr := rfl
@[simp] theorem writeIrqEn_firstErr (s : State) (w : Word) :
    (s.writeIrqEn w).firstErr = s.firstErr := rfl
@[simp] theorem writeIrqEn_errCmd (s : State) (w : Word) :
    (s.writeIrqEn w).errCmd = s.errCmd := rfl
@[simp] theorem writeIrqEn_busErr (s : State) (w : Word) :
    (s.writeIrqEn w).busErr = s.busErr := rfl
@[simp] theorem writeIrqEn_overrun (s : State) (w : Word) :
    (s.writeIrqEn w).overrun = s.overrun := rfl
@[simp] theorem writeIrqEn_irq (s : State) (w : Word) :
    (s.writeIrqEn w).irq = { s.irq with doneEn := w.getLsbD 0, errEn := w.getLsbD 1 } := rfl
@[simp] theorem writeIrqEn_bank (s : State) (w : Word) :
    (s.writeIrqEn w).bank = s.bank := rfl
@[simp] theorem writeIrqEn_com (s : State) (w : Word) :
    (s.writeIrqEn w).com = s.com := rfl
@[simp] theorem writeIrqEn_p (s : State) (w : Word) :
    (s.writeIrqEn w).p = s.p := rfl
@[simp] theorem writeIrqEn_stats (s : State) (w : Word) :
    (s.writeIrqEn w).stats = s.stats := rfl
@[simp] theorem writeIrqEn_mem (s : State) (w : Word) :
    (s.writeIrqEn w).mem = s.mem := rfl
@[simp] theorem writeIrqEn_draws (s : State) (w : Word) :
    (s.writeIrqEn w).draws = s.draws := rfl
@[simp] theorem writeIrqEn_epochs (s : State) (w : Word) :
    (s.writeIrqEn w).epochs = s.epochs := rfl
@[simp] theorem writeIrqEn_schedule (s : State) (w : Word) :
    (s.writeIrqEn w).schedule = s.schedule := rfl
@[simp] theorem writeIrqEn_resp (s : State) (w : Word) :
    (s.writeIrqEn w).resp = s.resp := rfl

end writeIrqEnLaws

section writeIrqStatusLaws

@[simp] theorem writeIrqStatus_inst (s : State) (w : Word) :
    (s.writeIrqStatus w).inst = s.inst := rfl
@[simp] theorem writeIrqStatus_engine (s : State) (w : Word) :
    (s.writeIrqStatus w).engine = s.engine := rfl
@[simp] theorem writeIrqStatus_running (s : State) (w : Word) :
    (s.writeIrqStatus w).running = s.running := rfl
@[simp] theorem writeIrqStatus_cmd (s : State) (w : Word) :
    (s.writeIrqStatus w).cmd = s.cmd := rfl
@[simp] theorem writeIrqStatus_staged (s : State) (w : Word) :
    (s.writeIrqStatus w).staged = s.staged := rfl
@[simp] theorem writeIrqStatus_result (s : State) (w : Word) :
    (s.writeIrqStatus w).result = s.result := rfl
@[simp] theorem writeIrqStatus_lastErr (s : State) (w : Word) :
    (s.writeIrqStatus w).lastErr = s.lastErr := rfl
@[simp] theorem writeIrqStatus_firstErr (s : State) (w : Word) :
    (s.writeIrqStatus w).firstErr = s.firstErr := rfl
@[simp] theorem writeIrqStatus_errCmd (s : State) (w : Word) :
    (s.writeIrqStatus w).errCmd = s.errCmd := rfl
@[simp] theorem writeIrqStatus_busErr (s : State) (w : Word) :
    (s.writeIrqStatus w).busErr = s.busErr := rfl
@[simp] theorem writeIrqStatus_overrun (s : State) (w : Word) :
    (s.writeIrqStatus w).overrun = s.overrun := rfl
@[simp] theorem writeIrqStatus_irq (s : State) (w : Word) :
    (s.writeIrqStatus w).irq = { s.irq with donePend := s.irq.donePend && !w.getLsbD 0, errPend := s.irq.errPend && !w.getLsbD 1 } := rfl
@[simp] theorem writeIrqStatus_bank (s : State) (w : Word) :
    (s.writeIrqStatus w).bank = s.bank := rfl
@[simp] theorem writeIrqStatus_com (s : State) (w : Word) :
    (s.writeIrqStatus w).com = s.com := rfl
@[simp] theorem writeIrqStatus_p (s : State) (w : Word) :
    (s.writeIrqStatus w).p = s.p := rfl
@[simp] theorem writeIrqStatus_stats (s : State) (w : Word) :
    (s.writeIrqStatus w).stats = s.stats := rfl
@[simp] theorem writeIrqStatus_mem (s : State) (w : Word) :
    (s.writeIrqStatus w).mem = s.mem := rfl
@[simp] theorem writeIrqStatus_draws (s : State) (w : Word) :
    (s.writeIrqStatus w).draws = s.draws := rfl
@[simp] theorem writeIrqStatus_epochs (s : State) (w : Word) :
    (s.writeIrqStatus w).epochs = s.epochs := rfl
@[simp] theorem writeIrqStatus_schedule (s : State) (w : Word) :
    (s.writeIrqStatus w).schedule = s.schedule := rfl
@[simp] theorem writeIrqStatus_resp (s : State) (w : Word) :
    (s.writeIrqStatus w).resp = s.resp := rfl

end writeIrqStatusLaws

section acceptLaws

@[simp] theorem accept_inst (s : State) (w : Word) :
    (s.accept w).inst = s.inst := rfl
@[simp] theorem accept_engine (s : State) (w : Word) :
    (s.accept w).engine = s.engine := rfl
@[simp] theorem accept_running (s : State) (w : Word) :
    (s.accept w).running =
      some { word := w, regs := s.staged, irqEn := s.irq.enableWord, errCmd := s.errCmd } := rfl
@[simp] theorem accept_cmd (s : State) (w : Word) :
    (s.accept w).cmd = w := rfl
@[simp] theorem accept_staged (s : State) (w : Word) :
    (s.accept w).staged = s.staged := rfl
@[simp] theorem accept_result (s : State) (w : Word) :
    (s.accept w).result = s.result := rfl
@[simp] theorem accept_lastErr (s : State) (w : Word) :
    (s.accept w).lastErr = s.lastErr := rfl
@[simp] theorem accept_firstErr (s : State) (w : Word) :
    (s.accept w).firstErr = s.firstErr := rfl
@[simp] theorem accept_errCmd (s : State) (w : Word) :
    (s.accept w).errCmd = s.errCmd := rfl
@[simp] theorem accept_busErr (s : State) (w : Word) :
    (s.accept w).busErr = s.busErr := rfl
@[simp] theorem accept_overrun (s : State) (w : Word) :
    (s.accept w).overrun = s.overrun := rfl
@[simp] theorem accept_irq (s : State) (w : Word) :
    (s.accept w).irq = s.irq := rfl
@[simp] theorem accept_bank (s : State) (w : Word) :
    (s.accept w).bank = s.bank := rfl
@[simp] theorem accept_com (s : State) (w : Word) :
    (s.accept w).com = s.com := rfl
@[simp] theorem accept_p (s : State) (w : Word) :
    (s.accept w).p = s.p := rfl
@[simp] theorem accept_stats (s : State) (w : Word) :
    (s.accept w).stats = s.stats := rfl
@[simp] theorem accept_mem (s : State) (w : Word) :
    (s.accept w).mem = s.mem := rfl
@[simp] theorem accept_draws (s : State) (w : Word) :
    (s.accept w).draws = s.draws := rfl
@[simp] theorem accept_epochs (s : State) (w : Word) :
    (s.accept w).epochs = s.epochs := rfl
@[simp] theorem accept_schedule (s : State) (w : Word) :
    (s.accept w).schedule = s.schedule := rfl
@[simp] theorem accept_resp (s : State) (w : Word) :
    (s.accept w).resp = s.resp := rfl

end acceptLaws

section okayLaws

@[simp] theorem okay_inst (s : State) (d : Word) :
    (s.okay d).inst = s.inst := rfl
@[simp] theorem okay_engine (s : State) (d : Word) :
    (s.okay d).engine = s.engine := rfl
@[simp] theorem okay_running (s : State) (d : Word) :
    (s.okay d).running = s.running := rfl
@[simp] theorem okay_cmd (s : State) (d : Word) :
    (s.okay d).cmd = s.cmd := rfl
@[simp] theorem okay_staged (s : State) (d : Word) :
    (s.okay d).staged = s.staged := rfl
@[simp] theorem okay_result (s : State) (d : Word) :
    (s.okay d).result = s.result := rfl
@[simp] theorem okay_lastErr (s : State) (d : Word) :
    (s.okay d).lastErr = s.lastErr := rfl
@[simp] theorem okay_firstErr (s : State) (d : Word) :
    (s.okay d).firstErr = s.firstErr := rfl
@[simp] theorem okay_errCmd (s : State) (d : Word) :
    (s.okay d).errCmd = s.errCmd := rfl
@[simp] theorem okay_busErr (s : State) (d : Word) :
    (s.okay d).busErr = s.busErr := rfl
@[simp] theorem okay_overrun (s : State) (d : Word) :
    (s.okay d).overrun = s.overrun := rfl
@[simp] theorem okay_irq (s : State) (d : Word) :
    (s.okay d).irq = s.irq := rfl
@[simp] theorem okay_bank (s : State) (d : Word) :
    (s.okay d).bank = s.bank := rfl
@[simp] theorem okay_com (s : State) (d : Word) :
    (s.okay d).com = s.com := rfl
@[simp] theorem okay_p (s : State) (d : Word) :
    (s.okay d).p = s.p := rfl
@[simp] theorem okay_stats (s : State) (d : Word) :
    (s.okay d).stats = s.stats := rfl
@[simp] theorem okay_mem (s : State) (d : Word) :
    (s.okay d).mem = s.mem := rfl
@[simp] theorem okay_draws (s : State) (d : Word) :
    (s.okay d).draws = s.draws := rfl
@[simp] theorem okay_epochs (s : State) (d : Word) :
    (s.okay d).epochs = s.epochs := rfl
@[simp] theorem okay_schedule (s : State) (d : Word) :
    (s.okay d).schedule = s.schedule := rfl
@[simp] theorem okay_resp (s : State) (d : Word) :
    (s.okay d).resp = some { data := d, slverr := false } := rfl

end okayLaws

section slverrLaws

@[simp] theorem slverr_inst (s : State) :
    (s.slverr).inst = s.inst := rfl
@[simp] theorem slverr_engine (s : State) :
    (s.slverr).engine = s.engine := rfl
@[simp] theorem slverr_running (s : State) :
    (s.slverr).running = s.running := rfl
@[simp] theorem slverr_cmd (s : State) :
    (s.slverr).cmd = s.cmd := rfl
@[simp] theorem slverr_staged (s : State) :
    (s.slverr).staged = s.staged := rfl
@[simp] theorem slverr_result (s : State) :
    (s.slverr).result = s.result := rfl
@[simp] theorem slverr_lastErr (s : State) :
    (s.slverr).lastErr = s.lastErr := rfl
@[simp] theorem slverr_firstErr (s : State) :
    (s.slverr).firstErr = s.firstErr := rfl
@[simp] theorem slverr_errCmd (s : State) :
    (s.slverr).errCmd = s.errCmd := rfl
@[simp] theorem slverr_busErr (s : State) :
    (s.slverr).busErr = true := rfl
@[simp] theorem slverr_overrun (s : State) :
    (s.slverr).overrun = s.overrun := rfl
@[simp] theorem slverr_irq (s : State) :
    (s.slverr).irq = s.irq := rfl
@[simp] theorem slverr_bank (s : State) :
    (s.slverr).bank = s.bank := rfl
@[simp] theorem slverr_com (s : State) :
    (s.slverr).com = s.com := rfl
@[simp] theorem slverr_p (s : State) :
    (s.slverr).p = s.p := rfl
@[simp] theorem slverr_stats (s : State) :
    (s.slverr).stats = s.stats := rfl
@[simp] theorem slverr_mem (s : State) :
    (s.slverr).mem = s.mem := rfl
@[simp] theorem slverr_draws (s : State) :
    (s.slverr).draws = s.draws := rfl
@[simp] theorem slverr_epochs (s : State) :
    (s.slverr).epochs = s.epochs := rfl
@[simp] theorem slverr_schedule (s : State) :
    (s.slverr).schedule = s.schedule := rfl
@[simp] theorem slverr_resp (s : State) :
    (s.slverr).resp = some { data := 0, slverr := true } := rfl

end slverrLaws

section swapBankLaws

@[simp] theorem swapBank_inst (s : State) (c : Chan) :
    (s.swapBank c).inst = s.inst := rfl
@[simp] theorem swapBank_engine (s : State) (c : Chan) :
    (s.swapBank c).engine = s.engine := rfl
@[simp] theorem swapBank_running (s : State) (c : Chan) :
    (s.swapBank c).running = s.running := rfl
@[simp] theorem swapBank_cmd (s : State) (c : Chan) :
    (s.swapBank c).cmd = s.cmd := rfl
@[simp] theorem swapBank_staged (s : State) (c : Chan) :
    (s.swapBank c).staged = s.staged := rfl
@[simp] theorem swapBank_result (s : State) (c : Chan) :
    (s.swapBank c).result = s.result := rfl
@[simp] theorem swapBank_lastErr (s : State) (c : Chan) :
    (s.swapBank c).lastErr = s.lastErr := rfl
@[simp] theorem swapBank_firstErr (s : State) (c : Chan) :
    (s.swapBank c).firstErr = s.firstErr := rfl
@[simp] theorem swapBank_errCmd (s : State) (c : Chan) :
    (s.swapBank c).errCmd = s.errCmd := rfl
@[simp] theorem swapBank_busErr (s : State) (c : Chan) :
    (s.swapBank c).busErr = s.busErr := rfl
@[simp] theorem swapBank_overrun (s : State) (c : Chan) :
    (s.swapBank c).overrun = s.overrun := rfl
@[simp] theorem swapBank_irq (s : State) (c : Chan) :
    (s.swapBank c).irq = s.irq := rfl
@[simp] theorem swapBank_bank (s : State) (c : Chan) :
    (s.swapBank c).bank = s.bank.set c (!s.bank.get c) := rfl
@[simp] theorem swapBank_com (s : State) (c : Chan) :
    (s.swapBank c).com = s.com := rfl
@[simp] theorem swapBank_p (s : State) (c : Chan) :
    (s.swapBank c).p = s.p := rfl
@[simp] theorem swapBank_stats (s : State) (c : Chan) :
    (s.swapBank c).stats = s.stats := rfl
@[simp] theorem swapBank_mem (s : State) (c : Chan) :
    (s.swapBank c).mem = s.mem := rfl
@[simp] theorem swapBank_draws (s : State) (c : Chan) :
    (s.swapBank c).draws = s.draws := rfl
@[simp] theorem swapBank_epochs (s : State) (c : Chan) :
    (s.swapBank c).epochs = s.epochs := rfl
@[simp] theorem swapBank_schedule (s : State) (c : Chan) :
    (s.swapBank c).schedule = s.schedule := rfl
@[simp] theorem swapBank_resp (s : State) (c : Chan) :
    (s.swapBank c).resp = s.resp := rfl

end swapBankLaws

section resetStepMassLaws

@[simp] theorem resetStepMass_inst (s : State) :
    (s.resetStepMass).inst = s.inst := rfl
@[simp] theorem resetStepMass_engine (s : State) :
    (s.resetStepMass).engine = s.engine := rfl
@[simp] theorem resetStepMass_running (s : State) :
    (s.resetStepMass).running = s.running := rfl
@[simp] theorem resetStepMass_cmd (s : State) :
    (s.resetStepMass).cmd = s.cmd := rfl
@[simp] theorem resetStepMass_staged (s : State) :
    (s.resetStepMass).staged = s.staged := rfl
@[simp] theorem resetStepMass_result (s : State) :
    (s.resetStepMass).result = s.result := rfl
@[simp] theorem resetStepMass_lastErr (s : State) :
    (s.resetStepMass).lastErr = s.lastErr := rfl
@[simp] theorem resetStepMass_firstErr (s : State) :
    (s.resetStepMass).firstErr = s.firstErr := rfl
@[simp] theorem resetStepMass_errCmd (s : State) :
    (s.resetStepMass).errCmd = s.errCmd := rfl
@[simp] theorem resetStepMass_busErr (s : State) :
    (s.resetStepMass).busErr = s.busErr := rfl
@[simp] theorem resetStepMass_overrun (s : State) :
    (s.resetStepMass).overrun = s.overrun := rfl
@[simp] theorem resetStepMass_irq (s : State) :
    (s.resetStepMass).irq = s.irq := rfl
@[simp] theorem resetStepMass_bank (s : State) :
    (s.resetStepMass).bank = s.bank := rfl
@[simp] theorem resetStepMass_com (s : State) :
    (s.resetStepMass).com = s.com := rfl
@[simp] theorem resetStepMass_p (s : State) :
    (s.resetStepMass).p = s.p := rfl
@[simp] theorem resetStepMass_stats (s : State) :
    (s.resetStepMass).stats = { s.stats with step := 0, mass := posZero } := rfl
@[simp] theorem resetStepMass_mem (s : State) :
    (s.resetStepMass).mem = s.mem := rfl
@[simp] theorem resetStepMass_draws (s : State) :
    (s.resetStepMass).draws = s.draws := rfl
@[simp] theorem resetStepMass_epochs (s : State) :
    (s.resetStepMass).epochs = s.epochs := rfl
@[simp] theorem resetStepMass_schedule (s : State) :
    (s.resetStepMass).schedule = s.schedule := rfl
@[simp] theorem resetStepMass_resp (s : State) :
    (s.resetStepMass).resp = s.resp := rfl

end resetStepMassLaws

section resetBlockLaws

@[simp] theorem resetBlock_inst (s : State) :
    (s.resetBlock).inst = s.inst := rfl
@[simp] theorem resetBlock_engine (s : State) :
    (s.resetBlock).engine = none := rfl
@[simp] theorem resetBlock_running (s : State) :
    (s.resetBlock).running = none := rfl
@[simp] theorem resetBlock_cmd (s : State) :
    (s.resetBlock).cmd = 0 := rfl
@[simp] theorem resetBlock_staged (s : State) :
    (s.resetBlock).staged = .reset := rfl
@[simp] theorem resetBlock_result (s : State) :
    (s.resetBlock).result = 0 := rfl
@[simp] theorem resetBlock_lastErr (s : State) :
    (s.resetBlock).lastErr = .ok := rfl
@[simp] theorem resetBlock_firstErr (s : State) :
    (s.resetBlock).firstErr = .ok := rfl
@[simp] theorem resetBlock_errCmd (s : State) :
    (s.resetBlock).errCmd = 0 := rfl
@[simp] theorem resetBlock_busErr (s : State) :
    (s.resetBlock).busErr = false := rfl
@[simp] theorem resetBlock_overrun (s : State) :
    (s.resetBlock).overrun = false := rfl
@[simp] theorem resetBlock_irq (s : State) :
    (s.resetBlock).irq = ⟨false, false, false, false⟩ := rfl
@[simp] theorem resetBlock_bank (s : State) :
    (s.resetBlock).bank = .const false := rfl
@[simp] theorem resetBlock_com (s : State) :
    (s.resetBlock).com = .zero := rfl
@[simp] theorem resetBlock_p (s : State) :
    (s.resetBlock).p = .const .zero := rfl
@[simp] theorem resetBlock_stats (s : State) :
    (s.resetBlock).stats = .zero := rfl
@[simp] theorem resetBlock_mem (s : State) :
    (s.resetBlock).mem = [] := rfl
@[simp] theorem resetBlock_draws (s : State) :
    (s.resetBlock).draws = s.draws := rfl
@[simp] theorem resetBlock_epochs (s : State) :
    (s.resetBlock).epochs = ⟨s.epochs.scratch + 1, s.epochs.stage + 1, s.epochs.power + 1⟩ := rfl
@[simp] theorem resetBlock_schedule (s : State) :
    (s.resetBlock).schedule = s.schedule := rfl
@[simp] theorem resetBlock_resp (s : State) :
    (s.resetBlock).resp = s.resp := rfl

end resetBlockLaws

@[simp] theorem drawing_fst (s : State) {α : Type} (m : Num α) : (s.drawing m).1 = (m.run s.draws).1 := rfl

@[simp] theorem loadField_inst (s : State) (g : Geometry) (c : Chan) :
    (s.loadField g c).inst = s.inst := by simp [State.loadField]
@[simp] theorem loadField_engine (s : State) (g : Geometry) (c : Chan) :
    (s.loadField g c).engine = s.engine := by simp [State.loadField]
@[simp] theorem loadField_running (s : State) (g : Geometry) (c : Chan) :
    (s.loadField g c).running = s.running := by simp [State.loadField]
@[simp] theorem loadField_cmd (s : State) (g : Geometry) (c : Chan) :
    (s.loadField g c).cmd = s.cmd := by simp [State.loadField]
@[simp] theorem loadField_staged (s : State) (g : Geometry) (c : Chan) :
    (s.loadField g c).staged = s.staged := by simp [State.loadField]
@[simp] theorem loadField_result (s : State) (g : Geometry) (c : Chan) :
    (s.loadField g c).result = s.result := by simp [State.loadField]
@[simp] theorem loadField_lastErr (s : State) (g : Geometry) (c : Chan) :
    (s.loadField g c).lastErr = s.lastErr := by simp [State.loadField]
@[simp] theorem loadField_firstErr (s : State) (g : Geometry) (c : Chan) :
    (s.loadField g c).firstErr = s.firstErr := by simp [State.loadField]
@[simp] theorem loadField_errCmd (s : State) (g : Geometry) (c : Chan) :
    (s.loadField g c).errCmd = s.errCmd := by simp [State.loadField]
@[simp] theorem loadField_busErr (s : State) (g : Geometry) (c : Chan) :
    (s.loadField g c).busErr = s.busErr := by simp [State.loadField]
@[simp] theorem loadField_overrun (s : State) (g : Geometry) (c : Chan) :
    (s.loadField g c).overrun = s.overrun := by simp [State.loadField]
@[simp] theorem loadField_irq (s : State) (g : Geometry) (c : Chan) :
    (s.loadField g c).irq = s.irq := by simp [State.loadField]
@[simp] theorem loadField_bank (s : State) (g : Geometry) (c : Chan) :
    (s.loadField g c).bank = s.bank := by simp [State.loadField]
@[simp] theorem loadField_com (s : State) (g : Geometry) (c : Chan) :
    (s.loadField g c).com = s.com := by simp [State.loadField]
@[simp] theorem loadField_p (s : State) (g : Geometry) (c : Chan) :
    (s.loadField g c).p = s.p := by simp [State.loadField]
@[simp] theorem loadField_stats (s : State) (g : Geometry) (c : Chan) :
    (s.loadField g c).stats = s.stats := by simp [State.loadField]
@[simp] theorem loadField_draws (s : State) (g : Geometry) (c : Chan) :
    (s.loadField g c).draws = s.draws := by simp [State.loadField]
@[simp] theorem loadField_epochs (s : State) (g : Geometry) (c : Chan) :
    (s.loadField g c).epochs = s.epochs := by simp [State.loadField]
@[simp] theorem loadField_schedule (s : State) (g : Geometry) (c : Chan) :
    (s.loadField g c).schedule = s.schedule := by simp [State.loadField]
@[simp] theorem loadField_resp (s : State) (g : Geometry) (c : Chan) :
    (s.loadField g c).resp = s.resp := by simp [State.loadField]

@[simp] theorem writeScratch_inst (s : State) (v : Cplx) :
    (s.writeScratch v).inst = s.inst := by simp [State.writeScratch]
@[simp] theorem writeScratch_engine (s : State) (v : Cplx) :
    (s.writeScratch v).engine = s.engine := by simp [State.writeScratch]
@[simp] theorem writeScratch_running (s : State) (v : Cplx) :
    (s.writeScratch v).running = s.running := by simp [State.writeScratch]
@[simp] theorem writeScratch_cmd (s : State) (v : Cplx) :
    (s.writeScratch v).cmd = s.cmd := by simp [State.writeScratch]
@[simp] theorem writeScratch_staged (s : State) (v : Cplx) :
    (s.writeScratch v).staged = s.staged := by simp [State.writeScratch]
@[simp] theorem writeScratch_result (s : State) (v : Cplx) :
    (s.writeScratch v).result = s.result := by simp [State.writeScratch]
@[simp] theorem writeScratch_lastErr (s : State) (v : Cplx) :
    (s.writeScratch v).lastErr = s.lastErr := by simp [State.writeScratch]
@[simp] theorem writeScratch_firstErr (s : State) (v : Cplx) :
    (s.writeScratch v).firstErr = s.firstErr := by simp [State.writeScratch]
@[simp] theorem writeScratch_errCmd (s : State) (v : Cplx) :
    (s.writeScratch v).errCmd = s.errCmd := by simp [State.writeScratch]
@[simp] theorem writeScratch_busErr (s : State) (v : Cplx) :
    (s.writeScratch v).busErr = s.busErr := by simp [State.writeScratch]
@[simp] theorem writeScratch_overrun (s : State) (v : Cplx) :
    (s.writeScratch v).overrun = s.overrun := by simp [State.writeScratch]
@[simp] theorem writeScratch_irq (s : State) (v : Cplx) :
    (s.writeScratch v).irq = s.irq := by simp [State.writeScratch]
@[simp] theorem writeScratch_bank (s : State) (v : Cplx) :
    (s.writeScratch v).bank = s.bank := by simp [State.writeScratch]
@[simp] theorem writeScratch_com (s : State) (v : Cplx) :
    (s.writeScratch v).com = s.com := by simp [State.writeScratch]
@[simp] theorem writeScratch_p (s : State) (v : Cplx) :
    (s.writeScratch v).p = s.p := by simp [State.writeScratch]
@[simp] theorem writeScratch_stats (s : State) (v : Cplx) :
    (s.writeScratch v).stats = s.stats := by simp [State.writeScratch]
@[simp] theorem writeScratch_draws (s : State) (v : Cplx) :
    (s.writeScratch v).draws = s.draws := by simp [State.writeScratch]
@[simp] theorem writeScratch_epochs (s : State) (v : Cplx) :
    (s.writeScratch v).epochs = s.epochs := by simp [State.writeScratch]
@[simp] theorem writeScratch_schedule (s : State) (v : Cplx) :
    (s.writeScratch v).schedule = s.schedule := by simp [State.writeScratch]
@[simp] theorem writeScratch_resp (s : State) (v : Cplx) :
    (s.writeScratch v).resp = s.resp := by simp [State.writeScratch]

@[simp] theorem transformScratch_inst (s : State) (g : Geometry) (inv : Bool) :
    (s.transformScratch g inv).inst = s.inst := by simp [State.transformScratch]
@[simp] theorem transformScratch_engine (s : State) (g : Geometry) (inv : Bool) :
    (s.transformScratch g inv).engine = s.engine := by simp [State.transformScratch]
@[simp] theorem transformScratch_running (s : State) (g : Geometry) (inv : Bool) :
    (s.transformScratch g inv).running = s.running := by simp [State.transformScratch]
@[simp] theorem transformScratch_cmd (s : State) (g : Geometry) (inv : Bool) :
    (s.transformScratch g inv).cmd = s.cmd := by simp [State.transformScratch]
@[simp] theorem transformScratch_staged (s : State) (g : Geometry) (inv : Bool) :
    (s.transformScratch g inv).staged = s.staged := by simp [State.transformScratch]
@[simp] theorem transformScratch_result (s : State) (g : Geometry) (inv : Bool) :
    (s.transformScratch g inv).result = s.result := by simp [State.transformScratch]
@[simp] theorem transformScratch_lastErr (s : State) (g : Geometry) (inv : Bool) :
    (s.transformScratch g inv).lastErr = s.lastErr := by simp [State.transformScratch]
@[simp] theorem transformScratch_firstErr (s : State) (g : Geometry) (inv : Bool) :
    (s.transformScratch g inv).firstErr = s.firstErr := by simp [State.transformScratch]
@[simp] theorem transformScratch_errCmd (s : State) (g : Geometry) (inv : Bool) :
    (s.transformScratch g inv).errCmd = s.errCmd := by simp [State.transformScratch]
@[simp] theorem transformScratch_busErr (s : State) (g : Geometry) (inv : Bool) :
    (s.transformScratch g inv).busErr = s.busErr := by simp [State.transformScratch]
@[simp] theorem transformScratch_overrun (s : State) (g : Geometry) (inv : Bool) :
    (s.transformScratch g inv).overrun = s.overrun := by simp [State.transformScratch]
@[simp] theorem transformScratch_irq (s : State) (g : Geometry) (inv : Bool) :
    (s.transformScratch g inv).irq = s.irq := by simp [State.transformScratch]
@[simp] theorem transformScratch_bank (s : State) (g : Geometry) (inv : Bool) :
    (s.transformScratch g inv).bank = s.bank := by simp [State.transformScratch]
@[simp] theorem transformScratch_com (s : State) (g : Geometry) (inv : Bool) :
    (s.transformScratch g inv).com = s.com := by simp [State.transformScratch]
@[simp] theorem transformScratch_p (s : State) (g : Geometry) (inv : Bool) :
    (s.transformScratch g inv).p = s.p := by simp [State.transformScratch]
@[simp] theorem transformScratch_stats (s : State) (g : Geometry) (inv : Bool) :
    (s.transformScratch g inv).stats = s.stats := by simp [State.transformScratch]
@[simp] theorem transformScratch_epochs (s : State) (g : Geometry) (inv : Bool) :
    (s.transformScratch g inv).epochs = s.epochs := by simp [State.transformScratch]
@[simp] theorem transformScratch_schedule (s : State) (g : Geometry) (inv : Bool) :
    (s.transformScratch g inv).schedule = s.schedule := by simp [State.transformScratch]
@[simp] theorem transformScratch_resp (s : State) (g : Geometry) (inv : Bool) :
    (s.transformScratch g inv).resp = s.resp := by simp [State.transformScratch]

@[simp] theorem multiplyScratch_inst (s : State) (g : Geometry) (c : Chan) :
    (s.multiplyScratch g c).inst = s.inst := by simp [State.multiplyScratch]
@[simp] theorem multiplyScratch_engine (s : State) (g : Geometry) (c : Chan) :
    (s.multiplyScratch g c).engine = s.engine := by simp [State.multiplyScratch]
@[simp] theorem multiplyScratch_running (s : State) (g : Geometry) (c : Chan) :
    (s.multiplyScratch g c).running = s.running := by simp [State.multiplyScratch]
@[simp] theorem multiplyScratch_cmd (s : State) (g : Geometry) (c : Chan) :
    (s.multiplyScratch g c).cmd = s.cmd := by simp [State.multiplyScratch]
@[simp] theorem multiplyScratch_staged (s : State) (g : Geometry) (c : Chan) :
    (s.multiplyScratch g c).staged = s.staged := by simp [State.multiplyScratch]
@[simp] theorem multiplyScratch_result (s : State) (g : Geometry) (c : Chan) :
    (s.multiplyScratch g c).result = s.result := by simp [State.multiplyScratch]
@[simp] theorem multiplyScratch_lastErr (s : State) (g : Geometry) (c : Chan) :
    (s.multiplyScratch g c).lastErr = s.lastErr := by simp [State.multiplyScratch]
@[simp] theorem multiplyScratch_firstErr (s : State) (g : Geometry) (c : Chan) :
    (s.multiplyScratch g c).firstErr = s.firstErr := by simp [State.multiplyScratch]
@[simp] theorem multiplyScratch_errCmd (s : State) (g : Geometry) (c : Chan) :
    (s.multiplyScratch g c).errCmd = s.errCmd := by simp [State.multiplyScratch]
@[simp] theorem multiplyScratch_busErr (s : State) (g : Geometry) (c : Chan) :
    (s.multiplyScratch g c).busErr = s.busErr := by simp [State.multiplyScratch]
@[simp] theorem multiplyScratch_overrun (s : State) (g : Geometry) (c : Chan) :
    (s.multiplyScratch g c).overrun = s.overrun := by simp [State.multiplyScratch]
@[simp] theorem multiplyScratch_irq (s : State) (g : Geometry) (c : Chan) :
    (s.multiplyScratch g c).irq = s.irq := by simp [State.multiplyScratch]
@[simp] theorem multiplyScratch_bank (s : State) (g : Geometry) (c : Chan) :
    (s.multiplyScratch g c).bank = s.bank := by simp [State.multiplyScratch]
@[simp] theorem multiplyScratch_com (s : State) (g : Geometry) (c : Chan) :
    (s.multiplyScratch g c).com = s.com := by simp [State.multiplyScratch]
@[simp] theorem multiplyScratch_p (s : State) (g : Geometry) (c : Chan) :
    (s.multiplyScratch g c).p = s.p := by simp [State.multiplyScratch]
@[simp] theorem multiplyScratch_stats (s : State) (g : Geometry) (c : Chan) :
    (s.multiplyScratch g c).stats = s.stats := by simp [State.multiplyScratch]
@[simp] theorem multiplyScratch_epochs (s : State) (g : Geometry) (c : Chan) :
    (s.multiplyScratch g c).epochs = s.epochs := by simp [State.multiplyScratch]
@[simp] theorem multiplyScratch_schedule (s : State) (g : Geometry) (c : Chan) :
    (s.multiplyScratch g c).schedule = s.schedule := by simp [State.multiplyScratch]
@[simp] theorem multiplyScratch_resp (s : State) (g : Geometry) (c : Chan) :
    (s.multiplyScratch g c).resp = s.resp := by simp [State.multiplyScratch]

@[simp] theorem growField_inst (s : State) (g : Geometry) (c : Chan) :
    (s.growField g c).inst = s.inst := by simp [State.growField]
@[simp] theorem growField_engine (s : State) (g : Geometry) (c : Chan) :
    (s.growField g c).engine = s.engine := by simp [State.growField]
@[simp] theorem growField_running (s : State) (g : Geometry) (c : Chan) :
    (s.growField g c).running = s.running := by simp [State.growField]
@[simp] theorem growField_cmd (s : State) (g : Geometry) (c : Chan) :
    (s.growField g c).cmd = s.cmd := by simp [State.growField]
@[simp] theorem growField_staged (s : State) (g : Geometry) (c : Chan) :
    (s.growField g c).staged = s.staged := by simp [State.growField]
@[simp] theorem growField_result (s : State) (g : Geometry) (c : Chan) :
    (s.growField g c).result = s.result := by simp [State.growField]
@[simp] theorem growField_lastErr (s : State) (g : Geometry) (c : Chan) :
    (s.growField g c).lastErr = s.lastErr := by simp [State.growField]
@[simp] theorem growField_firstErr (s : State) (g : Geometry) (c : Chan) :
    (s.growField g c).firstErr = s.firstErr := by simp [State.growField]
@[simp] theorem growField_errCmd (s : State) (g : Geometry) (c : Chan) :
    (s.growField g c).errCmd = s.errCmd := by simp [State.growField]
@[simp] theorem growField_busErr (s : State) (g : Geometry) (c : Chan) :
    (s.growField g c).busErr = s.busErr := by simp [State.growField]
@[simp] theorem growField_overrun (s : State) (g : Geometry) (c : Chan) :
    (s.growField g c).overrun = s.overrun := by simp [State.growField]
@[simp] theorem growField_irq (s : State) (g : Geometry) (c : Chan) :
    (s.growField g c).irq = s.irq := by simp [State.growField]
@[simp] theorem growField_bank (s : State) (g : Geometry) (c : Chan) :
    (s.growField g c).bank = s.bank := by simp [State.growField]
@[simp] theorem growField_com (s : State) (g : Geometry) (c : Chan) :
    (s.growField g c).com = s.com := by simp [State.growField]
@[simp] theorem growField_p (s : State) (g : Geometry) (c : Chan) :
    (s.growField g c).p = s.p := by simp [State.growField]
@[simp] theorem growField_stats (s : State) (g : Geometry) (c : Chan) :
    (s.growField g c).stats = s.stats := by simp [State.growField]
@[simp] theorem growField_epochs (s : State) (g : Geometry) (c : Chan) :
    (s.growField g c).epochs = s.epochs := by simp [State.growField]
@[simp] theorem growField_schedule (s : State) (g : Geometry) (c : Chan) :
    (s.growField g c).schedule = s.schedule := by simp [State.growField]
@[simp] theorem growField_resp (s : State) (g : Geometry) (c : Chan) :
    (s.growField g c).resp = s.resp := by simp [State.growField]

@[simp] theorem writeKernel_inst (s : State) (c : Chan) (k : KernelArrays) :
    (s.writeKernel c k).inst = s.inst := by simp [State.writeKernel]
@[simp] theorem writeKernel_engine (s : State) (c : Chan) (k : KernelArrays) :
    (s.writeKernel c k).engine = s.engine := by simp [State.writeKernel]
@[simp] theorem writeKernel_running (s : State) (c : Chan) (k : KernelArrays) :
    (s.writeKernel c k).running = s.running := by simp [State.writeKernel]
@[simp] theorem writeKernel_cmd (s : State) (c : Chan) (k : KernelArrays) :
    (s.writeKernel c k).cmd = s.cmd := by simp [State.writeKernel]
@[simp] theorem writeKernel_staged (s : State) (c : Chan) (k : KernelArrays) :
    (s.writeKernel c k).staged = s.staged := by simp [State.writeKernel]
@[simp] theorem writeKernel_result (s : State) (c : Chan) (k : KernelArrays) :
    (s.writeKernel c k).result = s.result := by simp [State.writeKernel]
@[simp] theorem writeKernel_lastErr (s : State) (c : Chan) (k : KernelArrays) :
    (s.writeKernel c k).lastErr = s.lastErr := by simp [State.writeKernel]
@[simp] theorem writeKernel_firstErr (s : State) (c : Chan) (k : KernelArrays) :
    (s.writeKernel c k).firstErr = s.firstErr := by simp [State.writeKernel]
@[simp] theorem writeKernel_errCmd (s : State) (c : Chan) (k : KernelArrays) :
    (s.writeKernel c k).errCmd = s.errCmd := by simp [State.writeKernel]
@[simp] theorem writeKernel_busErr (s : State) (c : Chan) (k : KernelArrays) :
    (s.writeKernel c k).busErr = s.busErr := by simp [State.writeKernel]
@[simp] theorem writeKernel_overrun (s : State) (c : Chan) (k : KernelArrays) :
    (s.writeKernel c k).overrun = s.overrun := by simp [State.writeKernel]
@[simp] theorem writeKernel_irq (s : State) (c : Chan) (k : KernelArrays) :
    (s.writeKernel c k).irq = s.irq := by simp [State.writeKernel]
@[simp] theorem writeKernel_bank (s : State) (c : Chan) (k : KernelArrays) :
    (s.writeKernel c k).bank = s.bank := by simp [State.writeKernel]
@[simp] theorem writeKernel_com (s : State) (c : Chan) (k : KernelArrays) :
    (s.writeKernel c k).com = s.com := by simp [State.writeKernel]
@[simp] theorem writeKernel_p (s : State) (c : Chan) (k : KernelArrays) :
    (s.writeKernel c k).p = s.p := by simp [State.writeKernel]
@[simp] theorem writeKernel_stats (s : State) (c : Chan) (k : KernelArrays) :
    (s.writeKernel c k).stats = s.stats := by simp [State.writeKernel]
@[simp] theorem writeKernel_draws (s : State) (c : Chan) (k : KernelArrays) :
    (s.writeKernel c k).draws = s.draws := by simp [State.writeKernel]
@[simp] theorem writeKernel_epochs (s : State) (c : Chan) (k : KernelArrays) :
    (s.writeKernel c k).epochs = s.epochs := by simp [State.writeKernel]
@[simp] theorem writeKernel_schedule (s : State) (c : Chan) (k : KernelArrays) :
    (s.writeKernel c k).schedule = s.schedule := by simp [State.writeKernel]
@[simp] theorem writeKernel_resp (s : State) (c : Chan) (k : KernelArrays) :
    (s.writeKernel c k).resp = s.resp := by simp [State.writeKernel]

@[simp] theorem rebuildKernel_inst (s : State) (g : Geometry) (c : Chan) :
    (s.rebuildKernel g c).inst = s.inst := by simp [State.rebuildKernel]
@[simp] theorem rebuildKernel_engine (s : State) (g : Geometry) (c : Chan) :
    (s.rebuildKernel g c).engine = s.engine := by simp [State.rebuildKernel]
@[simp] theorem rebuildKernel_running (s : State) (g : Geometry) (c : Chan) :
    (s.rebuildKernel g c).running = s.running := by simp [State.rebuildKernel]
@[simp] theorem rebuildKernel_cmd (s : State) (g : Geometry) (c : Chan) :
    (s.rebuildKernel g c).cmd = s.cmd := by simp [State.rebuildKernel]
@[simp] theorem rebuildKernel_staged (s : State) (g : Geometry) (c : Chan) :
    (s.rebuildKernel g c).staged = s.staged := by simp [State.rebuildKernel]
@[simp] theorem rebuildKernel_result (s : State) (g : Geometry) (c : Chan) :
    (s.rebuildKernel g c).result = s.result := by simp [State.rebuildKernel]
@[simp] theorem rebuildKernel_lastErr (s : State) (g : Geometry) (c : Chan) :
    (s.rebuildKernel g c).lastErr = s.lastErr := by simp [State.rebuildKernel]
@[simp] theorem rebuildKernel_firstErr (s : State) (g : Geometry) (c : Chan) :
    (s.rebuildKernel g c).firstErr = s.firstErr := by simp [State.rebuildKernel]
@[simp] theorem rebuildKernel_errCmd (s : State) (g : Geometry) (c : Chan) :
    (s.rebuildKernel g c).errCmd = s.errCmd := by simp [State.rebuildKernel]
@[simp] theorem rebuildKernel_busErr (s : State) (g : Geometry) (c : Chan) :
    (s.rebuildKernel g c).busErr = s.busErr := by simp [State.rebuildKernel]
@[simp] theorem rebuildKernel_overrun (s : State) (g : Geometry) (c : Chan) :
    (s.rebuildKernel g c).overrun = s.overrun := by simp [State.rebuildKernel]
@[simp] theorem rebuildKernel_irq (s : State) (g : Geometry) (c : Chan) :
    (s.rebuildKernel g c).irq = s.irq := by simp [State.rebuildKernel]
@[simp] theorem rebuildKernel_bank (s : State) (g : Geometry) (c : Chan) :
    (s.rebuildKernel g c).bank = s.bank := by simp [State.rebuildKernel]
@[simp] theorem rebuildKernel_com (s : State) (g : Geometry) (c : Chan) :
    (s.rebuildKernel g c).com = s.com := by simp [State.rebuildKernel]
@[simp] theorem rebuildKernel_p (s : State) (g : Geometry) (c : Chan) :
    (s.rebuildKernel g c).p = s.p := by simp [State.rebuildKernel]
@[simp] theorem rebuildKernel_stats (s : State) (g : Geometry) (c : Chan) :
    (s.rebuildKernel g c).stats = s.stats := by simp [State.rebuildKernel]
@[simp] theorem rebuildKernel_epochs (s : State) (g : Geometry) (c : Chan) :
    (s.rebuildKernel g c).epochs = s.epochs := by simp [State.rebuildKernel]
@[simp] theorem rebuildKernel_schedule (s : State) (g : Geometry) (c : Chan) :
    (s.rebuildKernel g c).schedule = s.schedule := by simp [State.rebuildKernel]
@[simp] theorem rebuildKernel_resp (s : State) (g : Geometry) (c : Chan) :
    (s.rebuildKernel g c).resp = s.resp := by simp [State.rebuildKernel]

@[simp] theorem rebuildTable_inst (s : State) (g : Geometry) (c : Chan) :
    (s.rebuildTable g c).inst = s.inst := by simp [State.rebuildTable]
@[simp] theorem rebuildTable_engine (s : State) (g : Geometry) (c : Chan) :
    (s.rebuildTable g c).engine = s.engine := by simp [State.rebuildTable]
@[simp] theorem rebuildTable_running (s : State) (g : Geometry) (c : Chan) :
    (s.rebuildTable g c).running = s.running := by simp [State.rebuildTable]
@[simp] theorem rebuildTable_cmd (s : State) (g : Geometry) (c : Chan) :
    (s.rebuildTable g c).cmd = s.cmd := by simp [State.rebuildTable]
@[simp] theorem rebuildTable_staged (s : State) (g : Geometry) (c : Chan) :
    (s.rebuildTable g c).staged = s.staged := by simp [State.rebuildTable]
@[simp] theorem rebuildTable_result (s : State) (g : Geometry) (c : Chan) :
    (s.rebuildTable g c).result = s.result := by simp [State.rebuildTable]
@[simp] theorem rebuildTable_lastErr (s : State) (g : Geometry) (c : Chan) :
    (s.rebuildTable g c).lastErr = s.lastErr := by simp [State.rebuildTable]
@[simp] theorem rebuildTable_firstErr (s : State) (g : Geometry) (c : Chan) :
    (s.rebuildTable g c).firstErr = s.firstErr := by simp [State.rebuildTable]
@[simp] theorem rebuildTable_errCmd (s : State) (g : Geometry) (c : Chan) :
    (s.rebuildTable g c).errCmd = s.errCmd := by simp [State.rebuildTable]
@[simp] theorem rebuildTable_busErr (s : State) (g : Geometry) (c : Chan) :
    (s.rebuildTable g c).busErr = s.busErr := by simp [State.rebuildTable]
@[simp] theorem rebuildTable_overrun (s : State) (g : Geometry) (c : Chan) :
    (s.rebuildTable g c).overrun = s.overrun := by simp [State.rebuildTable]
@[simp] theorem rebuildTable_irq (s : State) (g : Geometry) (c : Chan) :
    (s.rebuildTable g c).irq = s.irq := by simp [State.rebuildTable]
@[simp] theorem rebuildTable_bank (s : State) (g : Geometry) (c : Chan) :
    (s.rebuildTable g c).bank = s.bank := by simp [State.rebuildTable]
@[simp] theorem rebuildTable_com (s : State) (g : Geometry) (c : Chan) :
    (s.rebuildTable g c).com = s.com := by simp [State.rebuildTable]
@[simp] theorem rebuildTable_p (s : State) (g : Geometry) (c : Chan) :
    (s.rebuildTable g c).p = s.p := by simp [State.rebuildTable]
@[simp] theorem rebuildTable_stats (s : State) (g : Geometry) (c : Chan) :
    (s.rebuildTable g c).stats = s.stats := by simp [State.rebuildTable]
@[simp] theorem rebuildTable_epochs (s : State) (g : Geometry) (c : Chan) :
    (s.rebuildTable g c).epochs = s.epochs := by simp [State.rebuildTable]
@[simp] theorem rebuildTable_schedule (s : State) (g : Geometry) (c : Chan) :
    (s.rebuildTable g c).schedule = s.schedule := by simp [State.rebuildTable]
@[simp] theorem rebuildTable_resp (s : State) (g : Geometry) (c : Chan) :
    (s.rebuildTable g c).resp = s.resp := by simp [State.rebuildTable]

@[simp] theorem clearField_inst (s : State) (g : Geometry) (c : Chan) :
    (s.clearField g c).inst = s.inst := by simp [State.clearField]
@[simp] theorem clearField_engine (s : State) (g : Geometry) (c : Chan) :
    (s.clearField g c).engine = s.engine := by simp [State.clearField]
@[simp] theorem clearField_running (s : State) (g : Geometry) (c : Chan) :
    (s.clearField g c).running = s.running := by simp [State.clearField]
@[simp] theorem clearField_cmd (s : State) (g : Geometry) (c : Chan) :
    (s.clearField g c).cmd = s.cmd := by simp [State.clearField]
@[simp] theorem clearField_staged (s : State) (g : Geometry) (c : Chan) :
    (s.clearField g c).staged = s.staged := by simp [State.clearField]
@[simp] theorem clearField_result (s : State) (g : Geometry) (c : Chan) :
    (s.clearField g c).result = s.result := by simp [State.clearField]
@[simp] theorem clearField_lastErr (s : State) (g : Geometry) (c : Chan) :
    (s.clearField g c).lastErr = s.lastErr := by simp [State.clearField]
@[simp] theorem clearField_firstErr (s : State) (g : Geometry) (c : Chan) :
    (s.clearField g c).firstErr = s.firstErr := by simp [State.clearField]
@[simp] theorem clearField_errCmd (s : State) (g : Geometry) (c : Chan) :
    (s.clearField g c).errCmd = s.errCmd := by simp [State.clearField]
@[simp] theorem clearField_busErr (s : State) (g : Geometry) (c : Chan) :
    (s.clearField g c).busErr = s.busErr := by simp [State.clearField]
@[simp] theorem clearField_overrun (s : State) (g : Geometry) (c : Chan) :
    (s.clearField g c).overrun = s.overrun := by simp [State.clearField]
@[simp] theorem clearField_irq (s : State) (g : Geometry) (c : Chan) :
    (s.clearField g c).irq = s.irq := by simp [State.clearField]
@[simp] theorem clearField_bank (s : State) (g : Geometry) (c : Chan) :
    (s.clearField g c).bank = s.bank := by simp [State.clearField]
@[simp] theorem clearField_com (s : State) (g : Geometry) (c : Chan) :
    (s.clearField g c).com = s.com := by simp [State.clearField]
@[simp] theorem clearField_p (s : State) (g : Geometry) (c : Chan) :
    (s.clearField g c).p = s.p := by simp [State.clearField]
@[simp] theorem clearField_stats (s : State) (g : Geometry) (c : Chan) :
    (s.clearField g c).stats = s.stats := by simp [State.clearField]
@[simp] theorem clearField_draws (s : State) (g : Geometry) (c : Chan) :
    (s.clearField g c).draws = s.draws := by simp [State.clearField]
@[simp] theorem clearField_epochs (s : State) (g : Geometry) (c : Chan) :
    (s.clearField g c).epochs = s.epochs := by simp [State.clearField]
@[simp] theorem clearField_schedule (s : State) (g : Geometry) (c : Chan) :
    (s.clearField g c).schedule = s.schedule := by simp [State.clearField]
@[simp] theorem clearField_resp (s : State) (g : Geometry) (c : Chan) :
    (s.clearField g c).resp = s.resp := by simp [State.clearField]

@[simp] theorem randomizeField_inst (s : State) (g : Geometry) (d l : Word) (c : Chan) :
    (s.randomizeField g d l c).inst = s.inst := by simp [State.randomizeField]
@[simp] theorem randomizeField_engine (s : State) (g : Geometry) (d l : Word) (c : Chan) :
    (s.randomizeField g d l c).engine = s.engine := by simp [State.randomizeField]
@[simp] theorem randomizeField_running (s : State) (g : Geometry) (d l : Word) (c : Chan) :
    (s.randomizeField g d l c).running = s.running := by simp [State.randomizeField]
@[simp] theorem randomizeField_cmd (s : State) (g : Geometry) (d l : Word) (c : Chan) :
    (s.randomizeField g d l c).cmd = s.cmd := by simp [State.randomizeField]
@[simp] theorem randomizeField_staged (s : State) (g : Geometry) (d l : Word) (c : Chan) :
    (s.randomizeField g d l c).staged = s.staged := by simp [State.randomizeField]
@[simp] theorem randomizeField_result (s : State) (g : Geometry) (d l : Word) (c : Chan) :
    (s.randomizeField g d l c).result = s.result := by simp [State.randomizeField]
@[simp] theorem randomizeField_lastErr (s : State) (g : Geometry) (d l : Word) (c : Chan) :
    (s.randomizeField g d l c).lastErr = s.lastErr := by simp [State.randomizeField]
@[simp] theorem randomizeField_firstErr (s : State) (g : Geometry) (d l : Word) (c : Chan) :
    (s.randomizeField g d l c).firstErr = s.firstErr := by simp [State.randomizeField]
@[simp] theorem randomizeField_errCmd (s : State) (g : Geometry) (d l : Word) (c : Chan) :
    (s.randomizeField g d l c).errCmd = s.errCmd := by simp [State.randomizeField]
@[simp] theorem randomizeField_busErr (s : State) (g : Geometry) (d l : Word) (c : Chan) :
    (s.randomizeField g d l c).busErr = s.busErr := by simp [State.randomizeField]
@[simp] theorem randomizeField_overrun (s : State) (g : Geometry) (d l : Word) (c : Chan) :
    (s.randomizeField g d l c).overrun = s.overrun := by simp [State.randomizeField]
@[simp] theorem randomizeField_irq (s : State) (g : Geometry) (d l : Word) (c : Chan) :
    (s.randomizeField g d l c).irq = s.irq := by simp [State.randomizeField]
@[simp] theorem randomizeField_bank (s : State) (g : Geometry) (d l : Word) (c : Chan) :
    (s.randomizeField g d l c).bank = s.bank := by simp [State.randomizeField]
@[simp] theorem randomizeField_com (s : State) (g : Geometry) (d l : Word) (c : Chan) :
    (s.randomizeField g d l c).com = s.com := by simp [State.randomizeField]
@[simp] theorem randomizeField_p (s : State) (g : Geometry) (d l : Word) (c : Chan) :
    (s.randomizeField g d l c).p = s.p := by simp [State.randomizeField]
@[simp] theorem randomizeField_stats (s : State) (g : Geometry) (d l : Word) (c : Chan) :
    (s.randomizeField g d l c).stats = s.stats := by simp [State.randomizeField]
@[simp] theorem randomizeField_epochs (s : State) (g : Geometry) (d l : Word) (c : Chan) :
    (s.randomizeField g d l c).epochs = s.epochs := by simp [State.randomizeField]
@[simp] theorem randomizeField_schedule (s : State) (g : Geometry) (d l : Word) (c : Chan) :
    (s.randomizeField g d l c).schedule = s.schedule := by simp [State.randomizeField]
@[simp] theorem randomizeField_resp (s : State) (g : Geometry) (d l : Word) (c : Chan) :
    (s.randomizeField g d l c).resp = s.resp := by simp [State.randomizeField]

@[simp] theorem circleField_inst (s : State) (g : Geometry) (cx cy : Int) (r v : Word) (c : Chan) :
    (s.circleField g cx cy r v c).inst = s.inst := by simp [State.circleField]
@[simp] theorem circleField_engine (s : State) (g : Geometry) (cx cy : Int) (r v : Word) (c : Chan) :
    (s.circleField g cx cy r v c).engine = s.engine := by simp [State.circleField]
@[simp] theorem circleField_running (s : State) (g : Geometry) (cx cy : Int) (r v : Word) (c : Chan) :
    (s.circleField g cx cy r v c).running = s.running := by simp [State.circleField]
@[simp] theorem circleField_cmd (s : State) (g : Geometry) (cx cy : Int) (r v : Word) (c : Chan) :
    (s.circleField g cx cy r v c).cmd = s.cmd := by simp [State.circleField]
@[simp] theorem circleField_staged (s : State) (g : Geometry) (cx cy : Int) (r v : Word) (c : Chan) :
    (s.circleField g cx cy r v c).staged = s.staged := by simp [State.circleField]
@[simp] theorem circleField_result (s : State) (g : Geometry) (cx cy : Int) (r v : Word) (c : Chan) :
    (s.circleField g cx cy r v c).result = s.result := by simp [State.circleField]
@[simp] theorem circleField_lastErr (s : State) (g : Geometry) (cx cy : Int) (r v : Word) (c : Chan) :
    (s.circleField g cx cy r v c).lastErr = s.lastErr := by simp [State.circleField]
@[simp] theorem circleField_firstErr (s : State) (g : Geometry) (cx cy : Int) (r v : Word) (c : Chan) :
    (s.circleField g cx cy r v c).firstErr = s.firstErr := by simp [State.circleField]
@[simp] theorem circleField_errCmd (s : State) (g : Geometry) (cx cy : Int) (r v : Word) (c : Chan) :
    (s.circleField g cx cy r v c).errCmd = s.errCmd := by simp [State.circleField]
@[simp] theorem circleField_busErr (s : State) (g : Geometry) (cx cy : Int) (r v : Word) (c : Chan) :
    (s.circleField g cx cy r v c).busErr = s.busErr := by simp [State.circleField]
@[simp] theorem circleField_overrun (s : State) (g : Geometry) (cx cy : Int) (r v : Word) (c : Chan) :
    (s.circleField g cx cy r v c).overrun = s.overrun := by simp [State.circleField]
@[simp] theorem circleField_irq (s : State) (g : Geometry) (cx cy : Int) (r v : Word) (c : Chan) :
    (s.circleField g cx cy r v c).irq = s.irq := by simp [State.circleField]
@[simp] theorem circleField_bank (s : State) (g : Geometry) (cx cy : Int) (r v : Word) (c : Chan) :
    (s.circleField g cx cy r v c).bank = s.bank := by simp [State.circleField]
@[simp] theorem circleField_com (s : State) (g : Geometry) (cx cy : Int) (r v : Word) (c : Chan) :
    (s.circleField g cx cy r v c).com = s.com := by simp [State.circleField]
@[simp] theorem circleField_p (s : State) (g : Geometry) (cx cy : Int) (r v : Word) (c : Chan) :
    (s.circleField g cx cy r v c).p = s.p := by simp [State.circleField]
@[simp] theorem circleField_stats (s : State) (g : Geometry) (cx cy : Int) (r v : Word) (c : Chan) :
    (s.circleField g cx cy r v c).stats = s.stats := by simp [State.circleField]
@[simp] theorem circleField_epochs (s : State) (g : Geometry) (cx cy : Int) (r v : Word) (c : Chan) :
    (s.circleField g cx cy r v c).epochs = s.epochs := by simp [State.circleField]
@[simp] theorem circleField_schedule (s : State) (g : Geometry) (cx cy : Int) (r v : Word) (c : Chan) :
    (s.circleField g cx cy r v c).schedule = s.schedule := by simp [State.circleField]
@[simp] theorem circleField_resp (s : State) (g : Geometry) (cx cy : Int) (r v : Word) (c : Chan) :
    (s.circleField g cx cy r v c).resp = s.resp := by simp [State.circleField]

@[simp] theorem placeInto_inst (s : State) (src : State) (g : Geometry) (p : Pattern) (sp : Nat × Nat) (x y : Int) (c : Chan) :
    (s.placeInto src g p sp x y c).inst = s.inst := by simp [State.placeInto]
@[simp] theorem placeInto_engine (s : State) (src : State) (g : Geometry) (p : Pattern) (sp : Nat × Nat) (x y : Int) (c : Chan) :
    (s.placeInto src g p sp x y c).engine = s.engine := by simp [State.placeInto]
@[simp] theorem placeInto_running (s : State) (src : State) (g : Geometry) (p : Pattern) (sp : Nat × Nat) (x y : Int) (c : Chan) :
    (s.placeInto src g p sp x y c).running = s.running := by simp [State.placeInto]
@[simp] theorem placeInto_cmd (s : State) (src : State) (g : Geometry) (p : Pattern) (sp : Nat × Nat) (x y : Int) (c : Chan) :
    (s.placeInto src g p sp x y c).cmd = s.cmd := by simp [State.placeInto]
@[simp] theorem placeInto_staged (s : State) (src : State) (g : Geometry) (p : Pattern) (sp : Nat × Nat) (x y : Int) (c : Chan) :
    (s.placeInto src g p sp x y c).staged = s.staged := by simp [State.placeInto]
@[simp] theorem placeInto_result (s : State) (src : State) (g : Geometry) (p : Pattern) (sp : Nat × Nat) (x y : Int) (c : Chan) :
    (s.placeInto src g p sp x y c).result = s.result := by simp [State.placeInto]
@[simp] theorem placeInto_lastErr (s : State) (src : State) (g : Geometry) (p : Pattern) (sp : Nat × Nat) (x y : Int) (c : Chan) :
    (s.placeInto src g p sp x y c).lastErr = s.lastErr := by simp [State.placeInto]
@[simp] theorem placeInto_firstErr (s : State) (src : State) (g : Geometry) (p : Pattern) (sp : Nat × Nat) (x y : Int) (c : Chan) :
    (s.placeInto src g p sp x y c).firstErr = s.firstErr := by simp [State.placeInto]
@[simp] theorem placeInto_errCmd (s : State) (src : State) (g : Geometry) (p : Pattern) (sp : Nat × Nat) (x y : Int) (c : Chan) :
    (s.placeInto src g p sp x y c).errCmd = s.errCmd := by simp [State.placeInto]
@[simp] theorem placeInto_busErr (s : State) (src : State) (g : Geometry) (p : Pattern) (sp : Nat × Nat) (x y : Int) (c : Chan) :
    (s.placeInto src g p sp x y c).busErr = s.busErr := by simp [State.placeInto]
@[simp] theorem placeInto_overrun (s : State) (src : State) (g : Geometry) (p : Pattern) (sp : Nat × Nat) (x y : Int) (c : Chan) :
    (s.placeInto src g p sp x y c).overrun = s.overrun := by simp [State.placeInto]
@[simp] theorem placeInto_irq (s : State) (src : State) (g : Geometry) (p : Pattern) (sp : Nat × Nat) (x y : Int) (c : Chan) :
    (s.placeInto src g p sp x y c).irq = s.irq := by simp [State.placeInto]
@[simp] theorem placeInto_bank (s : State) (src : State) (g : Geometry) (p : Pattern) (sp : Nat × Nat) (x y : Int) (c : Chan) :
    (s.placeInto src g p sp x y c).bank = s.bank := by simp [State.placeInto]
@[simp] theorem placeInto_com (s : State) (src : State) (g : Geometry) (p : Pattern) (sp : Nat × Nat) (x y : Int) (c : Chan) :
    (s.placeInto src g p sp x y c).com = s.com := by simp [State.placeInto]
@[simp] theorem placeInto_p (s : State) (src : State) (g : Geometry) (p : Pattern) (sp : Nat × Nat) (x y : Int) (c : Chan) :
    (s.placeInto src g p sp x y c).p = s.p := by simp [State.placeInto]
@[simp] theorem placeInto_stats (s : State) (src : State) (g : Geometry) (p : Pattern) (sp : Nat × Nat) (x y : Int) (c : Chan) :
    (s.placeInto src g p sp x y c).stats = s.stats := by simp [State.placeInto]
@[simp] theorem placeInto_epochs (s : State) (src : State) (g : Geometry) (p : Pattern) (sp : Nat × Nat) (x y : Int) (c : Chan) :
    (s.placeInto src g p sp x y c).epochs = s.epochs := by simp [State.placeInto]
@[simp] theorem placeInto_schedule (s : State) (src : State) (g : Geometry) (p : Pattern) (sp : Nat × Nat) (x y : Int) (c : Chan) :
    (s.placeInto src g p sp x y c).schedule = s.schedule := by simp [State.placeInto]
@[simp] theorem placeInto_resp (s : State) (src : State) (g : Geometry) (p : Pattern) (sp : Nat × Nat) (x y : Int) (c : Chan) :
    (s.placeInto src g p sp x y c).resp = s.resp := by simp [State.placeInto]

@[simp] theorem importField_inst (s : State) (g : Geometry) (c : Chan) :
    (s.importField g c).inst = s.inst := by simp [State.importField]
@[simp] theorem importField_engine (s : State) (g : Geometry) (c : Chan) :
    (s.importField g c).engine = s.engine := by simp [State.importField]
@[simp] theorem importField_running (s : State) (g : Geometry) (c : Chan) :
    (s.importField g c).running = s.running := by simp [State.importField]
@[simp] theorem importField_cmd (s : State) (g : Geometry) (c : Chan) :
    (s.importField g c).cmd = s.cmd := by simp [State.importField]
@[simp] theorem importField_staged (s : State) (g : Geometry) (c : Chan) :
    (s.importField g c).staged = s.staged := by simp [State.importField]
@[simp] theorem importField_result (s : State) (g : Geometry) (c : Chan) :
    (s.importField g c).result = s.result := by simp [State.importField]
@[simp] theorem importField_lastErr (s : State) (g : Geometry) (c : Chan) :
    (s.importField g c).lastErr = s.lastErr := by simp [State.importField]
@[simp] theorem importField_firstErr (s : State) (g : Geometry) (c : Chan) :
    (s.importField g c).firstErr = s.firstErr := by simp [State.importField]
@[simp] theorem importField_errCmd (s : State) (g : Geometry) (c : Chan) :
    (s.importField g c).errCmd = s.errCmd := by simp [State.importField]
@[simp] theorem importField_busErr (s : State) (g : Geometry) (c : Chan) :
    (s.importField g c).busErr = s.busErr := by simp [State.importField]
@[simp] theorem importField_overrun (s : State) (g : Geometry) (c : Chan) :
    (s.importField g c).overrun = s.overrun := by simp [State.importField]
@[simp] theorem importField_irq (s : State) (g : Geometry) (c : Chan) :
    (s.importField g c).irq = s.irq := by simp [State.importField]
@[simp] theorem importField_bank (s : State) (g : Geometry) (c : Chan) :
    (s.importField g c).bank = s.bank := by simp [State.importField]
@[simp] theorem importField_com (s : State) (g : Geometry) (c : Chan) :
    (s.importField g c).com = s.com := by simp [State.importField]
@[simp] theorem importField_p (s : State) (g : Geometry) (c : Chan) :
    (s.importField g c).p = s.p := by simp [State.importField]
@[simp] theorem importField_stats (s : State) (g : Geometry) (c : Chan) :
    (s.importField g c).stats = s.stats := by simp [State.importField]
@[simp] theorem importField_draws (s : State) (g : Geometry) (c : Chan) :
    (s.importField g c).draws = s.draws := by simp [State.importField]
@[simp] theorem importField_epochs (s : State) (g : Geometry) (c : Chan) :
    (s.importField g c).epochs = s.epochs := by simp [State.importField]
@[simp] theorem importField_schedule (s : State) (g : Geometry) (c : Chan) :
    (s.importField g c).schedule = s.schedule := by simp [State.importField]
@[simp] theorem importField_resp (s : State) (g : Geometry) (c : Chan) :
    (s.importField g c).resp = s.resp := by simp [State.importField]

@[simp] theorem writeTables_inst (s : State) (g : Geometry) :
    (s.writeTables g).inst = s.inst := by simp [State.writeTables]
@[simp] theorem writeTables_engine (s : State) (g : Geometry) :
    (s.writeTables g).engine = s.engine := by simp [State.writeTables]
@[simp] theorem writeTables_running (s : State) (g : Geometry) :
    (s.writeTables g).running = s.running := by simp [State.writeTables]
@[simp] theorem writeTables_cmd (s : State) (g : Geometry) :
    (s.writeTables g).cmd = s.cmd := by simp [State.writeTables]
@[simp] theorem writeTables_staged (s : State) (g : Geometry) :
    (s.writeTables g).staged = s.staged := by simp [State.writeTables]
@[simp] theorem writeTables_result (s : State) (g : Geometry) :
    (s.writeTables g).result = s.result := by simp [State.writeTables]
@[simp] theorem writeTables_lastErr (s : State) (g : Geometry) :
    (s.writeTables g).lastErr = s.lastErr := by simp [State.writeTables]
@[simp] theorem writeTables_firstErr (s : State) (g : Geometry) :
    (s.writeTables g).firstErr = s.firstErr := by simp [State.writeTables]
@[simp] theorem writeTables_errCmd (s : State) (g : Geometry) :
    (s.writeTables g).errCmd = s.errCmd := by simp [State.writeTables]
@[simp] theorem writeTables_busErr (s : State) (g : Geometry) :
    (s.writeTables g).busErr = s.busErr := by simp [State.writeTables]
@[simp] theorem writeTables_overrun (s : State) (g : Geometry) :
    (s.writeTables g).overrun = s.overrun := by simp [State.writeTables]
@[simp] theorem writeTables_irq (s : State) (g : Geometry) :
    (s.writeTables g).irq = s.irq := by simp [State.writeTables]
@[simp] theorem writeTables_bank (s : State) (g : Geometry) :
    (s.writeTables g).bank = s.bank := by simp [State.writeTables]
@[simp] theorem writeTables_com (s : State) (g : Geometry) :
    (s.writeTables g).com = s.com := by simp [State.writeTables]
@[simp] theorem writeTables_p (s : State) (g : Geometry) :
    (s.writeTables g).p = s.p := by simp [State.writeTables]
@[simp] theorem writeTables_stats (s : State) (g : Geometry) :
    (s.writeTables g).stats = s.stats := by simp [State.writeTables]
@[simp] theorem writeTables_draws (s : State) (g : Geometry) :
    (s.writeTables g).draws = s.draws := by simp [State.writeTables]
@[simp] theorem writeTables_epochs (s : State) (g : Geometry) :
    (s.writeTables g).epochs = s.epochs := by simp [State.writeTables]
@[simp] theorem writeTables_schedule (s : State) (g : Geometry) :
    (s.writeTables g).schedule = s.schedule := by simp [State.writeTables]
@[simp] theorem writeTables_resp (s : State) (g : Geometry) :
    (s.writeTables g).resp = s.resp := by simp [State.writeTables]

@[simp] theorem initChannel_inst (s : State) (g : Geometry) (c : Chan) :
    (s.initChannel g c).inst = s.inst := by simp [State.initChannel]
@[simp] theorem initChannel_engine (s : State) (g : Geometry) (c : Chan) :
    (s.initChannel g c).engine = s.engine := by simp [State.initChannel]
@[simp] theorem initChannel_running (s : State) (g : Geometry) (c : Chan) :
    (s.initChannel g c).running = s.running := by simp [State.initChannel]
@[simp] theorem initChannel_cmd (s : State) (g : Geometry) (c : Chan) :
    (s.initChannel g c).cmd = s.cmd := by simp [State.initChannel]
@[simp] theorem initChannel_staged (s : State) (g : Geometry) (c : Chan) :
    (s.initChannel g c).staged = s.staged := by simp [State.initChannel]
@[simp] theorem initChannel_result (s : State) (g : Geometry) (c : Chan) :
    (s.initChannel g c).result = s.result := by simp [State.initChannel]
@[simp] theorem initChannel_lastErr (s : State) (g : Geometry) (c : Chan) :
    (s.initChannel g c).lastErr = s.lastErr := by simp [State.initChannel]
@[simp] theorem initChannel_firstErr (s : State) (g : Geometry) (c : Chan) :
    (s.initChannel g c).firstErr = s.firstErr := by simp [State.initChannel]
@[simp] theorem initChannel_errCmd (s : State) (g : Geometry) (c : Chan) :
    (s.initChannel g c).errCmd = s.errCmd := by simp [State.initChannel]
@[simp] theorem initChannel_busErr (s : State) (g : Geometry) (c : Chan) :
    (s.initChannel g c).busErr = s.busErr := by simp [State.initChannel]
@[simp] theorem initChannel_overrun (s : State) (g : Geometry) (c : Chan) :
    (s.initChannel g c).overrun = s.overrun := by simp [State.initChannel]
@[simp] theorem initChannel_irq (s : State) (g : Geometry) (c : Chan) :
    (s.initChannel g c).irq = s.irq := by simp [State.initChannel]
@[simp] theorem initChannel_bank (s : State) (g : Geometry) (c : Chan) :
    (s.initChannel g c).bank = s.bank := by simp [State.initChannel]
@[simp] theorem initChannel_com (s : State) (g : Geometry) (c : Chan) :
    (s.initChannel g c).com = s.com := by simp [State.initChannel]
@[simp] theorem initChannel_p (s : State) (g : Geometry) (c : Chan) :
    (s.initChannel g c).p = s.p := by simp [State.initChannel]
@[simp] theorem initChannel_stats (s : State) (g : Geometry) (c : Chan) :
    (s.initChannel g c).stats = s.stats := by simp [State.initChannel]
@[simp] theorem initChannel_epochs (s : State) (g : Geometry) (c : Chan) :
    (s.initChannel g c).epochs = s.epochs := by simp [State.initChannel]
@[simp] theorem initChannel_schedule (s : State) (g : Geometry) (c : Chan) :
    (s.initChannel g c).schedule = s.schedule := by simp [State.initChannel]
@[simp] theorem initChannel_resp (s : State) (g : Geometry) (c : Chan) :
    (s.initChannel g c).resp = s.resp := by simp [State.initChannel]

@[simp] theorem recomputeStats_inst (s : State) (g : Geometry) (inc : Bool) :
    (s.recomputeStats g inc).inst = s.inst := by simp [State.recomputeStats]
@[simp] theorem recomputeStats_engine (s : State) (g : Geometry) (inc : Bool) :
    (s.recomputeStats g inc).engine = s.engine := by simp [State.recomputeStats]
@[simp] theorem recomputeStats_running (s : State) (g : Geometry) (inc : Bool) :
    (s.recomputeStats g inc).running = s.running := by simp [State.recomputeStats]
@[simp] theorem recomputeStats_cmd (s : State) (g : Geometry) (inc : Bool) :
    (s.recomputeStats g inc).cmd = s.cmd := by simp [State.recomputeStats]
@[simp] theorem recomputeStats_staged (s : State) (g : Geometry) (inc : Bool) :
    (s.recomputeStats g inc).staged = s.staged := by simp [State.recomputeStats]
@[simp] theorem recomputeStats_result (s : State) (g : Geometry) (inc : Bool) :
    (s.recomputeStats g inc).result = s.result := by simp [State.recomputeStats]
@[simp] theorem recomputeStats_lastErr (s : State) (g : Geometry) (inc : Bool) :
    (s.recomputeStats g inc).lastErr = s.lastErr := by simp [State.recomputeStats]
@[simp] theorem recomputeStats_firstErr (s : State) (g : Geometry) (inc : Bool) :
    (s.recomputeStats g inc).firstErr = s.firstErr := by simp [State.recomputeStats]
@[simp] theorem recomputeStats_errCmd (s : State) (g : Geometry) (inc : Bool) :
    (s.recomputeStats g inc).errCmd = s.errCmd := by simp [State.recomputeStats]
@[simp] theorem recomputeStats_busErr (s : State) (g : Geometry) (inc : Bool) :
    (s.recomputeStats g inc).busErr = s.busErr := by simp [State.recomputeStats]
@[simp] theorem recomputeStats_overrun (s : State) (g : Geometry) (inc : Bool) :
    (s.recomputeStats g inc).overrun = s.overrun := by simp [State.recomputeStats]
@[simp] theorem recomputeStats_irq (s : State) (g : Geometry) (inc : Bool) :
    (s.recomputeStats g inc).irq = s.irq := by simp [State.recomputeStats]
@[simp] theorem recomputeStats_bank (s : State) (g : Geometry) (inc : Bool) :
    (s.recomputeStats g inc).bank = s.bank := by simp [State.recomputeStats]
@[simp] theorem recomputeStats_com (s : State) (g : Geometry) (inc : Bool) :
    (s.recomputeStats g inc).com = s.com := by simp [State.recomputeStats]
@[simp] theorem recomputeStats_p (s : State) (g : Geometry) (inc : Bool) :
    (s.recomputeStats g inc).p = s.p := by simp [State.recomputeStats]
@[simp] theorem recomputeStats_mem (s : State) (g : Geometry) (inc : Bool) :
    (s.recomputeStats g inc).mem = s.mem := by simp [State.recomputeStats]
@[simp] theorem recomputeStats_epochs (s : State) (g : Geometry) (inc : Bool) :
    (s.recomputeStats g inc).epochs = s.epochs := by simp [State.recomputeStats]
@[simp] theorem recomputeStats_schedule (s : State) (g : Geometry) (inc : Bool) :
    (s.recomputeStats g inc).schedule = s.schedule := by simp [State.recomputeStats]
@[simp] theorem recomputeStats_resp (s : State) (g : Geometry) (inc : Bool) :
    (s.recomputeStats g inc).resp = s.resp := by simp [State.recomputeStats]

@[simp] theorem resultOf_inst (s : State) (m : Num Word) :
    (s.resultOf m).inst = s.inst := by simp [State.resultOf]
@[simp] theorem resultOf_engine (s : State) (m : Num Word) :
    (s.resultOf m).engine = s.engine := by simp [State.resultOf]
@[simp] theorem resultOf_running (s : State) (m : Num Word) :
    (s.resultOf m).running = s.running := by simp [State.resultOf]
@[simp] theorem resultOf_cmd (s : State) (m : Num Word) :
    (s.resultOf m).cmd = s.cmd := by simp [State.resultOf]
@[simp] theorem resultOf_staged (s : State) (m : Num Word) :
    (s.resultOf m).staged = s.staged := by simp [State.resultOf]
@[simp] theorem resultOf_lastErr (s : State) (m : Num Word) :
    (s.resultOf m).lastErr = s.lastErr := by simp [State.resultOf]
@[simp] theorem resultOf_firstErr (s : State) (m : Num Word) :
    (s.resultOf m).firstErr = s.firstErr := by simp [State.resultOf]
@[simp] theorem resultOf_errCmd (s : State) (m : Num Word) :
    (s.resultOf m).errCmd = s.errCmd := by simp [State.resultOf]
@[simp] theorem resultOf_busErr (s : State) (m : Num Word) :
    (s.resultOf m).busErr = s.busErr := by simp [State.resultOf]
@[simp] theorem resultOf_overrun (s : State) (m : Num Word) :
    (s.resultOf m).overrun = s.overrun := by simp [State.resultOf]
@[simp] theorem resultOf_irq (s : State) (m : Num Word) :
    (s.resultOf m).irq = s.irq := by simp [State.resultOf]
@[simp] theorem resultOf_bank (s : State) (m : Num Word) :
    (s.resultOf m).bank = s.bank := by simp [State.resultOf]
@[simp] theorem resultOf_com (s : State) (m : Num Word) :
    (s.resultOf m).com = s.com := by simp [State.resultOf]
@[simp] theorem resultOf_p (s : State) (m : Num Word) :
    (s.resultOf m).p = s.p := by simp [State.resultOf]
@[simp] theorem resultOf_stats (s : State) (m : Num Word) :
    (s.resultOf m).stats = s.stats := by simp [State.resultOf]
@[simp] theorem resultOf_mem (s : State) (m : Num Word) :
    (s.resultOf m).mem = s.mem := by simp [State.resultOf]
@[simp] theorem resultOf_epochs (s : State) (m : Num Word) :
    (s.resultOf m).epochs = s.epochs := by simp [State.resultOf]
@[simp] theorem resultOf_schedule (s : State) (m : Num Word) :
    (s.resultOf m).schedule = s.schedule := by simp [State.resultOf]
@[simp] theorem resultOf_resp (s : State) (m : Num Word) :
    (s.resultOf m).resp = s.resp := by simp [State.resultOf]

@[simp] theorem stepChannel_inst (s : State) (g : Geometry) (c : Chan) :
    (s.stepChannel g c).inst = s.inst := by simp [State.stepChannel]
@[simp] theorem stepChannel_engine (s : State) (g : Geometry) (c : Chan) :
    (s.stepChannel g c).engine = s.engine := by simp [State.stepChannel]
@[simp] theorem stepChannel_running (s : State) (g : Geometry) (c : Chan) :
    (s.stepChannel g c).running = s.running := by simp [State.stepChannel]
@[simp] theorem stepChannel_cmd (s : State) (g : Geometry) (c : Chan) :
    (s.stepChannel g c).cmd = s.cmd := by simp [State.stepChannel]
@[simp] theorem stepChannel_staged (s : State) (g : Geometry) (c : Chan) :
    (s.stepChannel g c).staged = s.staged := by simp [State.stepChannel]
@[simp] theorem stepChannel_result (s : State) (g : Geometry) (c : Chan) :
    (s.stepChannel g c).result = s.result := by simp [State.stepChannel]
@[simp] theorem stepChannel_lastErr (s : State) (g : Geometry) (c : Chan) :
    (s.stepChannel g c).lastErr = s.lastErr := by simp [State.stepChannel]
@[simp] theorem stepChannel_firstErr (s : State) (g : Geometry) (c : Chan) :
    (s.stepChannel g c).firstErr = s.firstErr := by simp [State.stepChannel]
@[simp] theorem stepChannel_errCmd (s : State) (g : Geometry) (c : Chan) :
    (s.stepChannel g c).errCmd = s.errCmd := by simp [State.stepChannel]
@[simp] theorem stepChannel_busErr (s : State) (g : Geometry) (c : Chan) :
    (s.stepChannel g c).busErr = s.busErr := by simp [State.stepChannel]
@[simp] theorem stepChannel_overrun (s : State) (g : Geometry) (c : Chan) :
    (s.stepChannel g c).overrun = s.overrun := by simp [State.stepChannel]
@[simp] theorem stepChannel_irq (s : State) (g : Geometry) (c : Chan) :
    (s.stepChannel g c).irq = s.irq := by simp [State.stepChannel]
@[simp] theorem stepChannel_com (s : State) (g : Geometry) (c : Chan) :
    (s.stepChannel g c).com = s.com := by simp [State.stepChannel]
@[simp] theorem stepChannel_p (s : State) (g : Geometry) (c : Chan) :
    (s.stepChannel g c).p = s.p := by simp [State.stepChannel]
@[simp] theorem stepChannel_stats (s : State) (g : Geometry) (c : Chan) :
    (s.stepChannel g c).stats = s.stats := by simp [State.stepChannel]
@[simp] theorem stepChannel_epochs (s : State) (g : Geometry) (c : Chan) :
    (s.stepChannel g c).epochs = s.epochs := by simp [State.stepChannel]
@[simp] theorem stepChannel_schedule (s : State) (g : Geometry) (c : Chan) :
    (s.stepChannel g c).schedule = s.schedule := by simp [State.stepChannel]
@[simp] theorem stepChannel_resp (s : State) (g : Geometry) (c : Chan) :
    (s.stepChannel g c).resp = s.resp := by simp [State.stepChannel]

end Sys2Proof.Machine
end

