-- ==== Sys2Proof/Laws/Bus.lean ====
section
/-! SUPPORT. What the host bus can do: what the registers latched at the accept event read as, where a register is, and
every effect an access can have while a command is executing. -/

namespace Sys2Proof.Machine

/-! ### The values latched at the accept event (R90) -/

@[simp] theorem State.errCmdWord_idle {s : State} (h : s.running = none) : s.errCmdWord = s.errCmd := by
  simp [State.errCmdWord, h]

@[simp] theorem State.errCmdWord_busy {s : State} {r : Running} (h : s.running = some r) : s.errCmdWord = r.errCmd := by
  simp [State.errCmdWord, h]

@[simp] theorem State.irqEnWord_idle {s : State} (h : s.running = none) : s.irqEnWord = s.irq.enableWord := by
  simp [State.irqEnWord, h]

@[simp] theorem State.irqEnWord_busy {s : State} {r : Running} (h : s.running = some r) : s.irqEnWord = r.irqEn := by
  simp [State.irqEnWord, h]

@[simp] theorem State.errCmdWord_accept (s : State) (w : Word) : (s.accept w).errCmdWord = s.errCmd := rfl

@[simp] theorem State.irqEnWord_accept (s : State) (w : Word) : (s.accept w).irqEnWord = s.irq.enableWord := rfl

/-! ### Where a register is (R32) -/

@[simp] theorem Reg.legalBeat_offset (r : Reg) : legalBeat (BitVec.ofNat 36 r.offset) 8 = true := by
  cases r <;> first
    | decide
    | (rename_i k; cases k <;> decide)
    | (rename_i c k; cases c <;> cases k <;> decide)

@[simp] theorem Reg.regionOf_offset (r : Reg) : regionOf (BitVec.ofNat 36 r.offset) = 0 := by
  cases r <;> first
    | decide
    | (rename_i k; cases k <;> decide)
    | (rename_i c k; cases c <;> cases k <;> decide)

@[simp] theorem Reg.offsetOf_offset (r : Reg) : offsetOf (BitVec.ofNat 36 r.offset) = r.offset := by
  cases r <;> first
    | decide
    | (rename_i k; cases k <;> decide)
    | (rename_i c k; cases c <;> cases k <;> decide)

@[simp] theorem Reg.ofOffset_offset (r : Reg) : Reg.ofOffset r.offset = some r := by
  cases r <;> first
    | rfl
    | (rename_i k; cases k <;> rfl)
    | (rename_i c k; cases c <;> cases k <;> rfl)

/-- At a reserved offset there is no register (R57). -/
theorem Reg.ofOffset_eq_none {off : Nat} (h : ∀ r : Reg, r.offset ≠ off) : Reg.ofOffset off = none := by
  unfold Reg.ofOffset
  rw [List.find?_eq_none]
  intro r _
  simpa using h r

/-- An access to a register is a read or a write of that register. -/
theorem State.performAccess_register (s : State) (r : Reg) (w : Word) :
    s.performAccess (.read (BitVec.ofNat 36 r.offset) 8) = s.okay (s.readReg r) ∧
    s.performAccess (.write (BitVec.ofNat 36 r.offset) 8 w) = s.writeReg r w := by
  simp [State.performAccess, State.readWord, State.writeWord]

/-! ### Accesses while a command is executing -/

/-- All that an access can write while a command is executing: FIRST_ERR, ERR_CMD, BUS_ERR, OVERRUN, the interrupt registers
and the response (R90). -/
theorem State.performAccess_busy {s : State} (h : s.busy = true) (a : BusAccess) :
    ∃ (firstErr : Err) (errCmd : Word) (busErr overrun : Bool) (irq : IrqRegs) (resp : Option BusResp),
      s.performAccess a =
        { s with
          firstErr := firstErr, errCmd := errCmd, busErr := busErr, overrun := overrun, irq := irq, resp := resp } := by
  cases a with
  | read addr size =>
    simp only [State.performAccess, State.readWord]
    repeat' split
    all_goals exact ⟨_, _, _, _, _, _, rfl⟩
  | write addr size w =>
    simp only [State.performAccess, State.writeWord, h]
    repeat' split
    case h_1 r _ => cases r <;> (simp only [State.writeReg, h]; exact ⟨_, _, _, _, _, _, rfl⟩)
    all_goals first
      | exact ⟨_, _, _, _, _, _, rfl⟩
      | contradiction

end Sys2Proof.Machine
end

