-- ==== Sys2Proof/Laws/Memory.lean ====
section
/-! SUPPORT. The laws of the byte memory: what is read after a store or a forget, and that every operation keeps the
canonical form. -/

namespace Sys2Proof.Machine

theorem Memory.read_append (m k : List Host.Cell) (a : Nat) :
    Memory.read (m ++ k) a = (Memory.read m a).or (Memory.read k a) := by
  induction m with
  | nil => simp [Memory.read]
  | cons c m ih =>
    simp only [List.cons_append, Memory.read]
    split
    · simp
    · exact ih

/-- Reading through a filter that keeps every cell at the address. -/
theorem Memory.read_filter_keep (f : Host.Cell → Bool) (a : Nat) (h : ∀ b, f (a, b) = true) :
    ∀ m : List Host.Cell, Memory.read (m.filter f) a = Memory.read m a
  | [] => rfl
  | c :: m => by
    have ih := Memory.read_filter_keep f a h m
    by_cases hc : c.1 = a
    · have hf : f c = true := by
        obtain ⟨c1, c2⟩ := c
        obtain rfl : c1 = a := hc
        exact h c2
      simp [hf, Memory.read, hc]
    · by_cases hf : f c = true
      · simp [hf, Memory.read, hc, ih]
      · simp [hf, Memory.read, hc, ih]

/-- Reading through a filter that drops every cell at the address. -/
theorem Memory.read_filter_drop (f : Host.Cell → Bool) (a : Nat) (h : ∀ b, f (a, b) = false) :
    ∀ m : List Host.Cell, Memory.read (m.filter f) a = none
  | [] => rfl
  | c :: m => by
    have ih := Memory.read_filter_drop f a h m
    by_cases hf : f c = true
    · have hc : c.1 ≠ a := by
        intro hc
        obtain ⟨c1, c2⟩ := c
        obtain rfl : c1 = a := hc
        rw [h c2] at hf
        exact Bool.noConfusion hf
      simp [hf, Memory.read, hc, ih]
    · simp [hf, ih]

/-- The bytes of consecutive cells. -/
theorem Memory.read_cells (a : Nat) (bs : List Byte) (x : Nat) :
    Memory.read (Memory.cells a bs) x = if a ≤ x then bs[x - a]? else none := by
  induction bs generalizing a with
  | nil => simp [Memory.cells, Memory.read]
  | cons b bs ih =>
    simp only [Memory.cells, Memory.read]
    by_cases h : a = x
    · subst h; simp
    · rw [if_neg h, ih]
      by_cases h1 : a ≤ x
      · have h2 : a + 1 ≤ x := by omega
        obtain ⟨k, rfl⟩ : ∃ k, x = a + 1 + k := ⟨x - (a + 1), by omega⟩
        have e1 : a + 1 + k - (a + 1) = k := by omega
        have e2 : a + 1 + k - a = k + 1 := by omega
        simp [h1, e1, e2]
      · have h2 : ¬ a + 1 ≤ x := by omega
        simp [h1, h2]

/-- A store leaves every byte outside the stored ones as it was. -/
theorem Memory.read_store_outside (m : List Host.Cell) (a : Nat) (bs : List Byte) (x : Nat)
    (h : x < a ∨ a + bs.length ≤ x) : Memory.read (Memory.store m a bs) x = Memory.read m x := by
  unfold Memory.store
  rw [Memory.read_append, Memory.read_append, Memory.read_cells]
  rcases h with h | h
  · rw [Memory.read_filter_keep _ x (by intro b; simpa using h),
      Memory.read_filter_drop (fun c => decide (a + bs.length ≤ c.1)) x (by intro b; simp; omega)]
    have h1 : ¬ a ≤ x := by omega
    simp [h1]
  · rw [Memory.read_filter_drop (fun c => decide (c.1 < a)) x (by intro b; simp; omega),
      Memory.read_filter_keep (fun c => decide (a + bs.length ≤ c.1)) x (by intro b; simpa using h)]
    have h1 : bs[x - a]? = none := List.getElem?_eq_none (by omega)
    simp [h1]

/-- A stored byte is read back. -/
theorem Memory.read_store_inside (m : List Host.Cell) (a : Nat) (bs : List Byte) (i : Nat) (h : i < bs.length) :
    Memory.read (Memory.store m a bs) (a + i) = some bs[i] := by
  unfold Memory.store
  rw [Memory.read_append, Memory.read_append, Memory.read_cells,
    Memory.read_filter_drop (fun c => decide (c.1 < a)) (a + i) (by intro b; simp)]
  have h1 : a + i - a = i := by omega
  simp [h1, h]

/-- Forgetting leaves every byte outside the forgotten ones as it was. -/
theorem Memory.read_forget_outside (m : List Host.Cell) (lo hi x : Nat) (h : x < lo ∨ hi ≤ x) :
    Memory.read (Memory.forget m lo hi) x = Memory.read m x := by
  refine Memory.read_filter_keep _ x ?_ m
  intro b
  simpa using h

/-- A forgotten byte is unlisted. -/
theorem Memory.read_forget_inside (m : List Host.Cell) (lo hi x : Nat) (h : lo ≤ x ∧ x < hi) :
    Memory.read (Memory.forget m lo hi) x = none := by
  refine Memory.read_filter_drop _ x ?_ m
  intro b
  simp
  omega

theorem Memory.mem_cells {c : Host.Cell} : ∀ {a : Nat} {bs : List Byte}, c ∈ Memory.cells a bs →
    a ≤ c.1 ∧ c.1 < a + bs.length
  | _, [], h => by simp [Memory.cells] at h
  | a, b :: bs, h => by
    simp only [Memory.cells, List.mem_cons] at h
    rcases h with rfl | h
    · simp
    · have := Memory.mem_cells h
      simp only [List.length_cons]
      omega

theorem Memory.cells_wf : ∀ (a : Nat) (bs : List Byte), Memory.wf (Memory.cells a bs)
  | _, [] => List.Pairwise.nil
  | a, b :: bs => by
    refine List.Pairwise.cons ?_ (Memory.cells_wf (a + 1) bs)
    intro c hc
    have := (Memory.mem_cells hc).1
    show a < c.1
    omega

/-- A filter keeps the canonical form. -/
theorem Memory.filter_wf {m : List Host.Cell} (f : Host.Cell → Bool) (h : Memory.wf m) : Memory.wf (m.filter f) :=
  List.Pairwise.filter f h

/-- A store keeps the canonical form. -/
theorem Memory.store_wf {m : List Host.Cell} (a : Nat) (bs : List Byte) (h : Memory.wf m) :
    Memory.wf (Memory.store m a bs) := by
  unfold Memory.store Memory.wf
  rw [List.pairwise_append, List.pairwise_append]
  refine ⟨Memory.filter_wf _ h, ⟨Memory.cells_wf a bs, Memory.filter_wf _ h, ?_⟩, ?_⟩
  · intro c hc d hd
    have h1 := (Memory.mem_cells hc).2
    simp only [List.mem_filter, decide_eq_true_eq] at hd
    omega
  · intro c hc d hd
    simp only [List.mem_filter, decide_eq_true_eq] at hc
    rw [List.mem_append] at hd
    rcases hd with hd | hd
    · have := (Memory.mem_cells hd).1
      omega
    · simp only [List.mem_filter, decide_eq_true_eq] at hd
      omega

/-- Forgetting keeps the canonical form. -/
theorem Memory.forget_wf {m : List Host.Cell} (lo hi : Nat) (h : Memory.wf m) : Memory.wf (Memory.forget m lo hi) :=
  Memory.filter_wf _ h

/-- The lanes of a word are its bytes. -/
theorem wordBytes_length (w : Word) : (wordBytes w).length = 8 := rfl

theorem wordBytes_getElem (w : Word) (j : Nat) (h : j < (wordBytes w).length) : (wordBytes w)[j] = byteLane w j := by
  rw [wordBytes_length] at h
  interval_cases j <;> rfl

/-- A word is the word of its lanes. -/
theorem wordOfLanes_byteLane (w : Word) : wordOfLanes (byteLane w) = w := by
  apply BitVec.eq_of_getLsbD_eq
  intro i hi
  unfold wordOfLanes byteLane
  erw [BitVec.getLsbD_append, BitVec.getLsbD_append, BitVec.getLsbD_append, BitVec.getLsbD_append,
    BitVec.getLsbD_append, BitVec.getLsbD_append, BitVec.getLsbD_append]
  simp only [BitVec.getLsbD_extractLsb']
  interval_cases i <;> simp

/-- A word read lane by lane depends on its eight lanes only. -/
theorem wordOfLanes_congr {b c : Nat → Byte} (h : ∀ j, j < 8 → b j = c j) : wordOfLanes b = wordOfLanes c := by
  unfold wordOfLanes
  rw [h 0, h 1, h 2, h 3, h 4, h 5, h 6, h 7] <;> decide

/-- The bytes of a list of words: eight for each. -/
theorem flatMap_wordBytes_length : ∀ ws : List Word, (ws.flatMap wordBytes).length = 8 * ws.length
  | [] => rfl
  | w :: ws => by
    rw [List.flatMap_cons, List.length_append, wordBytes_length, flatMap_wordBytes_length ws, List.length_cons]
    omega

/-- Byte `8i + j` of a list of words is lane `j` of word `i`. -/
theorem flatMap_wordBytes_getElem? : ∀ (ws : List Word) (i j : Nat) (hi : i < ws.length), j < 8 →
    (ws.flatMap wordBytes)[8 * i + j]? = some (byteLane ws[i] j)
  | [], _, _, hi, _ => by simp at hi
  | w :: ws, 0, j, _, hj => by
    have h : j < (wordBytes w).length := by rw [wordBytes_length]; exact hj
    rw [List.flatMap_cons, Nat.mul_zero, Nat.zero_add, List.getElem?_append_left h, List.getElem?_eq_getElem h,
      wordBytes_getElem]
    rfl
  | w :: ws, i + 1, j, hi, hj => by
    have h : (wordBytes w).length ≤ 8 * (i + 1) + j := by rw [wordBytes_length]; omega
    have e : 8 * (i + 1) + j - (wordBytes w).length = 8 * i + j := by rw [wordBytes_length]; omega
    rw [List.flatMap_cons, List.getElem?_append_right h, e]
    exact flatMap_wordBytes_getElem? ws i j (by simpa using hi) hj

end Sys2Proof.Machine
end

