-- ==== Sys2Proof/Laws/Ops.lean ====
section
/-! SUPPORT. What the shared operations can do: array reads after array writes, the ways a command ends, traversals. -/

namespace Sys2Proof.Machine

/-! ### Addresses -/

theorem Geometry.n_le (g : Geometry) : g.n ≤ 2 ^ 12 := by
  unfold Geometry.n Geometry.log2n
  exact Nat.pow_le_pow_right (by decide) (by omega)

theorem Geometry.n_pos (g : Geometry) : 0 < g.n := Nat.two_pow_pos _

theorem Geometry.cells_le (g : Geometry) : g.cells ≤ 2 ^ 24 := by
  unfold Geometry.cells
  calc g.n * g.n ≤ 2 ^ 12 * 2 ^ 12 := Nat.mul_le_mul g.n_le g.n_le
    _ = 2 ^ 24 := by decide

theorem Geometry.res_le (g : Geometry) : g.res ≤ 2 ^ 24 := by
  unfold Geometry.res
  have := g.resExtra.isLt
  omega

theorem Geometry.idx_lt (g : Geometry) {x y : Nat} (hx : x < g.n) (hy : y < g.n) : g.idx x y < g.cells := by
  unfold Geometry.idx Geometry.cells
  calc y * g.n + x < y * g.n + g.n := by omega
    _ = (y + 1) * g.n := by ring
    _ ≤ g.n * g.n := Nat.mul_le_mul_right _ hy

theorem Instance.nMax_le (i : Instance) : i.nMax ≤ 2 ^ 12 := by
  unfold Instance.nMax Instance.log2NMax
  exact Nat.pow_le_pow_right (by decide) (by omega)

/-- The arrays, once each. -/
def allArrs : List Arr :=
  List.flatten
    [ [.field .c0 false, .field .c1 false, .field .c2 false, .field .c0 true, .field .c1 true, .field .c2 true],
      [.kernel .c0, .kernel .c1, .kernel .c2, .ktfRe .c0, .ktfRe .c1, .ktfRe .c2, .ktfIm .c0, .ktfIm .c1, .ktfIm .c2],
      [.sre, .sim, .gtab .c0, .gtab .c1, .gtab .c2, .twCos, .twSin, .bitrev, .pattern],
      [.stage .c0, .stage .c1, .stage .c2] ]

theorem find_arr_of_region (a : Arr) : allArrs.find? (fun b => b.region == a.region) = some a := by
  rcases a with ⟨_ | _ | _, _ | _⟩ | ⟨_ | _ | _⟩ | ⟨_ | _ | _⟩ | ⟨_ | _ | _⟩ | _ | _ | ⟨_ | _ | _⟩ | _ | _ | _ | _ | ⟨_ | _ | _⟩ <;>
    rfl

/-- Different arrays have different regions. -/
theorem Arr.region_injective {a b : Arr} (h : a.region = b.region) : a = b := by
  have ha := find_arr_of_region a
  rw [h, find_arr_of_region b] at ha
  exact (Option.some.inj ha).symm

/-- Bytes below 2^28 from the bases of different arrays are different bytes. -/
theorem Arr.disjoint {a b : Arr} (hab : a ≠ b) {i j : Nat} (hi : i < 2 ^ 28) (hj : j < 2 ^ 28) :
    a.base + i ≠ b.base + j := by
  intro h
  apply hab
  apply Arr.region_injective
  unfold Arr.base at h
  omega

/-! ### Bytes and elements -/

/-- A byte depends on memory and on the counts of the free values only. -/
theorem readByte_congr {s t : State} (hm : t.mem = s.mem) (he : t.epochs = s.epochs) (a : Nat) :
    t.readByte a = s.readByte a := by
  unfold State.readByte
  rw [hm, he]

theorem readElem_congr {s t : State} (hm : t.mem = s.mem) (he : t.epochs = s.epochs) (a : Arr) (i : Nat) :
    t.readElem a i = s.readElem a i :=
  wordOfLanes_congr fun j _ => readByte_congr hm he (a.addr i + j)

theorem readArray_congr {s t : State} (hm : t.mem = s.mem) (he : t.epochs = s.epochs) (a : Arr) (n : Nat) :
    t.readArray a n = s.readArray a n := by
  unfold State.readArray
  exact List.map_congr_left fun i _ => readElem_congr hm he a i

@[simp] theorem readArray_length (s : State) (a : Arr) (n : Nat) : (s.readArray a n).length = n := by
  simp [State.readArray]

theorem readArray_getElem (s : State) (a : Arr) (n i : Nat) (h : i < (s.readArray a n).length) :
    (s.readArray a n)[i] = s.readElem a i := by
  simp [State.readArray]

/-- An element is read from its eight bytes. -/
theorem readElem_of_bytes {s t : State} {a : Arr} {i : Nat}
    (h : ∀ j, j < 8 → t.readByte (a.addr i + j) = s.readByte (a.addr i + j)) : t.readElem a i = s.readElem a i :=
  wordOfLanes_congr h

/-- Writing an array leaves every byte outside its written elements as it was. -/
theorem readByte_writeArray_outside (s : State) (a : Arr) (ws : List Word) (x : Nat)
    (h : x < a.base ∨ a.base + 8 * ws.length ≤ x) : (s.writeArray a ws).readByte x = s.readByte x := by
  unfold State.readByte
  rw [writeArray_mem, writeArray_epochs,
    Memory.read_store_outside _ _ _ _ (by rw [flatMap_wordBytes_length]; exact h)]

/-- Writing one element leaves every byte outside its eight as it was. -/
theorem readByte_writeElem_outside (s : State) (a : Arr) (i : Nat) (w : Word) (x : Nat)
    (h : x < a.addr i ∨ a.addr i + 8 ≤ x) : (s.writeElem a i w).readByte x = s.readByte x := by
  unfold State.readByte
  rw [writeElem_mem, writeElem_epochs, Memory.read_store_outside _ _ _ _ (by rw [wordBytes_length]; exact h)]

/-- A written array is read back. -/
theorem readElem_writeArray_same (s : State) (a : Arr) (ws : List Word) (i : Nat) (h : i < ws.length) :
    (s.writeArray a ws).readElem a i = ws[i] := by
  rw [← wordOfLanes_byteLane ws[i]]
  apply wordOfLanes_congr
  intro j hj
  have hl : 8 * i + j < (ws.flatMap wordBytes).length := by rw [flatMap_wordBytes_length]; omega
  have hr := Memory.read_store_inside s.mem a.base (ws.flatMap wordBytes) (8 * i + j) hl
  have hv := flatMap_wordBytes_getElem? ws i j h hj
  rw [List.getElem?_eq_getElem hl, Option.some.injEq] at hv
  have e : a.addr i + j = a.base + (8 * i + j) := by unfold Arr.addr; omega
  unfold State.readByte
  rw [writeArray_mem, e, hr, hv]

theorem readArray_writeArray_same (s : State) (a : Arr) (ws : List Word) :
    (s.writeArray a ws).readArray a ws.length = ws := by
  apply List.ext_getElem (by simp)
  intro i h1 h2
  rw [readArray_getElem, readElem_writeArray_same]

/-- A written element is read back. -/
theorem readElem_writeElem_same (s : State) (a : Arr) (i : Nat) (w : Word) : (s.writeElem a i w).readElem a i = w := by
  rw [← wordOfLanes_byteLane w]
  have e : (s.writeElem a i (wordOfLanes (byteLane w))).mem = Memory.store s.mem (a.addr i) (wordBytes w) := by
    rw [wordOfLanes_byteLane]; rfl
  apply wordOfLanes_congr
  intro j hj
  have hl : j < (wordBytes w).length := hj
  have hr := Memory.read_store_inside s.mem (a.addr i) (wordBytes w) j hl
  rw [wordBytes_getElem w j hl] at hr
  unfold State.readByte
  rw [e, hr]

/-- Writing an array leaves the elements of every other array as they were. -/
theorem readElem_writeArray_other (s : State) {a b : Arr} (hab : b ≠ a) (ws : List Word) (i : Nat)
    (hw : ws.length ≤ 2 ^ 24) (hi : i < 2 ^ 24) : (s.writeArray a ws).readElem b i = s.readElem b i := by
  apply readElem_of_bytes
  intro j hj
  apply readByte_writeArray_outside
  by_contra hc
  refine Arr.disjoint hab (i := 8 * i + j) (j := b.addr i + j - a.base) (by omega) (by omega) ?_
  unfold Arr.addr at hc ⊢
  omega

theorem readArray_writeArray_other (s : State) {a b : Arr} (hab : b ≠ a) (ws : List Word) (n : Nat)
    (hw : ws.length ≤ 2 ^ 24) (hn : n ≤ 2 ^ 24) : (s.writeArray a ws).readArray b n = s.readArray b n := by
  unfold State.readArray
  apply List.map_congr_left
  intro i hi
  rw [List.mem_range] at hi
  exact readElem_writeArray_other s hab ws i hw (by omega)

/-- Writing one element leaves every other element as it was. -/
theorem readElem_writeElem_other (s : State) {a b : Arr} {i k : Nat} (h : b ≠ a ∨ k ≠ i) (w : Word)
    (hi : i < 2 ^ 24) (hk : k < 2 ^ 24) : (s.writeElem a i w).readElem b k = s.readElem b k := by
  apply readElem_of_bytes
  intro j hj
  apply readByte_writeElem_outside
  by_cases hab : b = a
  · subst hab
    have hk' : k ≠ i := by simpa using h
    unfold Arr.addr
    omega
  · by_contra hc
    refine Arr.disjoint hab (i := 8 * k + j) (j := b.addr k + j - a.base) (by omega) ?_ ?_
    · unfold Arr.addr at hc ⊢; omega
    · unfold Arr.addr at hc ⊢; omega

/-- Making the scratch arrays unspecified leaves every byte outside their two regions as it was. -/
theorem readByte_forgetScratch (s : State) (x : Nat) (h : x < Arr.base .sre ∨ Arr.base .sim + 2 ^ 28 ≤ x) :
    s.forgetScratch.readByte x = s.readByte x := by
  unfold State.readByte
  rw [forgetScratch_mem, Memory.read_forget_outside _ _ _ _ h]
  have e : Epochs.at { s.epochs with scratch := s.epochs.scratch + 1 } x = Epochs.at s.epochs x := by
    unfold Epochs.at
    have h1 : ¬ (x / 2 ^ 28 = 0x0D ∨ x / 2 ^ 28 = 0x0E) := by
      simp only [Arr.base, Arr.region] at h
      omega
    simp only [h1, if_false]
  rw [forgetScratch_epochs, e]

/-! ### The canonical form of memory -/

theorem writeArray_wf {s : State} (a : Arr) (ws : List Word) (h : Memory.wf s.mem) :
    Memory.wf (s.writeArray a ws).mem := Memory.store_wf _ _ h

theorem writeElem_wf {s : State} (a : Arr) (i : Nat) (w : Word) (h : Memory.wf s.mem) :
    Memory.wf (s.writeElem a i w).mem := Memory.store_wf _ _ h

theorem forgetScratch_wf {s : State} (h : Memory.wf s.mem) : Memory.wf s.forgetScratch.mem := Memory.forget_wf _ _ h

theorem forgetSized_wf {s : State} (h : Memory.wf s.mem) : Memory.wf s.forgetSized.mem := Memory.filter_wf _ h

theorem drawing_wf {α : Type} {s : State} (m : Num α) (h : Memory.wf s.mem) : Memory.wf (s.drawing m).2.mem := h

theorem reset_wf : Memory.wf State.reset.mem := List.Pairwise.nil

theorem resetBlock_wf (s : State) : Memory.wf s.resetBlock.mem := List.Pairwise.nil

/-! ### The ways a command ends -/

/-- A command ends with its effect and OK, or with an error's code and no effect; it never stops the machine. -/
theorem finish_next_iff {s t : State} {effect : Except Err State} :
    finish s effect = .next t ↔
      (∃ u, effect = .ok u ∧ t = u.recordCompletion .ok) ∨ (∃ e, effect = .error e ∧ t = s.recordCompletion e) := by
  cases effect with
  | ok u =>
    constructor
    · intro h
      exact .inl ⟨u, rfl, by simpa [finish] using h.symm⟩
    · rintro (⟨v, hv, rfl⟩ | ⟨e, he, -⟩)
      · cases hv; rfl
      · cases he
  | error e =>
    constructor
    · intro h
      exact .inr ⟨e, rfl, by simpa [finish] using h.symm⟩
    · rintro (⟨v, hv, -⟩ | ⟨e', he, rfl⟩)
      · cases hv
      · cases he; rfl

@[simp] theorem finish_ok (s t : State) : finish s (.ok t) = .next (t.recordCompletion .ok) := rfl

@[simp] theorem finish_error (s : State) (e : Err) : finish s (.error e) = .next (s.recordCompletion e) := rfl

theorem whenReady_ready {s : State} {g : Geometry} (h : s.engine = some g) (body : Geometry → Except Err State) :
    whenReady s body = body g := by
  unfold whenReady
  rw [h]

theorem whenReady_uninitialized {s : State} (h : s.engine = none) (body : Geometry → Except Err State) :
    whenReady s body = .error .notReady := by
  unfold whenReady
  rw [h]

theorem chanOfOne_active {g : Geometry} {c : Chan} (h : g.active c = true) : chanOfOne g (.ch c) = .ok c := by
  simp [chanOfOne, h]

theorem chansOf_active {g : Geometry} {c : Chan} (h : g.active c = true) : chansOf g (.ch c) = .ok [c] := by
  simp [chansOf, h]

@[simp] theorem chansOf_all (g : Geometry) : chansOf g .all = .ok g.chans := rfl

theorem runCommandNone_ready {s : State} {g : Geometry} (h : s.engine = some g) (body : Geometry → Except Err State) :
    runCommandNone s body = finish s (body g) := by
  unfold runCommandNone
  rw [whenReady_ready h]

theorem runCommandOne_ready {s : State} {g : Geometry} {c : Chan} (h : s.engine = some g) (hc : g.active c = true)
    (body : Geometry → Chan → Except Err State) : runCommandOne s (.ch c) body = finish s (body g c) := by
  unfold runCommandOne
  rw [whenReady_ready h, chanOfOne_active hc]

theorem runCommandMany_ready {s : State} {g : Geometry} {sel : ChSel} {cs : List Chan} (h : s.engine = some g)
    (hc : chansOf g sel = .ok cs) (body : Geometry → List Chan → Except Err State) :
    runCommandMany s sel body = finish s (body g cs) := by
  unfold runCommandMany
  rw [whenReady_ready h, hc]

/-! ### Computations with draws -/

@[simp] theorem run_pure {α : Type} (a : α) (d : Draws) : (pure a : Num α).run d = (a, d) := rfl

@[simp] theorem run_bind {α β : Type} (m : Num α) (f : α → Num β) (d : Draws) :
    (m >>= f).run d = (f (m.run d).1).run (m.run d).2 := rfl

@[simp] theorem run_forEach_nil {α β : Type} (f : α → Num β) (d : Draws) : (forEach f []).run d = ([], d) := rfl

@[simp] theorem run_forEach_cons {α β : Type} (f : α → Num β) (a : α) (as : List α) (d : Draws) :
    (forEach f (a :: as)).run d =
      (((f a).run d).1 :: ((forEach f as).run ((f a).run d).2).1, ((forEach f as).run ((f a).run d).2).2) := rfl

/-- A traversal lists one result for each element. -/
@[simp] theorem forEach_length {α β : Type} (f : α → Num β) (as : List α) (d : Draws) :
    ((forEach f as).run d).1.length = as.length := by
  induction as generalizing d with
  | nil => rfl
  | cons a as ih => simp [ih]

/-- What every result of `f` satisfies, every listed result satisfies. -/
theorem forEach_all {α β : Type} {f : α → Num β} {P : β → Prop} (h : ∀ a d, P ((f a).run d).1) (as : List α)
    (d : Draws) : ∀ b ∈ ((forEach f as).run d).1, P b := by
  induction as generalizing d with
  | nil => simp
  | cons a as ih =>
    intro b hb
    rw [run_forEach_cons, List.mem_cons] at hb
    rcases hb with rfl | hb
    · exact h a d
    · exact ih _ b hb

/-- Result `i` of a traversal is that of element `i`, at the stream positions its predecessors leave. -/
theorem forEach_getElem {α β : Type} (f : α → Num β) (as : List α) (d : Draws) (i : Nat) (hi : i < as.length) :
    ∃ e, ((forEach f as).run d).1[i]? = some ((f as[i]).run e).1 := by
  induction as generalizing d i with
  | nil => simp at hi
  | cons a as ih =>
    cases i with
    | zero => exact ⟨d, rfl⟩
    | succ i =>
      obtain ⟨e, he⟩ := ih ((f a).run d).2 i (by simpa using hi)
      exact ⟨e, by simpa using he⟩

/-- A computation that takes no RNG draw. -/
def KeepsRng {α : Type} (m : Num α) : Prop := ∀ d, (m.run d).2.rng = d.rng

theorem keepsRng_pure {α : Type} (a : α) : KeepsRng (pure a : Num α) := fun _ => rfl

theorem keepsRng_bind {α β : Type} {m : Num α} {f : α → Num β} (hm : KeepsRng m) (hf : ∀ a, KeepsRng (f a)) :
    KeepsRng (m >>= f) := fun d => by
  rw [run_bind, hf _ _, hm d]

theorem keepsRng_drawNan : KeepsRng drawNan := fun _ => rfl

theorem keepsRng_ite {α : Type} {p : Prop} [Decidable p] {m k : Num α} (hm : KeepsRng m) (hk : KeepsRng k) :
    KeepsRng (if p then m else k) := by
  split <;> assumption

theorem keepsRng_forEach {α β : Type} {f : α → Num β} (h : ∀ a, KeepsRng (f a)) (as : List α) :
    KeepsRng (forEach f as) := by
  induction as with
  | nil => exact keepsRng_pure _
  | cons a as ih => exact keepsRng_bind (h a) fun _ => keepsRng_bind ih fun _ => keepsRng_pure _

theorem keepsRng_foldlM {α β : Type} {f : β → α → Num β} (h : ∀ b a, KeepsRng (f b a)) (as : List α) (b : β) :
    KeepsRng (as.foldlM f b) := by
  induction as generalizing b with
  | nil => exact keepsRng_pure _
  | cons a as ih =>
    rw [List.foldlM_cons]
    exact keepsRng_bind (h b a) fun c => ih c

theorem keepsRng_fadd (a b : Word) : KeepsRng (fadd a b) := by
  unfold fadd
  split <;> (try dsimp only) <;> (try split) <;> simp only [keepsRng_pure, keepsRng_drawNan]

theorem keepsRng_fsub (a b : Word) : KeepsRng (fsub a b) := keepsRng_fadd _ _

theorem keepsRng_fmul (a b : Word) : KeepsRng (fmul a b) := by
  unfold fmul
  split <;> (try split) <;> simp only [keepsRng_pure, keepsRng_drawNan]

theorem keepsRng_fdiv (a b : Word) : KeepsRng (fdiv a b) := by
  unfold fdiv
  split <;> (try split) <;> (try split) <;> simp only [keepsRng_pure, keepsRng_drawNan]

theorem keepsRng_fsqrt (a : Word) : KeepsRng (fsqrt a) := by
  unfold fsqrt
  split <;> (try split) <;> (try split) <;> simp only [keepsRng_pure, keepsRng_drawNan]

theorem keepsRng_exp64 (a : Word) : KeepsRng (exp64 a) := by
  unfold exp64
  split <;> (try split) <;> (try split) <;> simp only [keepsRng_pure, keepsRng_drawNan]

end Sys2Proof.Machine
end

