-- ==== Sys2Proof/Laws/Engine.lean ====
section
/-! SUPPORT. What the shared engine operations can do: the shapes of the transform and of a kernel, the frame of a rebuild,
and the two ends of an atomic parameter change. -/

namespace Sys2Proof.Machine

/-! ### Shapes -/

/-- The 2D transform gives N² real and N² imaginary parts. -/
theorem fft2_length (t : FftTables) (inv : Bool) (a : Cplx) (d : Draws) :
    ((fft2 t inv a).run d).1.re.length = 2 ^ t.log2n * 2 ^ t.log2n ∧
    ((fft2 t inv a).run d).1.im.length = 2 ^ t.log2n * 2 ^ t.log2n := by
  unfold fft2
  simp only [run_bind, run_pure, ofColumns, List.length_map, List.length_range, and_self]

/-- A kernel has N² elements in each of its arrays. -/
theorem buildKernel_length (t : FftTables) (p : Params) (d : Draws) :
    ((buildKernel t p).run d).1.kernel.length = 2 ^ t.log2n * 2 ^ t.log2n ∧
    ((buildKernel t p).run d).1.ktf.re.length = 2 ^ t.log2n * 2 ^ t.log2n ∧
    ((buildKernel t p).run d).1.ktf.im.length = 2 ^ t.log2n * 2 ^ t.log2n := by
  refine ⟨?_, ?_, ?_⟩
  · unfold buildKernel kernelRaw
    simp only [run_bind, run_pure, forEach_length, List.length_range]
  · exact (fft2_length _ _ _ _).1
  · exact (fft2_length _ _ _ _).2

/-- A growth table has RES entries. -/
theorem buildTable_length (mu sigma : Word) (res : Nat) (d : Draws) :
    ((buildTable mu sigma res).run d).1.length = res := by
  unfold buildTable
  simp only [forEach_length, List.length_range]

@[simp] theorem fftTables_size (s : State) (g : Geometry) : 2 ^ (s.fftTables g).log2n = g.n := rfl

/-! ### Rebuilds -/

/-- Rebuilding a kernel writes memory and takes draws; nothing else. -/
theorem rebuildKernel_eq (s : State) (g : Geometry) (c : Chan) :
    s.rebuildKernel g c =
      { s with mem := (s.rebuildKernel g c).mem, draws := (s.rebuildKernel g c).draws } := by
  simp only [State.rebuildKernel, State.writeKernel, State.writeArray, State.drawing]

/-- Rebuilding a growth table writes memory and takes draws; nothing else. -/
theorem rebuildTable_eq (s : State) (g : Geometry) (c : Chan) :
    s.rebuildTable g c = { s with mem := (s.rebuildTable g c).mem, draws := (s.rebuildTable g c).draws } := by
  simp only [State.rebuildTable, State.writeArray, State.drawing]

/-- Byte `x` lies in none of the three kernel arrays of a channel. -/
def OutsideKernel (g : Geometry) (c : Chan) (x : Nat) : Prop :=
  (x < Arr.base (.kernel c) ∨ Arr.base (.kernel c) + 8 * g.cells ≤ x) ∧
  (x < Arr.base (.ktfRe c) ∨ Arr.base (.ktfRe c) + 8 * g.cells ≤ x) ∧
  (x < Arr.base (.ktfIm c) ∨ Arr.base (.ktfIm c) + 8 * g.cells ≤ x)

/-- Taking draws leaves every byte as it was. -/
@[simp] theorem readByte_drawing {α : Type} (s : State) (m : Num α) (x : Nat) :
    (s.drawing m).2.readByte x = s.readByte x := rfl

/-- Rebuilding a kernel leaves every byte outside the channel's kernel arrays as it was. -/
theorem readByte_rebuildKernel (s : State) (g : Geometry) (c : Chan) (x : Nat) (h : OutsideKernel g c x) :
    (s.rebuildKernel g c).readByte x = s.readByte x := by
  obtain ⟨h1, h2, h3⟩ := h
  have hl := buildKernel_length (s.fftTables g) (s.p.get c) s.draws
  unfold State.rebuildKernel State.writeKernel
  rw [readByte_writeArray_outside, readByte_writeArray_outside, readByte_writeArray_outside, readByte_drawing]
  · exact hl.1.symm ▸ h1
  · exact hl.2.1.symm ▸ h2
  · exact hl.2.2.symm ▸ h3

/-- Rebuilding a growth table leaves every byte outside the channel's table as it was. -/
theorem readByte_rebuildTable (s : State) (g : Geometry) (c : Chan) (x : Nat)
    (h : x < Arr.base (.gtab c) ∨ Arr.base (.gtab c) + 8 * g.res ≤ x) :
    (s.rebuildTable g c).readByte x = s.readByte x := by
  unfold State.rebuildTable
  rw [readByte_writeArray_outside, readByte_drawing]
  exact (buildTable_length (s.p.get c).mu (s.p.get c).sigma g.res s.draws).symm ▸ h

/-- A rebuilt kernel is read back: the three arrays are those of the channel's parameters, at the state's draws. -/
theorem rebuildKernel_arrays (s : State) (g : Geometry) (c : Chan) :
    (s.rebuildKernel g c).readArray (.kernel c) g.cells = ((buildKernel (s.fftTables g) (s.p.get c)).run s.draws).1.kernel ∧
    (s.rebuildKernel g c).readArray (.ktfRe c) g.cells = ((buildKernel (s.fftTables g) (s.p.get c)).run s.draws).1.ktf.re ∧
    (s.rebuildKernel g c).readArray (.ktfIm c) g.cells = ((buildKernel (s.fftTables g) (s.p.get c)).run s.draws).1.ktf.im := by
  obtain ⟨h1, h2, h3⟩ := buildKernel_length (s.fftTables g) (s.p.get c) s.draws
  have hc : 2 ^ (s.fftTables g).log2n * 2 ^ (s.fftTables g).log2n = g.cells := rfl
  have hle := g.cells_le
  rw [hc] at h1 h2 h3
  unfold State.rebuildKernel State.writeKernel
  simp only [State.drawing]
  generalize ((buildKernel (s.fftTables g) (s.p.get c)).run s.draws).1 = k at h1 h2 h3 ⊢
  refine ⟨?_, ?_, ?_⟩
  · rw [readArray_writeArray_other _ (by simp) _ _ (by omega) (by omega),
      readArray_writeArray_other _ (by simp) _ _ (by omega) (by omega), ← h1, readArray_writeArray_same]
  · rw [readArray_writeArray_other _ (by simp) _ _ (by omega) (by omega), ← h2, readArray_writeArray_same]
  · rw [← h3, readArray_writeArray_same]

/-- A rebuilt growth table is read back. -/
theorem rebuildTable_array (s : State) (g : Geometry) (c : Chan) :
    (s.rebuildTable g c).readArray (.gtab c) g.res =
      ((buildTable (s.p.get c).mu (s.p.get c).sigma g.res).run s.draws).1 := by
  have h := buildTable_length (s.p.get c).mu (s.p.get c).sigma g.res s.draws
  unfold State.rebuildTable
  simp only [State.drawing]
  generalize ((buildTable (s.p.get c).mu (s.p.get c).sigma g.res).run s.draws).1 = ws at h ⊢
  rw [← h, readArray_writeArray_same]

/-! ### Parameter changes -/

/-- Replacing a record, with its two conditions. -/
theorem replaceParams_eq_if (s : State) (g : Geometry) (c : Chan) (new : Params) :
    s.replaceParams g c new =
      if (s.p.get c).tableDiffers new then
        (if (s.p.get c).kernelDiffers new then { s with p := s.p.set c new }.rebuildKernel g c
          else { s with p := s.p.set c new }).rebuildTable g c
      else if (s.p.get c).kernelDiffers new then { s with p := s.p.set c new }.rebuildKernel g c
      else { s with p := s.p.set c new } := rfl

/-- Replacing a record writes P[c], memory and draws; nothing else. -/
theorem replaceParams_eq (s : State) (g : Geometry) (c : Chan) (new : Params) :
    s.replaceParams g c new =
      { s with
        p := s.p.set c new
        mem := (s.replaceParams g c new).mem
        draws := (s.replaceParams g c new).draws } := by
  rw [replaceParams_eq_if]
  cases (s.p.get c).kernelDiffers new <;> cases (s.p.get c).tableDiffers new <;>
    simp only [Bool.false_eq_true, if_false, if_true, State.rebuildKernel, State.writeKernel, State.rebuildTable,
      State.writeArray, State.drawing]

/-- Replacing a record leaves every byte outside the arrays it rebuilds as it was. -/
theorem readByte_replaceParams (s : State) (g : Geometry) (c : Chan) (new : Params) (x : Nat)
    (hk : (s.p.get c).kernelDiffers new = true → OutsideKernel g c x)
    (ht : (s.p.get c).tableDiffers new = true → x < Arr.base (.gtab c) ∨ Arr.base (.gtab c) + 8 * g.res ≤ x) :
    (s.replaceParams g c new).readByte x = s.readByte x := by
  have h0 : State.readByte { s with p := s.p.set c new } x = s.readByte x := rfl
  rw [replaceParams_eq_if]
  cases hkd : (s.p.get c).kernelDiffers new <;> cases htd : (s.p.get c).tableDiffers new <;>
    simp only [Bool.false_eq_true, if_false, if_true]
  · rfl
  · rw [readByte_rebuildTable _ _ _ _ (ht htd), h0]
  · rw [readByte_rebuildKernel _ _ _ _ (hk hkd), h0]
  · rw [readByte_rebuildTable _ _ _ _ (ht htd), readByte_rebuildKernel _ _ _ _ (hk hkd), h0]

/-- An atomic parameter change (R227) ends in one of two ways: a changed kernel has no mass and nothing is changed, or
every changed kernel has mass and every record of the list is replaced after COM, the scratch arrays being forgotten where a
kernel changed. -/
theorem commitParams_cases (s : State) (g : Geometry) (cs : List Chan) (newCom : Params) (newP : Per3 Params) :
    (((kernelsOk g.n ((cs.filter fun c => (s.p.get c).kernelDiffers (newP.get c)).map newP.get)).run s.draws).1 = false ∧
      s.commitParams g cs newCom newP = .error .kernelZeroMass) ∨
    (((kernelsOk g.n ((cs.filter fun c => (s.p.get c).kernelDiffers (newP.get c)).map newP.get)).run s.draws).1 = true ∧
      ∃ t, t = cs.foldl (fun t c => t.replaceParams g c (newP.get c))
          { (s.drawing (kernelsOk g.n ((cs.filter fun c => (s.p.get c).kernelDiffers (newP.get c)).map newP.get))).2 with
            com := newCom } ∧
        s.commitParams g cs newCom newP =
          .ok (if (cs.filter fun c => (s.p.get c).kernelDiffers (newP.get c)).isEmpty then t else t.forgetScratch)) := by
  unfold State.commitParams
  cases h : ((kernelsOk g.n ((cs.filter fun c => (s.p.get c).kernelDiffers (newP.get c)).map newP.get)).run s.draws).1
  · exact .inl ⟨rfl, if_neg (by simp [State.drawing, h])⟩
  · exact .inr ⟨rfl, _, rfl, if_pos (by simp [State.drawing, h])⟩

end Sys2Proof.Machine
end

