-- ==== Sys2Proof/Laws/PerInstr.lean ====
section
/-! SUPPORT. Facts about every command as syntax, one lemma for each constructor: the fields of its word (R110). -/

namespace Sys2Proof.Laws

open Sys2Proof

/-- The OPC field of a word put together from its fields. -/
theorem opcOf_fields (f : BitVec 6) (c : BitVec 2) (o : BitVec 8) : opcOf ((0 : BitVec 48) ++ f ++ c ++ o) = o := by
  unfold opcOf
  ext i hi
  simp only [BitVec.getElem_extractLsb', BitVec.getLsbD_append]
  rw [Nat.zero_add, if_pos hi, BitVec.getLsbD_eq_getElem hi]

/-- The CH field of a word put together from its fields. -/
theorem chOf_fields (f : BitVec 6) (c : BitVec 2) (o : BitVec 8) : chOf ((0 : BitVec 48) ++ f ++ c ++ o) = c := by
  unfold chOf
  ext i hi
  simp only [BitVec.getElem_extractLsb', BitVec.getLsbD_append]
  rw [if_neg (by omega), show 8 + i - 8 = i by omega, if_pos hi, BitVec.getLsbD_eq_getElem hi]

/-- The FLAGS field of a word put together from its fields. -/
theorem flagsOf_fields (f : BitVec 6) (c : BitVec 2) (o : BitVec 8) : flagsOf ((0 : BitVec 48) ++ f ++ c ++ o) = f := by
  unfold flagsOf
  ext i hi
  simp only [BitVec.getElem_extractLsb', BitVec.getLsbD_append]
  rw [if_neg (by omega), if_neg (by omega), show 10 + i - 8 - 2 = i by omega, if_pos hi, BitVec.getLsbD_eq_getElem hi]

/-- The RSV field of a word put together from its fields. -/
theorem rsvOf_fields (f : BitVec 6) (c : BitVec 2) (o : BitVec 8) :
    ((0 : BitVec 48) ++ f ++ c ++ o).extractLsb' 16 48 = 0 := by
  ext i hi
  simp only [BitVec.getElem_extractLsb', BitVec.getLsbD_append]
  rw [if_neg (by omega), if_neg (by omega), if_neg (by omega)]
  simp

/-- The selector of a CH field is the one whose bits it holds. -/
theorem chSelOfBits_bits (s : ChSel) : chSelOfBits s.bits = s := by
  rcases s with (_ | _ | _) | _ <;> rfl

/-- The word of a command has the fields the command says: RSV 0, its FLAGS, its channel selector and its OPC. -/
def EncodeFields.Statement (i : Instr) : Prop :=
  (encode i).extractLsb' 16 48 = 0 ∧ flagsOf (encode i) = i.flagBits ∧ chSelOfBits (chOf (encode i)) = i.chSel ∧
  opcOf (encode i) = i.opcode

/-- Every word put together by `encode` has its fields. -/
theorem encode_fields (i : Instr) : EncodeFields.Statement i :=
  ⟨rsvOf_fields _ _ _, flagsOf_fields _ _ _, (congrArg chSelOfBits (chOf_fields _ _ _)).trans (chSelOfBits_bits _),
    opcOf_fields _ _ _⟩

theorem EncodeFields.nop : EncodeFields.Statement (.nop) := encode_fields _
theorem EncodeFields.init : EncodeFields.Statement (.init) := encode_fields _
theorem EncodeFields.importCfg : EncodeFields.Statement (.importCfg) := encode_fields _
theorem EncodeFields.setp (ch : ChSel) (mask : ParamMask) : EncodeFields.Statement (.setp ch mask) := encode_fields _
theorem EncodeFields.setpSpread (mask : ParamMask) : EncodeFields.Statement (.setpSpread mask) := encode_fields _
theorem EncodeFields.buildKernel (ch : ChSel) : EncodeFields.Statement (.buildKernel ch) := encode_fields _
theorem EncodeFields.buildGrowth (ch : ChSel) : EncodeFields.Statement (.buildGrowth ch) := encode_fields _
theorem EncodeFields.step : EncodeFields.Statement (.step) := encode_fields _
theorem EncodeFields.run : EncodeFields.Statement (.run) := encode_fields _
theorem EncodeFields.loadf (ch : ChSel) : EncodeFields.Statement (.loadf ch) := encode_fields _
theorem EncodeFields.fftFwd : EncodeFields.Statement (.fftFwd) := encode_fields _
theorem EncodeFields.fftInv : EncodeFields.Statement (.fftInv) := encode_fields _
theorem EncodeFields.cmul (ch : ChSel) : EncodeFields.Statement (.cmul ch) := encode_fields _
theorem EncodeFields.growth (ch : ChSel) : EncodeFields.Statement (.growth ch) := encode_fields _
theorem EncodeFields.swap (ch : ChSel) : EncodeFields.Statement (.swap ch) := encode_fields _
theorem EncodeFields.stats (inc : Bool) : EncodeFields.Statement (.stats inc) := encode_fields _
theorem EncodeFields.clear (ch : ChSel) : EncodeFields.Statement (.clear ch) := encode_fields _
theorem EncodeFields.randomize (ch : ChSel) : EncodeFields.Statement (.randomize ch) := encode_fields _
theorem EncodeFields.place (ch : ChSel) (src : PatternSource) : EncodeFields.Statement (.place ch src) := encode_fields _
theorem EncodeFields.circle (ch : ChSel) : EncodeFields.Statement (.circle ch) := encode_fields _
theorem EncodeFields.setv (ch : ChSel) : EncodeFields.Statement (.setv ch) := encode_fields _
theorem EncodeFields.getv (ch : ChSel) : EncodeFields.Statement (.getv ch) := encode_fields _
theorem EncodeFields.geval (ch : ChSel) : EncodeFields.Statement (.geval ch) := encode_fields _
theorem EncodeFields.lookup (ch : ChSel) : EncodeFields.Statement (.lookup ch) := encode_fields _

end Sys2Proof.Laws
end

