-- ==== Sys2Proof/Tests/Slice0.lean ====
section
/-! SUPPORT. Tests: words written out bit by bit from the encoding table, the ill-formed commands, one step of each command
with results from the spec's own vectors (95_test_vectors.md), and for each statement with hypotheses a state and operands
that meet them. -/

namespace Sys2Proof.Tests

set_option Elab.async false

open Sys2Proof Sys2Proof.Machine Sys2Proof.Claims

/-! ### Decoding: RSV(48) FLAGS(6) CH(2) OPC(8) (R110, R118) -/

theorem test_decode_nop : decode 0b0000000000000000 = .ok .nop := by decide
theorem test_decode_init : decode 0b0000000000000001 = .ok .init := by decide
theorem test_decode_import : decode 0b0000000000000010 = .ok .importCfg := by decide
theorem test_decode_setp_c1_R_DT :
    decode 0b0010010100001000 = .ok (.setp (.ch .c1) ⟨true, false, false, true, false, false⟩) := by decide
theorem test_decode_setp_c2_MU_SIGMA_KMU_KSIGMA :
    decode 0b1101101000001000 = .ok (.setp (.ch .c2) ⟨false, true, true, false, true, true⟩) := by decide
theorem test_decode_setp_spread_R :
    decode 0b0000010000001001 = .ok (.setpSpread ⟨true, false, false, false, false, false⟩) := by decide
theorem test_decode_setp_spread_KSIGMA :
    decode 0b1000000000001001 = .ok (.setpSpread ⟨false, false, false, false, false, true⟩) := by decide
theorem test_decode_build_kernel_c2 : decode 0b0000001000001010 = .ok (.buildKernel (.ch .c2)) := by decide
theorem test_decode_build_growth_all : decode 0b0000001100001011 = .ok (.buildGrowth .all) := by decide
theorem test_decode_step : decode 0b0000000000010000 = .ok .step := by decide
theorem test_decode_run : decode 0b0000000000010001 = .ok .run := by decide
theorem test_decode_loadf_c1 : decode 0b0000000100011000 = .ok (.loadf (.ch .c1)) := by decide
theorem test_decode_fft_fwd : decode 0b0000000000011001 = .ok .fftFwd := by decide
theorem test_decode_fft_inv : decode 0b0000000000011010 = .ok .fftInv := by decide
theorem test_decode_cmul_c2 : decode 0b0000001000011011 = .ok (.cmul (.ch .c2)) := by decide
theorem test_decode_growth_c0 : decode 0b0000000000011100 = .ok (.growth (.ch .c0)) := by decide
theorem test_decode_swap_all : decode 0b0000001100011101 = .ok (.swap .all) := by decide
theorem test_decode_stats : decode 0b0000000000011110 = .ok (.stats false) := by decide
theorem test_decode_stats_inc : decode 0b0000010000011110 = .ok (.stats true) := by decide
theorem test_decode_clear_c1 : decode 0b0000000100100000 = .ok (.clear (.ch .c1)) := by decide
theorem test_decode_randomize_c2 : decode 0b0000001000100001 = .ok (.randomize (.ch .c2)) := by decide
theorem test_decode_place_c1 : decode 0b0000000100100010 = .ok (.place (.ch .c1) .pattern) := by decide
theorem test_decode_place_all_field : decode 0b0000011100100010 = .ok (.place .all .field) := by decide
theorem test_decode_circle_all : decode 0b0000001100100011 = .ok (.circle .all) := by decide
theorem test_decode_setv_c1 : decode 0b0000000100100100 = .ok (.setv (.ch .c1)) := by decide
theorem test_decode_getv_c2 : decode 0b0000001000100101 = .ok (.getv (.ch .c2)) := by decide
theorem test_decode_geval_c1 : decode 0b0000000100101000 = .ok (.geval (.ch .c1)) := by decide
theorem test_decode_lookup_c2 : decode 0b0000001000101001 = .ok (.lookup (.ch .c2)) := by decide

/-- The illegal words of vectors DE4 to DE8, DE16 and DE18, the word with only bit 63 set, and both ends of the last
unassigned range. -/
theorem test_decode_illegal :
    decode 0x0000000000000003 = .error .illegalOpcode ∧ decode 0x0000000000000101 = .error .illegalCmd ∧
    decode 0x0000000000010010 = .error .illegalCmd ∧ decode 0x0000000000000418 = .error .illegalCmd ∧
    decode 0x0000000000000C1E = .error .illegalCmd ∧ decode 0x00000000000000FF = .error .illegalOpcode ∧
    decode 0x0000000000000822 = .error .illegalCmd ∧ decode 0x8000000000000000 = .error .illegalCmd ∧
    decode 0x000000000000002A = .error .illegalOpcode := by decide

theorem test_decode_table_word : decodeTableWord 64 0x225 = some (.getv (.ch .c2)) ∧ decodeTableWord 64 0x3 = none := by
  decide

/-! ### WellFormed: a command of the class `one` is not addressed to 0b11 -/

theorem smoke_loadf : Instr.wellFormed (.loadf .all) = false := by decide
theorem smoke_cmul : Instr.wellFormed (.cmul .all) = false := by decide
theorem smoke_growth : Instr.wellFormed (.growth .all) = false := by decide
theorem smoke_getv : Instr.wellFormed (.getv .all) = false := by decide
theorem smoke_geval : Instr.wellFormed (.geval .all) = false := by decide
theorem smoke_lookup : Instr.wellFormed (.lookup .all) = false := by decide
theorem smoke_wellFormed_others : Instr.wellFormed (.swap .all) = true ∧ Instr.wellFormed (.getv (.ch .c2)) = true := by
  decide

/-! ### Small states -/

/-- An instance with LOG2_NMAX = 3, RES_MAX = 2048 and spread constants 0.05 and 0.005. -/
def inst : Instance := ⟨2, 0, 0x3FA999999999999A, 0x3F747AE147AE147B⟩

/-- That instance after reset. -/
def blank : State := State.afterReset inst ⟨0, 0⟩ ⟨0, 0, 0⟩ [] none

/-- The state an outcome goes on with. -/
def next (o : Host.Outcome State Fault Refusal) : State :=
  match o with
  | .next t => t
  | .fault _ => blank
  | .refused _ => blank

/-- The operand registers with ARG0 to ARG3. -/
def args (a b c d : Word) : StagedRegs := { StagedRegs.reset with arg0 := a, arg1 := b, arg2 := c, arg3 := d }

/-- A Ready state with N = 2, C channels, RES = 2, nothing else set. -/
def two (c : ChanCount) : State := { blank with engine := some ⟨0, c, 0⟩ }

/-- The same with the field of channel 0 at 1, 2, 3, 4. -/
def twoField : State :=
  (two .one).writeArray (.field .c0 false) [0x3FF0000000000000, 0x4000000000000000, 0x4008000000000000, 0x4010000000000000]

/-- The parameters of vector K1 with MU = 0.5 and SIGMA = 0.1 (G15): R = 2.0, DT = 0.1, KMU = 0.5, KSIGMA = 0.15. -/
def k1 : Params :=
  ⟨0x4000000000000000, 0x3FE0000000000000, 0x3FB999999999999A, 0x3FB999999999999A, 0x3FE0000000000000, 0x3FC3333333333333⟩

/-- The staged configuration of an engine: N, C, RES = 2, STG. -/
def config (n c : Word) (p : Params) : State :=
  { blank with staged := { StagedRegs.reset with gridSize := n, channelsCfg := c, resCfg := 2, stg := p } }

/-- `k1` with R = 4.0, whose spread has R = 2, 4, 6. -/
def k4 : Params := { k1 with r := 0x4010000000000000 }

/-- `s` with the tables of N = 2 (R140, R141: the only twiddle is 1.0 and 0.0, and no index moves). -/
def tables (s : State) : State :=
  ((s.writeArray .twCos [0x3FF0000000000000]).writeArray .twSin [0]).writeArray .bitrev [0, 1]

/-- An engine with N = 2, C = 1, RES = 2 and the parameters `k1`: the tables, a kernel transform of ones, a growth table of
-1.0, empty fields. -/
def ready1 : State :=
  { ((((tables (two .one)).writeArray (.ktfRe .c0) (List.replicate 4 0x3FF0000000000000)).writeArray (.ktfIm .c0)
      [0, 0, 0, 0]).writeArray (.gtab .c0) [0xBFF0000000000000, 0xBFF0000000000000]).writeArray (.field .c0 false)
      [0, 0, 0, 0] with p := ⟨k1, .zero, .zero⟩ }

/-- An engine with N = 2, C = 3, RES = 2 and the parameters that the spread of `k4` gives. -/
def ready3 : State :=
  { tables (two .three) with com := k4, p := ((spreadAll inst k4).run ⟨0, 0⟩).1 }

/-- `s` with other staged registers. -/
def withStaged (s : State) (r : StagedRegs) : State := { s with staged := r }

/-! ### One step of each command -/

/-- NOP is legal after reset, and the probe's fetch runs it (DE1). -/
theorem test_nop : (next (step (State.reset.withFetchWord 64 0x0))).lastErr = .ok := by decide +kernel

/-- EX1: STEP after reset gives STATUS 0x30304 and ERR_CMD 0x10. -/
theorem test_step_not_ready :
    (next (step (State.reset.withFetchWord 64 0x10))).statusWord = 0x0000000000030304 ∧
    (next (step (State.reset.withFetchWord 64 0x10))).errCmd = 0x10 := by decide +kernel

/-- EN1 and EN2 for an instance with N_MAX = 8 and RES_MAX = 2048. -/
theorem test_init_checks :
    (next (exec .init (config 6 1 k1))).lastErr = .gridNotPow2 ∧ (next (exec .init (config 1 1 k1))).lastErr = .gridRange ∧
    (next (exec .init (config 16 1 k1))).lastErr = .gridRange ∧
    (next (exec .init (config 4 2 k1))).lastErr = .badChannelsCfg ∧
    (next (exec .init { config 4 1 k1 with staged := { (config 4 1 k1).staged with resCfg := 2049 } })).lastErr =
      .badResolution := by decide +kernel

/-- Vector K1: KERNEL[5], KERNEL[10] and KTF_RE[2]; G15: GTAB[0]. -/
theorem test_init_k1 :
    (fun t : State => (t.lastErr, t.readElem (.kernel .c0) 5, t.readElem (.kernel .c0) 10, t.readElem (.ktfRe .c0) 2,
      t.readElem (.gtab .c0) 0)) (next (exec .init (config 4 1 k1))) =
    (.ok, 0x3FB1CB9783283734, 0x3F46D77DE18DB7DC, 0xBFD1C02BC4377058, 0xBFEFFFF05E89604C) := by decide +kernel

/-- EN7: SETP.c0 with mask 0 changes no parameter. EN3: `SETP.c0 DT` sets DT and keeps every array. -/
theorem test_setp :
    (next (exec (.setp (.ch .c0) ⟨false, false, false, false, false, false⟩) ready1)).p = ready1.p ∧
    (fun t : State => (t.lastErr, t.p.c0, t.mem == ready1.mem))
      (next (exec (.setp (.ch .c0) ⟨false, false, false, true, false, false⟩)
        (withStaged ready1 { StagedRegs.reset with stg := { k1 with r := 0, dt := 0x3FC999999999999A } }))) =
      (.ok, { k1 with dt := 0x3FC999999999999A }, true) := by decide +kernel

/-- K7's parameters: `SETP.c0 KMU|KSIGMA` with KMU = 10 and KSIGMA = 0.01 is E_KERNEL_ZERO_MASS, and P stays (R230). -/
theorem test_setp_zero_mass :
    (fun t : State => (t.lastErr, t.p.c0)) (next (exec (.setp (.ch .c0) ⟨false, false, false, false, true, true⟩)
      (withStaged ready1 { StagedRegs.reset with
        stg := { k1 with kmu := 0x4024000000000000, ksigma := 0x3F847AE147AE147B } }))) = (.kernelZeroMass, k1) := by
  decide +kernel

/-- Scenario C (S9): R = 9.0 on the common record gives R = 7, 9, 11. -/
theorem test_setp_spread :
    (fun t : State => (t.lastErr, t.p.c0.r, t.p.c1.r, t.p.c2.r, t.com.r))
      (next (exec (.setpSpread ⟨true, false, false, false, false, false⟩)
        (withStaged ready3 { StagedRegs.reset with stg := { k4 with r := 0x4022000000000000 } }))) =
      (.ok, 0x401C000000000000, 0x4022000000000000, 0x4026000000000000, 0x4022000000000000) := by decide +kernel

/-- DE14: SETP_SPREAD on a single-channel engine. -/
theorem test_setp_spread_single :
    (next (exec (.setpSpread ⟨true, false, false, false, false, false⟩) ready1)).lastErr = .badChannel := by decide +kernel

/-- IF1: a size other than N. -/
theorem test_import_size :
    (next (exec .importCfg (withStaged ready1 { StagedRegs.reset with importSize := 3 }))).lastErr = .sizeMismatch := by
  decide +kernel

/-- IF3: the field takes 1.5 without a clamp, COM is IMP_COM, and an inactive channel keeps its record. -/
theorem test_import :
    (fun t : State => (t.lastErr, t.readElem (.field .c0 false) 3, t.com, t.p.c1))
      (next (exec .importCfg (withStaged (ready1.writeElem (.stage .c0) 3 0x3FF8000000000000)
        { StagedRegs.reset with importSize := 2, impP := .const k1 }))) =
      (.ok, 0x3FF8000000000000, .zero, .zero) := by decide +kernel

/-- K2 on N = 2: with R = 0.5 only the centre passes; KERNEL is 1.0 there and KTF is 1.0 everywhere. -/
theorem test_build_kernel :
    (fun t : State => (t.lastErr, t.readArray (.kernel .c0) 4, t.readArray (.ktfRe .c0) 4, t.readArray (.ktfIm .c0) 4))
      (next (exec (.buildKernel (.ch .c0)) { ready1 with p := ⟨{ k1 with r := 0x3FE0000000000000 }, .zero, .zero⟩ })) =
      (.ok, [0, 0, 0, 0x3FF0000000000000], List.replicate 4 0x3FF0000000000000, [0, 0, 0, 0]) := by decide +kernel

/-- G15. -/
theorem test_build_growth :
    (fun t : State => (t.lastErr, t.readArray (.gtab .c0) 2))
      (next (exec (.buildGrowth .all) (ready1.writeElem (.gtab .c0) 1 0))) =
      (.ok, [0xBFEFFFF05E89604C, 0xBFEFFFF05E89604C]) := by decide +kernel

/-- SP6. -/
theorem test_loadf :
    (fun t : State => (t.lastErr, t.readArray .sre 4, t.readArray .sim 4)) (next (exec (.loadf (.ch .c0)) twoField)) =
      (.ok, [0x3FF0000000000000, 0x4000000000000000, 0x4008000000000000, 0x4010000000000000], [0, 0, 0, 0]) := by
  decide +kernel

/-- `ready1` with the scratch arrays given. -/
def scratch (re im : List Word) : State := (ready1.writeArray .sre re).writeArray .sim im

/-- SP7. -/
theorem test_fft_fwd :
    (fun t : State => (t.lastErr, t.readArray .sre 4, t.readArray .sim 4))
      (next (exec .fftFwd (scratch
        [0x3FF0000000000000, 0x4000000000000000, 0x4008000000000000, 0x4010000000000000] [0, 0, 0, 0]))) =
      (.ok, [0x4024000000000000, 0xC000000000000000, 0xC010000000000000, 0], [0, 0, 0, 0]) := by decide +kernel

/-- SP8. -/
theorem test_fft_inv :
    (fun t : State => (t.lastErr, t.readArray .sre 4, t.readArray .sim 4))
      (next (exec .fftInv (scratch [0x4024000000000000, 0xC000000000000000, 0xC010000000000000, 0] [0, 0, 0, 0]))) =
      (.ok, [0x3FF0000000000000, 0x4000000000000000, 0x4008000000000000, 0x4010000000000000], [0, 0, 0, 0]) := by
  decide +kernel

/-- SP10: (1 + 2i)(3 + 4i) = -5 + 10i. -/
theorem test_cmul :
    (fun t : State => (t.lastErr, t.readElem .sre 1, t.readElem .sim 1))
      (next (exec (.cmul (.ch .c0))
        (((scratch [0, 0x3FF0000000000000, 0, 0] [0, 0x4000000000000000, 0, 0]).writeElem (.ktfRe .c0) 1
          0x4008000000000000).writeElem (.ktfIm .c0) 1 0x4010000000000000))) =
      (.ok, 0xC014000000000000, 0x4024000000000000) := by decide +kernel

/-- R201 by hand, with GTAB = [-1, 1] and DT = 0.5: F = 0, 0.25, 1, +Inf and U = 0, 1, NaN, 0.5 give 0, 0.75, 0.5 and 1
(G17, G18, R200). -/
theorem test_growth :
    (fun t : State => (t.lastErr, t.readArray (.field .c0 true) 4))
      (next (exec (.growth (.ch .c0))
        ({ (((two .one).writeArray (.field .c0 false) [0, 0x3FD0000000000000, 0x3FF0000000000000, 0x7FF0000000000000]).writeArray
          .sre [0, 0x3FF0000000000000, 0x7FF8000000000000, 0x3FE0000000000000]).writeArray (.gtab .c0)
          [0xBFF0000000000000, 0x3FF0000000000000] with p := ⟨{ Params.zero with dt := 0x3FE0000000000000 }, .zero, .zero⟩ }))) =
      (.ok, [0, 0x3FE8000000000000, 0x3FE0000000000000, 0x3FF0000000000000]) := by decide +kernel

/-- EN11: SWAP.c0 after INIT gives BANK 1; with CH = 0b11 on three channels, BANK 7. -/
theorem test_swap :
    (next (exec (.swap (.ch .c0)) (two .one))).bankWord = 1 ∧ (next (exec (.swap .all) (two .three))).bankWord = 7 := by
  decide +kernel

/-- R260 by hand: the field 1, 2, 3, 4 has mass 10 and centroid (0.6, 0.7). ST4: STEP wraps with INC. -/
theorem test_stats :
    (next (exec (.stats true) { twoField with stats := { StatsRegs.zero with step := 0xFFFFFFFFFFFFFFFF } })).stats =
      ⟨0, 0x4024000000000000, 0x3FE3333333333333, 0x3FE6666666666666, 0, true⟩ := by decide +kernel

/-- S5: no mass gives velocity +0.0 and keeps the centroid. -/
theorem test_stats_zero_mass :
    (next (exec (.stats false) { (two .one).writeArray (.field .c0 false) [0, 0, 0, 0] with
      stats := ⟨7, 0x3FF0000000000000, 0x4018000000000000, 0, 0x4010000000000000, true⟩ })).stats =
      ⟨7, 0, 0x4018000000000000, 0, 0, true⟩ := by decide +kernel

/-- R236: a step of the empty field leaves it empty, counts STEP and flips the bank. -/
theorem test_step :
    (fun t : State => (t.lastErr, t.bankWord, t.stats.step, t.readArray (.field .c0 true) 4)) (next (exec .step ready1)) =
      (.ok, 1, 1, [0, 0, 0, 0]) := by decide +kernel

/-- R240: RUN with ARG0 = 2 counts two steps and flips the bank twice; EN10: with ARG0 = 0 nothing changes. -/
theorem test_run :
    (fun t : State => (t.lastErr, t.bankWord, t.stats.step)) (next (exec .run (withStaged ready1 (args 2 0 0 0)))) =
      (.ok, 0, 2) ∧
    (fun t : State => (t.lastErr, t.bankWord, t.stats.step, t.epochs)) (next (exec .run (withStaged ready1 (args 0 0 0 0)))) =
      (.ok, 0, 0, ready1.epochs) := by decide +kernel

/-- R280, R281: the field, STEP and MASS are zeroed; the centroid is kept (as in PA12). -/
theorem test_clear :
    (fun t : State => (t.readArray (.field .c0 false) 4, t.stats))
      (next (exec (.clear .all) { twoField with stats := ⟨7, 0x3FF0000000000000, 0x4018000000000000, 0, 0, true⟩ })) =
      ([0, 0, 0, 0], ⟨0, 0, 0x4018000000000000, 0, 0, true⟩) := by decide +kernel

/-- R282: with a negative radius no cell is within it: the field is cleared and no draw is taken. -/
theorem test_randomize :
    (fun t : State => (t.lastErr, t.readArray (.field .c0 false) 4, t.draws.rng))
      (next (exec (.randomize (.ch .c0)) (withStaged twoField (args 0x3FE0000000000000 0xBFF0000000000000 0 0)))) =
      (.ok, [0, 0, 0, 0], 0) := by decide +kernel

/-- The centre cell alone is within radius 0. With every draw 0.5: below density 1.0, so a second draw is the value; not
below density 0.5, so the cell stays +0.0 (R282). -/
theorem test_randomize_draws :
    ((randomCell (pure 0x3FE0000000000000) ⟨0, .one, 0⟩ 0x3FF0000000000000 0 3).run ⟨0, 0⟩).1 = 0x3FE0000000000000 ∧
    ((randomCell (pure 0x3FE0000000000000) ⟨0, .one, 0⟩ 0x3FE0000000000000 0 3).run ⟨0, 0⟩).1 = 0 := by decide +kernel

/-- An empty single-channel field of side 4. -/
def four : State :=
  { blank with engine := some ⟨1, .one, 0⟩ }.writeArray (.field .c0 false) (List.replicate 16 0)

/-- PA2 on N = 4: sw = 4 and sh = 2, rows 3 and 0, columns 2 and 3 get 1.0 and columns 0 and 1 get 0.5. -/
theorem test_place :
    (fun t : State => (t.lastErr, t.readArray (.field .c0 false) 8, t.readElem (.field .c0 false) 12))
      (next (exec (.place (.ch .c0) .pattern)
        (withStaged (four.writeArray .pattern [0x3FF0000000000000, 0x3FE0000000000000])
          { args 0 0 0x4000000000000000 0 with patW := 2, patH := 1 }))) =
      (.ok, [0x3FE0000000000000, 0x3FE0000000000000, 0x3FF0000000000000, 0x3FF0000000000000, 0, 0, 0, 0],
        0x3FE0000000000000) := by decide +kernel

/-- PA5 and PA7: a span above N, and a source channel at C. -/
theorem test_place_errors :
    (next (exec (.place (.ch .c0) .pattern) (withStaged four { args 0 0 0x4014000000000000 0 with patW := 2, patH := 1 }))).lastErr
      = .badArg ∧
    (next (exec (.place .all .field) (withStaged four (args 0 0 0x3FF0000000000000 1)))).lastErr = .badChannel := by
  decide +kernel

/-- R296 on N = 4: radius 1.0 at (0, 0) sets the centre and its four toroidal neighbours, value 2.0 clamped to 1.0. -/
theorem test_circle :
    (next (exec (.circle (.ch .c0)) (withStaged four (args 0 0 0x3FF0000000000000 0x4000000000000000)))).readArray
      (.field .c0 false) 16 =
      [0x3FF0000000000000, 0x3FF0000000000000, 0, 0x3FF0000000000000, 0x3FF0000000000000, 0, 0, 0,
       0, 0, 0, 0, 0x3FF0000000000000, 0, 0, 0] := by decide +kernel

/-- R297: (-1, 2) on N = 2 is cell (1, 0); PA13: NaN is stored as +0.0. -/
theorem test_setv :
    (next (exec (.setv .all) (withStaged twoField (args 0xFFFFFFFFFFFFFFFF 2 0x7FF8000000000000 0)))).readArray
      (.field .c0 false) 4 = [0x3FF0000000000000, 0, 0x4008000000000000, 0x4010000000000000] := by decide +kernel

/-- R298: (3, -1) on N = 2 is cell (1, 1), and 4.0 is read without a clamp; CH = 0b11 is E_BAD_CHANNEL (PA11). -/
theorem test_getv :
    (next (exec (.getv (.ch .c0)) (withStaged twoField (args 3 0xFFFFFFFFFFFFFFFF 0 0)))).result = 0x4010000000000000 ∧
    (next (exec (.getv .all) twoField)).lastErr = .badChannel := by decide +kernel

/-- G1: GEVAL 0.165 with MU = 0.15 and SIGMA = 0.015. -/
theorem test_geval :
    (next (exec (.geval (.ch .c0)) { withStaged (two .one) (args 0x3FC51EB851EB851F 0 0 0) with
      p := ⟨{ Params.zero with mu := 0x3FC3333333333333, sigma := 0x3F8EB851EB851EB8 }, .zero, .zero⟩ })).result =
      0x3FCB4597E37CB028 := by decide +kernel

/-- G9: GEVAL +Inf is -1.0. -/
theorem test_geval_inf :
    (next (exec (.geval (.ch .c0)) { withStaged (two .one) (args 0x7FF0000000000000 0 0 0) with
      p := ⟨{ Params.zero with mu := 0x3FC3333333333333, sigma := 0x3F8EB851EB851EB8 }, .zero, .zero⟩ })).result =
      0xBFF0000000000000 := by decide +kernel

/-- A table of 3.0, 5.0 (indices 0 and 1). -/
def tabled (u : Word) : State :=
  withStaged ((two .one).writeArray (.gtab .c0) [0x4008000000000000, 0x4014000000000000]) (args u 0 0 0)

/-- G4 with RES = 2: 1.0, -0.0, the largest number below 1.0, +Inf, NaN. -/
theorem test_lookup :
    [0x3FF0000000000000, 0x8000000000000000, 0x3FEFFFFFFFFFFFFF, 0x7FF0000000000000, 0x7FF8000000000000].map
      (fun u => (next (exec (.lookup (.ch .c0)) (tabled u))).result) =
      [0x4014000000000000, 0x4008000000000000, 0x4008000000000000, 0x4014000000000000, 0x4008000000000000] := by
  decide +kernel

/-! ### The bus -/

/-- The response to an access and STATUS after it. -/
def reply (s : State) (a : BusAccess) : Option BusResp × Word := ((s.performAccess a).resp, (s.performAccess a).statusWord)

/-- EX7, EX10, EX11, EX12: SLVERR with data 0 and BUS_ERR. -/
theorem test_bus_refusals :
    [reply blank (.read 0x010000000 8), reply blank (.write 0x0A0 8 5), reply blank (.read 0x068 8), reply blank (.read 0x090 4)] =
      List.replicate 4 (some ⟨0, true⟩, 0x8) := by decide +kernel

/-- RES_CFG reads 2048 after reset, and BUSY and READY show in STATUS. -/
theorem test_bus_reads :
    (blank.performAccess (.read 0x090 8)).resp = some ⟨2048, false⟩ ∧
    ((two .one).accept 0x10).statusWord = 0x3 := by decide +kernel

/-- R90: IRQ_EN and ERR_CMD read while busy as they were at the accept event, whatever the host writes meanwhile, and show
the writes once the command is complete; STATUS shows them at once. -/
theorem test_bus_reads_while_busy :
    (fun s : State => (s.readReg .irqEn, s.readReg .errCmd, s.readReg .status))
      ((({ blank with firstErr := .notReady, errCmd := 0x10 }.accept 0).performAccess (.write 0x058 8 3)).performAccess
        (.write 0x018 8 4)) = (0, 0x10, 1) ∧
    (fun s : State => (s.readReg .irqEn, s.readReg .errCmd))
      (next (completeEvent ((({ blank with firstErr := .notReady, errCmd := 0x10 }.accept 0).performAccess
        (.write 0x058 8 3)).performAccess (.write 0x018 8 4)))) = (3, 0) := by decide +kernel

/-! ### Witnesses: states and operands that meet the hypotheses of the statements, clause by clause, at boundary values -/

/-- Whether an outcome is a next state. -/
def isNext (o : Host.Outcome State Fault Refusal) : Bool :=
  match o with
  | .next _ => true
  | .fault _ => false
  | .refused _ => false

theorem exists_next {o : Host.Outcome State Fault Refusal} (h : isNext o = true) : ∃ t, o = .next t := by
  cases o with
  | next t => exact ⟨t, rfl⟩
  | fault f => cases f
  | refused r => cases h

/-- An error is no command. -/
theorem no_command {w : Word} {e : DecodeError} (h : decode w = .error e) (i : Instr) : decode w ≠ .ok i := by
  rw [h]; exact fun h => nomatch h

/-- A command word that is executing, its complete event next. -/
def executing (w : Word) : State := (two .three).acceptForNextStep w

/-- Parameters whose kernel is one cell: `k1` with R = 0.5. -/
def kHalf : Params := { k1 with r := 0x3FE0000000000000 }

/-- Parameters whose kernel has no mass: `k1` with KMU = 10 and KSIGMA = 0.01 (K7). -/
def kEmpty : Params := { k1 with kmu := 0x4024000000000000, ksigma := 0x3F847AE147AE147B }

theorem witness_EncodeInvertsDecode : decode 0x000000000000FF08 = .ok (.setp .all ⟨true, true, true, true, true, true⟩) := by
  decide

/-- Both ends of each range of unassigned opcodes, and assigned ones with a bit under the mask that differs. -/
theorem test_decode_illegal_ranges :
    [0x03, 0x07, 0x0C, 0x0F, 0x12, 0x17, 0x1F, 0x26, 0x27, 0x2A, 0xFF].map decode = List.replicate 11 (.error .illegalOpcode) ∧
    [0x100, 0x108000000000008, 0xB29, 0x425].map decode = List.replicate 4 (.error .illegalCmd) := by decide

theorem witness_IllegalWordsEndWithTheirCode :
    (UnassignedOpc (opcOf 0x03) ∧ ∀ i, decode 0x03 ≠ .ok i) ∧ (UnassignedOpc (opcOf 0x2A) ∧ ∀ i, decode 0x2A ≠ .ok i) ∧
    (¬ UnassignedOpc (opcOf 0x100) ∧ ∀ i, decode 0x100 ≠ .ok i) ∧
    (executing 0x100).running = some ⟨0x100, .reset, 0, 0⟩ ∧ (executing 0x100).schedule = .complete :: [] :=
  ⟨⟨by unfold UnassignedOpc; decide, no_command (e := .illegalOpcode) (by decide)⟩,
    ⟨by unfold UnassignedOpc; decide, no_command (e := .illegalOpcode) (by decide)⟩,
    ⟨by unfold UnassignedOpc; decide, no_command (e := .illegalCmd) (by decide)⟩, rfl, rfl⟩

theorem witness_StepRunsTheLatchedCommand :
    (executing 0x31D).running = some ⟨0x31D, .reset, 0, 0⟩ ∧ decode 0x31D = .ok (.swap .all) ∧
    (executing 0x31D).schedule = .complete :: [] ∧ ((two .three).accept 0x31D).running = some ⟨0x31D, .reset, 0, 0⟩ ∧
    ((two .three).accept 0x31D).schedule = [] ∧
    { two .three with schedule := [.access (.write 0x020 8 0x31D)] }.schedule = .access (.write 0x020 8 0x31D) :: [] ∧
    (two .three).schedule = [] ∧ (two .three).running = none := by decide

theorem witness_EveryCommandCompletes : (executing 0x03).running = some ⟨0x03, .reset, 0, 0⟩ := rfl

theorem witness_FailedCommandChangesNothing :
    ∃ t, exec (.loadf .all) (two .three) = .next t ∧ t.lastErr ≠ .ok :=
  ⟨(two .three).recordCompletion .badChannel, rfl, by decide⟩

theorem witness_UninitializedRefusesCommands : blank.engine = none ∧ Instr.step ≠ .nop ∧ Instr.step ≠ .init := by decide

theorem witness_InactiveChannelsAreRefused :
    (two .one).engine = some ⟨0, .one, 0⟩ ∧ (Instr.clear (.ch .c1)).chClass ≠ .none ∧
    Chan.c0.index < Geometry.chanCount ⟨0, .one, 0⟩ ∧ Chan.c2.index < Geometry.chanCount ⟨0, .three, 0⟩ ∧
    Geometry.chanCount ⟨0, .one, 0⟩ ≤ Chan.c1.index ∧ (Instr.getv .all).chClass = .one ∧ (Instr.getv .all).chSel = .all := by
  decide

theorem witness_CmdWriteAcceptsOrOverruns :
    blank.busy = false ∧ (blank.accept 0x10).busy = true ∧ (blank.accept 0x10).running = some ⟨0x10, .reset, 0, 0⟩ ∧
    blank.running = none := by decide

theorem witness_BusyRefusesAccesses :
    (blank.accept 0x10).busy = true ∧ regionOf 0x010000000 = 1 ∧ regionOf 0xFFFFFFFFF = 0xFF ∧
    Reg.ctrl ≠ .status ∧ Reg.ctrl ≠ .irqEn ∧ Reg.ctrl ≠ .irqStatus ∧ Reg.ctrl ≠ .cmd ∧ Reg.errCmd ≠ .status ∧
    Reg.errCmd ≠ .irqStatus ∧ Reg.errCmd ≠ .cmd ∧ blank.busy = false := by decide

theorem witness_InterruptRegistersAndLine : blank.busy = false := rfl

/-- Offset 0x068 and the last word of region 0 are reserved (R57); no engine and one, no command and one. -/
theorem witness_RegistersReadAtTheirOffsets :
    blank.engine = none ∧ (two .one).engine = some ⟨0, .one, 0⟩ ∧ blank.running = none ∧
    (blank.accept 0x10).running = some ⟨0x10, .reset, 0, 0⟩ ∧
    regionOf 0x068 = 0 ∧ (∀ r : Reg, r.offset ≠ offsetOf 0x068) ∧ regionOf 0x00FFFFFF8 = 0 ∧
    (∀ r : Reg, r.offset ≠ offsetOf 0x00FFFFFF8) := by
  have h : ∀ (r : Reg) (k : Nat), (∀ q ∈ allRegs, q.offset ≠ k) → r.offset ≠ k := by
    intro r k hk
    refine hk r ?_
    cases r <;> first
      | decide
      | (rename_i k; cases k <;> decide)
      | (rename_i c k; cases c <;> cases k <;> decide)
  exact ⟨rfl, rfl, rfl, rfl, by decide, fun r => h r _ (by decide), by decide, fun r => h r _ (by decide)⟩

theorem witness_StagedRegisterWriteReadsBack :
    blank.busy = false ∧ Storing .arg0 ∧ Storing (.impCom .ksigma) ∧ ¬ Storing .ctrl ∧ ¬ Storing .bank ∧
    (0xFFFFFFFFFFFFFFFE : Word).getLsbD 0 = false := by
  unfold Storing; decide

/-- The rows of a state with N = 2, three channels, RES = 2 and BANK = 2; before INIT only PATTERN has elements. -/
theorem witness_WindowWriteReadsBack_rows :
    (fun s : State => s.busy = false ∧ ⟨0x01, .field .c0 false, true, 4⟩ ∈ windowMap s ∧
      ⟨0x02, .field .c1 true, true, 4⟩ ∈ windowMap s ∧ ⟨0x11, .gtab .c2, false, 2⟩ ∈ windowMap s ∧
      ⟨0x14, .bitrev, false, 2⟩ ∈ windowMap s ∧ (∀ row ∈ windowMap s, row.region ≠ 0 ∧ row.region ≠ 0x19))
      { two .three with bank := ⟨false, true, false⟩ } ∧
    (windowMap blank).filter (fun row => row.size ≠ 0) = [⟨0x15, .pattern, true, 64⟩] := by decide +kernel

/-- The last element of BITREV and of KERNEL_2 through their windows (R86). -/
theorem test_window_reads :
    (((two .one).writeElem .bitrev 1 7).performAccess (.read 0x140000008 8)).resp = some ⟨7, false⟩ ∧
    (((two .three).writeElem (.kernel .c2) 3 9).performAccess (.read (windowAddr 0x06 3) 8)).resp = some ⟨9, false⟩ := by
  decide +kernel

/-- The last element of FIELD_0 with N = 2, and the last element of PATTERN with N_MAX = 8. -/
theorem witness_WindowWriteReadsBack :
    (two .one).busy = false ∧ legalBeat 0x010000018 8 = true ∧
    (two .one).windowOf (regionOf 0x010000018) = some ⟨.field .c0 false, true⟩ ∧
    offsetOf 0x010000018 / 8 < (two .one).arrSize (.field .c0 false) ∧
    legalBeat 0x1500001F8 8 = true ∧ blank.windowOf (regionOf 0x1500001F8) = some ⟨.pattern, true⟩ ∧
    offsetOf 0x1500001F8 / 8 < blank.arrSize .pattern := by decide +kernel

theorem witness_RefusedAccessesChangeNothing :
    legalBeat 0x024 8 = false ∧ legalBeat 0x020 4 = false ∧ 0x18 < regionOf 0x190000000 ∧ 0x18 < regionOf 0xFF0000000 ∧
    (two .one).windowOf (regionOf 0x010000020) = some ⟨.field .c0 false, true⟩ ∧
    (two .one).arrSize (.field .c0 false) ≤ offsetOf 0x010000020 / 8 ∧
    (two .one).windowOf (regionOf 0x140000000) = some ⟨.bitrev, false⟩ ∧ accessOf .id = .ro ∧ accessOf (.p .c2 .ksigma) = .ro := by
  decide +kernel

theorem witness_ResetsLeaveTheResetState :
    (two .one).busy = false ∧ (1 : Word).getLsbD 0 = true ∧
    (∃ t, (two .one).performAccess (.write 0x010 8 1) = t) ∧
    (∃ t, step { executing 0x10 with schedule := [.resetInput] } = .next t) :=
  ⟨by decide, by decide, ⟨_, rfl⟩, ⟨_, rfl⟩⟩

/-- Each check of INIT at its boundary: 0 and 6 are no powers of two; 1 and 16 are out of range with N_MAX = 8; 2 is no
channel count; 1 and 2049 are no resolutions. -/
theorem test_init_geometry :
    [(0, 1, 2), (6, 1, 2), (1, 1, 2), (16, 1, 2), (2, 2, 2), (8, 0, 2), (2, 1, 1), (8, 3, 2049)].map
      (fun x : Word × Word × Word => (initGeometry inst { StagedRegs.reset with
        gridSize := x.1, channelsCfg := x.2.1, resCfg := x.2.2 } : Except Err Geometry)) =
    [.error .gridNotPow2, .error .gridNotPow2, .error .gridRange, .error .gridRange, .error .badChannelsCfg,
      .error .badChannelsCfg, .error .badResolution, .error .badResolution] := by decide +kernel

/-- The same values meet the premises: N_MAX is 8 and RES_MAX 2048. -/
theorem witness_InitChecksInOrder :
    (¬ ∃ k, (config 0 1 k1).operands.gridSize.toNat = 2 ^ k) ∧ (∃ k, (config 1 1 k1).operands.gridSize.toNat = 2 ^ k) ∧
    (config 1 1 k1).operands.gridSize.toNat < 2 ∧ (∃ k, (config 16 1 k1).operands.gridSize.toNat = 2 ^ k) ∧
    2 ^ (config 16 1 k1).inst.log2NMax < (config 16 1 k1).operands.gridSize.toNat ∧
    (∃ k, (config 8 2 k1).operands.gridSize.toNat = 2 ^ k) ∧ 2 ≤ (config 8 2 k1).operands.gridSize.toNat ∧
    (config 8 2 k1).operands.gridSize.toNat ≤ 2 ^ (config 8 2 k1).inst.log2NMax ∧
    (config 8 2 k1).operands.channelsCfg ≠ 1 ∧ (config 8 2 k1).operands.channelsCfg ≠ 3 ∧
    (fun s : State => s.operands.channelsCfg = 3 ∧ s.operands.resCfg.toNat < 2)
      (withStaged blank { StagedRegs.reset with gridSize := 2, channelsCfg := 3, resCfg := 1 }) ∧
    (fun s : State => s.operands.channelsCfg = 1 ∧ s.inst.resMax < s.operands.resCfg.toNat)
      (withStaged blank { StagedRegs.reset with gridSize := 2, resCfg := 2049 }) := by
  refine ⟨?_, ⟨0, rfl⟩, by decide, ⟨4, rfl⟩, by decide, ⟨3, rfl⟩, by decide, by decide, by decide, by decide, by decide, by decide⟩
  rintro ⟨k, hk⟩
  have h : (0 : Nat) < 2 ^ k := Nat.two_pow_pos k
  have h0 : (config 0 1 k1).operands.gridSize.toNat = 0 := rfl
  omega

/-- Sequences of length 8 with the table of N = 8 (R141), and the last butterfly of the last stage. -/
theorem witness_FftTransformsTheScratchArrays :
    (fun (t : FftTables) (v : Cplx) => Cplx.Sized t v ∧ t.rev = (List.range (2 ^ t.log2n)).map (reverseBits t.log2n) ∧
      2 < t.log2n ∧ 0 < 2 ^ (t.log2n - (2 + 1)) ∧ 3 < 2 ^ 2 ∧ 7 < 2 ^ t.log2n)
      ⟨3, [], [], [0, 4, 2, 6, 1, 5, 3, 7]⟩ ⟨List.replicate 8 fOne, List.replicate 8 posZero⟩ := by
  unfold Cplx.Sized; decide

/-- The least geometry, and the greatest of an instance with LOG2_NMAX = 1. -/
theorem witness_InitBuildsTheEngine :
    (fun s : State => 1 ≤ s.inst.log2NMax ∧ s.operands.gridSize.toNat = 2 ^ 1 ∧ s.operands.channelsCfg = 1 ∧
      2 ≤ s.operands.resCfg.toNat ∧ s.operands.resCfg.toNat ≤ s.inst.resMax ∧
      ((kernelsOk 2 ([Chan.c0].map ((initParams s.inst ⟨0, .one, 0⟩ s.p s.operands.stg).run s.draws).1.get)).run
        ((initParams s.inst ⟨0, .one, 0⟩ s.p s.operands.stg).run s.draws).2).1 = true) (config 2 1 kHalf) ∧
    (fun s : State => 1 ≤ s.inst.log2NMax ∧ s.operands.gridSize.toNat = 2 ^ 1 ∧ s.operands.channelsCfg = 3 ∧
      s.operands.resCfg.toNat = s.inst.resMax ∧ Geometry.res ⟨0, .three, 2046⟩ = 2048 ∧
      ((kernelsOk 2 ([Chan.c0, .c1, .c2].map ((initParams s.inst ⟨0, .three, 2046⟩ s.p s.operands.stg).run s.draws).1.get)).run
        ((initParams s.inst ⟨0, .three, 2046⟩ s.p s.operands.stg).run s.draws).2).1 = true)
      { config 2 3 k4 with
        inst := { inst with log2NMaxPred := 0 }
        staged := { (config 2 3 k4).staged with resCfg := 2048 } } := by decide +kernel

theorem witness_InitParamsSpreadTheStagedRecord :
    Geometry.channels ⟨0, .one, 0⟩ = .one ∧ Geometry.channels ⟨0, .three, 0⟩ = .three := by decide

/-- A state for the channel commands: engine, one channel or all, and the channels. Meets the hypotheses of
BuildGrowthWritesGrowthTables, SwapFlipsBanks, ClearZeroesTheFields, RandomizeSeedsADisc, CircleSetsTheDisc and
SetvWritesOneCell. -/
theorem witness_channels :
    (two .three).engine = some ⟨0, .three, 0⟩ ∧ chansOf ⟨0, .three, 0⟩ .all = .ok [.c0, .c1, .c2] ∧
    chansOf ⟨0, .three, 0⟩ (.ch .c2) = .ok [.c2] ∧ (two .one).engine = some ⟨0, .one, 0⟩ ∧
    chansOf ⟨0, .one, 0⟩ .all = .ok [.c0] := by decide +kernel

/-- Meets the hypotheses of LoadfCopiesTheField, CmulMultipliesElementwise, GrowthWritesTheInactiveBank, GetvReadsOneCell,
GevalEvaluatesTheClosedForm, and those on the engine of FftTransformsTheScratchArrays, StatsRecomputesTheRecord,
StepEqualsThePrimitiveSequence and StepAdvancesTheFields. -/
theorem witness_channel :
    (two .three).engine = some ⟨0, .three, 0⟩ ∧ Geometry.active ⟨0, .three, 0⟩ .c2 = true ∧
    Geometry.active ⟨0, .one, 0⟩ .c0 = true := by decide

theorem witness_StatsRecomputesTheRecord :
    (next (exec (.stats true) twoField)).stats.centroidValid = true ∧
    flt posZero (next (exec (.stats true) twoField)).stats.mass = true ∧ twoField.stats.centroidValid = false ∧
    flt posZero (next (exec (.stats true) ready1)).stats.mass = false ∧
    { twoField with stats := { StatsRegs.zero with centroidValid := true } }.stats.centroidValid = true := by decide +kernel

theorem witness_SetpMergesAndRebuildsSelectively :
    (fun s : State => s.engine = some ⟨0, .one, 0⟩ ∧ chansOf ⟨0, .one, 0⟩ .all = .ok [.c0] ∧
      (s.p.get .c0).kernelDiffers ((s.p.get .c0).merge s.operands.stg ⟨true, true, false, false, false, false⟩) = true ∧
      (s.p.get .c0).tableDiffers ((s.p.get .c0).merge s.operands.stg ⟨true, true, false, false, false, false⟩) = true ∧
      ((kernelsOk 2 [(s.p.get .c0).merge s.operands.stg ⟨true, true, false, false, false, false⟩]).run s.draws).1 = true)
      (withStaged ready1 { StagedRegs.reset with stg := { kHalf with mu := 0 } }) := by decide +kernel

/-- One state for the clauses on SETP, IMPORT and BUILD_KERNEL, one for INIT and one for SETP_SPREAD. -/
theorem witness_ZeroMassKernelIsRefused :
    (fun s : State => initGeometry s.inst s.operands = .ok ⟨0, .one, 0⟩ ∧
      ((kernelsOk 2 [((initParams s.inst ⟨0, .one, 0⟩ s.p s.operands.stg).run s.draws).1.get .c0]).run s.draws).1 = false)
      (config 2 1 kEmpty) ∧
    (fun s : State => s.engine = some ⟨0, .one, 0⟩ ∧ chansOf ⟨0, .one, 0⟩ .all = .ok [.c0] ∧
      s.operands.importSize.toNat = 2 ∧
      ((kernelsOk 2 (([Chan.c0].filter fun c => (s.p.get c).kernelDiffers (s.operands.impP.get c)).map
        s.operands.impP.get)).run s.draws).1 = false ∧
      ((kernelsOk 2 (([Chan.c0].filter fun c => (s.p.get c).kernelDiffers
        ((s.p.get c).merge s.operands.stg ⟨false, false, false, false, true, true⟩)).map
        fun c => (s.p.get c).merge s.operands.stg ⟨false, false, false, false, true, true⟩)).run s.draws).1 = false)
      (withStaged ready1 { StagedRegs.reset with stg := kEmpty, importSize := 2, impP := .const kEmpty }) ∧
    ((kernelsOk 2 ([Chan.c0].map (Per3.get ⟨kEmpty, .zero, .zero⟩))).run ⟨0, 0⟩).1 = false ∧
    (fun s : State => s.engine = some ⟨0, .three, 0⟩ ∧
      ((kernelsOk 2 (([Chan.c0, .c1, .c2].filter fun c => (s.p.get c).kernelDiffers
        (((spreadAll s.inst (s.com.merge s.operands.stg ⟨false, false, false, false, true, true⟩)).run s.draws).1.get c)).map
        ((spreadAll s.inst (s.com.merge s.operands.stg ⟨false, false, false, false, true, true⟩)).run s.draws).1.get)).run
          s.draws).1 = false)
      (withStaged ready3 { StagedRegs.reset with stg := kEmpty }) := by decide +kernel

theorem witness_SetpSpreadDerivesEveryChannel :
    Geometry.channels ⟨0, .one, 0⟩ = .one ∧
    (fun s : State => s.engine = some ⟨0, .three, 0⟩ ∧
      ((kernelsOk 2 (([Chan.c0, .c1, .c2].filter fun c => (s.p.get c).kernelDiffers
        (((spreadAll s.inst (s.com.merge s.operands.stg ⟨true, false, false, false, false, false⟩)).run s.draws).1.get c)).map
        ((spreadAll s.inst (s.com.merge s.operands.stg ⟨true, false, false, false, false, false⟩)).run s.draws).1.get)).run
          ((spreadAll s.inst (s.com.merge s.operands.stg ⟨true, false, false, false, false, false⟩)).run s.draws).2).1 = true)
      (withStaged ready3 { StagedRegs.reset with stg := { k4 with r := 0x3FE0000000000000 } }) := by decide +kernel

/-- Sizes 1 and 3 beside N = 2, and 2 with a kernel that changes. -/
theorem witness_ImportTakesTheStagedConfig :
    (withStaged ready1 { StagedRegs.reset with importSize := 1 }).operands.importSize.toNat ≠ 2 ∧
    (withStaged ready1 { StagedRegs.reset with importSize := 3 }).operands.importSize.toNat ≠ 2 ∧
    (fun s : State => s.engine = some ⟨0, .one, 0⟩ ∧ s.operands.importSize.toNat = Geometry.n ⟨0, .one, 0⟩ ∧
      ([Chan.c0].filter fun c => (s.p.get c).kernelDiffers (s.operands.impP.get c)) = [.c0] ∧
      ((kernelsOk 2 ([Chan.c0].map s.operands.impP.get)).run s.draws).1 = true)
      (withStaged ready1 { StagedRegs.reset with importSize := 2, impP := .const kHalf }) := by decide +kernel

theorem witness_BuildKernelWritesKernelArrays :
    3 < 2 * 2 ∧ 2 = 2 ^ (⟨1, [], [], []⟩ : FftTables).log2n ∧
    (fun s : State => s.engine = some ⟨0, .one, 0⟩ ∧ chansOf ⟨0, .one, 0⟩ .all = .ok [.c0] ∧
      ((kernelsOk 2 ([Chan.c0].map s.p.get)).run s.draws).1 = true) { ready1 with p := ⟨kHalf, .zero, .zero⟩ } := by
  decide +kernel

/-- The ends of the scratch arrays, and the bytes next to them. -/
theorem witness_StepEqualsThePrimitiveSequence :
    InScratch 0xD0000000 ∧ InScratch 0xEFFFFFFF ∧ ¬ InScratch 0xCFFFFFFF ∧ ¬ InScratch 0xF0000000 := by
  unfold InScratch InArr; decide

/-- ALL and one channel in both engines (R113); axes of length 1 and 2. -/
theorem witness_CircleSetsTheDisc :
    Geometry.chanCount ⟨0, .three, 0⟩ = 3 ∧ Geometry.chanCount ⟨0, .one, 0⟩ = 1 ∧ ChSel.ch .c0 ≠ .all ∧ 0 < 1 ∧
    tdist 2 1 0 = 1 ∧ tdist 1 0 5 = 0 ∧ tdist 8 0 7 = 1 ∧
    [Chan.c0, .c1, .c2].map (paintOffset ⟨0, .three, 0⟩ .all) = [-1, 0, 1] := by decide

theorem witness_RunRepeatsStep :
    ready1.engine = some ⟨0, .one, 0⟩ ∧ (withStaged ready1 (args 0 0 0 0)).operands.arg0 = 0 ∧
    (withStaged ready1 (args 1 0 0 0)).operands.arg0 ≠ 0 := by decide

/-- With ARG1 = 0.5 the product is 1.0, and of N = 2 all cells but (0, 0) are within it. -/
theorem witness_RandomizeSeedsADisc :
    (fun s : State => 0x3FF0000000000000 = ((fmul s.operands.arg1 (ofNat64 2)).run s.draws).1 ∧
      (List.range 4).map (inDiscOf ⟨0, .one, 0⟩ 0x3FF0000000000000 s.draws) = [false, true, true, true])
      (withStaged twoField (args 0 0x3FE0000000000000 0 0)) := by decide +kernel

theorem witness_OnlyRandomizeTakesRngDraws : (∀ sel, Instr.nop ≠ .randomize sel) ∧ ∃ t, exec .nop blank = .next t :=
  ⟨fun _ h => (nomatch h), _, rfl⟩

/-- A pattern at the limit of N_MAX² elements scaled to the whole grid, and the active field as its own source. -/
theorem witness_PlaceCompositesThePattern :
    ((withStaged (two .one) { args 0 0 0x3FA0000000000000 0 with patW := 64, patH := 1 }).placePattern ⟨0, .one, 0⟩ .pattern
      ).toOption.map (fun p => (p.width, p.height, p.stride)) = some (64, 1, 64) ∧
    ((scaledSpans ⟨0, .one, 0⟩ 0x3FA0000000000000 ⟨64, 32, .pattern, 64⟩).run ⟨0, 0⟩).1 = some (2, 1) ∧
    ((withStaged (two .one) (args 0 0 0x3FF0000000000000 0)).placePattern ⟨0, .one, 0⟩ .field).toOption.map
      (fun p => (p.width, p.height, p.stride)) = some (2, 2, 2) ∧
    ((scaledSpans ⟨0, .one, 0⟩ 0x3FF0000000000000 ⟨2, 2, .field .c0 false, 2⟩).run ⟨0, 0⟩).1 = some (2, 2) ∧
    ((scaledSpans ⟨0, .one, 0⟩ 0x3FE0000000000000 ⟨1, 1, .pattern, 1⟩).run ⟨0, 0⟩).1 = some (0, 0) := by
  decide +kernel

/-- The premises on spans and source indices, with N = 2: products 0.5, 1.0 and 2.0; the quotients 1 / 0.5 and 0 / 0.5. -/
theorem witness_PlaceCompositesThePattern_parts :
    2 ^ 3 = 2 ^ (two .one).inst.log2NMax ∧ Geometry.active ⟨0, .three, 0⟩ .c2 = true ∧
    (withStaged (two .three) (args 0 0 0 2)).operands.arg3.toNat = Chan.c2.index ∧
    fle fOne ((fmul (ofNat64 1) 0x3FE0000000000000).run ⟨0, 0⟩).1 = false ∧
    ((fmul (ofNat64 2) 0x3FE0000000000000).run ⟨0, 0⟩).1 = fOne ∧ fle fOne fOne = true ∧ flt (ofNat64 2) fOne = false ∧
    ((fmul (ofNat64 4) 0x3FE0000000000000).run ⟨0, 0⟩).1 = ofNat64 2 ∧ fle fOne (ofNat64 2) = true ∧
    flt (ofNat64 2) (ofNat64 2) = false ∧
    ((fdiv (ofNat64 1) 0x3FE0000000000000).run ⟨0, 0⟩).1 = 0x4000000000000000 ∧ magnitude 0x4000000000000000 < infMagnitude ∧
    signBit 0x4000000000000000 = false ∧ ((fdiv (ofNat64 0) 0x3FE0000000000000).run ⟨0, 0⟩).1 = posZero ∧
    signBit posZero = false := by decide +kernel

theorem witness_PlaceRefusesBadPatterns :
    (two .one).inst.nMax * (two .one).inst.nMax < 65 ∧ Geometry.chanCount ⟨0, .one, 0⟩ ≤ (1 : Word).toNat ∧
    ((scaledSpans ⟨0, .one, 0⟩ 0x4008000000000000 ⟨1, 1, .pattern, 1⟩).run ⟨0, 0⟩).1 = none ∧
    (fun s : State => (s.placePattern ⟨0, .one, 0⟩ .pattern).toOption.map (fun p => (p.width, p.height)) = some (1, 3) ∧
      flt (ofNat64 2) ((fmul (ofNat64 1) s.operands.arg2).run s.draws).1 = false ∧
      flt (ofNat64 2) ((fmul (ofNat64 3) s.operands.arg2).run s.draws).1 = true)
      (withStaged (two .one) { args 0 0 0x3FF0000000000000 0 with patW := 1, patH := 3 }) := by decide +kernel

/-- NaN, -0.0, +0.0; 1.0 and +Inf; the least number above zero and the greatest below 1.0. -/
theorem witness_LookupReadsTheTable :
    magnitude 0 < infMagnitude ∧ signBit 0 = false ∧ magnitude 0x7FEFFFFFFFFFFFFF < infMagnitude ∧
    signBit 0x7FEFFFFFFFFFFFFF = false ∧
    isNan 0x7FF8000000000000 = true ∧ fle 0x8000000000000000 posZero = true ∧ fle 0 posZero = true ∧
    fle fOne 0x3FF0000000000000 = true ∧ fle fOne 0x7FF0000000000000 = true ∧
    flt posZero 1 = true ∧ flt 1 fOne = true ∧
    flt posZero 0x3FEFFFFFFFFFFFFF = true ∧ flt 0x3FEFFFFFFFFFFFFF fOne = true := by decide +kernel

/-- An engine of side 2 whose arrays are those of its parameters `kHalf` (K2 on N = 2, G15), executing BUILD_KERNEL. -/
def cached : State :=
  { ((((tables (two .one)).writeArray (.kernel .c0) [0, 0, 0, 0x3FF0000000000000]).writeArray (.ktfRe .c0)
      (List.replicate 4 0x3FF0000000000000)).writeArray (.ktfIm .c0) [0, 0, 0, 0]).writeArray (.gtab .c0)
      [0xBFEFFFF05E89604C, 0xBFEFFFF05E89604C] with
    p := ⟨kHalf, .zero, .zero⟩
    cmd := 0x0A
    running := some ⟨0x0A, .reset, 0, 0⟩
    schedule := [.complete] }

theorem cached_engine : cached.engine = some ⟨0, .one, 0⟩ := rfl

theorem witness_StepKeepsTheCachesValid : CachesValid cached ∧ ∃ t, step cached = .next t := by
  refine ⟨fun g hg => ?_, exists_next (by decide +kernel)⟩
  obtain rfl : (⟨0, .one, 0⟩ : Geometry) = g := Option.some.inj (cached_engine.symm.trans hg)
  refine ⟨by unfold TablesBuilt; decide +kernel, fun c hc => ?_⟩
  cases c with
  | c0 => exact ⟨⟨⟨0, 0⟩, by decide +kernel⟩, ⟨⟨0, 0⟩, by decide +kernel⟩⟩
  | c1 => exact absurd hc (by decide)
  | c2 => exact absurd hc (by decide)

/-- A Ready state with an executing SWAP. -/
theorem witness_StepKeepsTheMachineInvariant : MachineInv (executing 0x31D) ∧ ∃ t, step (executing 0x31D) = .next t := by
  refine ⟨⟨List.Pairwise.nil, ?_, ?_, ?_, ?_, ?_⟩, exists_next (by decide +kernel)⟩
  · intro g hg
    obtain rfl : (⟨0, .three, 0⟩ : Geometry) = g := Option.some.inj hg
    exact ⟨by decide, by decide⟩
  · intro c hc; cases c <;> rfl
  · intro _; rfl
  · intro r hr
    obtain rfl : (⟨0x31D, .reset, 0, 0⟩ : Running) = r := Option.some.inj hr
    exact ⟨rfl, rfl, by decide⟩
  · intro h; cases h

/-- A tie: one half unit lies between 0 and 1 units, and the even one is taken; and both sides of the overflow bound. -/
theorem witness_RoundingIsToNearestEven :
    roundUnits 1 2 = 0 ∧ roundUnits 3 2 = 2 ∧ roundUnits 1 2 < infMagnitude ∧ 1 < infMagnitude ∧
    roundUnits ((2 ^ 54 - 1) * 2 ^ 2044) 1 = infMagnitude ∧ roundUnits ((2 ^ 54 - 1) * 2 ^ 2044 - 1) 1 < infMagnitude := by
  decide +kernel

/-- +0.0, 1.0 and -1.0 as reals. -/
theorem realWord_posZero : realWord 0 = 0 := by
  have h : magnitude 0 = 0 := by decide
  have hs : signBit 0 = false := by decide
  have hu : unitsOfMagnitude 0 = 0 := by decide
  rw [realWord, if_neg (by rw [hs]; decide), realOf, h, hu, Nat.cast_zero, zero_div]

theorem realWord_one : realWord fOne = 1 := by
  have h : magnitude fOne = 0x3FF0000000000000 := by decide
  have hs : signBit fOne = false := by decide
  have hu : unitsOfMagnitude 0x3FF0000000000000 = 2 ^ 1074 := by decide +kernel
  rw [realWord, if_neg (by rw [hs]; decide), realOf, h, hu]
  push_cast
  exact div_self (by positivity)

theorem realWord_minusOne : realWord (fneg fOne) = -1 := by
  have h : magnitude (fneg fOne) = magnitude fOne := by decide
  have hs : signBit (fneg fOne) = true := by decide
  have h1 := realWord_one
  rw [realWord, if_neg (by decide)] at h1
  rw [realWord, if_pos hs, h, h1]

/-- R13 on its corners: the zeros are equal, a NaN is in no order, the infinities are at the ends, and 2^53 is exact. -/
theorem test_comparisons :
    (fle 0 0x8000000000000000 && fle 0x8000000000000000 0 && !flt 0x8000000000000000 0) = true ∧
    (fle 0x7FF8000000000000 0x7FF8000000000000 || flt 0 0x7FF8000000000000 || fle 0x7FF8000000000000 0) = false ∧
    (flt 0xFFF0000000000000 0xFFEFFFFFFFFFFFFF && flt 0x7FEFFFFFFFFFFFFF 0x7FF0000000000000) = true ∧
    (flt 0x8000000000000001 0x8000000000000000 && flt 0xC000000000000000 0xBFF0000000000000) = true ∧
    ofNat64 (2 ^ 53) = 0x4340000000000000 ∧ ofNat64 (2 ^ 53 - 1) = 0x433FFFFFFFFFFFFF := by decide +kernel

/-- 1.0, -1.0 and 0.0 as the finite operands, with a sum that is zero; a NaN; the two infinities. -/
theorem witness_RoundingIsToNearestEven_operations :
    magnitude fOne < infMagnitude ∧ magnitude (fneg fOne) < infMagnitude ∧ magnitude 0 < infMagnitude ∧
    realWord fOne + realWord (fneg fOne) = 0 ∧ realWord fOne - realWord fOne = 0 ∧ realWord fOne ≠ 0 ∧ realWord 0 = 0 ∧
    0 ≤ realWord fOne ∧ realWord (fneg fOne) < 0 ∧ isNan 0x7FF0000000000001 = true ∧
    magnitude 0x7FF0000000000000 = infMagnitude ∧ magnitude 0xFFF0000000000000 = infMagnitude ∧
    signBit 0x7FF0000000000000 ≠ signBit 0xFFF0000000000000 := by
  rw [realWord_one, realWord_minusOne, realWord_posZero]
  norm_num
  decide

/-- R18's example: mod(-1, 8) = 7. -/
theorem witness_WrapModIsTheRepresentative : 0 < 8 ∧ 7 < 8 ∧ wrapMod (-1) 8 = 7 := by decide

theorem witness_ClampLandsInTheUnitInterval :
    isNan 0x7FF0000000000001 = true ∧ flt 0x8000000000000001 0 = true ∧ flt fOne 0x3FF0000000000001 = true ∧
    (fun v : Word => isNan v = false ∧ flt v 0 = false ∧ flt fOne v = false) 0x8000000000000000 ∧
    (fun v : Word => isNan v = false ∧ flt v 0 = false ∧ flt fOne v = false) 0x3FF0000000000000 := by decide +kernel

/-- Both coordinates of N = 2; a valid kernel with a finite sum (K2), and one that is not valid (K7). -/
theorem witness_KernelIsSymmetric :
    0 < Geometry.n ⟨0, .one, 0⟩ ∧ 1 < Geometry.n ⟨0, .one, 0⟩ ∧ 2 = 2 ^ (⟨1, [], [], []⟩ : FftTables).log2n ∧
    ((kernelOk 2 kHalf).run ⟨0, 0⟩).1 = true ∧ magnitude ((kernelRaw 2 kHalf).run ⟨0, 0⟩).1.2 < infMagnitude ∧
    ((kernelOk 2 kEmpty).run ⟨0, 0⟩).1 = false := by decide +kernel

theorem witness_FftShiftIsAnInvolution :
    (List.replicate 4 posZero).length = Geometry.cells ⟨0, .one, 0⟩ ∧ 1 < Geometry.n ⟨0, .one, 0⟩ := by decide

/-- SP4: the table of N = 8. -/
theorem witness_BitReversalIsAnInvolution :
    0 < 2 ^ 3 ∧ 7 < 2 ^ 3 ∧ (List.range 8).map (reverseBits 3) = [0, 4, 2, 6, 1, 5, 3, 7] := by decide

/-- SP2 and SP3: the tables of N = 8. -/
theorem test_twiddles :
    cosTable 3 = [0x3FF0000000000000, 0x3FE6A09E667F3BCD, 0x0000000000000000, 0xBFE6A09E667F3BCD] ∧
    sinTable 3 = [0x0000000000000000, 0x3FE6A09E667F3BCD, 0x3FF0000000000000, 0x3FE6A09E667F3BCD] := by decide +kernel

/-- The angles 0 and pi, and pi/4 for the cosine and the sine. -/
theorem witness_CosEnclosureEncloses :
    2 * 0 ≤ 2 ^ 0 ∧ 2 * 4 ≤ 2 ^ 3 ∧ 2 * 1 < 2 ^ 3 ∧ CosDecided 0 0 ∧ CosDecided 3 4 ∧ CosDecided 3 1 ∧
    CosDecided (3 + 2) (if 4 * 1 ≤ 2 ^ 3 then 2 ^ 3 - 4 * 1 else 4 * 1 - 2 ^ 3) ∧ 3 < 2 ^ 3 / 2 :=
  ⟨by decide, by decide, by decide, ⟨0x3FF0000000000000, by decide +kernel⟩, ⟨0xBFF0000000000000, by decide +kernel⟩,
    ⟨0x3FE6A09E667F3BCD, by decide +kernel⟩, ⟨0x3FE6A09E667F3BCD, by decide +kernel⟩, by decide⟩

/-- The least argument, and e^-746, which rounds to +0.0. -/
theorem witness_Exp64IsNearest :
    firstAgreed (expPatterns false 1) precisionLadder = some fOne ∧
    firstAgreed (expPatterns true (746 * 2 ^ 1074)) precisionLadder = some posZero ∧ unpack 1 = .fin false 1 ∧
    unpack 0xC087500000000000 = .fin true (746 * 2 ^ 1074) ∧ isNan 0x7FF8000000000000 = true := by
  decide +kernel

/-- 2^10 and its negative are beyond 746. -/
theorem witness_Exp64IsNearest_beyond :
    magnitude 0x4090000000000000 < infMagnitude ∧ 746 < realWord 0x4090000000000000 ∧
    magnitude 0xC090000000000000 < infMagnitude ∧ realWord 0xC090000000000000 < -746 := by
  have hm : magnitude 0x4090000000000000 = 0x4090000000000000 ∧ magnitude 0xC090000000000000 = 0x4090000000000000 := by decide
  have hu : unitsOfMagnitude 0x4090000000000000 = 1024 * 2 ^ 1074 := by decide +kernel
  have h : realOf 0x4090000000000000 = 1024 := by
    rw [realOf, hu]; push_cast; exact mul_div_cancel_right₀ _ (by positivity)
  have hs : signBit 0x4090000000000000 = false ∧ signBit 0xC090000000000000 = true := by decide
  rw [realWord, realWord, hm.1, hm.2, hs.1, hs.2, h]
  refine ⟨by decide, ?_, by decide, ?_⟩ <;> norm_num

end Sys2Proof.Tests
end

section
/-! PROOF. Ending a command with OK, the growth table and the closed form (O30, O48). -/

namespace Sys2Proof.Machine

open Sys2Proof.Claims

/-! ### Ending a command -/

/-- A command whose effect keeps the host's side and the completion record of `s` ends as `Ran` says, with the engine's
registers its effect left. -/
theorem ran_recordCompletion {s t u : State} (hostSide : HostSideKept s t) (engine : EngineRegsAs u t)
    (firstErr : t.firstErr = s.firstErr) (errCmd : t.errCmd = s.errCmd) (errPend : t.irq.errPend = s.irq.errPend) :
    Ran s u (t.recordCompletion .ok) := by
  refine ⟨?_, hostSide, engine⟩
  simp [CompletedWith, State.recordCompletion, State.err, State.busy, firstErr, errCmd, errPend]

/-- The completion record touches no byte. -/
@[simp] theorem readByte_recordCompletion (s : State) (e : Err) (x : Nat) :
    (s.recordCompletion e).readByte x = s.readByte x := rfl

@[simp] theorem readArray_recordCompletion (s : State) (e : Err) (a : Arr) (n : Nat) :
    (s.recordCompletion e).readArray a n = s.readArray a n := readArray_congr rfl rfl a n

theorem exec_geval_ready {s : State} {g : Geometry} {c : Chan} (h : s.engine = some g) (hc : g.active c = true) :
    exec (.geval (.ch c)) s =
      .next ((s.resultOf (gg s.operands.arg0 (s.p.get c).mu (s.p.get c).sigma)).recordCompletion .ok) :=
  runCommandOne_ready h hc _

theorem exec_buildGrowth_ready {s : State} {g : Geometry} {sel : ChSel} {cs : List Chan} (h : s.engine = some g)
    (hc : chansOf g sel = .ok cs) :
    exec (.buildGrowth sel) s = .next ((cs.foldl (fun t c => t.rebuildTable g c) s).recordCompletion .ok) :=
  runCommandMany_ready h hc _

/-! ### The growth function and its table -/

/-- The model's `gg` is the formula of R20. -/
theorem gg_eq_growthOf (u mu sigma : Word) : gg u mu sigma = growthOf u mu sigma := rfl

/-- Entry `k` of a table is the growth function at sample point `k` (R191, R192). -/
theorem buildTable_getElem? (mu sigma : Word) (res k : Nat) (d : Draws) (hk : k < res) :
    ∃ e, ((buildTable mu sigma res).run d).1[k]? = some ((growthAt mu sigma res k).run e).1 := by
  obtain ⟨e, he⟩ := forEach_getElem (growthAt mu sigma res) (List.range res) d k (by simpa using hk)
  rw [List.getElem_range] at he
  exact ⟨e, he⟩

theorem buildTable_getD (mu sigma : Word) (res k : Nat) (d : Draws) (hk : k < res) :
    ∃ e, ((buildTable mu sigma res).run d).1.getD k posZero = ((growthAt mu sigma res k).run e).1 := by
  obtain ⟨e, he⟩ := buildTable_getElem? mu sigma res k d hk
  exact ⟨e, by rw [List.getD_eq_getElem?_getD, he, Option.getD_some]⟩

/-- The entries of a built table, read one by one. -/
theorem readElem_of_tableBuilt {t : State} {g : Geometry} {c : Chan} (h : TableBuilt t g c) {k : Nat} (hk : k < g.res) :
    ∃ e, t.readElem (.gtab c) k = ((growthAt (t.p.get c).mu (t.p.get c).sigma g.res k).run e).1 := by
  obtain ⟨d, hd⟩ := h
  obtain ⟨e, he⟩ := buildTable_getElem? (t.p.get c).mu (t.p.get c).sigma g.res k d hk
  have hlen : k < (t.readArray (.gtab c) g.res).length := by simpa using hk
  rw [← hd, List.getElem?_eq_getElem hlen, readArray_getElem, Option.some.injEq] at he
  exact ⟨e, he⟩

/-! ### Rebuilding the tables of a list of channels -/

/-- Rebuilding tables writes memory and takes draws; nothing else. -/
theorem foldl_rebuildTable_eq (g : Geometry) (cs : List Chan) (s : State) :
    ∃ mem draws, cs.foldl (fun t c => t.rebuildTable g c) s = { s with mem := mem, draws := draws } := by
  induction cs generalizing s with
  | nil => exact ⟨s.mem, s.draws, rfl⟩
  | cons c cs ih =>
    obtain ⟨mem, draws, h⟩ := ih (s.rebuildTable g c)
    exact ⟨mem, draws, by rw [List.foldl_cons, h, rebuildTable_eq]⟩

/-- Rebuilding tables leaves every byte outside them as it was. -/
theorem readByte_foldl_rebuildTable (g : Geometry) (cs : List Chan) (s : State) (x : Nat)
    (h : ∀ c ∈ cs, ¬ InArr (.gtab c) g.res x) :
    (cs.foldl (fun t c => t.rebuildTable g c) s).readByte x = s.readByte x := by
  induction cs generalizing s with
  | nil => rfl
  | cons c cs ih =>
    rw [List.foldl_cons, ih _ fun b hb => h b (List.mem_cons_of_mem c hb)]
    have hx := h c List.mem_cons_self
    exact readByte_rebuildTable s g c x (by unfold InArr at hx; omega)

/-- Rebuilding one channel's table leaves the table of another channel built. -/
theorem tableBuilt_rebuildTable_other {s : State} {g : Geometry} {b c : Chan} (hbc : b ≠ c) (h : TableBuilt s g b) :
    TableBuilt (s.rebuildTable g c) g b := by
  obtain ⟨d, hd⟩ := h
  refine ⟨d, ?_⟩
  have hres := g.res_le
  have hlen := buildTable_length (s.p.get c).mu (s.p.get c).sigma g.res s.draws
  rw [rebuildTable_p, ← hd, State.rebuildTable,
    readArray_writeArray_other _ (by simpa using hbc) _ _ (by rw [drawing_fst, hlen]; exact hres) hres]
  exact readArray_congr rfl rfl _ _

theorem tableBuilt_rebuildTable_same (s : State) (g : Geometry) (c : Chan) : TableBuilt (s.rebuildTable g c) g c :=
  ⟨s.draws, by rw [rebuildTable_p, rebuildTable_array]⟩

/-- A built table stays built through any further rebuilds: one of its own channel builds it anew. -/
theorem tableBuilt_foldl_rebuildTable {s : State} {g : Geometry} {b : Chan} (cs : List Chan) (h : TableBuilt s g b) :
    TableBuilt (cs.foldl (fun t c => t.rebuildTable g c) s) g b := by
  induction cs generalizing s with
  | nil => exact h
  | cons c cs ih =>
    refine ih ?_
    by_cases hbc : b = c
    · exact hbc ▸ tableBuilt_rebuildTable_same s g b
    · exact tableBuilt_rebuildTable_other hbc h

/-- After the rebuilds of a list of channels the table of each of them is built. -/
theorem tableBuilt_of_mem (g : Geometry) {cs : List Chan} {b : Chan} (hb : b ∈ cs) (s : State) :
    TableBuilt (cs.foldl (fun t c => t.rebuildTable g c) s) g b := by
  induction cs generalizing s with
  | nil => cases hb
  | cons c cs ih =>
    rcases List.mem_cons.mp hb with rfl | hb
    · exact tableBuilt_foldl_rebuildTable cs (tableBuilt_rebuildTable_same s g b)
    · exact ih hb _

theorem tableBuilt_recordCompletion {t : State} {g : Geometry} {c : Chan} (h : TableBuilt t g c) :
    TableBuilt (t.recordCompletion .ok) g c := by
  obtain ⟨d, hd⟩ := h
  exact ⟨d, by rw [readArray_recordCompletion, hd]; rfl⟩

/-! ### The obligations -/

/-- Settles O30: the last rebuild of a channel builds its table, and rebuilds of other channels keep it. -/
theorem buildGrowthWritesGrowthTables : Obligations.BuildGrowthWritesGrowthTables := by
  refine ⟨fun s g sel cs hg hcs => ?_, fun mu sigma res d =>
    ⟨buildTable_length mu sigma res d, fun k hk => buildTable_getD mu sigma res k d hk⟩⟩
  obtain ⟨mem, draws, hfold⟩ := foldl_rebuildTable_eq g cs s
  have hbuilt : ∀ c ∈ cs, TableBuilt ((cs.foldl (fun t c => t.rebuildTable g c) s).recordCompletion .ok) g c :=
    fun c hc => tableBuilt_recordCompletion (tableBuilt_of_mem g hc s)
  have hparams : ((cs.foldl (fun t c => t.rebuildTable g c) s).recordCompletion .ok).p = s.p := by rw [hfold]; rfl
  refine ⟨_, exec_buildGrowth_ready hg hcs, ?_, hbuilt, fun c hc k hk => ?_, fun x hx => ?_⟩
  · rw [hfold]
    exact ran_recordCompletion ⟨rfl, rfl, rfl, rfl, rfl, rfl, rfl, rfl, rfl⟩ ⟨rfl, rfl, rfl, rfl, rfl, rfl⟩ rfl rfl rfl
  · exact hparams ▸ readElem_of_tableBuilt (hbuilt c hc) hk
  · rw [readByte_recordCompletion]
    exact readByte_foldl_rebuildTable g cs s x fun c hc hin => hx ⟨c, hc, hin⟩

/-- Settles O48. The model's `gg` names the operations of R20 in the same order. -/
theorem gevalEvaluatesTheClosedForm : Obligations.GevalEvaluatesTheClosedForm :=
  ⟨gg_eq_growthOf, fun _ _ _ hg hc => ⟨_, exec_geval_ready hg hc,
    ran_recordCompletion ⟨rfl, rfl, rfl, rfl, rfl, rfl, rfl, rfl, rfl⟩ ⟨rfl, rfl, rfl, rfl, rfl, rfl⟩ rfl rfl rfl,
    rfl, rfl⟩⟩

end Sys2Proof.Machine
end

section
/-! PROOF. The sign and the magnitude of a binary64 word, the order of words, `clamp01` (O54) and `mod` (O55). -/

namespace Sys2Proof.Machine

open Sys2Proof.Claims

/-! ### The fields of a word (R81) -/

theorem signBit_eq_decide (w : Word) : signBit w = decide (2 ^ 63 ≤ w.toNat) := BitVec.msb_eq_decide w

/-- A word is its sign and its magnitude pattern. -/
theorem toNat_eq_sign_add_magnitude (w : Word) :
    w.toNat = (if signBit w then 2 ^ 63 else 0) + magnitude w := by
  have hw := w.isLt
  rw [signBit_eq_decide, magnitude]
  split <;> (simp_all; omega)

@[simp] theorem ofMagnitude_signBit_magnitude (w : Word) : ofMagnitude (signBit w) (magnitude w) = w := by
  rw [ofMagnitude, ← toNat_eq_sign_add_magnitude, BitVec.ofNat_toNat, BitVec.setWidth_eq]

theorem toNat_ofMagnitude (neg : Bool) {p : Nat} (h : p < 2 ^ 63) :
    (ofMagnitude neg p).toNat = (if neg then 2 ^ 63 else 0) + p := by
  rw [ofMagnitude, BitVec.toNat_ofNat, Nat.mod_eq_of_lt]
  split <;> omega

theorem magnitude_ofMagnitude (neg : Bool) {p : Nat} (h : p < 2 ^ 63) : magnitude (ofMagnitude neg p) = p := by
  rw [magnitude, toNat_ofMagnitude neg h]
  split
  · rw [Nat.add_mod_left, Nat.mod_eq_of_lt h]
  · rw [Nat.zero_add, Nat.mod_eq_of_lt h]

theorem signBit_ofMagnitude (neg : Bool) {p : Nat} (h : p < 2 ^ 63) : signBit (ofMagnitude neg p) = neg := by
  rw [signBit_eq_decide, toNat_ofMagnitude neg h]
  cases neg
  · simpa using h
  · simp

@[simp] theorem signBit_fneg (w : Word) : signBit (fneg w) = !signBit w := by
  rw [signBit, fneg, BitVec.msb_xor, show (0x8000000000000000 : Word).msb = true by decide, Bool.xor_true, signBit]

theorem magnitude_eq_toNat_extract (w : Word) : magnitude w = (w.extractLsb' 0 63).toNat := by
  simp [magnitude, BitVec.extractLsb'_toNat]

@[simp] theorem magnitude_fneg (w : Word) : magnitude (fneg w) = magnitude w := by
  have h : (fneg w).extractLsb' 0 63 = w.extractLsb' 0 63 := by
    rw [fneg, BitVec.extractLsb'_xor, show (0x8000000000000000 : Word).extractLsb' 0 63 = 0#63 by decide,
      BitVec.xor_zero]
  rw [magnitude_eq_toNat_extract, h, magnitude_eq_toNat_extract]

@[simp] theorem signBit_fabs (w : Word) : signBit (fabs w) = false := by
  rw [signBit, fabs, BitVec.msb_and, show (0x7FFFFFFFFFFFFFFF : Word).msb = false by decide, Bool.and_false]

@[simp] theorem magnitude_fabs (w : Word) : magnitude (fabs w) = magnitude w := by
  have h : (fabs w).extractLsb' 0 63 = w.extractLsb' 0 63 := by
    rw [fabs, BitVec.extractLsb'_and, show (0x7FFFFFFFFFFFFFFF : Word).extractLsb' 0 63 = BitVec.allOnes 63 by decide,
      BitVec.and_allOnes]
  rw [magnitude_eq_toNat_extract, h, magnitude_eq_toNat_extract]

theorem isNan_eq_true_iff (w : Word) : isNan w = true ↔ infMagnitude < magnitude w := by simp [isNan]

theorem isNan_eq_false_iff (w : Word) : isNan w = false ↔ magnitude w ≤ infMagnitude := by simp [isNan]

@[simp] theorem isNan_fneg (w : Word) : isNan (fneg w) = isNan w := by simp [isNan]

/-! ### The three kinds of words -/

theorem unpack_of_finite {w : Word} (h : magnitude w < infMagnitude) :
    unpack w = .fin (signBit w) (unitsOfMagnitude (magnitude w)) := if_pos h

theorem unpack_of_infinite {w : Word} (h : magnitude w = infMagnitude) : unpack w = .inf (signBit w) := by
  rw [unpack, if_neg (by omega), if_pos h]

theorem unpack_of_nan {w : Word} (h : isNan w = true) : unpack w = .nan := by
  rw [isNan_eq_true_iff] at h
  rw [unpack, if_neg (by omega), if_neg (by omega)]

/-- A word that unpacks to a real is finite, with that sign and that many units. -/
theorem unpack_eq_fin_iff {w : Word} {neg : Bool} {k : Nat} :
    unpack w = .fin neg k ↔
      magnitude w < infMagnitude ∧ signBit w = neg ∧ unitsOfMagnitude (magnitude w) = k := by
  by_cases hf : magnitude w < infMagnitude
  · simp [unpack_of_finite hf, hf]
  · by_cases hi : magnitude w = infMagnitude
    · simp [unpack_of_infinite hi, hi]
    · simp [unpack, hf, hi]

/-! ### The order of words (R13) -/

theorem flt_iff (a b : Word) :
    flt a b = true ↔ isNan a = false ∧ isNan b = false ∧ orderKey a < orderKey b := by
  simp [flt, and_assoc]

theorem fle_iff (a b : Word) :
    fle a b = true ↔ isNan a = false ∧ isNan b = false ∧ orderKey a ≤ orderKey b := by
  simp [fle, and_assoc]

/-- A word that is not below another one is at or above it, NaN apart. -/
theorem fle_of_flt_eq_false {a b : Word} (ha : isNan a = false) (hb : isNan b = false) (h : flt a b = false) :
    fle b a = true := by
  have hlt : ¬ orderKey a < orderKey b := fun hk => by
    rw [(flt_iff a b).mpr ⟨ha, hb, hk⟩] at h
    cases h
  exact (fle_iff b a).mpr ⟨hb, ha, not_lt.mp hlt⟩

theorem flt_eq_false_of_orderKey_le {a b : Word} (h : orderKey b ≤ orderKey a) : flt a b = false := by
  rw [flt, decide_eq_false (not_lt.mpr h), Bool.and_false]

/-! ### clamp01 (R17) -/

theorem clamp01_of_nan {v : Word} (h : isNan v = true) : clamp01 v = posZero := if_pos h

theorem clamp01_of_negative {v : Word} (h : flt v posZero = true) : clamp01 v = posZero := by
  rw [clamp01, if_pos h, ite_self]

theorem clamp01_of_above {v : Word} (h : flt fOne v = true) : clamp01 v = fOne := by
  obtain ⟨-, hv, hk⟩ := (flt_iff fOne v).mp h
  have hone : orderKey posZero ≤ orderKey fOne := by decide
  have hpos : flt v posZero = false := flt_eq_false_of_orderKey_le (hone.trans_lt hk).le
  rw [clamp01, hv, hpos, h]
  rfl

theorem clamp01_of_unit {v : Word} (hnan : isNan v = false) (hlo : flt v posZero = false) (hhi : flt fOne v = false) :
    clamp01 v = v := by
  rw [clamp01, hnan, hlo, hhi]
  rfl

theorem inUnit_posZero : InUnit posZero := ⟨by decide, by decide⟩

theorem inUnit_fOne : InUnit fOne := ⟨by decide, by decide⟩

/-- The result of a clamp lies in [0, 1], by the case of R17 it falls under. -/
theorem inUnit_clamp01 (v : Word) : InUnit (clamp01 v) := by
  by_cases hnan : isNan v = true
  · exact clamp01_of_nan hnan ▸ inUnit_posZero
  by_cases hlo : flt v posZero = true
  · exact clamp01_of_negative hlo ▸ inUnit_posZero
  by_cases hhi : flt fOne v = true
  · exact clamp01_of_above hhi ▸ inUnit_fOne
  rw [Bool.not_eq_true] at hnan hlo hhi
  rw [clamp01_of_unit hnan hlo hhi]
  exact ⟨fle_of_flt_eq_false hnan (by decide) hlo, fle_of_flt_eq_false (by decide) hnan hhi⟩

/-- Settles O54, by the cases of R17. -/
theorem clampLandsInTheUnitInterval : Obligations.ClampLandsInTheUnitInterval := fun v =>
  ⟨clamp01_of_nan, clamp01_of_negative, clamp01_of_above, clamp01_of_unit, inUnit_clamp01 v⟩

/-! ### mod (R18) -/

theorem cast_wrapMod (a : Int) {n : Nat} (hn : 0 < n) : (wrapMod a n : Int) = a % n :=
  Int.toNat_of_nonneg (Int.emod_nonneg a (by omega))

theorem wrapMod_lt (a : Int) {n : Nat} (hn : 0 < n) : wrapMod a n < n := by
  have h := Int.emod_lt_of_pos a (Int.natCast_pos.mpr hn)
  rw [← cast_wrapMod a hn] at h
  exact_mod_cast h

/-- Settles O55: a representative below `n` is its own remainder. -/
theorem wrapModIsTheRepresentative : Obligations.WrapModIsTheRepresentative := by
  intro a n hn
  refine ⟨wrapMod_lt a hn, ⟨a / n, ?_⟩, fun r hr ⟨q, hq⟩ => ?_⟩
  · rw [cast_wrapMod a hn, mul_comm]
    linarith [Int.mul_ediv_add_emod a n]
  · have ha : a = r + n * q := by linarith [mul_comm q (n : Int)]
    have hrem : a % n = r := by
      rw [ha, Int.add_mul_emod_self_left, Int.emod_eq_of_lt (by omega) (by omega)]
    rw [wrapMod, hrem, Int.toNat_natCast]

end Sys2Proof.Machine
end

section
/-! PROOF. The reals between which a finite magnitude is the nearest, and that `roundUnits` finds it (R12). -/

namespace Sys2Proof.Machine

open Sys2Proof.Claims

/-! ### The grid of finite magnitudes -/

/-- The magnitude pattern at cut `q` with `m` units of `2^q`: the significand `m` is full, or the pattern is subnormal. A
carry to `m = 2^53` is the next binade's first pattern. -/
theorem unitsOfMagnitude_cut {q m : Nat} (hm : m ≤ 2 ^ 53) (hfull : q = 0 ∨ 2 ^ 52 ≤ m) :
    unitsOfMagnitude (q * 2 ^ 52 + m) = m * 2 ^ q := by
  unfold unitsOfMagnitude
  rcases Nat.lt_or_ge m (2 ^ 52) with hsub | hnorm
  · obtain rfl : q = 0 := by omega
    rw [if_pos (by omega)]
    omega
  · rw [if_neg (by omega)]
    rcases Nat.lt_or_ge m (2 ^ 53) with hlt | hge
    · have hexp : (q * 2 ^ 52 + m) / 2 ^ 52 - 1 = q := by omega
      have hsig : 2 ^ 52 + (q * 2 ^ 52 + m) % 2 ^ 52 = m := by omega
      rw [hexp, hsig]
    · obtain rfl : m = 2 ^ 53 := by omega
      have hexp : (q * 2 ^ 52 + 2 ^ 53) / 2 ^ 52 - 1 = q + 1 := by omega
      have hsig : 2 ^ 52 + (q * 2 ^ 52 + 2 ^ 53) % 2 ^ 52 = 2 ^ 52 := by omega
      rw [hexp, hsig, Nat.pow_succ 2 q]
      ring

theorem unitsOfMagnitude_cut_succ {q m : Nat} (hm : m < 2 ^ 53) (hfull : q = 0 ∨ 2 ^ 52 ≤ m) :
    unitsOfMagnitude (q * 2 ^ 52 + m + 1) = (m + 1) * 2 ^ q := by
  rw [Nat.add_assoc, unitsOfMagnitude_cut (by omega) (by omega)]

/-- Every pattern is at a cut, below its carry. -/
theorem exists_cut (p : Nat) : ∃ q m, p = q * 2 ^ 52 + m ∧ m < 2 ^ 53 ∧ (q = 0 ∨ 2 ^ 52 ≤ m) :=
  ⟨p / 2 ^ 52 - 1, p - (p / 2 ^ 52 - 1) * 2 ^ 52, by omega, by omega, by omega⟩

/-- Neighbouring patterns are one unit of their cut apart. -/
theorem exists_unitsOfMagnitude_succ (p : Nat) :
    ∃ q m, m < 2 ^ 53 ∧ unitsOfMagnitude p = m * 2 ^ q ∧ unitsOfMagnitude (p + 1) = (m + 1) * 2 ^ q := by
  obtain ⟨q, m, rfl, hm, hfull⟩ := exists_cut p
  exact ⟨q, m, hm, unitsOfMagnitude_cut hm.le hfull, unitsOfMagnitude_cut_succ hm hfull⟩

/-- The order of the patterns is the order of their values. -/
theorem unitsOfMagnitude_strictMono : StrictMono unitsOfMagnitude :=
  strictMono_nat_of_lt_succ fun p => by
    obtain ⟨q, m, -, hp, hp'⟩ := exists_unitsOfMagnitude_succ p
    rw [hp, hp']
    exact Nat.mul_lt_mul_of_pos_right (Nat.lt_succ_self m) (Nat.two_pow_pos q)

@[simp] theorem unitsOfMagnitude_zero : unitsOfMagnitude 0 = 0 := by decide

@[simp] theorem unitsOfMagnitude_one : unitsOfMagnitude 1 = 1 := by decide

theorem unitsOfMagnitude_eq_zero {p : Nat} : unitsOfMagnitude p = 0 ↔ p = 0 := by
  rw [← unitsOfMagnitude_zero, unitsOfMagnitude_strictMono.injective.eq_iff, unitsOfMagnitude_zero]

theorem unitsOfMagnitude_infMagnitude : unitsOfMagnitude infMagnitude = 2 ^ 54 * 2 ^ 2044 := by
  rw [show infMagnitude = 2046 * 2 ^ 52 + 2 ^ 52 by decide, unitsOfMagnitude_cut (by decide) (by decide),
    ← pow_add, ← pow_add]

/-- The largest finite value. -/
theorem unitsOfMagnitude_pred_infMagnitude :
    unitsOfMagnitude (infMagnitude - 1) = (2 ^ 54 - 2) * 2 ^ 2044 := by
  rw [show infMagnitude - 1 = 2045 * 2 ^ 52 + (2 ^ 53 - 1) by decide, unitsOfMagnitude_cut (by decide) (by decide),
    Nat.pow_succ 2 2044]
  omega

/-- Every integer of at most 53 significant bits is the value of a pattern. -/
theorem exists_unitsOfMagnitude_eq {m : Nat} (q : Nat) (hm : m ≤ 2 ^ 53) : ∃ p, unitsOfMagnitude p = m * 2 ^ q := by
  induction q generalizing m with
  | zero => exact ⟨m, by simpa using unitsOfMagnitude_cut (q := 0) hm (.inl rfl)⟩
  | succ q ih =>
    rcases Nat.lt_or_ge m (2 ^ 52) with hlt | hge
    · obtain ⟨p, hp⟩ := ih (m := 2 * m) (by omega)
      exact ⟨p, by rw [hp, Nat.pow_succ 2 q]; ring⟩
    · exact ⟨(q + 1) * 2 ^ 52 + m, unitsOfMagnitude_cut hm (.inr hge)⟩

/-! ### The reals a magnitude is nearest to -/

/-- `v` units lie between the midpoints to the neighbours of the pattern `p`, on a midpoint only if `p` is even; infinity
has no upper midpoint, and its lower one is half a unit in the last place beyond the largest finite value (R12). -/
def RoundsTo (v : ℝ) (p : Nat) : Prop :=
  p ≤ infMagnitude ∧
  (∀ o, o + 1 = p → (unitsOfMagnitude o + unitsOfMagnitude p : ℝ) ≤ 2 * v ∧
    ((unitsOfMagnitude o + unitsOfMagnitude p : ℝ) = 2 * v → p % 2 = 0)) ∧
  (p < infMagnitude → 2 * v ≤ (unitsOfMagnitude p + unitsOfMagnitude (p + 1) : ℝ) ∧
    (2 * v = (unitsOfMagnitude p + unitsOfMagnitude (p + 1) : ℝ) → p % 2 = 0))

theorem RoundsTo.le_infMagnitude {v : ℝ} {p : Nat} (h : RoundsTo v p) : p ≤ infMagnitude := h.1

theorem RoundsTo.lt_two_pow {v : ℝ} {p : Nat} (h : RoundsTo v p) : p < 2 ^ 63 :=
  h.le_infMagnitude.trans_lt (by decide)

/-- The reals that round to one magnitude have no gaps. -/
theorem RoundsTo.between {u v w : ℝ} {p : Nat} (hu : RoundsTo u p) (hw : RoundsTo w p) (huv : u ≤ v) (hvw : v ≤ w) :
    RoundsTo v p := by
  obtain ⟨hp, hlo, -⟩ := hu
  obtain ⟨-, -, hhi⟩ := hw
  refine ⟨hp, fun o ho => ?_, fun hfin => ?_⟩
  · obtain ⟨hle, heq⟩ := hlo o ho
    exact ⟨by linarith, fun h => heq (by linarith)⟩
  · obtain ⟨hle, heq⟩ := hhi hfin
    exact ⟨by linarith, fun h => heq (by linarith)⟩

theorem cast_units_lt {p r : Nat} (h : p < r) : (unitsOfMagnitude p : ℝ) < unitsOfMagnitude r := by
  exact_mod_cast unitsOfMagnitude_strictMono h

theorem cast_units_le {p r : Nat} (h : p ≤ r) : (unitsOfMagnitude p : ℝ) ≤ unitsOfMagnitude r := by
  exact_mod_cast unitsOfMagnitude_strictMono.monotone h

/-- The value of a pattern rounds to the pattern. -/
theorem roundsTo_units {p : Nat} (hp : p ≤ infMagnitude) : RoundsTo (unitsOfMagnitude p) p := by
  refine ⟨hp, fun o ho => ?_, fun _ => ?_⟩
  · have h := cast_units_lt (p := o) (r := p) (by omega)
    exact ⟨by linarith, fun he => by linarith⟩
  · have h := cast_units_lt (Nat.lt_succ_self p)
    exact ⟨by linarith, fun he => by linarith⟩

/-- What lies from one pattern up to the next rounds to the nearer one, or to the even one in the middle. -/
theorem roundsTo_of_floor {v : ℝ} {p : Nat} (up : Bool) (hlo : (unitsOfMagnitude p : ℝ) ≤ v)
    (hhi : v < unitsOfMagnitude (p + 1))
    (hup : up = true ↔ (unitsOfMagnitude p + unitsOfMagnitude (p + 1) : ℝ) < 2 * v ∨
      ((unitsOfMagnitude p + unitsOfMagnitude (p + 1) : ℝ) = 2 * v ∧ p % 2 = 1)) :
    RoundsTo v (min (if up then p + 1 else p) infMagnitude) := by
  have hnext := cast_units_lt (Nat.lt_succ_self p)
  have hnext2 := cast_units_lt (Nat.lt_succ_self (p + 1))
  rcases Nat.lt_or_ge p infMagnitude with hfin | hinf
  · cases up with
    | true =>
      have hmid := hup.mp rfl
      rw [if_pos rfl, Nat.min_eq_left hfin]
      refine ⟨hfin, fun o ho => ?_, fun _ => ⟨by linarith, fun he => by linarith⟩⟩
      obtain rfl : o = p := by omega
      rcases hmid with hmid | ⟨hmid, hodd⟩
      · exact ⟨hmid.le, fun he => by linarith⟩
      · exact ⟨hmid.le, fun _ => by omega⟩
    | false =>
      have hmid : ¬ _ := mt hup.mpr (by decide)
      rw [not_or, not_lt, not_and] at hmid
      obtain ⟨hle, htie⟩ := hmid
      rw [if_neg (by decide), Nat.min_eq_left hfin.le]
      refine ⟨hfin.le, fun o ho => ?_, fun _ => ⟨hle, fun he => ?_⟩⟩
      · have hprev := cast_units_lt (p := o) (r := p) (by omega)
        exact ⟨by linarith, fun he => by linarith⟩
      · have := htie he.symm
        omega
  · rw [Nat.min_eq_right (by split <;> omega)]
    refine ⟨le_rfl, fun o ho => ?_, fun h => absurd h (lt_irrefl _)⟩
    have hprev := cast_units_lt (p := o) (r := infMagnitude) (by omega)
    have hbelow := cast_units_le hinf
    exact ⟨by linarith, fun he => by linarith⟩

/-! ### roundUnits -/

/-- The quotient cut at 53 significant bits: the significand is below `2^53`, and full unless nothing is cut off. -/
theorem significand_bounds (n : Nat) :
    n / 2 ^ (n.log2 - 52) < 2 ^ 53 ∧ (n.log2 - 52 = 0 ∨ 2 ^ 52 ≤ n / 2 ^ (n.log2 - 52)) := by
  rcases Nat.eq_zero_or_pos n with rfl | hn
  · decide
  have hlo : 2 ^ n.log2 ≤ n := Nat.log2_self_le hn.ne'
  have hhi : n < 2 ^ (n.log2 + 1) := Nat.lt_log2_self
  rw [Nat.div_lt_iff_lt_mul (Nat.two_pow_pos _), Nat.le_div_iff_mul_le (Nat.two_pow_pos _), ← pow_add, ← pow_add]
  constructor
  · exact hhi.trans_le (Nat.pow_le_pow_right (by decide) (by omega))
  · rcases Nat.eq_zero_or_pos (n.log2 - 52) with h | h
    · exact .inl h
    · exact .inr (le_of_eq_of_le (congrArg (2 ^ ·) (by omega)) hlo)

/-- `roundUnits` finds the magnitude `num/den` units round to. -/
theorem roundsTo_roundUnits (num : Nat) {den : Nat} (hden : 0 < den) :
    RoundsTo ((num : ℝ) / den) (roundUnits num den) := by
  obtain ⟨hlt, hfull⟩ := significand_bounds (num / den)
  rw [Nat.div_div_eq_div_mul] at hlt hfull
  rw [roundUnits]
  set q := (num / den).log2 - 52
  set m := num / (den * 2 ^ q) with hm
  set rest := num % (den * 2 ^ q) with hrest
  set f : ℝ := (rest : ℝ) / den with hf
  have hdenR : (0 : ℝ) < den := by exact_mod_cast hden
  have hvalue : (num : ℝ) / den = m * 2 ^ q + f := by
    have hnum : (num : ℝ) = (den * 2 ^ q) * m + rest := by exact_mod_cast (Nat.div_add_mod num (den * 2 ^ q)).symm
    rw [hnum, hf]
    field_simp
  have hf0 : 0 ≤ f := by positivity
  have hf1 : f < 2 ^ q := by
    have hlt : (rest : ℝ) < den * 2 ^ q := by
      exact_mod_cast Nat.mod_lt num (Nat.mul_pos hden (Nat.two_pow_pos q))
    rwa [hf, div_lt_iff₀' hdenR]
  have hp : (unitsOfMagnitude (q * 2 ^ 52 + m) : ℝ) = m * 2 ^ q := by
    exact_mod_cast unitsOfMagnitude_cut hlt.le hfull
  have hp' : (unitsOfMagnitude (q * 2 ^ 52 + m + 1) : ℝ) = (m + 1) * 2 ^ q := by
    exact_mod_cast unitsOfMagnitude_cut_succ hlt hfull
  have habove : den * 2 ^ q < 2 * rest ↔ (2 : ℝ) ^ q < 2 * f := by
    rw [hf, ← mul_div_assoc, lt_div_iff₀' hdenR]
    exact_mod_cast Iff.rfl
  have htie : 2 * rest = den * 2 ^ q ↔ (2 : ℝ) ^ q = 2 * f := by
    rw [hf, ← mul_div_assoc, eq_div_iff hdenR.ne', eq_comm, mul_comm]
    exact_mod_cast Iff.rfl
  have hpush : ∀ up : Bool, q * 2 ^ 52 + (if up then m + 1 else m) =
      if up then q * 2 ^ 52 + m + 1 else q * 2 ^ 52 + m := by
    intro up
    split
    · rw [Nat.add_assoc]
    · rfl
  have hparity : (q * 2 ^ 52 + m) % 2 = m % 2 := by
    rw [show (2 : Nat) ^ 52 = 2 ^ 51 * 2 by decide, ← mul_assoc, Nat.mul_add_mod_self_right]
  rw [hvalue, hpush]
  apply roundsTo_of_floor
  · linarith
  · linarith
  · rw [Bool.or_eq_true, Bool.and_eq_true, decide_eq_true_iff, decide_eq_true_iff, decide_eq_true_iff, habove, htie,
      hparity, hp, hp']
    refine or_congr ⟨fun h => by linarith, fun h => by linarith⟩
      (and_congr_left' ⟨fun h => by linarith, fun h => by linarith⟩)

end Sys2Proof.Machine
end

section
/-! PROOF. Rounding is to nearest, ties to even; what it means for words and their real values (R12). -/

namespace Sys2Proof.Machine

open Sys2Proof.Claims

/-! ### Nearest, ties to even -/

/-- No magnitude is nearer to `v` units than the one they round to, and that one is even where another is as near. -/
theorem RoundsTo.nearest {v : ℝ} {p : Nat} (h : RoundsTo v p) (hfin : p < infMagnitude) (r : Nat) :
    |unitsOfMagnitude p - v| ≤ |unitsOfMagnitude r - v| ∧
    (|unitsOfMagnitude p - v| = |unitsOfMagnitude r - v| → r ≠ p → p % 2 = 0) := by
  obtain ⟨-, hlo, hhi⟩ := h
  obtain ⟨hhi, htiehi⟩ := hhi hfin
  rcases lt_trichotomy r p with hr | rfl | hr
  · obtain ⟨o, rfl⟩ : ∃ o, p = o + 1 := ⟨p - 1, by omega⟩
    obtain ⟨hlo, htielo⟩ := hlo o rfl
    have hro := cast_units_le (p := r) (r := o) (by omega)
    have hrp := cast_units_lt hr
    have hnear : |unitsOfMagnitude (o + 1) - v| ≤ v - unitsOfMagnitude r := abs_le.mpr ⟨by linarith, by linarith⟩
    have hfar : |unitsOfMagnitude r - v| = v - unitsOfMagnitude r := by
      rw [abs_sub_comm, abs_of_nonneg (by linarith)]
    rw [hfar]
    refine ⟨hnear, fun heq _ => ?_⟩
    rcases abs_eq_abs.mp (heq.trans hfar.symm) with heq | heq
    · linarith
    · exact htielo (by linarith)
  · exact ⟨le_rfl, fun _ hne => absurd rfl hne⟩
  · have hpr := cast_units_le (p := p + 1) (r := r) hr
    have hrp := cast_units_lt hr
    have hnear : |unitsOfMagnitude p - v| ≤ unitsOfMagnitude r - v := abs_le.mpr ⟨by linarith, by linarith⟩
    have hfar : |unitsOfMagnitude r - v| = unitsOfMagnitude r - v := abs_of_nonneg (by linarith)
    rw [hfar]
    refine ⟨hnear, fun heq _ => ?_⟩
    rcases abs_eq_abs.mp (heq.trans hfar.symm) with heq | heq
    · linarith
    · exact htiehi (by linarith)

/-- The lower midpoint of infinity is half a unit in the last place beyond the largest finite value. -/
theorem overflow_midpoint :
    unitsOfMagnitude (infMagnitude - 1) + unitsOfMagnitude infMagnitude = 2 * ((2 ^ 54 - 1) * 2 ^ 2044) := by
  rw [unitsOfMagnitude_infMagnitude, unitsOfMagnitude_pred_infMagnitude, ← Nat.add_mul, ← Nat.mul_assoc,
    show 2 ^ 54 - 2 + 2 ^ 54 = 2 * (2 ^ 54 - 1) by decide]

/-- The result is infinite exactly from half a unit in the last place beyond the largest finite value. -/
theorem RoundsTo.eq_infMagnitude_iff {v : ℝ} {p : Nat} (h : RoundsTo v p) :
    p = infMagnitude ↔ (((2 ^ 54 - 1) * 2 ^ 2044 : Nat) : ℝ) ≤ v := by
  have hmid : (unitsOfMagnitude (infMagnitude - 1) + unitsOfMagnitude infMagnitude : ℝ) =
      2 * ((2 ^ 54 - 1) * 2 ^ 2044 : Nat) := by
    rw [← Nat.cast_add, overflow_midpoint, Nat.cast_mul 2, Nat.cast_two]
  obtain ⟨hp, hlo, hhi⟩ := h
  constructor
  · rintro rfl
    obtain ⟨hle, -⟩ := hlo (infMagnitude - 1) rfl
    linarith
  · intro hv
    by_contra hne
    have hfin : p < infMagnitude := lt_of_le_of_ne hp hne
    obtain ⟨hle, htie⟩ := hhi hfin
    rcases Nat.lt_or_ge p (infMagnitude - 1) with hlt | hge
    · have h1 := cast_units_lt hlt
      have h2 := cast_units_le (p := p + 1) (r := infMagnitude) hfin
      linarith
    · obtain rfl : p = infMagnitude - 1 := by omega
      have heven := htie (le_antisymm hle (by rw [show infMagnitude - 1 + 1 = infMagnitude by decide, hmid]; linarith))
      exact absurd heven (by decide)

/-! ### Rounded words -/

theorem realOf_sub_abs (p : Nat) (y : ℝ) :
    |realOf p - abs y| = |unitsOfMagnitude p - abs y * 2 ^ 1074| / 2 ^ 1074 := by
  have hunit : (0 : ℝ) < 2 ^ 1074 := by positivity
  have h : realOf p - abs y = (unitsOfMagnitude p - abs y * 2 ^ 1074) / 2 ^ 1074 := by
    rw [realOf, sub_div, mul_div_cancel_right₀ _ hunit.ne']
  rw [h, abs_div, abs_of_pos hunit]

/-- The overflow bound in units and in reals. -/
theorem cast_overflow_bound : (((2 ^ 54 - 1) * 2 ^ 2044 : Nat) : ℝ) = (2 ^ 54 - 1) * 2 ^ 970 * 2 ^ 1074 := by
  have hsig : ((2 ^ 54 - 1 : Nat) : ℝ) = 2 ^ 54 - 1 := by norm_num
  rw [Nat.cast_mul, hsig, Nat.cast_pow, Nat.cast_ofNat, mul_assoc, ← pow_add]

/-- The word with the sign of `y` and the magnitude its units round to is `y` rounded. -/
theorem rounded_ofMagnitude {neg : Bool} {p : Nat} {y : ℝ} (h : RoundsTo (abs y * 2 ^ 1074) p)
    (hneg : neg = true → y ≤ 0) (hpos : neg = false → 0 ≤ y) : Rounded (ofMagnitude neg p) y := by
  have hunit : (0 : ℝ) < 2 ^ 1074 := by positivity
  rw [Rounded, magnitude_ofMagnitude neg h.lt_two_pow, signBit_ofMagnitude neg h.lt_two_pow]
  refine ⟨h.le_infMagnitude, hneg, hpos, ?_, fun hfin r _ => ?_⟩
  · rw [h.eq_infMagnitude_iff, cast_overflow_bound, mul_le_mul_iff_left₀ hunit]
  · obtain ⟨hle, htie⟩ := h.nearest hfin r
    rw [realOf_sub_abs, realOf_sub_abs]
    exact ⟨div_le_div_of_nonneg_right hle hunit.le, fun heq => htie ((div_left_inj' hunit.ne').mp heq)⟩

/-- A number of units with a sign, as a real. -/
theorem abs_signedUnits (neg : Bool) (k : Nat) : |(signedUnits neg k : ℝ)| = k := by
  cases neg <;> simp [signedUnits]

/-- The real value of a finite word. -/
theorem realWord_of_unpack {w : Word} {neg : Bool} {k : Nat} (h : unpack w = .fin neg k) :
    realWord w = (signedUnits neg k : ℝ) / 2 ^ 1074 := by
  obtain ⟨-, rfl, rfl⟩ := unpack_eq_fin_iff.mp h
  cases hs : signBit w <;> simp [realWord, realOf, signedUnits, hs, neg_div]

theorem realOf_nonneg (p : Nat) : 0 ≤ realOf p := by
  rw [realOf]
  positivity

theorem realWord_nonneg {w : Word} (h : signBit w = false) : 0 ≤ realWord w := by
  rw [realWord, if_neg (by rw [h]; decide)]
  exact realOf_nonneg _

theorem realWord_nonpos {w : Word} (h : signBit w = true) : realWord w ≤ 0 := by
  rw [realWord, if_pos h]
  exact neg_nonpos.mpr (realOf_nonneg _)

theorem realWord_eq_zero_iff {w : Word} {neg : Bool} {k : Nat} (h : unpack w = .fin neg k) :
    realWord w = 0 ↔ k = 0 := by
  rw [realWord_of_unpack h, div_eq_zero_iff, or_iff_left (by positivity)]
  cases neg <;> simp [signedUnits]

@[simp] theorem realWord_fneg (w : Word) : realWord (fneg w) = -realWord w := by
  rw [realWord, realWord, signBit_fneg, magnitude_fneg]
  cases signBit w <;> simp

theorem signedUnits_le_zero (k : Nat) : (signedUnits true k : ℝ) ≤ 0 := by simp [signedUnits]

theorem signedUnits_nonneg (k : Nat) : 0 ≤ (signedUnits false k : ℝ) := by simp [signedUnits]

theorem signedUnits_mul (s t : Bool) (j k : Nat) :
    signedUnits s j * signedUnits t k = signedUnits (s ^^ t) (j * k) := by
  cases s <;> cases t <;> simp [signedUnits]

/-- An integer is its sign and its absolute value. -/
theorem signedUnits_natAbs (x : Int) : signedUnits (decide (x < 0)) x.natAbs = x := by
  rw [signedUnits]
  split <;> (rename_i h; rw [decide_eq_true_iff] at h; omega)

/-- A signed rational number of units, rounded by `roundUnits`. -/
theorem rounded_roundUnits {neg : Bool} {num den : Nat} {y : ℝ} (hden : 0 < den)
    (hy : y * 2 ^ 1074 = signedUnits neg num / den) : Rounded (ofMagnitude neg (roundUnits num den)) y := by
  have hunit : (0 : ℝ) < 2 ^ 1074 := by positivity
  have hdenR : (0 : ℝ) < den := by exact_mod_cast hden
  have hval : y = signedUnits neg num / den / 2 ^ 1074 := by rw [← hy, mul_div_cancel_right₀ _ hunit.ne']
  refine rounded_ofMagnitude ?_ ?_ ?_
  · have habs : abs y * 2 ^ 1074 = num / den :=
      calc abs y * 2 ^ 1074 = abs (y * 2 ^ 1074) := by rw [abs_mul, abs_of_pos hunit]
        _ = num / den := by rw [hy, abs_div, abs_signedUnits, abs_of_pos hdenR]
    exact habs ▸ roundsTo_roundUnits num hden
  · rintro rfl
    rw [hval, div_div]
    exact div_nonpos_of_nonpos_of_nonneg (signedUnits_le_zero num) (by positivity)
  · rintro rfl
    rw [hval, div_div]
    exact div_nonneg (signedUnits_nonneg num) (by positivity)

/-- Both zeros are the rounded 0. -/
theorem rounded_signedZero (neg : Bool) : Rounded (signedZero neg) 0 := by
  refine rounded_ofMagnitude ?_ (fun _ => le_rfl) (fun _ => le_rfl)
  have h := roundsTo_units (p := 0) (by decide)
  rwa [unitsOfMagnitude_zero, Nat.cast_zero, ← zero_mul ((2 : ℝ) ^ 1074), ← abs_zero] at h

end Sys2Proof.Machine
end

section
/-! PROOF. The exact square root, rounded once (R12). -/

namespace Sys2Proof.Machine

open Sys2Proof.Claims

/-! ### The integer square root -/

theorem isqrtBits_spec (v b r : Nat) (hlo : r * r ≤ v) (hhi : v < (r + 2 ^ b) * (r + 2 ^ b)) :
    isqrtBits v b r * isqrtBits v b r ≤ v ∧ v < (isqrtBits v b r + 1) * (isqrtBits v b r + 1) := by
  induction b generalizing r with
  | zero => exact ⟨hlo, hhi⟩
  | succ b ih =>
    rw [isqrtBits]
    split
    case isTrue hbit =>
      exact ih _ hbit (by rwa [Nat.pow_succ, Nat.mul_two, ← Nat.add_assoc] at hhi)
    case isFalse hbit => exact ih r hlo (not_le.mp hbit)

/-- `isqrt` is the square root rounded down. -/
theorem isqrt_spec (v : Nat) : isqrt v * isqrt v ≤ v ∧ v < (isqrt v + 1) * (isqrt v + 1) := by
  refine isqrtBits_spec v _ 0 (Nat.zero_le v) ?_
  rw [Nat.zero_add, ← pow_add]
  exact Nat.lt_log2_self.trans_le (Nat.pow_le_pow_right (by decide) (by omega))

/-! ### No midpoint within a cell of the root's leading bits -/

/-- A midpoint, doubled, is a multiple of `2^(h+1)` or below `2^54` units of `2^h`, so none lies strictly within a cell
of `2^h` units that far up. -/
theorem midpoint_outside_cell {r : Nat} (h o : Nat) (hr : 2 ^ 53 ≤ r) :
    unitsOfMagnitude o + unitsOfMagnitude (o + 1) ≤ 2 * (r * 2 ^ h) ∨
    2 * ((r + 1) * 2 ^ h) ≤ unitsOfMagnitude o + unitsOfMagnitude (o + 1) := by
  obtain ⟨q, m, hm, ho, ho'⟩ := exists_unitsOfMagnitude_succ o
  have hsum : unitsOfMagnitude o + unitsOfMagnitude (o + 1) = (2 * m + 1) * 2 ^ q := by rw [ho, ho']; ring
  rw [hsum]
  rcases Nat.lt_or_ge h q with hq | hq
  · obtain ⟨d, rfl⟩ : ∃ d, q = d + 1 + h := ⟨q - 1 - h, by omega⟩
    have hshift : (2 * m + 1) * 2 ^ (d + 1 + h) = 2 * ((2 * m + 1) * 2 ^ d * 2 ^ h) := by ring
    rw [hshift]
    rcases Nat.lt_or_ge r ((2 * m + 1) * 2 ^ d) with hc | hc
    · exact .inr (Nat.mul_le_mul_left 2 (Nat.mul_le_mul_right _ hc))
    · exact .inl (Nat.mul_le_mul_left 2 (Nat.mul_le_mul_right _ hc))
  · left
    calc (2 * m + 1) * 2 ^ q ≤ 2 * r * 2 ^ h :=
          Nat.mul_le_mul (by omega) (Nat.pow_le_pow_right (by decide) hq)
      _ = 2 * (r * 2 ^ h) := by ring

/-- The reals strictly within a cell of the root's leading bits round alike. -/
theorem RoundsTo.of_same_cell {r h p : Nat} {x v : ℝ} (hr : 2 ^ 53 ≤ r) (hp : RoundsTo x p)
    (hx : (r : ℝ) * 2 ^ h < x ∧ x < (r + 1) * 2 ^ h) (hv : (r : ℝ) * 2 ^ h < v ∧ v < (r + 1) * 2 ^ h) :
    RoundsTo v p := by
  have hcell : ∀ o, (unitsOfMagnitude o + unitsOfMagnitude (o + 1) : ℝ) ≤ 2 * (r * 2 ^ h) ∨
      2 * ((r + 1) * 2 ^ h) ≤ (unitsOfMagnitude o + unitsOfMagnitude (o + 1) : ℝ) :=
    fun o => by exact_mod_cast midpoint_outside_cell h o hr
  obtain ⟨hle, hlo, hhi⟩ := hp
  refine ⟨hle, ?_, fun hfin => ?_⟩
  · rintro o rfl
    obtain ⟨hlo, -⟩ := hlo o rfl
    rcases hcell o with hc | hc
    · exact ⟨by linarith, fun he => by linarith⟩
    · linarith
  · obtain ⟨hhi, -⟩ := hhi hfin
    rcases hcell p with hc | hc
    · linarith
    · exact ⟨by linarith, fun he => by linarith⟩

/-! ### sqrtMagnitude -/

/-- The leading bits of the square root: at least 64 of them. -/
theorem leading_root_bounds {v : Nat} (hv : 2 ^ 126 ≤ v) :
    2 ^ 53 ≤ isqrt (v / 2 ^ (2 * ((v.log2 - 126) / 2))) := by
  have hlog : 126 ≤ v.log2 := (Nat.le_log2 (by positivity)).mpr hv
  have hlow : 2 ^ v.log2 ≤ v := Nat.log2_self_le (by positivity)
  obtain ⟨-, hroot⟩ := isqrt_spec (v / 2 ^ (2 * ((v.log2 - 126) / 2)))
  have hw : 2 ^ 126 ≤ v / 2 ^ (2 * ((v.log2 - 126) / 2)) := by
    rw [Nat.le_div_iff_mul_le (Nat.two_pow_pos _), ← pow_add]
    exact (Nat.pow_le_pow_right (by decide) (by omega)).trans hlow
  by_contra hsmall
  have hsq : (isqrt (v / 2 ^ (2 * ((v.log2 - 126) / 2))) + 1) * (isqrt (v / 2 ^ (2 * ((v.log2 - 126) / 2))) + 1) ≤
      2 ^ 53 * 2 ^ 53 := Nat.mul_le_mul (by omega) (by omega)
  have hpow : 2 ^ 53 * 2 ^ 53 < 2 ^ 126 := by decide
  omega

/-- The leading bits `r` of a root, with a last bit that marks a rest, round as the root does. -/
theorem roundsTo_sticky {v r h : Nat} (hbits : 2 ^ 53 ≤ r) (hlo : r * r * 2 ^ (2 * h) ≤ v)
    (hhi : v < (r + 1) * (r + 1) * 2 ^ (2 * h)) :
    RoundsTo √(v : ℝ) (roundUnits ((2 * r + if r * r * 2 ^ (2 * h) = v then 0 else 1) * 2 ^ h) 2) := by
  have hrounds := roundsTo_roundUnits ((2 * r + if r * r * 2 ^ (2 * h) = v then 0 else 1) * 2 ^ h) Nat.two_pos
  have hsq : ∀ n : Nat, ((n : ℝ) * 2 ^ h) ^ 2 = (n * n * 2 ^ (2 * h) : Nat) := by
    intro n
    push_cast
    ring
  split at hrounds
  case isTrue heq =>
    have hroot : √(v : ℝ) = r * 2 ^ h := by
      rw [Real.sqrt_eq_iff_eq_sq (by positivity) (by positivity), hsq, heq]
    have hvalue : ((((2 * r + 0) * 2 ^ h : Nat) : ℝ) / (2 : Nat)) = r * 2 ^ h := by push_cast; ring
    rw [if_pos heq, hroot]
    rwa [hvalue] at hrounds
  case isFalse hne =>
    have hbelow : (r : ℝ) * 2 ^ h < √(v : ℝ) := by
      apply Real.lt_sqrt_of_sq_lt
      rw [hsq]
      exact_mod_cast lt_of_le_of_ne hlo hne
    have habove : √(v : ℝ) < (r + 1) * 2 ^ h := by
      rw [Real.sqrt_lt' (by positivity), ← Nat.cast_succ, hsq]
      exact_mod_cast hhi
    have hmiddle : ((((2 * r + 1) * 2 ^ h : Nat) : ℝ) / (2 : Nat)) = r * 2 ^ h + 2 ^ h / 2 := by push_cast; ring
    have hcell : (0 : ℝ) < 2 ^ h := by positivity
    rw [if_neg hne]
    rw [hmiddle] at hrounds
    exact hrounds.of_same_cell hbits ⟨by linarith, by linarith⟩ ⟨hbelow, habove⟩

/-- `sqrtMagnitude k` is the magnitude that the square root of `k` reals of 2^-1074, in these units, rounds to. -/
theorem roundsTo_sqrtMagnitude {k : Nat} (hk : 0 < k) :
    RoundsTo √((k * 2 ^ 1074 : Nat) : ℝ) (sqrtMagnitude k) := by
  have hlarge : 2 ^ 126 ≤ k * 2 ^ 1074 :=
    le_mul_of_one_le_of_le hk (pow_le_pow_right₀ one_le_two (by decide))
  obtain ⟨hlo, hhi⟩ := isqrt_spec (k * 2 ^ 1074 / 2 ^ (2 * (((k * 2 ^ 1074).log2 - 126) / 2)))
  rw [Nat.div_lt_iff_lt_mul (Nat.two_pow_pos _)] at hhi
  rw [Nat.le_div_iff_mul_le (Nat.two_pow_pos _)] at hlo
  exact roundsTo_sticky (leading_root_bounds hlarge) hlo hhi

end Sys2Proof.Machine
end

section
/-! PROOF. The five operations on words: the exact result, rounded once, with the IEEE signs (R12, R14). -/

namespace Sys2Proof.Machine

open Sys2Proof.Claims

/-! ### Answers -/

theorem answers_pure (w : Word) : Answers (pure w) w := fun _ => rfl

theorem answersRounded_pure {w : Word} {y : ℝ} (h : Rounded w y) : AnswersRounded (pure w) y := fun _ => ⟨h, rfl⟩

/-- Every drawn value is a NaN (R14). -/
theorem answersNan_drawNan : AnswersNan drawNan := fun d => by
  have hlt : 0x7FF8000000000000 + (Config.nanDraw d.nan).2.toNat < 2 ^ 63 := by
    have := (Config.nanDraw d.nan).2.isLt
    omega
  change isNan (quietNan (Config.nanDraw d.nan)) = true
  rw [isNan_eq_true_iff, quietNan, magnitude_ofMagnitude _ hlt, infMagnitude]
  omega

/-! ### Signs -/

theorem signedZero_eq (neg : Bool) : signedZero neg = if neg then 0x8000000000000000 else 0 := by cases neg <;> rfl

theorem infinity_eq (neg : Bool) : infinity neg = if neg then 0xFFF0000000000000 else 0x7FF0000000000000 := by
  cases neg <;> rfl

theorem infinity_signBit {w : Word} (h : magnitude w = infMagnitude) : infinity (signBit w) = w := by
  rw [infinity, ← h, ofMagnitude_signBit_magnitude]

theorem infinity_not_signBit {w : Word} (h : magnitude w = infMagnitude) : infinity (!signBit w) = fneg w := by
  rw [← signBit_fneg, infinity_signBit (by rwa [magnitude_fneg])]

theorem infinity_xor {w : Word} (h : magnitude w = infMagnitude) (neg : Bool) :
    infinity (signBit w ^^ neg) = if neg then fneg w else w := by
  cases neg
  · rw [Bool.xor_false, infinity_signBit h, if_neg (by decide)]
  · rw [Bool.xor_true, infinity_not_signBit h, if_pos rfl]

theorem signedZero_signBit {w : Word} (h : magnitude w = 0) : signedZero (signBit w) = w := by
  rw [signedZero, ← h, ofMagnitude_signBit_magnitude]

theorem signedUnits_mul_natCast (s : Bool) (j n : Nat) : (signedUnits s (j * n) : ℝ) = signedUnits s j * n := by
  cases s <;> simp [signedUnits]

theorem signedUnits_div (s t : Bool) (j k : Nat) :
    (signedUnits s j : ℝ) / signedUnits t k = signedUnits (s ^^ t) j / k := by
  cases s <;> cases t <;> simp [signedUnits, neg_div, div_neg]

/-! ### What each operation is, by the kinds of its operands -/

section
variable {a b : Word} {s t : Bool} {j k : Nat}

theorem fadd_fin_fin (ha : unpack a = .fin s j) (hb : unpack b = .fin t k) :
    fadd a b = if signedUnits s j + signedUnits t k = 0 then pure (signedZero (s && t)) else
      pure (ofMagnitude (decide (signedUnits s j + signedUnits t k < 0))
        (roundUnits (signedUnits s j + signedUnits t k).natAbs 1)) := by
  rw [fadd, ha, hb]

theorem fadd_inf_fin (ha : unpack a = .inf s) (hb : unpack b = .fin t k) : fadd a b = pure (infinity s) := by
  rw [fadd, ha, hb]

theorem fadd_fin_inf (ha : unpack a = .fin s j) (hb : unpack b = .inf t) : fadd a b = pure (infinity t) := by
  rw [fadd, ha, hb]

theorem fadd_inf_inf (ha : unpack a = .inf s) (hb : unpack b = .inf t) :
    fadd a b = if s = t then pure (infinity s) else drawNan := by
  rw [fadd, ha, hb]

theorem fmul_fin_fin (ha : unpack a = .fin s j) (hb : unpack b = .fin t k) :
    fmul a b = pure (ofMagnitude (s ^^ t) (roundUnits (j * k) (2 ^ 1074))) := by
  rw [fmul, ha, hb]

theorem fmul_inf_fin (ha : unpack a = .inf s) (hb : unpack b = .fin t k) :
    fmul a b = if k = 0 then drawNan else pure (infinity (s ^^ t)) := by
  rw [fmul, ha, hb]

theorem fmul_fin_inf (ha : unpack a = .fin s j) (hb : unpack b = .inf t) :
    fmul a b = if j = 0 then drawNan else pure (infinity (s ^^ t)) := by
  rw [fmul, ha, hb]

theorem fmul_inf_inf (ha : unpack a = .inf s) (hb : unpack b = .inf t) : fmul a b = pure (infinity (s ^^ t)) := by
  rw [fmul, ha, hb]

theorem fdiv_fin_fin (ha : unpack a = .fin s j) (hb : unpack b = .fin t k) :
    fdiv a b = if k = 0 then (if j = 0 then drawNan else pure (infinity (s ^^ t)))
      else pure (ofMagnitude (s ^^ t) (roundUnits (j * 2 ^ 1074) k)) := by
  rw [fdiv, ha, hb]

theorem fdiv_inf_fin (ha : unpack a = .inf s) (hb : unpack b = .fin t k) : fdiv a b = pure (infinity (s ^^ t)) := by
  rw [fdiv, ha, hb]

theorem fdiv_fin_inf (ha : unpack a = .fin s j) (hb : unpack b = .inf t) : fdiv a b = pure (signedZero (s ^^ t)) := by
  rw [fdiv, ha, hb]

theorem fdiv_inf_inf (ha : unpack a = .inf s) (hb : unpack b = .inf t) : fdiv a b = drawNan := by
  rw [fdiv, ha, hb]

theorem fsqrt_fin (ha : unpack a = .fin s k) :
    fsqrt a = if k = 0 then pure (signedZero s) else if s then drawNan
      else pure (ofMagnitude false (sqrtMagnitude k)) := by
  rw [fsqrt, ha]

theorem fsqrt_inf (ha : unpack a = .inf s) : fsqrt a = if s then drawNan else pure (infinity false) := by
  rw [fsqrt, ha]
  cases s <;> rfl

/-- A binary operation with a NaN operand draws a NaN. -/
theorem fadd_fmul_fdiv_of_nan (h : isNan a = true ∨ isNan b = true) :
    fadd a b = drawNan ∧ fmul a b = drawNan ∧ fdiv a b = drawNan := by
  rcases h with h | h
  · rw [fadd, fmul, fdiv, unpack_of_nan h]
    exact ⟨rfl, rfl, rfl⟩
  · rw [fadd, fmul, fdiv, unpack_of_nan h]
    cases unpack a <;> exact ⟨rfl, rfl, rfl⟩

theorem fsqrt_nan (h : isNan a = true) : fsqrt a = drawNan := by rw [fsqrt, unpack_of_nan h]

end


/-! ### Finite operands: the exact result, rounded once -/

section
variable {a b : Word} (ha : magnitude a < infMagnitude) (hb : magnitude b < infMagnitude)
include ha

/-- A finite word in units. -/
theorem realWord_mul_unit : realWord a * 2 ^ 1074 = signedUnits (signBit a) (unitsOfMagnitude (magnitude a)) := by
  rw [realWord_of_unpack (unpack_of_finite ha), div_mul_cancel₀ _ (by positivity)]

theorem realWord_eq_zero : realWord a = 0 ↔ magnitude a = 0 := by
  rw [realWord_eq_zero_iff (unpack_of_finite ha), unitsOfMagnitude_eq_zero]

/-- The square root of a value in units. -/
theorem sqrt_mul_unit (hpos : signBit a = false) :
    √(realWord a) * 2 ^ 1074 = √((unitsOfMagnitude (magnitude a) * 2 ^ 1074 : Nat) : ℝ) := by
  have hval : (unitsOfMagnitude (magnitude a) : ℝ) = realWord a * 2 ^ 1074 := by
    rw [realWord_mul_unit ha, hpos]
    rfl
  rw [Nat.cast_mul, Nat.cast_pow, Nat.cast_ofNat, hval, mul_assoc, Real.sqrt_mul (realWord_nonneg hpos),
    Real.sqrt_mul_self (by positivity)]

theorem fsqrt_of_zero (h : realWord a = 0) : Answers (fsqrt a) a := by
  have hm := (realWord_eq_zero ha).mp h
  rw [fsqrt_fin (unpack_of_finite ha), hm, unitsOfMagnitude_zero, if_pos rfl, signedZero_signBit hm]
  exact answers_pure a

theorem fsqrt_of_negative (h : realWord a < 0) : AnswersNan (fsqrt a) := by
  have hk := mt (realWord_eq_zero_iff (unpack_of_finite ha)).mpr h.ne
  have hs : signBit a = true := by
    by_contra hs
    rw [Bool.not_eq_true] at hs
    exact absurd h (not_lt.mpr (realWord_nonneg hs))
  rw [fsqrt_fin (unpack_of_finite ha), if_neg hk, if_pos hs]
  exact answersNan_drawNan

theorem fsqrt_rounded (h : 0 ≤ realWord a) : AnswersRounded (fsqrt a) √(realWord a) := by
  rw [fsqrt_fin (unpack_of_finite ha)]
  split
  case isTrue hk =>
    rw [(realWord_eq_zero_iff (unpack_of_finite ha)).mpr hk, Real.sqrt_zero]
    exact answersRounded_pure (rounded_signedZero _)
  case isFalse hk =>
    have hs : signBit a = false := by
      by_contra hs
      rw [Bool.not_eq_false] at hs
      exact hk ((realWord_eq_zero_iff (unpack_of_finite ha)).mp (le_antisymm (realWord_nonpos hs) h))
    rw [hs, if_neg (by decide)]
    refine answersRounded_pure (rounded_ofMagnitude ?_ (fun h => Bool.noConfusion h) fun _ => Real.sqrt_nonneg _)
    rw [abs_of_nonneg (Real.sqrt_nonneg _), sqrt_mul_unit ha hs]
    exact roundsTo_sqrtMagnitude (Nat.pos_of_ne_zero hk)

include hb

theorem fadd_of_zero_sum (h : realWord a + realWord b = 0) :
    Answers (fadd a b) (if signBit a && signBit b then 0x8000000000000000 else 0) := by
  have hx : signedUnits (signBit a) (unitsOfMagnitude (magnitude a)) +
      signedUnits (signBit b) (unitsOfMagnitude (magnitude b)) = 0 := by
    rw [← Int.cast_inj (α := ℝ), Int.cast_add, ← realWord_mul_unit ha, ← realWord_mul_unit hb, ← add_mul, h, zero_mul,
      Int.cast_zero]
  rw [fadd_fin_fin (unpack_of_finite ha) (unpack_of_finite hb), if_pos hx, ← signedZero_eq]
  exact answers_pure _

theorem fadd_rounded : AnswersRounded (fadd a b) (realWord a + realWord b) := by
  have hsum : (realWord a + realWord b) * 2 ^ 1074 =
      ((signedUnits (signBit a) (unitsOfMagnitude (magnitude a)) +
        signedUnits (signBit b) (unitsOfMagnitude (magnitude b)) : Int) : ℝ) := by
    rw [add_mul, realWord_mul_unit ha, realWord_mul_unit hb, Int.cast_add]
  rw [fadd_fin_fin (unpack_of_finite ha) (unpack_of_finite hb)]
  generalize signedUnits (signBit a) (unitsOfMagnitude (magnitude a)) +
    signedUnits (signBit b) (unitsOfMagnitude (magnitude b)) = x at hsum ⊢
  split
  case isTrue hx =>
    rw [hx, Int.cast_zero, mul_eq_zero, or_iff_left (by positivity)] at hsum
    rw [hsum]
    exact answersRounded_pure (rounded_signedZero _)
  case isFalse hx =>
    refine answersRounded_pure (rounded_roundUnits Nat.one_pos ?_)
    rw [hsum, signedUnits_natAbs, Nat.cast_one, div_one]

theorem fmul_rounded : AnswersRounded (fmul a b) (realWord a * realWord b) := by
  rw [fmul_fin_fin (unpack_of_finite ha) (unpack_of_finite hb)]
  refine answersRounded_pure (rounded_roundUnits (by positivity) ?_)
  rw [← signedUnits_mul, Int.cast_mul, ← realWord_mul_unit ha, ← realWord_mul_unit hb, Nat.cast_pow, Nat.cast_ofNat,
    ← mul_assoc, mul_div_cancel_right₀ _ (by positivity), mul_right_comm]

theorem signBit_fmul (d : Draws) : signBit ((fmul a b).run d).1 = (signBit a ^^ signBit b) := by
  rw [fmul_fin_fin (unpack_of_finite ha) (unpack_of_finite hb)]
  exact signBit_ofMagnitude _ (roundsTo_roundUnits _ (by positivity)).lt_two_pow

theorem fdiv_fin_nonzero (h : realWord b ≠ 0) :
    0 < unitsOfMagnitude (magnitude b) ∧
    fdiv a b = pure (ofMagnitude (signBit a ^^ signBit b)
      (roundUnits (unitsOfMagnitude (magnitude a) * 2 ^ 1074) (unitsOfMagnitude (magnitude b)))) := by
  have hk := mt (realWord_eq_zero_iff (unpack_of_finite hb)).mpr h
  exact ⟨Nat.pos_of_ne_zero hk, by rw [fdiv_fin_fin (unpack_of_finite ha) (unpack_of_finite hb), if_neg hk]⟩

theorem fdiv_rounded (h : realWord b ≠ 0) : AnswersRounded (fdiv a b) (realWord a / realWord b) := by
  obtain ⟨hk, hdiv⟩ := fdiv_fin_nonzero ha hb h
  rw [hdiv]
  refine answersRounded_pure (rounded_roundUnits hk ?_)
  rw [← mul_div_mul_right (realWord a) (realWord b) (show (2 : ℝ) ^ 1074 ≠ 0 by positivity), realWord_mul_unit ha,
    realWord_mul_unit hb, signedUnits_div, signedUnits_mul_natCast, Nat.cast_pow, Nat.cast_ofNat, div_mul_eq_mul_div]

theorem signBit_fdiv (h : realWord b ≠ 0) (d : Draws) :
    signBit ((fdiv a b).run d).1 = (signBit a ^^ signBit b) := by
  obtain ⟨hk, hdiv⟩ := fdiv_fin_nonzero ha hb h
  rw [hdiv]
  exact signBit_ofMagnitude _ (roundsTo_roundUnits _ hk).lt_two_pow

theorem fdiv_by_zero (h : realWord b = 0) :
    fdiv a b = if unitsOfMagnitude (magnitude a) = 0 then drawNan else pure (infinity (signBit a ^^ signBit b)) := by
  rw [fdiv_fin_fin (unpack_of_finite ha) (unpack_of_finite hb),
    if_pos ((realWord_eq_zero_iff (unpack_of_finite hb)).mp h)]

theorem fdiv_nonzero_by_zero (hb0 : realWord b = 0) (ha0 : realWord a ≠ 0) :
    Answers (fdiv a b) (if signBit a ^^ signBit b then 0xFFF0000000000000 else 0x7FF0000000000000) := by
  rw [fdiv_by_zero ha hb hb0, if_neg (mt (realWord_eq_zero_iff (unpack_of_finite ha)).mpr ha0), ← infinity_eq]
  exact answers_pure _

theorem fdiv_zero_by_zero (hb0 : realWord b = 0) (ha0 : realWord a = 0) : AnswersNan (fdiv a b) := by
  rw [fdiv_by_zero ha hb hb0, if_pos ((realWord_eq_zero_iff (unpack_of_finite ha)).mp ha0)]
  exact answersNan_drawNan

end

end Sys2Proof.Machine
end

section
/-! PROOF. Infinite operands, the order of the extended reals, conversion, and the whole of O53 (R12 to R14). -/

namespace Sys2Proof.Machine

open Sys2Proof.Claims

/-! ### Infinite operands -/

section
variable {a b : Word} (ha : magnitude a = infMagnitude)
include ha

/-- A sum or a difference of an infinity and a finite word. -/
theorem fadd_fsub_inf_finite (hb : magnitude b < infMagnitude) :
    Answers (fadd a b) a ∧ Answers (fadd b a) a ∧ Answers (fsub a b) a ∧ Answers (fsub b a) (fneg a) := by
  have ua := unpack_of_infinite ha
  have ub := unpack_of_finite hb
  have ua' := unpack_of_infinite (w := fneg a) (by rwa [magnitude_fneg])
  have ub' := unpack_of_finite (w := fneg b) (by rwa [magnitude_fneg])
  rw [signBit_fneg] at ua'
  rw [fsub, fsub, fadd_inf_fin ua ub, fadd_fin_inf ub ua, fadd_inf_fin ua ub', fadd_fin_inf ub ua', infinity_signBit ha,
    infinity_not_signBit ha]
  exact ⟨answers_pure _, answers_pure _, answers_pure _, answers_pure _⟩

theorem fmul_inf_zero (hb : magnitude b < infMagnitude) (h : realWord b = 0) :
    AnswersNan (fmul a b) ∧ AnswersNan (fmul b a) := by
  have hk := (realWord_eq_zero_iff (unpack_of_finite hb)).mp h
  have ua := unpack_of_infinite ha
  have ub := unpack_of_finite hb
  rw [fmul_inf_fin ua ub, fmul_fin_inf ub ua, if_pos hk, if_pos hk]
  exact ⟨answersNan_drawNan, answersNan_drawNan⟩

theorem fmul_inf_nonzero (hb : magnitude b < infMagnitude) (h : realWord b ≠ 0) :
    Answers (fmul a b) (if signBit b then fneg a else a) ∧ Answers (fmul b a) (if signBit b then fneg a else a) := by
  have hk := mt (realWord_eq_zero_iff (unpack_of_finite hb)).mpr h
  have ua := unpack_of_infinite ha
  have ub := unpack_of_finite hb
  rw [fmul_inf_fin ua ub, fmul_fin_inf ub ua, if_neg hk, if_neg hk, Bool.xor_comm (signBit b), infinity_xor ha]
  exact ⟨answers_pure _, answers_pure _⟩

/-- The quotients of an infinity and a finite word. -/
theorem fdiv_inf_finite (hb : magnitude b < infMagnitude) :
    Answers (fdiv a b) (if signBit b then fneg a else a) ∧
    Answers (fdiv b a) (if signBit a ^^ signBit b then 0x8000000000000000 else 0) := by
  have ua := unpack_of_infinite ha
  have ub := unpack_of_finite hb
  rw [fdiv_inf_fin ua ub, fdiv_fin_inf ub ua, infinity_xor ha, Bool.xor_comm (signBit b), signedZero_eq]
  exact ⟨answers_pure _, answers_pure _⟩

variable (hb : magnitude b = infMagnitude)
include hb

theorem fadd_fsub_inf_same (h : signBit a = signBit b) : Answers (fadd a b) a ∧ AnswersNan (fsub a b) := by
  have ub' := unpack_of_infinite (w := fneg b) (by rwa [magnitude_fneg])
  rw [fsub, fadd_inf_inf (unpack_of_infinite ha) (unpack_of_infinite hb), fadd_inf_inf (unpack_of_infinite ha) ub',
    if_pos h, if_neg (by rw [signBit_fneg, h]; exact (Bool.not_ne_self _).symm), infinity_signBit ha]
  exact ⟨answers_pure _, answersNan_drawNan⟩

theorem fadd_fsub_inf_opposite (h : signBit a ≠ signBit b) : AnswersNan (fadd a b) ∧ Answers (fsub a b) a := by
  have ub' := unpack_of_infinite (w := fneg b) (by rwa [magnitude_fneg])
  rw [fsub, fadd_inf_inf (unpack_of_infinite ha) (unpack_of_infinite hb), fadd_inf_inf (unpack_of_infinite ha) ub',
    if_neg h, if_pos (by rw [signBit_fneg]; exact Bool.eq_not.mpr h), infinity_signBit ha]
  exact ⟨answersNan_drawNan, answers_pure _⟩

theorem fmul_fdiv_inf_inf : Answers (fmul a b) (if signBit b then fneg a else a) ∧ AnswersNan (fdiv a b) := by
  have ua := unpack_of_infinite ha
  have ub := unpack_of_infinite hb
  rw [fmul_inf_inf ua ub, fdiv_inf_inf ua ub, infinity_xor ha]
  exact ⟨answers_pure _, answersNan_drawNan⟩

end

/-! ### The difference -/

theorem fsub_of_zero_difference {a b : Word} (ha : magnitude a < infMagnitude) (hb : magnitude b < infMagnitude)
    (h : realWord a - realWord b = 0) :
    Answers (fsub a b) (if signBit a && !signBit b then 0x8000000000000000 else 0) := by
  rw [fsub, ← signBit_fneg]
  exact fadd_of_zero_sum ha (by rwa [magnitude_fneg]) (by rwa [realWord_fneg, ← sub_eq_add_neg])

theorem fsub_rounded {a b : Word} (ha : magnitude a < infMagnitude) (hb : magnitude b < infMagnitude) :
    AnswersRounded (fsub a b) (realWord a - realWord b) := by
  rw [fsub, sub_eq_add_neg, ← realWord_fneg]
  exact fadd_rounded ha (by rwa [magnitude_fneg])

/-! ### The order -/

/-- The value in units of a place in the order of words. -/
def unitsOfKey (z : Int) : Int := if z < 0 then -(unitsOfMagnitude z.natAbs : Int) else unitsOfMagnitude z.natAbs

theorem unitsOfKey_strictMono : StrictMono unitsOfKey := by
  intro y z hyz
  unfold unitsOfKey
  split
  case isTrue hy =>
    split
    case isTrue hz =>
      have := unitsOfMagnitude_strictMono (show z.natAbs < y.natAbs by omega)
      omega
    case isFalse hz =>
      have := unitsOfMagnitude_strictMono (show 0 < y.natAbs by omega)
      omega
  case isFalse hy =>
    rw [if_neg (by omega)]
    exact_mod_cast unitsOfMagnitude_strictMono (show y.natAbs < z.natAbs by omega)

theorem natAbs_orderKey (w : Word) : (orderKey w).natAbs = magnitude w := by
  cases h : signBit w <;> simp [orderKey, signedUnits, h]

theorem realWord_eq_unitsOfKey (w : Word) : realWord w = unitsOfKey (orderKey w) / 2 ^ 1074 := by
  have hkey : unitsOfKey (orderKey w) = signedUnits (signBit w) (unitsOfMagnitude (magnitude w)) := by
    rw [unitsOfKey, natAbs_orderKey]
    rcases Nat.eq_zero_or_pos (magnitude w) with h0 | hpos
    · simp [orderKey, signedUnits, h0]
    · cases hs : signBit w
      · rw [if_neg (by simp [orderKey, signedUnits, hs])]
        rfl
      · rw [if_pos (by simpa [orderKey, signedUnits, hs] using hpos)]
        rfl
  rw [hkey, realWord, realOf]
  cases signBit w <;> simp [signedUnits, neg_div]

/-- The extended real of a word that is no NaN, by its place in the order. -/
theorem extendedWord_cases {w : Word} (h : isNan w = false) :
    (orderKey w = -infMagnitude ∧ extendedWord w = ⊥) ∨
    (orderKey w = infMagnitude ∧ extendedWord w = ⊤) ∨
    (-(infMagnitude : Int) < orderKey w ∧ orderKey w < infMagnitude ∧ extendedWord w = (realWord w : ℝ)) := by
  rw [isNan_eq_false_iff] at h
  rw [extendedWord]
  rcases lt_or_eq_of_le h with hlt | heq
  · have := natAbs_orderKey w
    exact .inr (.inr ⟨by omega, by omega, if_pos hlt⟩)
  · rw [heq, if_neg (lt_irrefl _)]
    cases hs : signBit w
    · exact .inr (.inl ⟨by simp [orderKey, signedUnits, hs, heq], if_neg (by decide)⟩)
    · exact .inl ⟨by simp [orderKey, signedUnits, hs, heq], if_pos rfl⟩

theorem extendedWord_lt_iff {a b : Word} (ha : isNan a = false) (hb : isNan b = false) :
    extendedWord a < extendedWord b ↔ orderKey a < orderKey b := by
  have hunit : (0 : ℝ) < 2 ^ 1074 := by positivity
  have hfin : realWord a < realWord b ↔ orderKey a < orderKey b := by
    rw [realWord_eq_unitsOfKey, realWord_eq_unitsOfKey, div_lt_div_iff_of_pos_right hunit, Int.cast_lt,
      unitsOfKey_strictMono.lt_iff_lt]
  have hinf : (0 : Int) < infMagnitude := by decide
  rcases extendedWord_cases ha with ⟨ka, ea⟩ | ⟨ka, ea⟩ | ⟨la, ua, ea⟩ <;>
  rcases extendedWord_cases hb with ⟨kb, eb⟩ | ⟨kb, eb⟩ | ⟨lb, ub, eb⟩ <;>
  rw [ea, eb]
  case inr.inr.inr.inr => rw [EReal.coe_lt_coe_iff, hfin]
  -- an infinity is at the same end of both orders
  all_goals (simp; omega)

theorem extendedWord_le_iff {a b : Word} (ha : isNan a = false) (hb : isNan b = false) :
    extendedWord a ≤ extendedWord b ↔ orderKey a ≤ orderKey b := by
  rw [← not_lt, ← not_lt, extendedWord_lt_iff hb ha]

/-- The comparisons are false with a NaN, and otherwise the order of the extended reals (R13). -/
theorem comparisons_iff_extendedWord (a b : Word) :
    (flt a b = true ↔ isNan a = false ∧ isNan b = false ∧ extendedWord a < extendedWord b) ∧
    (fle a b = true ↔ isNan a = false ∧ isNan b = false ∧ extendedWord a ≤ extendedWord b) := by
  rw [flt_iff, fle_iff]
  exact ⟨and_congr_right fun ha => and_congr_right fun hb => (extendedWord_lt_iff ha hb).symm,
    and_congr_right fun ha => and_congr_right fun hb => (extendedWord_le_iff ha hb).symm⟩

theorem extendedWord_zeros : extendedWord 0x8000000000000000 = extendedWord 0x0000000000000000 := by
  have hz : magnitude 0 = 0 ∧ magnitude 0x8000000000000000 = 0 := by decide
  have hr : realOf 0 = 0 := by rw [realOf, unitsOfMagnitude_zero, Nat.cast_zero, zero_div]
  have hfin : 0 < infMagnitude := by decide
  simp only [extendedWord, realWord, hz, hr, neg_zero, ite_self, if_pos hfin]

/-! ### Conversion of an integer -/

theorem ofNat64_rounded (n : Nat) : Rounded (ofNat64 n) n := by
  refine rounded_roundUnits Nat.one_pos ?_
  rw [signedUnits_mul_natCast, Nat.cast_pow, Nat.cast_ofNat, Nat.cast_one, div_one]
  rfl

/-- The value of a finite pattern rounds to no other pattern. -/
theorem RoundsTo.eq_of_units {p r : Nat} (h : RoundsTo (unitsOfMagnitude r) p) (hr : r < infMagnitude) : p = r := by
  obtain ⟨-, hlo, hhi⟩ := h
  rcases lt_trichotomy p r with hlt | heq | hgt
  · obtain ⟨hhi, -⟩ := hhi (hlt.trans hr)
    have hnext := cast_units_le (p := p + 1) (r := r) hlt
    have hstep := cast_units_lt (Nat.lt_succ_self p)
    linarith
  · exact heq
  · obtain ⟨o, rfl⟩ : ∃ o, p = o + 1 := ⟨p - 1, by omega⟩
    obtain ⟨hlo, -⟩ := hlo o rfl
    have hprev := cast_units_le (p := r) (r := o) (by omega)
    have hstep := cast_units_lt (Nat.lt_succ_self o)
    linarith

theorem ofNat64_exact {n : Nat} (hn : n ≤ 2 ^ 53) :
    magnitude (ofNat64 n) < infMagnitude ∧ realWord (ofNat64 n) = n := by
  obtain ⟨r, hr⟩ := exists_unitsOfMagnitude_eq 1074 hn
  have hfin : r < infMagnitude := by
    rw [← unitsOfMagnitude_strictMono.lt_iff_lt, hr, unitsOfMagnitude_infMagnitude]
    exact Nat.mul_lt_mul_of_lt_of_le (by omega) (pow_le_pow_right₀ one_le_two (by decide)) (by positivity)
  have hrounds := roundsTo_roundUnits (n * 2 ^ 1074) Nat.one_pos
  have hlt := hrounds.lt_two_pow
  rw [Nat.cast_one, div_one, ← hr] at hrounds
  rw [ofNat64, realWord, signBit_ofMagnitude _ hlt, if_neg (by decide), magnitude_ofMagnitude _ hlt, ← hr,
    hrounds.eq_of_units hfin, realOf, hr, Nat.cast_mul, Nat.cast_pow, Nat.cast_ofNat]
  exact ⟨hfin, mul_div_cancel_right₀ _ (by positivity)⟩

/-! ### roundUnits in integers -/

/-- The distance from `u` units to `num/den` units, in integers and in reals. -/
theorem natAbs_distance {u num den : Nat} (hden : 0 < den) :
    ((((u * den : Nat) - (num : Int) : Int).natAbs : Nat) : ℝ) = |(u : ℝ) - num / den| * den := by
  have hdenR : (0 : ℝ) < den := by exact_mod_cast hden
  rw [Nat.cast_natAbs, Int.cast_abs]
  push_cast
  rw [← abs_of_pos hdenR, ← abs_mul, abs_of_pos hdenR, sub_mul, div_mul_cancel₀ _ hdenR.ne']

/-- `roundUnits` answers infinity exactly from the overflow bound on, and otherwise the nearest magnitude, ties to even. -/
theorem roundUnits_nearest_even (num den : Nat) (hden : 0 < den) :
    (roundUnits num den = infMagnitude ↔ den * ((2 ^ 54 - 1) * 2 ^ 2044) ≤ num) ∧
    (roundUnits num den < infMagnitude → ∀ p, p < infMagnitude →
      ((unitsOfMagnitude (roundUnits num den) * den : Nat) - (num : Int) : Int).natAbs ≤
        ((unitsOfMagnitude p * den : Nat) - (num : Int) : Int).natAbs ∧
      (((unitsOfMagnitude (roundUnits num den) * den : Nat) - (num : Int) : Int).natAbs =
          ((unitsOfMagnitude p * den : Nat) - (num : Int) : Int).natAbs →
        p ≠ roundUnits num den → roundUnits num den % 2 = 0)) := by
  have hrounds := roundsTo_roundUnits num hden
  have hdenR : (0 : ℝ) < den := by exact_mod_cast hden
  refine ⟨?_, fun hfin p _ => ?_⟩
  · rw [hrounds.eq_infMagnitude_iff, le_div_iff₀' hdenR, ← Nat.cast_mul, Nat.cast_le]
  · obtain ⟨hle, htie⟩ := hrounds.nearest hfin p
    rw [← Nat.cast_le (α := ℝ), ← Nat.cast_inj (R := ℝ), natAbs_distance hden, natAbs_distance hden,
      mul_le_mul_iff_left₀ hdenR, mul_left_inj' hdenR.ne']
    exact ⟨hle, htie⟩

/-- Settles O53: each clause by the lemma about its operation and the kinds of its operands. -/
theorem roundingIsToNearestEven : Obligations.RoundingIsToNearestEven := by
  refine ⟨roundUnits_nearest_even, fun a b ha hb => ?_, fun a b h => ?_, fun a h => ?_, fun a b ha hb => ?_,
    fun a b ha hb => ?_, ?_, ?_, comparisons_iff_extendedWord, extendedWord_zeros, fun a => ?_, fun n => ?_⟩
  · exact ⟨fadd_rounded ha hb, fadd_of_zero_sum ha hb, fsub_rounded ha hb, fsub_of_zero_difference ha hb,
      fmul_rounded ha hb, signBit_fmul ha hb, fun h => ⟨fdiv_rounded ha hb h, signBit_fdiv ha hb h⟩,
      fdiv_nonzero_by_zero ha hb, fdiv_zero_by_zero ha hb, fsqrt_rounded ha, fsqrt_of_zero ha, fsqrt_of_negative ha⟩
  · obtain ⟨hadd, hmul, hdiv⟩ := fadd_fmul_fdiv_of_nan h
    obtain ⟨hsub, -⟩ := fadd_fmul_fdiv_of_nan (a := a) (b := fneg b) (by rwa [isNan_fneg])
    rw [fsub, hadd, hmul, hdiv, hsub]
    exact ⟨answersNan_drawNan, answersNan_drawNan, answersNan_drawNan, answersNan_drawNan⟩
  · exact fsqrt_nan h ▸ answersNan_drawNan
  · obtain ⟨hadd, hadd', hsub, hsub'⟩ := fadd_fsub_inf_finite ha hb
    exact ⟨hadd, hadd', hsub, hsub', fmul_inf_zero ha hb, fmul_inf_nonzero ha hb, fdiv_inf_finite ha hb⟩
  · exact ⟨fadd_fsub_inf_same ha hb, fadd_fsub_inf_opposite ha hb, fmul_fdiv_inf_inf ha hb⟩
  · rw [fsqrt_inf (unpack_of_infinite (by decide))]
    exact answers_pure _
  · rw [fsqrt_inf (unpack_of_infinite (by decide))]
    exact answersNan_drawNan
  · exact ⟨signBit_fneg a, magnitude_fneg a, signBit_fabs a, magnitude_fabs a⟩
  · exact ⟨ofNat64_rounded n, ofNat64_exact⟩

end Sys2Proof.Machine
end

section
/-! PROOF. The enclosure of the exponential, and `exp64` (R15). -/

namespace Sys2Proof.Machine

open Sys2Proof.Claims

/-! ### The Horner form of the series -/

/-- The terms of the exponential series below `i`. -/
noncomputable def expPartial (y : ℝ) (i : Nat) : ℝ := ∑ m ∈ Finset.range i, y ^ m / m.factorial

@[simp] theorem expPartial_zero (y : ℝ) : expPartial y 0 = 0 := Finset.sum_range_zero _

theorem expPartial_succ (y : ℝ) (i : Nat) : expPartial y (i + 1) = expPartial y i + y ^ i / i.factorial :=
  Finset.sum_range_succ _ _

/-- The series with the tail `z` from term `i` on: folding one more term into the tail. -/
theorem expPartial_fold (y z : ℝ) (i : Nat) :
    expPartial y (i + 1) + z * (y ^ (i + 1) / (i + 1).factorial) =
      expPartial y i + (1 + y * z / (i + 1)) * (y ^ i / i.factorial) := by
  rw [expPartial_succ, Nat.factorial_succ]
  push_cast
  field_simp
  ring

theorem div_le_cast_ceilDiv (a : Nat) {b : Nat} (hb : 0 < b) : (a : ℝ) / b ≤ (ceilDiv a b : Nat) := by
  have h : a ≤ ceilDiv a b * b := by
    rw [ceilDiv]
    have := Nat.lt_div_mul_add (a := a + b - 1) hb
    omega
  rw [div_le_iff₀ (by exact_mod_cast hb)]
  exact_mod_cast h

/-- One folded term, rounded down. -/
theorem expSeriesLo_step (p x i h : Nat) :
    ((2 ^ p + x * h / ((i + 1) * 2 ^ p) : Nat) : ℝ) / 2 ^ p ≤ 1 + x / 2 ^ p * (h / 2 ^ p) / (i + 1) := by
  have hscale : (0 : ℝ) < 2 ^ p := by positivity
  have hfloor : ((x * h / ((i + 1) * 2 ^ p) : Nat) : ℝ) ≤ x * h / ((i + 1) * 2 ^ p) := by
    exact_mod_cast Nat.cast_div_le (α := ℝ) (m := x * h) (n := (i + 1) * 2 ^ p)
  calc ((2 ^ p + x * h / ((i + 1) * 2 ^ p) : Nat) : ℝ) / 2 ^ p
      = 1 + ((x * h / ((i + 1) * 2 ^ p) : Nat) : ℝ) / 2 ^ p := by push_cast; rw [add_div, div_self hscale.ne']
    _ ≤ 1 + x * h / ((i + 1) * 2 ^ p) / 2 ^ p := by gcongr
    _ = 1 + x / 2 ^ p * (h / 2 ^ p) / (i + 1) := by field_simp

/-- One folded term, rounded up. -/
theorem expSeriesHi_step (p x i h : Nat) :
    1 + x / 2 ^ p * (h / 2 ^ p) / (i + 1) ≤ ((2 ^ p + ceilDiv (x * h) ((i + 1) * 2 ^ p) : Nat) : ℝ) / 2 ^ p := by
  have hscale : (0 : ℝ) < 2 ^ p := by positivity
  have hceil : (x : ℝ) * h / ((i + 1) * 2 ^ p) ≤ (ceilDiv (x * h) ((i + 1) * 2 ^ p) : Nat) := by
    exact_mod_cast div_le_cast_ceilDiv (x * h) (b := (i + 1) * 2 ^ p) (by positivity)
  calc 1 + (x : ℝ) / 2 ^ p * (h / 2 ^ p) / (i + 1) = 1 + (x : ℝ) * h / ((i + 1) * 2 ^ p) / 2 ^ p := by field_simp
    _ ≤ 1 + ((ceilDiv (x * h) ((i + 1) * 2 ^ p) : Nat) : ℝ) / 2 ^ p := by gcongr
    _ = ((2 ^ p + ceilDiv (x * h) ((i + 1) * 2 ^ p) : Nat) : ℝ) / 2 ^ p := by
      push_cast; rw [add_div, div_self hscale.ne']

/-- The Horner form with each quotient rounded down stays below the series it folds. -/
theorem expSeriesLo_le {p x : Nat} {y : ℝ} (hx : (x : ℝ) / 2 ^ p ≤ y) (i h : Nat) :
    (expSeriesLo p x i h : ℝ) / 2 ^ p ≤ expPartial y i + h / 2 ^ p * (y ^ i / i.factorial) := by
  have hy : 0 ≤ y := le_trans (by positivity) hx
  induction i generalizing h with
  | zero => simp [expSeriesLo]
  | succ i ih =>
    rw [expSeriesLo, expPartial_fold]
    refine (ih _).trans ?_
    gcongr
    exact (expSeriesLo_step p x i h).trans (by gcongr)

/-- The Horner form with each quotient rounded up stays above the series it folds. -/
theorem le_expSeriesHi {p x : Nat} {y : ℝ} (hy : 0 ≤ y) (hx : y ≤ (x : ℝ) / 2 ^ p) (i h : Nat) :
    expPartial y i + h / 2 ^ p * (y ^ i / i.factorial) ≤ (expSeriesHi p x i h : ℝ) / 2 ^ p := by
  induction i generalizing h with
  | zero => simp [expSeriesHi]
  | succ i ih =>
    rw [expSeriesHi, expPartial_fold]
    refine le_trans ?_ (ih _)
    gcongr
    exact le_trans (by gcongr) (expSeriesHi_step p x i h)

/-! ### Repeated squaring -/

theorem squaresLo_le {p : Nat} (n h : Nat) {z : ℝ} (hz : (h : ℝ) / 2 ^ p ≤ z) :
    (squaresLo p n h : ℝ) / 2 ^ p ≤ z ^ 2 ^ n := by
  induction n generalizing h z with
  | zero => simpa [squaresLo] using hz
  | succ n ih =>
    rw [squaresLo, Nat.pow_succ', pow_mul]
    apply ih
    calc ((h * h / 2 ^ p : Nat) : ℝ) / 2 ^ p ≤ h * h / 2 ^ p / 2 ^ p := by
          gcongr
          exact_mod_cast Nat.cast_div_le (α := ℝ) (m := h * h) (n := 2 ^ p)
      _ = (h / 2 ^ p) ^ 2 := by field_simp
      _ ≤ z ^ 2 := by gcongr

theorem le_squaresHi {p : Nat} (n h : Nat) {z : ℝ} (hz0 : 0 ≤ z) (hz : z ≤ (h : ℝ) / 2 ^ p) :
    z ^ 2 ^ n ≤ (squaresHi p n h : ℝ) / 2 ^ p := by
  induction n generalizing h z with
  | zero => simpa [squaresHi] using hz
  | succ n ih =>
    rw [squaresHi, Nat.pow_succ', pow_mul]
    refine ih _ (by positivity) ?_
    calc z ^ (2 : Nat) ≤ ((h : ℝ) / 2 ^ p) ^ (2 : Nat) := by gcongr
      _ = (h : ℝ) * h / 2 ^ p / 2 ^ p := by field_simp
      _ ≤ ((ceilDiv (h * h) (2 ^ p) : Nat) : ℝ) / 2 ^ p := by
          gcongr
          exact_mod_cast div_le_cast_ceilDiv (h * h) (b := 2 ^ p) (by positivity)

/-! ### The enclosure -/

/-- The series cut after `n` terms, with its tail between 1 and 2. -/
theorem exp_between_tails {y : ℝ} {n : Nat} (h0 : 0 ≤ y) (h1 : y ≤ 1) (hn : 0 < n) :
    expPartial y n + y ^ n / n.factorial ≤ Real.exp y ∧ Real.exp y ≤ expPartial y n + 2 * (y ^ n / n.factorial) := by
  constructor
  · rw [← expPartial_succ]
    exact Real.sum_le_exp_of_nonneg h0 _
  · have hnR : (1 : ℝ) ≤ n := by exact_mod_cast hn
    refine (Real.exp_bound' h0 h1 hn).trans (add_le_add_right ?_ _)
    calc y ^ n * (n + 1) / (n.factorial * n) = (n + 1) / n * (y ^ n / n.factorial) := by field_simp
      _ ≤ 2 * (y ^ n / n.factorial) := by
        gcongr
        rw [div_le_iff₀ (by linarith)]
        linarith

/-- The 2048th part of the argument, of which eleven squarings make the exponential up again. -/
theorem exp_eq_pow_part (k e : Nat) : Real.exp (k / 2 ^ e) = Real.exp (k / 2 ^ (e + 11)) ^ 2 ^ 11 := by
  rw [← Real.exp_nat_mul, pow_add]
  congr 1
  push_cast
  field_simp
  norm_num

theorem part_nonneg (k e : Nat) : (0 : ℝ) ≤ k / 2 ^ e := by positivity

theorem part_le_one {k e : Nat} (hk : k ≤ 746 * 2 ^ e) : (k : ℝ) / 2 ^ (e + 11) ≤ 1 := by
  have hkR : (k : ℝ) ≤ 746 * 2 ^ e := by exact_mod_cast hk
  have hscale : (0 : ℝ) < 2 ^ e := by positivity
  rw [div_le_one (by positivity), pow_add]
  linarith

theorem part_floor_le (k p e : Nat) : ((k * 2 ^ p / 2 ^ e : Nat) : ℝ) / 2 ^ p ≤ k / 2 ^ e := by
  rw [div_le_iff₀ (by positivity), div_mul_eq_mul_div]
  exact_mod_cast Nat.cast_div_le (α := ℝ) (m := k * 2 ^ p) (n := 2 ^ e)

theorem le_part_ceilDiv (k p e : Nat) : (k : ℝ) / 2 ^ e ≤ (ceilDiv (k * 2 ^ p) (2 ^ e) : Nat) / 2 ^ p := by
  rw [le_div_iff₀ (by positivity), div_mul_eq_mul_div]
  exact_mod_cast div_le_cast_ceilDiv (k * 2 ^ p) (Nat.two_pow_pos e)

/-- The enclosure encloses `e^(k * 2^-1074)`. -/
theorem expEnclosure_encloses {p k : Nat} (hp : 4 ≤ p) (hk : k ≤ 746 * 2 ^ 1074) :
    ((expEnclosure p k).1 : ℝ) / 2 ^ p ≤ Real.exp (k / 2 ^ 1074) ∧
    Real.exp (k / 2 ^ 1074) ≤ ((expEnclosure p k).2 : ℝ) / 2 ^ p := by
  have hscale : (0 : ℝ) < 2 ^ p := by positivity
  have hpow : Real.exp (k / 2 ^ 1074) = Real.exp (k / 2 ^ 1085) ^ 2 ^ 11 := exp_eq_pow_part k 1074
  have hy0 := part_nonneg k 1085
  have hy1 : (k : ℝ) / 2 ^ 1085 ≤ 1 := part_le_one (e := 1074) hk
  obtain ⟨hlo, hhi⟩ := exp_between_tails hy0 hy1 (n := p / 4) (by omega)
  rw [hpow, expEnclosure]
  constructor
  · apply squaresLo_le
    refine (expSeriesLo_le (part_floor_le k p 1085) _ _).trans ?_
    rwa [Nat.cast_pow, Nat.cast_ofNat, div_self hscale.ne', one_mul]
  · apply le_squaresHi _ _ (Real.exp_pos _).le
    refine le_trans ?_ (le_expSeriesHi hy0 (le_part_ceilDiv k p 1085) _ _)
    rwa [Nat.cast_mul, Nat.cast_pow, Nat.cast_ofNat, mul_div_cancel_right₀ _ hscale.ne']

/-- The lower end is at least 1: every rounded step keeps `2^p`. -/
theorem two_pow_le_expSeriesLo (p x i h : Nat) (hh : 2 ^ p ≤ h) : 2 ^ p ≤ expSeriesLo p x i h := by
  induction i generalizing h with
  | zero => exact hh
  | succ i ih => exact ih _ (Nat.le_add_right _ _)

theorem two_pow_le_squaresLo (p n h : Nat) (hh : 2 ^ p ≤ h) : 2 ^ p ≤ squaresLo p n h := by
  induction n generalizing h with
  | zero => exact hh
  | succ n ih =>
    refine ih _ ((Nat.le_div_iff_mul_le (Nat.two_pow_pos p)).mpr ?_)
    exact Nat.mul_le_mul hh hh

theorem expEnclosure_fst_pos (p k : Nat) : 0 < (expEnclosure p k).1 :=
  (Nat.two_pow_pos p).trans_le (two_pow_le_squaresLo p 11 _ (two_pow_le_expSeriesLo p _ _ _ le_rfl))

/-! ### The two ends as patterns -/

/-- Where both ends of an enclosure round to one pattern, so does what lies between them. -/
theorem rounded_of_ends {u v y : ℝ} {pu pv : Nat} (hu : RoundsTo u pu) (hv : RoundsTo v pv) (huy : u ≤ y * 2 ^ 1074)
    (hyv : y * 2 ^ 1074 ≤ v) (hy : 0 ≤ y) (h : ofMagnitude false pu = ofMagnitude false pv) :
    Rounded (ofMagnitude false pu) y := by
  obtain rfl : pu = pv := by
    rw [← magnitude_ofMagnitude false hu.lt_two_pow, h, magnitude_ofMagnitude false hv.lt_two_pow]
  refine rounded_ofMagnitude ?_ (fun h => Bool.noConfusion h) fun _ => hy
  rw [abs_of_nonneg hy]
  exact hu.between hv huy hyv

/-- The units a fixed-point number rounds by. -/
theorem cast_scaled_div (a b n : Nat) : ((a * 2 ^ n : Nat) : ℝ) / b = a / b * 2 ^ n := by
  push_cast
  rw [div_mul_eq_mul_div]

/-- Where the two patterns of the ends agree, they are the exponential rounded. -/
theorem rounded_expPatterns {p k : Nat} (neg : Bool) (hp : 4 ≤ p) (hk : k ≤ 746 * 2 ^ 1074)
    (h : (expPatterns neg k p).1 = (expPatterns neg k p).2) :
    Rounded (expPatterns neg k p).1 (Real.exp (signedUnits neg k / 2 ^ 1074)) := by
  obtain ⟨hlo, hhi⟩ := expEnclosure_encloses hp hk
  have hpos := Real.exp_pos (k / 2 ^ 1074)
  have hlopos : (0 : ℝ) < (expEnclosure p k).1 / 2 ^ p :=
    div_pos (Nat.cast_pos.mpr (expEnclosure_fst_pos p k)) (by positivity)
  have hunit : (0 : ℝ) ≤ 2 ^ 1074 := by positivity
  cases neg with
  | false =>
    refine rounded_of_ends (roundsTo_roundUnits _ (Nat.two_pow_pos p)) (roundsTo_roundUnits _ (Nat.two_pow_pos p))
      ?_ ?_ (Real.exp_pos _).le h
    · rw [cast_scaled_div, Nat.cast_pow, Nat.cast_ofNat]
      exact mul_le_mul_of_nonneg_right hlo hunit
    · rw [cast_scaled_div, Nat.cast_pow, Nat.cast_ofNat]
      exact mul_le_mul_of_nonneg_right hhi hunit
  | true =>
    have hrecip : Real.exp (signedUnits true k / 2 ^ 1074) = (Real.exp (k / 2 ^ 1074))⁻¹ := by
      rw [← Real.exp_neg, ← neg_div]
      simp [signedUnits]
    have hhipos : 0 < (expEnclosure p k).2 := by
      have := (div_pos_iff_of_pos_right (by positivity)).mp (hpos.trans_le hhi)
      exact_mod_cast this
    refine rounded_of_ends (roundsTo_roundUnits _ hhipos) (roundsTo_roundUnits _ (expEnclosure_fst_pos p k))
      ?_ ?_ (Real.exp_pos _).le h
    · rw [cast_scaled_div, hrecip, Nat.cast_pow, Nat.cast_ofNat, ← inv_div ((expEnclosure p k).2 : ℝ)]
      exact mul_le_mul_of_nonneg_right (inv_anti₀ hpos hhi) hunit
    · rw [cast_scaled_div, hrecip, Nat.cast_pow, Nat.cast_ofNat, ← inv_div ((expEnclosure p k).1 : ℝ)]
      exact mul_le_mul_of_nonneg_right (inv_anti₀ hlopos hlo) hunit

/-- What the ladder answers is a pattern on which the two ends at one of its rungs agree. -/
theorem firstAgreed_eq_some {enclose : Nat → Word × Word} {ps : List Nat} {w : Word}
    (h : firstAgreed enclose ps = some w) : ∃ p ∈ ps, (enclose p).1 = (enclose p).2 ∧ (enclose p).1 = w := by
  induction ps with
  | nil => cases h
  | cons p ps ih =>
    rw [firstAgreed] at h
    split at h
    case isTrue heq => exact ⟨p, List.mem_cons_self, heq, Option.some.inj h⟩
    case isFalse =>
      obtain ⟨r, hr, heq, hw⟩ := ih h
      exact ⟨r, List.mem_cons_of_mem p hr, heq, hw⟩

/-! ### Beyond 746 -/

theorem roundsTo_infMagnitude {v : ℝ} (h : (((2 ^ 54 - 1) * 2 ^ 2044 : Nat) : ℝ) ≤ v) : RoundsTo v infMagnitude := by
  refine ⟨le_rfl, fun o ho => ?_, fun hlt => absurd hlt (lt_irrefl _)⟩
  obtain rfl : o = infMagnitude - 1 := by omega
  rw [← Nat.cast_add, overflow_midpoint, Nat.cast_mul 2, Nat.cast_two]
  exact ⟨by linarith, fun _ => by decide⟩

theorem roundsTo_zero {v : ℝ} (h : 2 * v ≤ 1) : RoundsTo v 0 := by
  refine ⟨by decide, fun o ho => absurd ho (Nat.succ_ne_zero o), fun _ => ⟨?_, fun _ => rfl⟩⟩
  simpa using h

/-- `e^746` is beyond every finite value, and its reciprocal below half the least subnormal (assumption 5). -/
theorem two_pow_le_exp {t : ℝ} (ht : 746 ≤ t) : (2 : ℝ) ^ 1075 ≤ Real.exp t := by
  have hlog : Real.log ((2 : ℝ) ^ 1075) ≤ t := by
    rw [Real.log_pow]
    have := Real.log_two_lt_d9
    norm_num
    linarith
  exact (Real.log_le_iff_le_exp (by positivity)).mp hlog

theorem rounded_exp_large {y : ℝ} (hy : 746 ≤ y) : Rounded (infinity false) (Real.exp y) := by
  have hpos := Real.exp_pos y
  refine rounded_ofMagnitude (roundsTo_infMagnitude ?_) (fun h => Bool.noConfusion h) fun _ => hpos.le
  rw [cast_overflow_bound, abs_of_pos hpos]
  refine mul_le_mul_of_nonneg_right (le_trans ?_ (two_pow_le_exp hy)) (by positivity)
  calc ((2 : ℝ) ^ 54 - 1) * 2 ^ 970 ≤ 2 ^ 105 * 2 ^ 970 :=
        mul_le_mul_of_nonneg_right (by norm_num) (by positivity)
    _ = 2 ^ 1075 := by rw [← pow_add]

theorem rounded_exp_small {y : ℝ} (hy : y ≤ -746) : Rounded posZero (Real.exp y) := by
  have hpos := Real.exp_pos y
  change Rounded (ofMagnitude false 0) _
  refine rounded_ofMagnitude (roundsTo_zero ?_) (fun h => Bool.noConfusion h) fun _ => hpos.le
  have hrecip : Real.exp y * Real.exp (-y) = 1 := by rw [← Real.exp_add, add_neg_cancel, Real.exp_zero]
  rw [abs_of_pos hpos, mul_left_comm, ← pow_succ', ← hrecip]
  exact mul_le_mul_of_nonneg_left (two_pow_le_exp (by linarith)) hpos.le

/-! ### exp64 -/

theorem exp64_zero {x : Word} {neg : Bool} (h : unpack x = .fin neg 0) : exp64 x = pure fOne := by
  rw [exp64, h]
  rfl

theorem exp64_large {x : Word} {neg : Bool} {k : Nat} (h : unpack x = .fin neg k) (hk : 746 * 2 ^ 1074 < k) :
    exp64 x = pure (if neg then posZero else infinity false) := by
  rw [exp64, h]
  exact (if_neg (Nat.ne_zero_of_lt hk)).trans (if_pos hk)

theorem exp64_of_agreed {x w : Word} {neg : Bool} {k : Nat} (h : unpack x = .fin neg k) (h0 : k ≠ 0)
    (hk : k ≤ 746 * 2 ^ 1074) (hw : firstAgreed (expPatterns neg k) precisionLadder = some w) : exp64 x = pure w := by
  rw [exp64, h]
  refine (if_neg h0).trans ((if_neg (not_lt.mpr hk)).trans ?_)
  rw [hw, Option.getD_some]

theorem exp64_infinite {x : Word} {neg : Bool} (h : unpack x = .inf neg) :
    exp64 x = pure (if neg then posZero else infinity false) := by
  rw [exp64, h]
  cases neg <;> rfl

theorem exp64_nan {x : Word} (h : isNan x = true) : exp64 x = drawNan := by rw [exp64, unpack_of_nan h]

/-- A value beyond 746 in magnitude is more than 746 in units. -/
theorem lt_abs_realWord_iff {x : Word} {neg : Bool} {k : Nat} (h : unpack x = .fin neg k) :
    746 < abs (realWord x) ↔ 746 * 2 ^ 1074 < k := by
  have hunit : (0 : ℝ) < 2 ^ 1074 := by positivity
  rw [realWord_of_unpack h, abs_div, abs_signedUnits, abs_of_pos hunit, lt_div_iff₀ hunit]
  exact_mod_cast Iff.rfl

theorem rounded_fOne : Rounded fOne 1 := by
  have hunits : unitsOfMagnitude 0x3FF0000000000000 = 2 ^ 1074 := by
    rw [show 0x3FF0000000000000 = 1022 * 2 ^ 52 + 2 ^ 52 by decide, unitsOfMagnitude_cut (by decide) (.inr le_rfl),
      ← pow_add]
  have hrounds := roundsTo_units (p := 0x3FF0000000000000) (by decide)
  rw [hunits, Nat.cast_pow, Nat.cast_ofNat, ← one_mul ((2 : ℝ) ^ 1074), ← abs_one] at hrounds
  exact rounded_ofMagnitude (neg := false) hrounds (fun h => Bool.noConfusion h) fun _ => zero_le_one

/-- `exp64` of a finite word is the exponential rounded, where it is 0, beyond 746, or decided by a rung of the ladder. -/
theorem exp64_rounded {x : Word} {neg : Bool} {k : Nat} (h : unpack x = .fin neg k)
    (hdecided : 0 < k → k ≤ 746 * 2 ^ 1074 → ∃ w, firstAgreed (expPatterns neg k) precisionLadder = some w) :
    AnswersRounded (exp64 x) (Real.exp (realWord x)) := by
  rcases Nat.eq_zero_or_pos k with rfl | hpos
  · rw [exp64_zero h, (realWord_eq_zero_iff h).mpr rfl, Real.exp_zero]
    exact answersRounded_pure rounded_fOne
  rcases Nat.lt_or_ge (746 * 2 ^ 1074) k with hlarge | hk
  · have habs := (lt_abs_realWord_iff h).mpr hlarge
    obtain ⟨-, hsign, -⟩ := unpack_eq_fin_iff.mp h
    rw [exp64_large h hlarge]
    cases neg with
    | false =>
      rw [abs_of_nonneg (realWord_nonneg hsign)] at habs
      exact answersRounded_pure (rounded_exp_large habs.le)
    | true =>
      rw [abs_of_nonpos (realWord_nonpos hsign)] at habs
      exact answersRounded_pure (rounded_exp_small (by linarith))
  · obtain ⟨w, hw⟩ := hdecided hpos hk
    obtain ⟨p, hp, hagree, rfl⟩ := firstAgreed_eq_some hw
    have hrung : ∀ r ∈ precisionLadder, 4 ≤ r := by decide
    rw [exp64_of_agreed h hpos.ne' hk hw, realWord_of_unpack h]
    exact answersRounded_pure (rounded_expPatterns neg (hrung p hp) hk hagree)

/-- Below -746 the result is +0.0, above 746 it is +Inf (R15). -/
theorem exp64_beyond {x : Word} (hfin : magnitude x < infMagnitude) :
    (realWord x < -746 → Answers (exp64 x) 0x0000000000000000) ∧
    (746 < realWord x → Answers (exp64 x) 0x7FF0000000000000) := by
  have h := unpack_of_finite hfin
  refine ⟨fun hx => ?_, fun hx => ?_⟩
  · have hlarge := (lt_abs_realWord_iff h).mp (lt_abs.mpr (.inr (by linarith)))
    have hs : signBit x = true := by
      by_contra hs
      linarith [realWord_nonneg (Bool.not_eq_true _ ▸ hs)]
    rw [exp64_large h hlarge, if_pos hs]
    exact answers_pure _
  · have hlarge := (lt_abs_realWord_iff h).mp (lt_abs.mpr (.inl hx))
    have hs : ¬ signBit x = true := fun hs => by linarith [realWord_nonpos hs]
    rw [exp64_large h hlarge, if_neg hs]
    exact answers_pure _

/-- Settles O60: the enclosure holds the exponential at every rung, so a rung that decides it rounds it. -/
theorem exp64IsNearest : Obligations.Exp64IsNearest := by
  refine ⟨fun x neg k h hdecided => exp64_rounded h hdecided, fun x hfin => exp64_beyond hfin, ?_, ?_, ?_, ?_,
    fun x hnan => ?_⟩
  · rw [exp64_zero (neg := false) (by decide)]
    exact answers_pure _
  · rw [exp64_zero (neg := true) (by decide)]
    exact answers_pure _
  · rw [exp64_infinite (neg := true) (by decide)]
    exact answers_pure _
  · rw [exp64_infinite (neg := false) (by decide)]
    exact answers_pure _
  · exact exp64_nan hnan ▸ answersNan_drawNan

end Sys2Proof.Machine
end

section
/-! PROOF. Only the two draws of RANDOMIZE move the RNG position: every other computation keeps it (R283). -/

namespace Sys2Proof.Machine

/-! ### Arithmetic -/

theorem keepsRng_cellDistance (dx dy : Nat) : KeepsRng (cellDistance dx dy) := keepsRng_fsqrt _

theorem keepsRng_gg (u mu sigma : Word) : KeepsRng (gg u mu sigma) :=
  keepsRng_bind (keepsRng_fsub _ _) fun _ => keepsRng_bind (keepsRng_fmul _ _) fun _ =>
  keepsRng_bind (keepsRng_fmul _ _) fun _ => keepsRng_bind (keepsRng_fmul _ _) fun _ =>
  keepsRng_bind (keepsRng_fdiv _ _) fun _ => keepsRng_bind (keepsRng_exp64 _) fun _ =>
  keepsRng_bind (keepsRng_fmul _ _) fun _ => keepsRng_fsub _ _

theorem keepsRng_complexMul (a b c d : Word) : KeepsRng (complexMul a b c d) :=
  keepsRng_bind (keepsRng_fmul _ _) fun _ => keepsRng_bind (keepsRng_fmul _ _) fun _ =>
  keepsRng_bind (keepsRng_fsub _ _) fun _ => keepsRng_bind (keepsRng_fmul _ _) fun _ =>
  keepsRng_bind (keepsRng_fmul _ _) fun _ => keepsRng_bind (keepsRng_fadd _ _) fun _ => keepsRng_pure _

/-! ### Growth -/

theorem keepsRng_buildTable (mu sigma : Word) (res : Nat) : KeepsRng (buildTable mu sigma res) :=
  keepsRng_forEach (fun _ => keepsRng_bind (keepsRng_fdiv _ _) fun _ => keepsRng_gg _ _ _) _

theorem keepsRng_lookupGrowth (s : State) (g : Geometry) (c : Chan) (u : Word) : KeepsRng (s.lookupGrowth g c u) :=
  keepsRng_bind (keepsRng_bind (keepsRng_fmul _ _) fun _ => keepsRng_pure _) fun _ => keepsRng_pure _

theorem keepsRng_nextField (s : State) (g : Geometry) (c : Chan) : KeepsRng (s.nextField g c) :=
  keepsRng_forEach (fun _ => keepsRng_bind (keepsRng_lookupGrowth _ _ _ _) fun _ =>
    keepsRng_bind (keepsRng_fmul _ _) fun _ => keepsRng_bind (keepsRng_fadd _ _) fun _ => keepsRng_pure _) _

/-! ### The transform -/

theorem keepsRng_butterfly (t : FftTables) (inv : Bool) (k lo hi : Nat) (v : Cplx) :
    KeepsRng (butterfly t inv k lo hi v) :=
  keepsRng_bind (keepsRng_fmul _ _) fun _ => keepsRng_bind (keepsRng_fmul _ _) fun _ =>
  keepsRng_bind (keepsRng_fsub _ _) fun _ => keepsRng_bind (keepsRng_fmul _ _) fun _ =>
  keepsRng_bind (keepsRng_fmul _ _) fun _ => keepsRng_bind (keepsRng_fadd _ _) fun _ =>
  keepsRng_bind (keepsRng_fadd _ _) fun _ => keepsRng_bind (keepsRng_fadd _ _) fun _ =>
  keepsRng_bind (keepsRng_fsub _ _) fun _ => keepsRng_bind (keepsRng_fsub _ _) fun _ => keepsRng_pure _

theorem keepsRng_fftStages (t : FftTables) (inv : Bool) (n half : Nat) (v : Cplx) :
    KeepsRng (fftStages t inv n half v) := by
  induction n generalizing half v with
  | zero => exact keepsRng_pure v
  | succ n ih => exact keepsRng_bind (keepsRng_foldlM (fun _ _ => keepsRng_butterfly _ _ _ _ _ _) _ _) fun _ => ih _ _

theorem keepsRng_fft1 (t : FftTables) (inv : Bool) (v : Cplx) : KeepsRng (fft1 t inv v) :=
  keepsRng_bind (keepsRng_fftStages _ _ _ _ _) fun _ => keepsRng_ite
    (keepsRng_bind (keepsRng_forEach (fun _ => keepsRng_fdiv _ _) _) fun _ =>
      keepsRng_bind (keepsRng_forEach (fun _ => keepsRng_fdiv _ _) _) fun _ => keepsRng_pure _)
    (keepsRng_pure _)

theorem keepsRng_fft2 (t : FftTables) (inv : Bool) (a : Cplx) : KeepsRng (fft2 t inv a) :=
  keepsRng_bind (keepsRng_forEach (fun _ => keepsRng_fft1 _ _ _) _) fun _ =>
  keepsRng_bind (keepsRng_forEach (fun _ => keepsRng_fft1 _ _ _) _) fun _ => keepsRng_pure _

theorem keepsRng_multiplyElems (s : State) (c : Chan) (cells : Nat) : KeepsRng (multiplyElems s c cells) :=
  keepsRng_forEach (fun _ => keepsRng_complexMul _ _ _ _) _

/-! ### Kernels and parameters -/

theorem keepsRng_kernelVal (n : Nat) (p : Params) (x y : Nat) : KeepsRng (kernelVal n p x y) :=
  keepsRng_bind (keepsRng_cellDistance _ _) fun _ => keepsRng_bind (keepsRng_fdiv _ _) fun _ =>
    keepsRng_ite
      (keepsRng_bind (keepsRng_fsub _ _) fun _ => keepsRng_bind (keepsRng_fmul _ _) fun _ =>
        keepsRng_bind (keepsRng_fmul _ _) fun _ => keepsRng_bind (keepsRng_fmul _ _) fun _ =>
        keepsRng_bind (keepsRng_fdiv _ _) fun _ => keepsRng_exp64 _)
      (keepsRng_pure _)

theorem keepsRng_kernelRaw (n : Nat) (p : Params) : KeepsRng (kernelRaw n p) :=
  keepsRng_bind (keepsRng_forEach (fun _ => keepsRng_kernelVal _ _ _ _) _) fun _ =>
  keepsRng_bind (keepsRng_foldlM keepsRng_fadd _ _) fun _ => keepsRng_pure _

theorem keepsRng_kernelsOk (n : Nat) (ps : List Params) : KeepsRng (kernelsOk n ps) := by
  induction ps with
  | nil => exact keepsRng_pure true
  | cons p ps ih =>
    exact keepsRng_bind (keepsRng_bind (keepsRng_kernelRaw n p) fun _ => keepsRng_pure _) fun _ =>
      keepsRng_ite ih (keepsRng_pure _)

theorem keepsRng_buildKernel (t : FftTables) (p : Params) : KeepsRng (buildKernel t p) :=
  keepsRng_bind (keepsRng_kernelRaw _ _) fun _ =>
  keepsRng_bind (keepsRng_forEach (fun _ => keepsRng_fdiv _ _) _) fun _ =>
  keepsRng_bind (keepsRng_fft2 _ _ _) fun _ => keepsRng_pure _

theorem keepsRng_spread (inst : Instance) (p : Params) (c : Chan) : KeepsRng (p.spread inst c) := by
  cases c with
  | c0 =>
    exact keepsRng_bind (keepsRng_fsub _ _) fun _ => keepsRng_bind (keepsRng_fsub _ _) fun _ =>
      keepsRng_bind (keepsRng_fsub _ _) fun _ => keepsRng_pure _
  | c1 => exact keepsRng_pure p
  | c2 =>
    exact keepsRng_bind (keepsRng_fadd _ _) fun _ => keepsRng_bind (keepsRng_fadd _ _) fun _ =>
      keepsRng_bind (keepsRng_fadd _ _) fun _ => keepsRng_pure _

theorem keepsRng_spreadAll (inst : Instance) (p : Params) : KeepsRng (spreadAll inst p) :=
  keepsRng_bind (keepsRng_spread _ _ _) fun _ => keepsRng_bind (keepsRng_spread _ _ _) fun _ =>
  keepsRng_bind (keepsRng_spread _ _ _) fun _ => keepsRng_pure _

theorem keepsRng_initParams (inst : Instance) (g : Geometry) (p : Per3 Params) (stg : Params) :
    KeepsRng (initParams inst g p stg) := by
  unfold initParams
  split
  · exact keepsRng_pure _
  · exact keepsRng_spreadAll inst stg

/-! ### Statistics -/

theorem keepsRng_fieldSums (s : State) (g : Geometry) : KeepsRng (s.fieldSums g) := by
  have hcell : ∀ i, KeepsRng (s.statsCell g i) := fun i => by
    unfold State.statsCell
    split
    · exact keepsRng_pure _
    · exact keepsRng_bind (keepsRng_fadd _ _) fun _ => keepsRng_bind (keepsRng_fadd _ _) fun _ => keepsRng_fdiv _ _
  exact keepsRng_foldlM (fun _ i => keepsRng_bind (hcell i) fun _ =>
    keepsRng_bind (keepsRng_fadd _ _) fun _ => keepsRng_bind (keepsRng_fmul _ _) fun _ =>
    keepsRng_bind (keepsRng_fadd _ _) fun _ => keepsRng_bind (keepsRng_fmul _ _) fun _ =>
    keepsRng_bind (keepsRng_fadd _ _) fun _ => keepsRng_pure _) _ _

theorem keepsRng_wrapDisplacement (n : Nat) (d : Word) : KeepsRng (wrapDisplacement n d) :=
  keepsRng_bind (keepsRng_fdiv _ _) fun _ =>
    keepsRng_ite (keepsRng_ite (keepsRng_fsub _ _) (keepsRng_fadd _ _)) (keepsRng_pure _)

theorem keepsRng_velocityTo (n : Nat) (old : StatsRegs) (cx cy : Word) : KeepsRng (velocityTo n old cx cy) :=
  keepsRng_ite
    (keepsRng_bind (keepsRng_fsub _ _) fun _ => keepsRng_bind (keepsRng_wrapDisplacement _ _) fun _ =>
      keepsRng_bind (keepsRng_fsub _ _) fun _ => keepsRng_bind (keepsRng_wrapDisplacement _ _) fun _ =>
      keepsRng_bind (keepsRng_fmul _ _) fun _ => keepsRng_bind (keepsRng_fmul _ _) fun _ =>
      keepsRng_bind (keepsRng_fadd _ _) fun _ => keepsRng_fsqrt _)
    (keepsRng_pure _)

theorem keepsRng_nextStats (s : State) (g : Geometry) (inc : Bool) : KeepsRng (s.nextStats g inc) :=
  keepsRng_bind (keepsRng_fieldSums s g) fun _ => keepsRng_ite
    (keepsRng_bind (keepsRng_fdiv _ _) fun _ => keepsRng_bind (keepsRng_fdiv _ _) fun _ =>
      keepsRng_bind (keepsRng_velocityTo _ _ _ _) fun _ => keepsRng_pure _)
    (keepsRng_pure _)

/-! ### Paint -/

theorem keepsRng_scaledSpan (g : Geometry) (scale : Word) (l : Nat) : KeepsRng (scaledSpan g scale l) :=
  keepsRng_bind (keepsRng_fmul _ _) fun _ =>
    keepsRng_ite (keepsRng_ite (keepsRng_pure _) (keepsRng_pure _)) (keepsRng_pure _)

theorem keepsRng_scaledSpans (g : Geometry) (scale : Word) (p : Pattern) : KeepsRng (scaledSpans g scale p) := by
  refine keepsRng_bind (keepsRng_scaledSpan _ _ _) fun sw => ?_
  cases sw with
  | none => exact keepsRng_pure none
  | some w =>
    refine keepsRng_bind (keepsRng_scaledSpan _ _ _) fun sh => ?_
    cases sh with
    | none => exact keepsRng_pure none
    | some h => exact keepsRng_pure _

theorem keepsRng_sourceIndex (scale : Word) (l i : Nat) : KeepsRng (sourceIndex scale l i) :=
  keepsRng_bind (keepsRng_fdiv _ _) fun _ => keepsRng_pure _

theorem keepsRng_placeCell (src : State) (g : Geometry) (scale : Word) (p : Pattern) (span : Nat × Nat) (x y : Int)
    (f : List Word) (ij : Nat × Nat) : KeepsRng (placeCell src g scale p span x y f ij) :=
  keepsRng_bind (keepsRng_sourceIndex _ _ _) fun _ => keepsRng_bind (keepsRng_sourceIndex _ _ _) fun _ =>
  keepsRng_bind (keepsRng_fadd _ _) fun _ => keepsRng_pure _

theorem keepsRng_circledField (s : State) (g : Geometry) (cx cy : Int) (radius v : Word) (c : Chan) :
    KeepsRng (s.circledField g cx cy radius v c) :=
  keepsRng_forEach (fun _ => keepsRng_bind (keepsRng_cellDistance _ _) fun _ =>
    keepsRng_ite (keepsRng_pure _) (keepsRng_pure _)) _

end Sys2Proof.Machine
end

section
/-! PROOF. What a command's effect is made of: the updates, one lemma per effect, and every way a command can end. The
invariants are proved once for each update. -/

namespace Sys2Proof.Machine

open Sys2Proof.Claims

/-! ### Updates -/

/-- The arrays whose elements are data: no table and no cache of the parameters (R61) is among them. -/
def Arr.isData : Arr → Bool
  | .field _ _ => true
  | .sre => true
  | .sim => true
  | .pattern => true
  | .stage _ => true
  | _ => false

/-- The updates of which the effects of commands are made in the Ready state with geometry `g`. With `rng = false` no
computation takes an RNG draw. -/
inductive Update (rng : Bool) (g : Geometry) : State → State → Prop where
  | drawing {α : Type} (s : State) (m : Num α) (keeps : rng = false → KeepsRng m) : Update rng g s (s.drawing m).2
  | writeArray (s : State) (a : Arr) (ws : List Word) (data : a.isData = true) (length : ws.length = g.cells) :
      Update rng g s (s.writeArray a ws)
  | writeElem (s : State) (a : Arr) (i : Nat) (w : Word) (data : a.isData = true) (index : i < g.cells) :
      Update rng g s (s.writeElem a i w)
  | forgetScratch (s : State) : Update rng g s s.forgetScratch
  | setResult (s : State) (w : Word) : Update rng g s { s with result := w }
  | setStats (s : State) (t : StatsRegs) : Update rng g s { s with stats := t }
  | setCom (s : State) (p : Params) : Update rng g s { s with com := p }
  | swapBank (s : State) (c : Chan) (active : g.active c = true) : Update rng g s (s.swapBank c)
  | rebuildKernel (s : State) (c : Chan) : Update rng g s (s.rebuildKernel g c)
  | rebuildTable (s : State) (c : Chan) : Update rng g s (s.rebuildTable g c)
  | replaceParams (s : State) (c : Chan) (new : Params) : Update rng g s (s.replaceParams g c new)

/-- Any number of updates, one after another. -/
abbrev Updates (rng : Bool) (g : Geometry) : State → State → Prop := Relation.ReflTransGen (Update rng g)

theorem updates_foldl {rng : Bool} {g : Geometry} {α : Type} {f : State → α → State} {as : List α}
    (h : ∀ s, ∀ a ∈ as, Updates rng g s (f s a)) (s : State) : Updates rng g s (as.foldl f s) := by
  induction as generalizing s with
  | nil => exact .refl
  | cons a as ih =>
    exact (h s a List.mem_cons_self).trans (ih (fun t b hb => h t b (List.mem_cons_of_mem a hb)) _)

/-- A drawn array stored where data is. -/
theorem updates_drawArray {rng : Bool} {g : Geometry} (s : State) {m : Num (List Word)} {a : Arr}
    (keeps : rng = false → KeepsRng m) (data : a.isData = true) (length : (m.run s.draws).1.length = g.cells) :
    Updates rng g s ((s.drawing m).2.writeArray a (s.drawing m).1) :=
  (Relation.ReflTransGen.single (.drawing s m keeps)).tail (.writeArray _ a _ data length)

theorem updates_writeScratch {rng : Bool} {g : Geometry} (s : State) {v : Cplx} (re : v.re.length = g.cells)
    (im : v.im.length = g.cells) : Updates rng g s (s.writeScratch v) :=
  (Relation.ReflTransGen.single (.writeArray s .sre v.re rfl re)).tail (.writeArray _ .sim v.im rfl im)

/-! ### The effects of the commands -/

section effects

variable {rng : Bool} {g : Geometry}

theorem updates_loadField (s : State) (c : Chan) : Updates rng g s (s.loadField g c) :=
  updates_writeScratch s (v := ⟨s.readArray (s.activeField c) g.cells, List.replicate g.cells posZero⟩)
    (readArray_length _ _ _) List.length_replicate

theorem updates_transformScratch (s : State) (inv : Bool) : Updates rng g s (s.transformScratch g inv) :=
  have hlen := fft2_length (s.fftTables g) inv (s.scratch g) s.draws
  .trans (.single (.drawing s _ fun _ => keepsRng_fft2 _ _ _)) (updates_writeScratch _ hlen.1 hlen.2)

theorem updates_multiplyScratch (s : State) (c : Chan) : Updates rng g s (s.multiplyScratch g c) :=
  .trans (.single (.drawing s _ fun _ => keepsRng_multiplyElems s c g.cells))
    (updates_writeScratch _ (by simp [multiplyElems]) (by simp [multiplyElems]))

theorem updates_growField (s : State) (c : Chan) : Updates rng g s (s.growField g c) :=
  updates_drawArray s (fun _ => keepsRng_nextField s g c) rfl (by simp [State.nextField])

theorem updates_recomputeStats (s : State) (inc : Bool) : Updates rng g s (s.recomputeStats g inc) :=
  (Relation.ReflTransGen.single (.drawing s _ fun _ => keepsRng_nextStats s g inc)).tail (.setStats _ _)

theorem updates_resultOf (s : State) {m : Num Word} (h : KeepsRng m) : Updates rng g s (s.resultOf m) :=
  (Relation.ReflTransGen.single (.drawing s m fun _ => h)).tail (.setResult _ _)

theorem updates_stepChannel (s : State) {c : Chan} (h : g.active c = true) : Updates rng g s (s.stepChannel g c) :=
  .tail
    ((updates_loadField s c).trans <| (updates_transformScratch _ _).trans <| (updates_multiplyScratch _ _).trans <|
      (updates_transformScratch _ _).trans <| updates_growField _ c)
    (.swapBank _ c h)

theorem active_of_mem_chans {c : Chan} (h : c ∈ g.chans) : g.active c = true := by
  cases hg : g.channels <;> simp only [Geometry.chans, hg, List.mem_cons, List.not_mem_nil, or_false] at h
  · simp [h, Geometry.active, Geometry.chanCount, hg, ChanCount.count, Chan.index]
  · rcases h with rfl | rfl | rfl <;> simp [Geometry.active, Geometry.chanCount, hg, ChanCount.count, Chan.index]

theorem mem_chans_of_active {c : Chan} (h : g.active c = true) : c ∈ g.chans := by
  cases hg : g.channels <;> cases c <;>
    simp [Geometry.chans, hg, Geometry.active, Geometry.chanCount, ChanCount.count, Chan.index] at h ⊢

theorem updates_stepOnce (s : State) : Updates rng g s (s.stepOnce g) :=
  .tail ((updates_foldl (fun t _ hc => updates_stepChannel t (active_of_mem_chans hc)) s).trans
    (updates_recomputeStats _ true)) (.forgetScratch _)

theorem updates_runSteps (n : Nat) (s : State) : Updates rng g s (State.runSteps g n s) := by
  induction n generalizing s with
  | zero => exact .refl
  | succ n ih => exact (updates_stepOnce s).trans (ih _)

theorem updates_randomizeField (s : State) (density lim : Word) (c : Chan) :
    Updates true g s (s.randomizeField g density lim c) :=
  updates_drawArray s (fun h => Bool.noConfusion h) rfl (by simp [randomField])

theorem updates_randomizeFields (s : State) (cs : List Chan) : Updates true g s (s.randomizeFields g cs) :=
  .tail (.trans (.single (.drawing s _ fun _ => keepsRng_fmul _ _))
    (updates_foldl (fun t c _ => updates_randomizeField t _ _ c) _)) (.setStats _ _)

/-- What every continuation of a computation satisfies, the whole computation satisfies. -/
theorem run_bind_all {α β : Type} {m : Num α} {f : α → Num β} {P : β → Prop} (h : ∀ a e, P ((f a).run e).1)
    (d : Draws) : P ((m >>= f).run d).1 := h _ _

theorem placeCell_length (src : State) (scale : Word) (p : Pattern) (span : Nat × Nat) (x y : Int) (f : List Word)
    (ij : Nat × Nat) (d : Draws) : ((placeCell src g scale p span x y f ij).run d).1.length = f.length := by
  unfold placeCell
  refine run_bind_all (P := fun ws : List Word => ws.length = f.length) (fun sx => ?_) d
  refine run_bind_all (P := fun ws : List Word => ws.length = f.length) fun sy => ?_
  refine run_bind_all (P := fun ws : List Word => ws.length = f.length) fun v e => ?_
  rw [run_pure, List.length_set]

theorem foldlM_placeCell_length (src : State) (scale : Word) (p : Pattern) (span : Nat × Nat) (x y : Int)
    (ijs : List (Nat × Nat)) (f : List Word) (d : Draws) :
    ((ijs.foldlM (placeCell src g scale p span x y) f).run d).1.length = f.length := by
  induction ijs generalizing f d with
  | nil => rfl
  | cons ij ijs ih => rw [List.foldlM_cons, run_bind, ih, placeCell_length]

theorem updates_placeInto (s src : State) (p : Pattern) (span : Nat × Nat) (x y : Int) (c : Chan) :
    Updates rng g s (s.placeInto src g p span x y c) :=
  updates_drawArray s (fun _ => keepsRng_foldlM (fun _ _ => keepsRng_placeCell _ _ _ _ _ _ _ _ _) _ _) rfl
    (by rw [foldlM_placeCell_length, readArray_length])

theorem updates_circleField (s : State) (cx cy : Int) (radius v : Word) (c : Chan) :
    Updates rng g s (s.circleField g cx cy radius v c) :=
  updates_drawArray s (fun _ => keepsRng_circledField s g cx cy radius v c) rfl (by simp [State.circledField])

theorem addressedCell_lt (s : State) (g : Geometry) : s.addressedCell g < g.cells := by
  have hlt : ∀ a : Int, wrapMod a g.n < g.n := fun a => by
    have hn := g.n_pos
    have h0 := Int.emod_nonneg a (b := (g.n : Int)) (by omega)
    have h1 := Int.emod_lt_of_pos a (b := (g.n : Int)) (by omega)
    unfold wrapMod
    omega
  exact g.idx_lt (hlt _) (hlt _)

theorem updates_buildKernels {s u : State} {cs : List Chan} (h : s.buildKernels g cs = .ok u) : Updates rng g s u := by
  simp only [State.buildKernels] at h
  split at h
  · cases h
    exact .tail (.trans (.single (.drawing s _ fun _ => keepsRng_kernelsOk _ _))
      (updates_foldl (fun t c _ => .single (.rebuildKernel t c)) _)) (.forgetScratch _)
  · cases h

theorem updates_commitParams {s u : State} {cs : List Chan} {newCom : Params} {newP : Per3 Params}
    (h : s.commitParams g cs newCom newP = .ok u) : Updates rng g s u := by
  rcases commitParams_cases s g cs newCom newP with ⟨-, herror⟩ | ⟨-, t, ht, hok⟩
  · rw [herror] at h
    cases h
  · have hreplaced : Updates rng g s t := ht ▸
      .trans (.tail (.single (.drawing s _ fun _ => keepsRng_kernelsOk _ _)) (.setCom _ newCom))
        (updates_foldl (fun t c _ => .single (.replaceParams t c _)) _)
    rw [hok] at h
    cases h
    split
    · exact hreplaced
    · exact hreplaced.tail (.forgetScratch t)

theorem updates_setCommonParams {s u : State} {m : ParamMask} (h : s.setCommonParams g m = .ok u) :
    Updates rng g s u := by
  unfold State.setCommonParams at h
  split at h
  · cases h
  · exact .trans (.single (.drawing s _ fun _ => keepsRng_spreadAll _ _)) (updates_commitParams h)

theorem updates_importConfig {s u : State} (h : s.importConfig g = .ok u) : Updates rng g s u := by
  unfold State.importConfig at h
  split at h
  · cases h
  · split at h
    · cases h
    next t ht =>
      cases h
      exact (updates_commitParams ht).trans
        (updates_foldl (fun t c _ => .single (.writeArray t _ _ rfl (readArray_length _ _ _))) t)

/-- PLACE's effect, where it has one, is on a legal pattern with legal spans. The proof names the pattern and the spans
before it splits the cases, in a lemma apart: comparing the cases with the spans written out would evaluate them on the
symbolic state. -/
theorem placeFields_ok {s u : State} {sel : ChSel} {cs : List Chan} {source : PatternSource}
    (h : s.placeFields g sel cs source = .ok u) :
    ∃ p span, s.placePattern g source = .ok p ∧ (s.drawing (scaledSpans g s.operands.arg2 p)).1 = some span ∧
      u = cs.foldl
        (fun t c => t.placeInto s g p span (argInt s.operands.arg0 + 2 * paintOffset g sel c)
          (argInt s.operands.arg1 + 2 * paintOffset g sel c) c)
        (s.drawing (scaledSpans g s.operands.arg2 p)).2 := by
  unfold State.placeFields at h
  generalize scaledSpans g s.operands.arg2 = spans at h ⊢
  generalize s.placePattern g source = pattern at h ⊢
  as_aux_lemma =>
    cases pattern with
    | error e => cases h
    | ok p =>
      dsimp only at h
      split at h
      · cases h
      next span hspan =>
        cases h
        exact ⟨p, span, rfl, hspan, rfl⟩

theorem updates_placeFields {s u : State} {sel : ChSel} {cs : List Chan} {source : PatternSource}
    (h : s.placeFields g sel cs source = .ok u) : Updates rng g s u := by
  obtain ⟨p, span, -, -, rfl⟩ := placeFields_ok h
  exact .trans (.single (.drawing s _ fun _ => keepsRng_scaledSpans _ _ p))
    (updates_foldl (fun t c _ => updates_placeInto t s p span _ _ c) _)

end effects

/-! ### INIT -/

/-- What INIT leaves before it builds the channels (R220): memory dropped, the new records, and the tables of the new
geometry. -/
def State.initStart (s : State) (g : Geometry) (newP : Per3 Params) : State :=
  State.writeTables
    { s.forgetSized with engine := some g, com := s.operands.stg, p := newP, bank := .const false, stats := .zero } g

theorem updates_initChannel {rng : Bool} {g : Geometry} (s : State) (c : Chan) :
    Updates rng g s (s.initChannel g c) :=
  (((Relation.ReflTransGen.single (.rebuildKernel s c)).tail (.rebuildTable _ c)).tail
    (.writeArray _ (.field c false) _ rfl List.length_replicate)).tail
    (.writeArray _ (.field c true) _ rfl List.length_replicate)

theorem updates_commitInit {rng : Bool} {g : Geometry} (s : State) (newP : Per3 Params) :
    Updates rng g (s.initStart g newP) (s.commitInit g newP) :=
  updates_foldl (fun t c _ => updates_initChannel t c) _

/-- INIT's effect, where it has one, is the commit of a checked geometry, after draws that keep the RNG position. -/
theorem initEngine_ok {s u : State} (h : s.initEngine = .ok u) :
    ∃ g newP d, initGeometry s.inst s.operands = .ok g ∧ d.rng = s.draws.rng ∧
      u = State.commitInit { s with draws := d } g newP := by
  unfold State.initEngine at h
  split at h
  · cases h
  next g hg =>
    dsimp only at h
    split at h
    · cases h
      exact ⟨g, _, _, hg, (keepsRng_kernelsOk _ _ _).trans (keepsRng_initParams _ _ _ _ _), rfl⟩
    · cases h

/-! ### The ways a command ends -/

/-- The one command that takes RNG draws (R283). -/
def takesRng : Instr → Bool
  | .randomize _ => true
  | _ => false

/-- The states in which a command that runs in `s` can end: with the completion record alone; with updates of the Ready
engine and OK; or, INIT, with a new engine and OK. -/
inductive Ending (rng : Bool) (s : State) : State → Prop where
  | record (e : Err) : Ending rng s (s.recordCompletion e)
  | updated (g : Geometry) (u : State) (ready : s.engine = some g) (updates : Updates rng g s u) :
      Ending rng s (u.recordCompletion .ok)
  | initialized (g : Geometry) (newP : Per3 Params) (d : Draws) (checked : initGeometry s.inst s.operands = .ok g)
      (rngKept : d.rng = s.draws.rng) :
      Ending rng s ((State.commitInit { s with draws := d } g newP).recordCompletion .ok)

section ending

variable {rng : Bool} {s t : State}

theorem ending_whenReady {body : Geometry → Except Err State}
    (hbody : ∀ g u, body g = .ok u → Updates rng g s u) (h : finish s (whenReady s body) = .next t) :
    Ending rng s t := by
  rcases finish_next_iff.mp h with ⟨u, hu, rfl⟩ | ⟨e, -, rfl⟩
  · unfold whenReady at hu
    split at hu
    · cases hu
    next g hg => exact .updated g u hg (hbody g u hu)
  · exact .record e

theorem ending_runCommandNone {body : Geometry → Except Err State}
    (hbody : ∀ g u, body g = .ok u → Updates rng g s u) (h : runCommandNone s body = .next t) : Ending rng s t :=
  ending_whenReady hbody h

theorem ending_runCommandOne {sel : ChSel} {body : Geometry → Chan → Except Err State}
    (hbody : ∀ g c u, body g c = .ok u → Updates rng g s u) (h : runCommandOne s sel body = .next t) :
    Ending rng s t := by
  refine ending_whenReady (fun g u hu => ?_) h
  split at hu
  · cases hu
  next c _ => exact hbody g c u hu

theorem active_of_chansOf {g : Geometry} {sel : ChSel} {cs : List Chan} (h : chansOf g sel = .ok cs) :
    ∀ c ∈ cs, g.active c = true := by
  cases sel with
  | ch b =>
    by_cases hb : g.active b = true
    · rw [chansOf_active hb] at h
      cases h
      intro c hc
      rwa [List.mem_singleton.mp hc]
    · simp [chansOf, hb] at h
  | all =>
    cases h
    exact fun c hc => active_of_mem_chans hc

theorem ending_runCommandMany {sel : ChSel} {body : Geometry → List Chan → Except Err State}
    (hbody : ∀ g cs u, (∀ c ∈ cs, g.active c = true) → body g cs = .ok u → Updates rng g s u)
    (h : runCommandMany s sel body = .next t) : Ending rng s t := by
  refine ending_whenReady (fun g u hu => ?_) h
  split at hu
  · cases hu
  next cs hcs => exact hbody g cs u (active_of_chansOf hcs) hu

end ending

/-- An effect that is always reached, as `body` gives it. -/
theorem updates_of_ok {rng : Bool} {g : Geometry} {s t u : State} (h : Updates rng g s t)
    (hu : (Except.ok t : Except Err State) = .ok u) : Updates rng g s u := by
  cases hu
  exact h

/-- Every command ends in one of the ways of `Ending`. -/
theorem exec_ending {i : Instr} {s t : State} (h : exec i s = .next t) : Ending (takesRng i) s t := by
  cases i with
  | nop =>
    cases h
    exact .record .ok
  | init =>
    rcases finish_next_iff.mp h with ⟨u, hu, rfl⟩ | ⟨e, -, rfl⟩
    · obtain ⟨g, newP, d, hg, hd, rfl⟩ := initEngine_ok hu
      exact .initialized g newP d hg hd
    · exact .record e
  | importCfg => exact ending_runCommandNone (fun _ _ => updates_importConfig) h
  | setp => exact ending_runCommandMany (fun _ _ _ _ => updates_commitParams) h
  | setpSpread => exact ending_runCommandNone (fun _ _ => updates_setCommonParams) h
  | buildKernel => exact ending_runCommandMany (fun _ _ _ _ => updates_buildKernels) h
  | buildGrowth =>
    exact ending_runCommandMany (fun _ _ _ _ =>
      updates_of_ok (updates_foldl (fun t c _ => .single (.rebuildTable t c)) s)) h
  | step => exact ending_runCommandNone (fun _ _ => updates_of_ok (updates_stepOnce s)) h
  | run => exact ending_runCommandNone (fun _ _ => updates_of_ok (updates_runSteps _ s)) h
  | loadf => exact ending_runCommandOne (fun _ c _ => updates_of_ok (updates_loadField s c)) h
  | fftFwd => exact ending_runCommandNone (fun _ _ => updates_of_ok (updates_transformScratch s false)) h
  | fftInv => exact ending_runCommandNone (fun _ _ => updates_of_ok (updates_transformScratch s true)) h
  | cmul => exact ending_runCommandOne (fun _ c _ => updates_of_ok (updates_multiplyScratch s c)) h
  | growth => exact ending_runCommandOne (fun _ c _ => updates_of_ok (updates_growField s c)) h
  | swap =>
    exact ending_runCommandMany (fun _ _ _ hcs =>
      updates_of_ok (updates_foldl (fun t c hc => .single (.swapBank t c (hcs c hc))) s)) h
  | stats inc => exact ending_runCommandNone (fun _ _ => updates_of_ok (updates_recomputeStats s inc)) h
  | clear =>
    exact ending_runCommandMany (fun _ _ _ _ => updates_of_ok (.tail
      (updates_foldl (fun t _ _ => .single (.writeArray t _ _ rfl List.length_replicate)) s) (.setStats _ _))) h
  | randomize => exact ending_runCommandMany (fun _ cs _ _ => updates_of_ok (updates_randomizeFields s cs)) h
  | place => exact ending_runCommandMany (fun _ _ _ _ => updates_placeFields) h
  | circle =>
    exact ending_runCommandMany (fun _ _ _ _ =>
      updates_of_ok (updates_foldl (fun t c _ => updates_circleField t _ _ _ _ c) s)) h
  | setv =>
    exact ending_runCommandMany (fun g _ _ _ => updates_of_ok
      (updates_foldl (fun t _ _ => .single (.writeElem t _ _ _ rfl (addressedCell_lt s g))) s)) h
  | getv => exact ending_runCommandOne (fun _ _ _ => updates_of_ok (.single (.setResult s _))) h
  | geval => exact ending_runCommandOne (fun _ _ _ => updates_of_ok (updates_resultOf s (keepsRng_gg _ _ _))) h
  | lookup =>
    exact ending_runCommandOne (fun g c _ => updates_of_ok (updates_resultOf s (keepsRng_lookupGrowth s g c _))) h

end Sys2Proof.Machine
end

section
/-! PROOF. What every update keeps: the host's side, the canonical form of memory, inactive banks, the RNG position (O42),
and the caches of R61. -/

namespace Sys2Proof.Machine

open Sys2Proof.Claims

/-! ### The frame -/

/-- An update writes the engine's registers, memory and the model's counts; nothing else. -/
theorem Update.frame {rng : Bool} {g : Geometry} {s t : State} (h : Update rng g s t) :
    t = { s with
      result := t.result, bank := t.bank, com := t.com, p := t.p, stats := t.stats, mem := t.mem, draws := t.draws
      epochs := t.epochs } := by
  cases h with
  | rebuildKernel _ c => rw [rebuildKernel_eq]
  | rebuildTable _ c => rw [rebuildTable_eq]
  | replaceParams _ c new => rw [replaceParams_eq]
  | _ => rfl

theorem Updates.frame {rng : Bool} {g : Geometry} {s t : State} (h : Updates rng g s t) :
    t = { s with
      result := t.result, bank := t.bank, com := t.com, p := t.p, stats := t.stats, mem := t.mem, draws := t.draws
      epochs := t.epochs } := by
  induction h with
  | refl => rfl
  | tail _ hstep ih => rw [hstep.frame, ih]

theorem Updates.engine {rng : Bool} {g : Geometry} {s t : State} (h : Updates rng g s t) : t.engine = s.engine := by
  rw [h.frame]

/-- What every update keeps, any number of updates keep. -/
theorem Updates.keeps {rng : Bool} {g : Geometry} {P : State → Prop}
    (hstep : ∀ s t, Update rng g s t → P s → P t) {s t : State} (h : Updates rng g s t) (hs : P s) : P t := by
  induction h with
  | refl => exact hs
  | tail _ hupdate ih => exact hstep _ _ hupdate ih

/-! ### Rebuilds -/

theorem rebuildKernel_wf {s : State} (g : Geometry) (c : Chan) (h : Memory.wf s.mem) :
    Memory.wf (s.rebuildKernel g c).mem :=
  writeArray_wf _ _ (writeArray_wf _ _ (writeArray_wf _ _ h))

theorem rebuildTable_wf {s : State} (g : Geometry) (c : Chan) (h : Memory.wf s.mem) :
    Memory.wf (s.rebuildTable g c).mem :=
  writeArray_wf _ _ h

/-- What setting P[c] and the two rebuilds keep, replacing a record keeps. -/
theorem replaceParams_keeps {P : State → Prop} {s : State} {g : Geometry} {c : Chan} {new : Params}
    (hkernel : ∀ s, P s → P (s.rebuildKernel g c)) (htable : ∀ s, P s → P (s.rebuildTable g c))
    (h : P { s with p := s.p.set c new }) : P (s.replaceParams g c new) := by
  rw [replaceParams_eq_if]
  split <;> split
  · exact htable _ (hkernel _ h)
  · exact htable _ h
  · exact hkernel _ h
  · exact h

/-! ### Memory, banks and the RNG position -/

theorem Update.wf {rng : Bool} {g : Geometry} {s t : State} (h : Update rng g s t) (hs : Memory.wf s.mem) :
    Memory.wf t.mem := by
  cases h with
  | writeArray _ a ws => exact writeArray_wf a ws hs
  | writeElem _ a i w => exact writeElem_wf a i w hs
  | forgetScratch => exact forgetScratch_wf hs
  | rebuildKernel _ c => exact rebuildKernel_wf g c hs
  | rebuildTable _ c => exact rebuildTable_wf g c hs
  | replaceParams _ c new =>
    exact replaceParams_keeps (P := fun u => Memory.wf u.mem) (fun _ => rebuildKernel_wf g c)
      (fun _ => rebuildTable_wf g c) hs
  | _ => exact hs

theorem Per3.get_set_same {α : Type} (t : Per3 α) (c : Chan) (a : α) : (t.set c a).get c = a := by cases c <;> rfl

theorem Per3.get_set_other {α : Type} (t : Per3 α) {b c : Chan} (h : b ≠ c) (a : α) : (t.set c a).get b = t.get b := by
  cases b <;> cases c <;> first | rfl | exact absurd rfl h

theorem Update.bank_inactive {rng : Bool} {g : Geometry} {s t : State} (h : Update rng g s t) {c : Chan}
    (hc : g.active c = false) : t.bank.get c = s.bank.get c := by
  cases h with
  | swapBank _ b active => exact Per3.get_set_other _ (by rintro rfl; simp [active] at hc) _
  | rebuildKernel _ b => rw [rebuildKernel_bank]
  | rebuildTable _ b => rw [rebuildTable_bank]
  | replaceParams _ b new => rw [replaceParams_eq]
  | _ => rfl

theorem rebuildKernel_rng (s : State) (g : Geometry) (c : Chan) : (s.rebuildKernel g c).draws.rng = s.draws.rng :=
  keepsRng_buildKernel _ _ _

theorem rebuildTable_rng (s : State) (g : Geometry) (c : Chan) : (s.rebuildTable g c).draws.rng = s.draws.rng :=
  keepsRng_buildTable _ _ _ _

theorem Update.rng_kept {g : Geometry} {s t : State} (h : Update false g s t) : t.draws.rng = s.draws.rng := by
  cases h with
  | drawing _ m keeps => exact keeps rfl s.draws
  | rebuildKernel _ c => exact rebuildKernel_rng s g c
  | rebuildTable _ c => exact rebuildTable_rng s g c
  | replaceParams _ c new =>
    exact replaceParams_keeps (P := fun u => u.draws.rng = s.draws.rng) (fun u => (rebuildKernel_rng u g c).trans)
      (fun u => (rebuildTable_rng u g c).trans) rfl
  | _ => rfl

theorem Updates.rng_kept {g : Geometry} {s t : State} (h : Updates false g s t) : t.draws.rng = s.draws.rng :=
  h.keeps (P := fun u => u.draws.rng = s.draws.rng) (fun _ _ hu hs => hu.rng_kept.trans hs) rfl

/-- Settles O42: every update of a command but RANDOMIZE keeps the position, and so do the draws of INIT. -/
theorem onlyRandomizeTakesRngDraws : Obligations.OnlyRandomizeTakesRngDraws := by
  intro i s t hi h
  have hrng : takesRng i = false := by
    cases i with
    | randomize sel => exact absurd rfl (hi sel)
    | _ => rfl
  have hend := exec_ending h
  rw [hrng] at hend
  cases hend with
  | record e => rfl
  | updated g u ready updates => exact updates.rng_kept
  | initialized g newP d checked rngKept => exact (updates_commitInit _ newP).rng_kept.trans rngKept

end Sys2Proof.Machine
end

section
/-! PROOF. The cache invariant R61: data writes keep the caches, rebuilds and parameter changes leave them built. -/

namespace Sys2Proof.Machine

open Sys2Proof.Claims

/-! ### Arrays that are kept -/

/-- The elements of array `a`, as many as a window can have, read in `t` as in `s`. -/
def ArrKept (a : Arr) (s t : State) : Prop := ∀ n, n ≤ 2 ^ 24 → t.readArray a n = s.readArray a n

theorem arrKept_of_mem {a : Arr} {s t : State} (hmem : t.mem = s.mem) (hepochs : t.epochs = s.epochs) : ArrKept a s t :=
  fun n _ => readArray_congr hmem hepochs a n

theorem ArrKept.trans {a : Arr} {s t u : State} (hst : ArrKept a s t) (htu : ArrKept a t u) : ArrKept a s u :=
  fun n hn => (htu n hn).trans (hst n hn)

theorem arrKept_writeArray (s : State) {a b : Arr} (hab : b ≠ a) {ws : List Word} (hlen : ws.length ≤ 2 ^ 24) :
    ArrKept b s (s.writeArray a ws) :=
  fun n hn => readArray_writeArray_other s hab ws n hlen hn

theorem arrKept_writeElem (s : State) {a b : Arr} (hab : b ≠ a) {i : Nat} (w : Word) (hi : i < 2 ^ 24) :
    ArrKept b s (s.writeElem a i w) := fun _ hn =>
  List.map_congr_left fun _ hk => readElem_writeElem_other s (.inl hab) w hi ((List.mem_range.mp hk).trans_le hn)

/-- An element of an array that is no scratch array lies outside the scratch regions. -/
theorem outside_scratch {a : Arr} (hre : a ≠ .sre) (him : a ≠ .sim) {x : Nat} (hx : x < 2 ^ 28) :
    a.base + x < Arr.base .sre ∨ Arr.base .sim + 2 ^ 28 ≤ a.base + x := by
  have hne : a.region ≠ 0x0D ∧ a.region ≠ 0x0E :=
    ⟨fun h => hre (Arr.region_injective h), fun h => him (Arr.region_injective h)⟩
  simp only [Arr.base, Arr.region] at hne ⊢
  omega

theorem arrKept_forgetScratch (s : State) {a : Arr} (hre : a ≠ .sre) (him : a ≠ .sim) :
    ArrKept a s s.forgetScratch := fun _ hn =>
  List.map_congr_left fun i hi => readElem_of_bytes fun j hj => readByte_forgetScratch s _ (by
    have hlt := (List.mem_range.mp hi).trans_le hn
    have hout := outside_scratch hre him (x := 8 * i + j) (by omega)
    unfold Arr.addr
    omega)

/-- Rebuilding a kernel keeps every array but the channel's three. -/
theorem arrKept_rebuildKernel (s : State) (g : Geometry) (c : Chan) {a : Arr} (hk : a ≠ .kernel c) (hre : a ≠ .ktfRe c)
    (him : a ≠ .ktfIm c) : ArrKept a s (s.rebuildKernel g c) := by
  obtain ⟨hlenK, hlenRe, hlenIm⟩ := buildKernel_length (s.fftTables g) (s.p.get c) s.draws
  have hcells : 2 ^ (s.fftTables g).log2n * 2 ^ (s.fftTables g).log2n ≤ 2 ^ 24 := g.cells_le
  exact ((arrKept_writeArray _ hk (hlenK.trans_le hcells)).trans
    (arrKept_writeArray _ hre (hlenRe.trans_le hcells))).trans (arrKept_writeArray _ him (hlenIm.trans_le hcells))

/-- Rebuilding a growth table keeps every other array. -/
theorem arrKept_rebuildTable (s : State) (g : Geometry) (c : Chan) {a : Arr} (h : a ≠ .gtab c) :
    ArrKept a s (s.rebuildTable g c) :=
  arrKept_writeArray _ h ((buildTable_length _ _ g.res s.draws).trans_le g.res_le)

/-! ### The tables of the transform -/

/-- The tables of the transform are kept. -/
def TablesKept (s t : State) : Prop := ArrKept .twCos s t ∧ ArrKept .twSin s t ∧ ArrKept .bitrev s t

theorem TablesKept.fftTables {s t : State} (h : TablesKept s t) (g : Geometry) : t.fftTables g = s.fftTables g := by
  obtain ⟨hcos, hsin, hrev⟩ := h
  have hn := g.n_le
  simp only [State.fftTables, hcos _ (show g.n / 2 ≤ 2 ^ 24 by omega), hsin _ (show g.n / 2 ≤ 2 ^ 24 by omega),
    hrev _ (show g.n ≤ 2 ^ 24 by omega)]

theorem TablesKept.tablesBuilt {s t : State} (h : TablesKept s t) {g : Geometry} (hs : TablesBuilt s g) :
    TablesBuilt t g := by
  obtain ⟨hcos, hsin, hrev⟩ := h
  obtain ⟨hcosBuilt, hsinBuilt, hrevBuilt⟩ := hs
  have hn := g.n_le
  exact ⟨(hcos _ (by omega)).trans hcosBuilt, (hsin _ (by omega)).trans hsinBuilt, (hrev _ (by omega)).trans hrevBuilt⟩

theorem tablesKept_rebuildKernel (s : State) (g : Geometry) (c : Chan) : TablesKept s (s.rebuildKernel g c) :=
  ⟨arrKept_rebuildKernel s g c nofun nofun nofun, arrKept_rebuildKernel s g c nofun nofun nofun,
    arrKept_rebuildKernel s g c nofun nofun nofun⟩

theorem tablesKept_rebuildTable (s : State) (g : Geometry) (c : Chan) : TablesKept s (s.rebuildTable g c) :=
  ⟨arrKept_rebuildTable s g c nofun, arrKept_rebuildTable s g c nofun, arrKept_rebuildTable s g c nofun⟩

/-- The tables INIT writes are read back. -/
theorem tablesBuilt_writeTables (s : State) (g : Geometry) : TablesBuilt (s.writeTables g) g := by
  have hn := g.n_le
  have hcos : (cosTable g.log2n).length = g.n / 2 := by simp [cosTable, Geometry.n]
  have hsin : (sinTable g.log2n).length = g.n / 2 := by simp [sinTable, Geometry.n]
  have hrev : (bitrevTable g.log2n).length = g.n := by simp [bitrevTable, Geometry.n]
  unfold State.writeTables
  refine ⟨?_, ?_, ?_⟩
  · rw [readArray_writeArray_other _ (by simp) _ _ (by omega) (by omega),
      readArray_writeArray_other _ (by simp) _ _ (by omega) (by omega), ← hcos, readArray_writeArray_same]
  · rw [readArray_writeArray_other _ (by simp) _ _ (by omega) (by omega), ← hsin, readArray_writeArray_same]
  · rw [← hrev, readArray_writeArray_same]

/-! ### Kernels -/

/-- A kernel depends on R, KMU and KSIGMA of its record only (R170, R225). -/
theorem buildKernel_congr {p q : Params} (h : p.kernelDiffers q = false) (t : FftTables) :
    buildKernel t p = buildKernel t q := by
  obtain ⟨⟨hr, hkmu⟩, hksigma⟩ : (p.r = q.r ∧ p.kmu = q.kmu) ∧ p.ksigma = q.ksigma := by
    simpa [Params.kernelDiffers] using h
  have hval : kernelVal (2 ^ t.log2n) p = kernelVal (2 ^ t.log2n) q := by
    unfold kernelVal
    rw [hr, hkmu, hksigma]
  simp only [buildKernel, kernelRaw, hval]

theorem Params.kernelDiffers_self (p : Params) : p.kernelDiffers p = false := by simp [Params.kernelDiffers]

theorem Params.tableDiffers_self (p : Params) : p.tableDiffers p = false := by simp [Params.tableDiffers]

/-- A built kernel stays built while its arrays, the tables of the transform and the kernel bits of its record are kept. -/
theorem kernelBuilt_of_kept {s t : State} {g : Geometry} {c : Chan} (h : KernelBuilt s g c)
    (hp : (s.p.get c).kernelDiffers (t.p.get c) = false) (htables : TablesKept s t) (hk : ArrKept (.kernel c) s t)
    (hre : ArrKept (.ktfRe c) s t) (him : ArrKept (.ktfIm c) s t) : KernelBuilt t g c := by
  obtain ⟨d, hkernel, hktfRe, hktfIm⟩ := h
  rw [buildKernel_congr hp, ← htables.fftTables g] at hkernel hktfRe hktfIm
  exact ⟨d, (hk _ g.cells_le).trans hkernel, (hre _ g.cells_le).trans hktfRe, (him _ g.cells_le).trans hktfIm⟩

/-- Rebuilding the kernel of channel `c` builds it and keeps those of the other channels. -/
theorem kernelBuilt_rebuildKernel {s : State} {g : Geometry} {b c : Chan} (h : b ≠ c → KernelBuilt s g b) :
    KernelBuilt (s.rebuildKernel g c) g b := by
  by_cases hbc : b = c
  · subst hbc
    obtain ⟨hk, hre, him⟩ := rebuildKernel_arrays s g b
    refine ⟨s.draws, ?_⟩
    rw [rebuildKernel_p, (tablesKept_rebuildKernel s g b).fftTables g]
    exact ⟨hk, hre, him⟩
  · have hkept : ∀ {a : Arr}, a ≠ .kernel c → a ≠ .ktfRe c → a ≠ .ktfIm c → ArrKept a s (s.rebuildKernel g c) :=
      fun h1 h2 h3 => arrKept_rebuildKernel s g c h1 h2 h3
    refine kernelBuilt_of_kept (h hbc) ?_ (tablesKept_rebuildKernel s g c) (hkept ?_ nofun nofun)
      (hkept nofun ?_ nofun) (hkept nofun nofun ?_)
    · rw [rebuildKernel_p, Params.kernelDiffers_self]
    all_goals simpa using hbc

theorem kernelBuilt_rebuildTable {s : State} {g : Geometry} {b : Chan} (c : Chan) (h : KernelBuilt s g b) :
    KernelBuilt (s.rebuildTable g c) g b :=
  kernelBuilt_of_kept h (by rw [rebuildTable_p, Params.kernelDiffers_self]) (tablesKept_rebuildTable s g c)
    (arrKept_rebuildTable s g c nofun) (arrKept_rebuildTable s g c nofun) (arrKept_rebuildTable s g c nofun)

/-- Setting the record of a channel keeps a built kernel whose bits it does not change. -/
theorem kernelBuilt_setParams {s : State} {g : Geometry} {b c : Chan} {new : Params} (h : KernelBuilt s g b)
    (hsame : b = c → (s.p.get c).kernelDiffers new = false) : KernelBuilt { s with p := s.p.set c new } g b := by
  have hp : (s.p.get b).kernelDiffers ((s.p.set c new).get b) = false := by
    by_cases hbc : b = c
    · subst hbc
      rw [Per3.get_set_same, hsame rfl]
    · rw [Per3.get_set_other _ hbc, Params.kernelDiffers_self]
  exact kernelBuilt_of_kept h hp ⟨arrKept_of_mem rfl rfl, arrKept_of_mem rfl rfl, arrKept_of_mem rfl rfl⟩
    (arrKept_of_mem rfl rfl) (arrKept_of_mem rfl rfl) (arrKept_of_mem rfl rfl)

/-- A parameter change leaves every kernel built: the channel's is rebuilt where its bits differ (R226). -/
theorem kernelBuilt_replaceParams {s : State} {g : Geometry} {b : Chan} (c : Chan) (new : Params)
    (h : KernelBuilt s g b) : KernelBuilt (s.replaceParams g c new) g b := by
  have hkernel : KernelBuilt (if (s.p.get c).kernelDiffers new then { s with p := s.p.set c new }.rebuildKernel g c
      else { s with p := s.p.set c new }) g b := by
    split
    · exact kernelBuilt_rebuildKernel fun hbc => kernelBuilt_setParams h fun he => absurd he hbc
    next hsame => exact kernelBuilt_setParams h fun _ => Bool.not_eq_true _ ▸ hsame
  rw [replaceParams_eq_if]
  split
  · exact kernelBuilt_rebuildTable c hkernel
  · exact hkernel

/-! ### Growth tables -/

/-- A built growth table stays built while it and the table bits of its record are kept (R192, R225). -/
theorem tableBuilt_of_kept {s t : State} {g : Geometry} {c : Chan} (h : TableBuilt s g c)
    (hp : (s.p.get c).tableDiffers (t.p.get c) = false) (hkept : ArrKept (.gtab c) s t) : TableBuilt t g c := by
  obtain ⟨hmu, hsigma⟩ : (s.p.get c).mu = (t.p.get c).mu ∧ (s.p.get c).sigma = (t.p.get c).sigma := by
    simpa [Params.tableDiffers] using hp
  obtain ⟨d, hd⟩ := h
  exact ⟨d, by rw [hkept _ g.res_le, hd, hmu, hsigma]⟩

theorem tableBuilt_rebuildKernel {s : State} {g : Geometry} {b : Chan} (c : Chan) (h : TableBuilt s g b) :
    TableBuilt (s.rebuildKernel g c) g b :=
  tableBuilt_of_kept h (by rw [rebuildKernel_p, Params.tableDiffers_self])
    (arrKept_rebuildKernel s g c nofun nofun nofun)

/-- Rebuilding the table of channel `c` builds it and keeps those of the other channels. -/
theorem tableBuilt_rebuildTable {s : State} {g : Geometry} {b c : Chan} (h : b ≠ c → TableBuilt s g b) :
    TableBuilt (s.rebuildTable g c) g b := by
  by_cases hbc : b = c
  · exact hbc ▸ tableBuilt_rebuildTable_same s g b
  · exact tableBuilt_rebuildTable_other hbc (h hbc)

theorem tableBuilt_setParams {s : State} {g : Geometry} {b c : Chan} {new : Params} (h : TableBuilt s g b)
    (hsame : b = c → (s.p.get c).tableDiffers new = false) : TableBuilt { s with p := s.p.set c new } g b := by
  have hp : (s.p.get b).tableDiffers ((s.p.set c new).get b) = false := by
    by_cases hbc : b = c
    · subst hbc
      rw [Per3.get_set_same, hsame rfl]
    · rw [Per3.get_set_other _ hbc, Params.tableDiffers_self]
  exact tableBuilt_of_kept h hp (arrKept_of_mem rfl rfl)

/-- A parameter change leaves every growth table built: the channel's is rebuilt where its bits differ (R226). -/
theorem tableBuilt_replaceParams {s : State} {g : Geometry} {b : Chan} (c : Chan) (new : Params)
    (h : TableBuilt s g b) : TableBuilt (s.replaceParams g c new) g b := by
  have hset : (b = c → (s.p.get c).tableDiffers new = false) →
      TableBuilt (if (s.p.get c).kernelDiffers new then { s with p := s.p.set c new }.rebuildKernel g c
        else { s with p := s.p.set c new }) g b := fun hsame => by
    split
    · exact tableBuilt_rebuildKernel c (tableBuilt_setParams h hsame)
    · exact tableBuilt_setParams h hsame
  rw [replaceParams_eq_if]
  split
  · exact tableBuilt_rebuildTable fun hbc => hset fun he => absurd he hbc
  next hsame => exact hset fun _ => Bool.not_eq_true _ ▸ hsame

/-! ### Updates -/

/-- Parameters and every array that is no data are kept, and with them the caches. -/
def CachesKept (s t : State) : Prop := t.p = s.p ∧ ∀ a : Arr, a.isData = false → ArrKept a s t

theorem CachesKept.tables {s t : State} (h : CachesKept s t) : TablesKept s t := ⟨h.2 _ rfl, h.2 _ rfl, h.2 _ rfl⟩

theorem CachesKept.kernelBuilt {s t : State} (h : CachesKept s t) {g : Geometry} {c : Chan} (hs : KernelBuilt s g c) :
    KernelBuilt t g c :=
  kernelBuilt_of_kept hs (by rw [h.1, Params.kernelDiffers_self]) h.tables (h.2 _ rfl) (h.2 _ rfl) (h.2 _ rfl)

theorem CachesKept.tableBuilt {s t : State} (h : CachesKept s t) {g : Geometry} {c : Chan} (hs : TableBuilt s g c) :
    TableBuilt t g c :=
  tableBuilt_of_kept hs (by rw [h.1, Params.tableDiffers_self]) (h.2 _ rfl)

theorem cachesKept_of_mem {s t : State} (hp : t.p = s.p) (hmem : t.mem = s.mem) (hepochs : t.epochs = s.epochs) :
    CachesKept s t := ⟨hp, fun _ _ => arrKept_of_mem hmem hepochs⟩

/-- Writing an element of a data array keeps the caches. -/
theorem cachesKept_writeElem (s : State) {a : Arr} (ha : a.isData = true) {i : Nat} (w : Word) (hi : i < 2 ^ 24) :
    CachesKept s (s.writeElem a i w) :=
  ⟨rfl, fun b hb => arrKept_writeElem s (by rintro rfl; simp [ha] at hb) w hi⟩

/-- An update keeps the caches, or rebuilds a channel's, or changes a channel's record with its rebuilds. -/
theorem Update.caches_cases {rng : Bool} {g : Geometry} {s t : State} (h : Update rng g s t) :
    CachesKept s t ∨ ∃ c, t = s.rebuildKernel g c ∨ t = s.rebuildTable g c ∨ ∃ new, t = s.replaceParams g c new := by
  cases h with
  | writeArray _ a ws data length =>
    exact .inl ⟨rfl, fun b hb => arrKept_writeArray s (by rintro rfl; simp [data] at hb) (length.trans_le g.cells_le)⟩
  | writeElem _ a i w data index => exact .inl (cachesKept_writeElem s data w (index.trans_le g.cells_le))
  | forgetScratch =>
    exact .inl ⟨rfl, fun b hb => arrKept_forgetScratch s (by rintro rfl; cases hb) (by rintro rfl; cases hb)⟩
  | rebuildKernel _ c => exact .inr ⟨c, .inl rfl⟩
  | rebuildTable _ c => exact .inr ⟨c, .inr (.inl rfl)⟩
  | replaceParams _ c new => exact .inr ⟨c, .inr (.inr ⟨new, rfl⟩)⟩
  | _ => exact .inl (cachesKept_of_mem rfl rfl rfl)

theorem Update.tablesBuilt {rng : Bool} {g : Geometry} {s t : State} (h : Update rng g s t) (hs : TablesBuilt s g) :
    TablesBuilt t g := by
  rcases h.caches_cases with hkept | ⟨c, rfl | rfl | ⟨new, rfl⟩⟩
  · exact hkept.tables.tablesBuilt hs
  · exact (tablesKept_rebuildKernel s g c).tablesBuilt hs
  · exact (tablesKept_rebuildTable s g c).tablesBuilt hs
  · exact replaceParams_keeps (P := fun u => TablesBuilt u g) (fun u => (tablesKept_rebuildKernel u g c).tablesBuilt)
      (fun u => (tablesKept_rebuildTable u g c).tablesBuilt) hs

theorem Update.kernelBuilt {rng : Bool} {g : Geometry} {s t : State} (h : Update rng g s t) {b : Chan}
    (hs : KernelBuilt s g b) : KernelBuilt t g b := by
  rcases h.caches_cases with hkept | ⟨c, rfl | rfl | ⟨new, rfl⟩⟩
  · exact hkept.kernelBuilt hs
  · exact kernelBuilt_rebuildKernel fun _ => hs
  · exact kernelBuilt_rebuildTable c hs
  · exact kernelBuilt_replaceParams c new hs

theorem Update.tableBuilt {rng : Bool} {g : Geometry} {s t : State} (h : Update rng g s t) {b : Chan}
    (hs : TableBuilt s g b) : TableBuilt t g b := by
  rcases h.caches_cases with hkept | ⟨c, rfl | rfl | ⟨new, rfl⟩⟩
  · exact hkept.tableBuilt hs
  · exact tableBuilt_rebuildKernel c hs
  · exact tableBuilt_rebuildTable fun _ => hs
  · exact tableBuilt_replaceParams c new hs

/-! ### The caches of a channel, and of the block -/

/-- The caches of one channel are those of its parameters. -/
def ChannelBuilt (s : State) (g : Geometry) (c : Chan) : Prop := KernelBuilt s g c ∧ TableBuilt s g c

theorem Updates.channelBuilt {rng : Bool} {g : Geometry} {s t : State} (h : Updates rng g s t) {c : Chan}
    (hs : ChannelBuilt s g c) : ChannelBuilt t g c :=
  h.keeps (P := fun u => ChannelBuilt u g c) (fun _ _ hu hb => ⟨hu.kernelBuilt hb.1, hu.tableBuilt hb.2⟩) hs

theorem Updates.tablesBuilt {rng : Bool} {g : Geometry} {s t : State} (h : Updates rng g s t) (hs : TablesBuilt s g) :
    TablesBuilt t g :=
  h.keeps (P := fun u => TablesBuilt u g) (fun _ _ => Update.tablesBuilt) hs

/-- Building a channel at INIT builds its caches: what follows the two rebuilds are data writes. -/
theorem channelBuilt_initChannel (s : State) (g : Geometry) (c : Chan) : ChannelBuilt (s.initChannel g c) g c := by
  have hbuilt : ChannelBuilt ((s.rebuildKernel g c).rebuildTable g c) g c :=
    ⟨kernelBuilt_rebuildTable c (kernelBuilt_rebuildKernel fun h => absurd rfl h), tableBuilt_rebuildTable_same _ g c⟩
  have hfields (t : State) : Updates false g t ((t.writeArray (.field c false) (List.replicate g.cells posZero)).writeArray
      (.field c true) (List.replicate g.cells posZero)) :=
    (Relation.ReflTransGen.single (.writeArray t (.field c false) _ rfl List.length_replicate)).tail
      (.writeArray _ (.field c true) _ rfl List.length_replicate)
  exact (hfields _).channelBuilt hbuilt

/-- Building the channels of a list builds the caches of each. -/
theorem channelBuilt_foldl_initChannel {g : Geometry} {c : Chan} {cs : List Chan} (hc : c ∈ cs) (s : State) :
    ChannelBuilt (cs.foldl (fun t c => t.initChannel g c) s) g c := by
  induction cs generalizing s with
  | nil => cases hc
  | cons b cs ih =>
    have hrest : Updates false g (s.initChannel g b) (cs.foldl (fun t c => t.initChannel g c) (s.initChannel g b)) :=
      updates_foldl (fun t a _ => updates_initChannel t a) _
    rw [List.foldl_cons]
    rcases List.mem_cons.mp hc with rfl | hc
    · exact hrest.channelBuilt (channelBuilt_initChannel s g c)
    · exact ih hc _

theorem commitInit_engine (s : State) (g : Geometry) (newP : Per3 Params) :
    (s.commitInit g newP).engine = some g :=
  (updates_commitInit (rng := false) s newP).engine.trans (writeTables_engine _ g)

theorem cachesValid_commitInit (s : State) (g : Geometry) (newP : Per3 Params) :
    CachesValid (s.commitInit g newP) := by
  intro g' hg'
  obtain rfl : g = g' := Option.some.inj ((commitInit_engine s g newP).symm.trans hg')
  exact ⟨(updates_commitInit (rng := false) s newP).tablesBuilt (tablesBuilt_writeTables _ g),
    fun c hc => channelBuilt_foldl_initChannel (mem_chans_of_active hc) _⟩

theorem cachesValid_of_kept {s t : State} (hengine : t.engine = s.engine) (hkept : CachesKept s t)
    (h : CachesValid s) : CachesValid t := by
  intro g hg
  obtain ⟨htables, hchans⟩ := h g (hengine.symm.trans hg)
  exact ⟨hkept.tables.tablesBuilt htables,
    fun c hc => ⟨hkept.kernelBuilt (hchans c hc).1, hkept.tableBuilt (hchans c hc).2⟩⟩

/-- A change of registers that are no parameters keeps the caches valid. -/
theorem cachesValid_of_mem {s t : State} (h : CachesValid s) (hengine : t.engine = s.engine) (hp : t.p = s.p)
    (hmem : t.mem = s.mem) (hepochs : t.epochs = s.epochs) : CachesValid t :=
  cachesValid_of_kept hengine (cachesKept_of_mem hp hmem hepochs) h

theorem cachesValid_recordCompletion {s : State} (e : Err) (h : CachesValid s) :
    CachesValid (s.recordCompletion e) :=
  cachesValid_of_mem h rfl rfl rfl rfl

theorem Updates.cachesValid {rng : Bool} {g : Geometry} {s t : State} (h : Updates rng g s t) (hg : s.engine = some g)
    (hs : CachesValid s) : CachesValid t := by
  intro g' hg'
  obtain rfl : g = g' := Option.some.inj (hg.symm.trans (h.engine.symm.trans hg'))
  obtain ⟨htables, hchans⟩ := hs g hg
  exact ⟨h.tablesBuilt htables, fun c hc => h.channelBuilt (hchans c hc)⟩

/-- Every command keeps the caches valid. -/
theorem exec_cachesValid {i : Instr} {s t : State} (h : exec i s = .next t) (hs : CachesValid s) : CachesValid t := by
  cases exec_ending h with
  | record e => exact cachesValid_recordCompletion e hs
  | updated g u ready updates => exact cachesValid_recordCompletion .ok (updates.cachesValid ready hs)
  | initialized g newP d checked rngKept => exact cachesValid_recordCompletion .ok (cachesValid_commitInit _ g newP)

end Sys2Proof.Machine
end

section
/-! PROOF. Every effect of a host access, what a property needs so that every event keeps it, and O51. -/

namespace Sys2Proof.Machine

open Sys2Proof.Claims

/-! ### Host accesses -/

/-- The states a host access of `s` can leave (R80 to R92): one for each way an access is answered. -/
inductive AccessEffect (s : State) : State → Prop where
  | read (data : Word) : AccessEffect s (s.okay data)
  | refused : AccessEffect s s.slverr
  | overrun (busy : s.busy = true) : AccessEffect s { s with overrun := true }.slverr
  | status (w : Word) : AccessEffect s ((s.writeStatus w).okay 0)
  | irqEn (w : Word) : AccessEffect s ((s.writeIrqEn w).okay 0)
  | irqStatus (w : Word) : AccessEffect s ((s.writeIrqStatus w).okay 0)
  | accepted (idle : s.busy = false) (w : Word) : AccessEffect s ((s.accept w).okay 0)
  | reset (idle : s.busy = false) : AccessEffect s (s.resetBlock.okay 0)
  | staged (idle : s.busy = false) (r : StagedRegs) : AccessEffect s ({ s with staged := r }.okay 0)
  | window (idle : s.busy = false) (r : Nat) (win : Window) (i : Nat) (w : Word) (shown : s.windowOf r = some win)
      (writable : win.writable = true) (index : i < s.arrSize win.arr) :
      AccessEffect s ((s.writeElem win.arr i w).okay 0)

/-- A register with no effect of its own (R57): a write stores while idle, where the register is one that stores, and is
refused elsewhere. -/
theorem writeReg_other (s : State) {r : Reg} (w : Word)
    (h : ¬ (r = .status ∨ r = .irqEn ∨ r = .irqStatus ∨ r = .cmd ∨ r = .ctrl)) :
    s.writeReg r w =
      if s.busy then s.slverr
      else match s.staged.write w r with
        | some staged => { s with staged := staged }.okay 0
        | none => s.slverr := by
  cases r <;> first | rfl | exact absurd (by decide) h

theorem writeReg_effect (s : State) (r : Reg) (w : Word) : AccessEffect s (s.writeReg r w) := by
  by_cases hspecial : r = .status ∨ r = .irqEn ∨ r = .irqStatus ∨ r = .cmd ∨ r = .ctrl
  · rcases hspecial with rfl | rfl | rfl | rfl | rfl
    · exact .status w
    · exact .irqEn w
    · exact .irqStatus w
    · simp only [State.writeReg]
      split
      next h => exact .overrun h
      next h => exact .accepted (Bool.not_eq_true _ ▸ h) w
    · simp only [State.writeReg]
      split
      · exact .refused
      next h =>
        split
        · exact .reset (Bool.not_eq_true _ ▸ h)
        · exact .read 0
  · rw [writeReg_other s w hspecial]
    split
    · exact .refused
    next h =>
      split
      next staged _ => exact .staged (Bool.not_eq_true _ ▸ h) staged
      · exact .refused

theorem readWord_effect (s : State) (addr : BitVec 36) : AccessEffect s (s.readWord addr) := by
  unfold State.readWord
  split
  · split
    · exact .read _
    · exact .refused
  · split
    · exact .refused
    · split
      · exact .refused
      · split
        · exact .read _
        · exact .refused

theorem writeWord_effect (s : State) (addr : BitVec 36) (w : Word) : AccessEffect s (s.writeWord addr w) := by
  unfold State.writeWord
  split
  · split
    next r _ => exact writeReg_effect s r w
    · exact .refused
  · split
    · exact .refused
    next win hwin =>
      split
      · exact .refused
      next h =>
        split
        next hok =>
          rw [Bool.and_eq_true, decide_eq_true_eq] at hok
          exact .window (Bool.not_eq_true _ ▸ h) _ win _ w hwin hok.1 hok.2
        · exact .refused

/-- Every access has one of the effects of `AccessEffect`. -/
theorem performAccess_effect (s : State) (a : BusAccess) : AccessEffect s (s.performAccess a) := by
  cases a with
  | read addr size =>
    simp only [State.performAccess]
    split
    · exact readWord_effect s addr
    · exact .refused
  | write addr size w =>
    simp only [State.performAccess]
    split
    · exact writeWord_effect s addr w
    · exact .refused

/-! ### Windows -/

/-- The array a writable window shows is a data array (R85). -/
theorem isData_of_writable {s : State} {r : Nat} {win : Window} (h : s.windowOf r = some win)
    (hw : win.writable = true) : win.arr.isData = true := by
  unfold State.windowOf at h
  split at h <;> cases h <;> first | rfl | cases hw

theorem sizeForChan_le {s : State} (c : Chan) {f : Geometry → Nat} {b : Nat} (h : ∀ g, f g ≤ b) :
    s.sizeForChan c f ≤ b := by
  unfold State.sizeForChan
  split
  · exact Nat.zero_le b
  · split
    · exact h _
    · exact Nat.zero_le b

theorem sizeOf_le {s : State} {f : Geometry → Nat} {b : Nat} (h : ∀ g, f g ≤ b) : s.sizeOf f ≤ b := by
  unfold State.sizeOf
  split
  · exact Nat.zero_le b
  · exact h _

/-- No window has more than 2^24 elements (R85). -/
theorem arrSize_le (s : State) (a : Arr) : s.arrSize a ≤ 2 ^ 24 := by
  have hn : ∀ g : Geometry, g.n ≤ 2 ^ 24 := fun g => g.n_le.trans (by decide)
  cases a with
  | sre => exact sizeOf_le Geometry.cells_le
  | sim => exact sizeOf_le Geometry.cells_le
  | gtab c => exact sizeForChan_le c Geometry.res_le
  | twCos => exact sizeOf_le fun g => (Nat.div_le_self _ _).trans (hn g)
  | twSin => exact sizeOf_le fun g => (Nat.div_le_self _ _).trans (hn g)
  | bitrev => exact sizeOf_le hn
  | pattern =>
    calc s.inst.nMax * s.inst.nMax ≤ 2 ^ 12 * 2 ^ 12 := Nat.mul_le_mul s.inst.nMax_le s.inst.nMax_le
      _ = 2 ^ 24 := by decide
  | field c | kernel c | ktfRe c | ktfIm c | stage c => exact sizeForChan_le c Geometry.cells_le

/-! ### Steps -/

/-- What taking an event off the list, host accesses, resets, completion records and commands keep, every step keeps. -/
theorem step_keeps {P : State → Prop} (hschedule : ∀ s es, P s → P { s with schedule := es })
    (haccess : ∀ s t, AccessEffect s t → P s → P t) (hreset : ∀ s, P s → P s.resetBlock)
    (hrecord : ∀ s e, P s → P (s.recordCompletion e)) (hexec : ∀ i s t, exec i s = .next t → P s → P t)
    {s t : State} (h : step s = .next t) (hs : P s) : P t := by
  have hcomplete : ∀ u, P u → completeEvent u = .next t → P t := by
    intro u hu hnext
    unfold completeEvent at hnext
    split at hnext
    next r _ =>
      unfold completeWord at hnext
      split at hnext
      next i _ => exact hexec i u t hnext hu
      next =>
        cases hnext
        exact hrecord u _ hu
    · cases hnext
      exact hu
  unfold step State.nextEvent at h
  rcases hlist : s.schedule with _ | ⟨e, es⟩
  · rw [hlist] at h
    cases hbusy : s.busy with
    | true => exact hcomplete s hs (by simpa [hbusy] using h)
    | false =>
      obtain rfl : s = t := by simpa [hbusy] using h
      exact hs
  · rw [hlist] at h
    have hrest := hschedule s es hs
    cases e with
    | access a =>
      cases h
      exact haccess _ _ (performAccess_effect _ a) hrest
    | complete => exact hcomplete _ hrest h
    | resetInput =>
      cases h
      exact hreset _ hrest

/-! ### The caches -/

theorem AccessEffect.cachesValid {s t : State} (h : AccessEffect s t) (hs : CachesValid s) : CachesValid t := by
  cases h with
  | reset idle => exact fun g hg => nomatch hg
  | window idle r win i w shown writable index =>
    have hkept := cachesKept_writeElem s (isData_of_writable shown writable) w (index.trans_le (arrSize_le s win.arr))
    have hwritten : CachesValid (s.writeElem win.arr i w) :=
      cachesValid_of_kept (writeElem_engine s win.arr i w) hkept hs
    exact cachesValid_of_mem hwritten rfl rfl rfl rfl
  | _ => exact cachesValid_of_mem hs rfl rfl rfl rfl

/-- Settles O51: commands keep the caches by their updates, the host writes data arrays only, and a reset leaves none. -/
theorem stepKeepsTheCachesValid : Obligations.StepKeepsTheCachesValid := fun _ _ hs h =>
  step_keeps (fun _ _ h => cachesValid_of_mem h rfl rfl rfl rfl) (fun _ _ => AccessEffect.cachesValid)
    (fun _ _ _ hg => nomatch hg) (fun _ e => cachesValid_recordCompletion e) (fun _ _ _ => exec_cachesValid) h hs

end Sys2Proof.Machine
end

section
/-! PROOF. The invariant of the machine: what commands, resets and host accesses keep of it (O50, O52). -/

namespace Sys2Proof.Machine

open Sys2Proof.Claims

/-! ### Banks of inactive channels, and the geometry INIT latches -/

theorem activeChan_ready {s : State} {g : Geometry} (h : s.engine = some g) (c : Chan) : s.activeChan c = g.active c := by
  rw [State.activeChan, h]

theorem Updates.bank_inactive {rng : Bool} {g : Geometry} {s t : State} (h : Updates rng g s t) {c : Chan}
    (hc : g.active c = false) : t.bank.get c = s.bank.get c :=
  h.keeps (P := fun u => u.bank.get c = s.bank.get c) (fun _ _ hu hs => (hu.bank_inactive hc).trans hs) rfl

theorem Updates.wf {rng : Bool} {g : Geometry} {s t : State} (h : Updates rng g s t) (hs : Memory.wf s.mem) :
    Memory.wf t.mem :=
  h.keeps (P := fun u => Memory.wf u.mem) (fun _ _ => Update.wf) hs

/-- INIT latches a geometry within the limits of the block's constants (R47, R220). -/
theorem initGeometry_le {inst : Instance} {r : StagedRegs} {g : Geometry} (h : initGeometry inst r = .ok g) :
    g.log2n ≤ inst.log2NMax ∧ g.res ≤ inst.resMax := by
  simp only [initGeometry] at h
  split at h
  · cases h
  split at h
  · cases h
  next hn =>
    split at h
    · cases h
    split at h
    · cases h
    next hres =>
      cases h
      have hlog : r.gridSize.toNat.log2 ≤ inst.log2NMax := by
        calc r.gridSize.toNat.log2 ≤ (2 ^ inst.log2NMax).log2 := by
              rw [Nat.log2_eq_log_two, Nat.log2_eq_log_two]
              exact Nat.log_mono_right (by unfold Instance.nMax at hn; omega)
          _ = inst.log2NMax := Nat.log2_two_pow
      have hpos : 1 ≤ inst.log2NMax := Nat.succ_pos _
      have hlogMod := Nat.mod_le (r.gridSize.toNat.log2 - 1) 12
      have hresMod := Nat.mod_le (r.resCfg.toNat - 2) 16777215
      simp only [Geometry.log2n, Geometry.res, Fin.ofNat]
      omega

/-! ### Completion and commands -/

theorem machineInv_recordCompletion {s : State} (e : Err) (h : MachineInv s) : MachineInv (s.recordCompletion e) := by
  obtain ⟨hwf, hgeometry, hbank, herr, -, hblank⟩ := h
  refine ⟨hwf, hgeometry, hbank, fun hok => ?_, fun r hr => (nomatch hr), hblank⟩
  simp only [recordCompletion_firstErr, recordCompletion_errCmd] at hok ⊢
  split at hok
  next hnew => exact absurd hok hnew.1
  next hold =>
    rw [if_neg hold]
    exact herr hok

/-- Updates of the Ready engine keep the invariant. -/
theorem Updates.machineInv {rng : Bool} {g : Geometry} {s t : State} (h : Updates rng g s t) (hg : s.engine = some g)
    (hs : MachineInv s) : MachineInv t := by
  obtain ⟨hwf, hgeometry, hbank, herr, hrunning, -⟩ := hs
  have hgt : t.engine = some g := h.engine.trans hg
  refine ⟨h.wf hwf, ?_, fun c hc => ?_, ?_, ?_, fun hnone => ?_⟩
  · rw [h.frame]
    exact hgeometry
  · rw [activeChan_ready hgt] at hc
    rw [h.bank_inactive hc]
    exact hbank c ((activeChan_ready hg c).trans hc)
  · rw [h.frame]
    exact herr
  · rw [h.frame]
    exact hrunning
  · rw [hgt] at hnone
    cases hnone

theorem initStart_wf {s : State} (g : Geometry) (newP : Per3 Params) (h : Memory.wf s.mem) :
    Memory.wf (s.initStart g newP).mem :=
  writeArray_wf _ _ (writeArray_wf _ _ (writeArray_wf _ _ (forgetSized_wf h)))

/-- The commit of INIT gives a state that meets the invariant. -/
theorem machineInv_commitInit {s : State} {g : Geometry} (newP : Per3 Params)
    (hg : g.log2n ≤ s.inst.log2NMax ∧ g.res ≤ s.inst.resMax) (hs : MachineInv s) :
    MachineInv (s.commitInit g newP) := by
  obtain ⟨hwf, -, -, herr, hrunning, -⟩ := hs
  have hready : (s.initStart g newP).engine = some g := rfl
  refine (updates_commitInit (rng := false) s newP).machineInv hready
    ⟨initStart_wf g newP hwf, fun g' hg' => ?_, fun c _ => ?_, herr, hrunning, fun hnone => nomatch hnone⟩
  · cases hg'
    exact hg
  · cases c <;> rfl

/-- Every command keeps the invariant. -/
theorem exec_machineInv {i : Instr} {s t : State} (h : exec i s = .next t) (hs : MachineInv s) : MachineInv t := by
  cases exec_ending h with
  | record e => exact machineInv_recordCompletion e hs
  | updated g u ready updates => exact machineInv_recordCompletion .ok (updates.machineInv ready hs)
  | initialized g newP d checked rngKept =>
    exact machineInv_recordCompletion .ok
      (machineInv_commitInit (s := { s with draws := d }) newP (initGeometry_le checked) hs)

/-! ### Resets -/

theorem per3_const_get {α : Type} (a : α) (c : Chan) : (Per3.const a).get c = a := by cases c <;> rfl

theorem machineInv_afterReset (inst : Instance) (draws : Draws) (epochs : Epochs) (schedule : List HostEvent)
    (resp : Option BusResp) : MachineInv (State.afterReset inst draws epochs schedule resp) :=
  ⟨List.Pairwise.nil, fun _ hg => (nomatch hg), fun c _ => per3_const_get false c, fun _ => rfl,
    fun _ hr => (nomatch hr), fun _ => ⟨rfl, rfl, rfl, rfl, fun _ _ => rfl⟩⟩

/-! ### Host accesses -/

theorem running_of_idle {s : State} (h : s.busy = false) : s.running = none := by
  simpa [State.busy] using h

theorem enableWord_high (i : IrqRegs) : i.enableWord.extractLsb' 2 62 = 0 := by
  unfold IrqRegs.enableWord
  cases i.errEn <;> cases i.doneEn <;> decide

/-- Before the first INIT no window but PATTERN has an element (R85). -/
theorem arrSize_uninitialized {s : State} (h : s.engine = none) {a : Arr} (ha : a ≠ .pattern) : s.arrSize a = 0 := by
  cases a <;> first
    | exact absurd rfl ha
    | simp only [State.arrSize, State.sizeForChan, State.sizeOf, h]

/-- A write to an element of PATTERN leaves every other region's bytes as they were. -/
theorem read_writeElem_pattern (s : State) {i : Nat} (w : Word) (hi : i < 2 ^ 24) {x : Nat}
    (hx : ¬ InArr .pattern (2 ^ 25) x) : Memory.read (s.writeElem .pattern i w).mem x = Memory.read s.mem x := by
  rw [writeElem_mem]
  refine Memory.read_store_outside _ _ _ _ ?_
  unfold InArr at hx
  rw [wordBytes_length, Arr.addr]
  omega

/-- A window write keeps the invariant: before the first INIT it can only be to PATTERN. -/
theorem machineInv_writeElem {s : State} {a : Arr} {i : Nat} (w : Word) (hi : i < s.arrSize a) (hs : MachineInv s) :
    MachineInv (s.writeElem a i w) := by
  obtain ⟨hwf, hgeometry, hbank, herr, hrunning, hblank⟩ := hs
  refine ⟨writeElem_wf a i w hwf, hgeometry, hbank, herr, hrunning, fun hnone => ?_⟩
  obtain ⟨hp, hcom, hstats, hresult, hmem⟩ := hblank hnone
  refine ⟨hp, hcom, hstats, hresult, fun x hx => ?_⟩
  obtain rfl : a = .pattern := by
    by_contra hne
    rw [arrSize_uninitialized (s := s) hnone hne] at hi
    exact Nat.not_lt_zero i hi
  rw [read_writeElem_pattern s w (hi.trans_le (arrSize_le s _)) hx, hmem x hx]

theorem AccessEffect.machineInv {s t : State} (h : AccessEffect s t) (hs : MachineInv s) : MachineInv t := by
  have hall := hs
  obtain ⟨hwf, hgeometry, hbank, herr, hrunning, hblank⟩ := hs
  cases h with
  | status w =>
    refine ⟨hwf, hgeometry, hbank, fun hok => ?_, hrunning, hblank⟩
    cases hw : w.getLsbD 2 with
    | true => simp [State.okay, State.writeStatus, hw]
    | false =>
      simp only [State.okay, State.writeStatus, hw, Bool.false_eq_true, if_false] at hok ⊢
      exact herr hok
  | accepted idle w =>
    refine ⟨hwf, hgeometry, hbank, herr, fun r hr => ?_, hblank⟩
    cases hr
    exact ⟨rfl, rfl, enableWord_high s.irq⟩
  | reset idle => exact machineInv_afterReset _ _ _ _ _
  | staged idle r =>
    refine ⟨hwf, hgeometry, hbank, herr, fun r hr => ?_, hblank⟩
    cases (running_of_idle idle).symm.trans hr
  | window idle r win i w shown writable index => exact machineInv_writeElem w index hall
  | _ => exact hall

/-- Settles O50: commands keep the invariant by their updates, accesses by their effects. -/
theorem stepKeepsTheMachineInvariant : Obligations.StepKeepsTheMachineInvariant := fun _ _ hs h =>
  step_keeps (fun _ _ h => h) (fun _ _ => AccessEffect.machineInv) (fun _ _ => machineInv_afterReset _ _ _ _ _)
    (fun _ e => machineInv_recordCompletion e) (fun _ _ _ => exec_machineInv) h hs

end Sys2Proof.Machine
end

section
/-! PROOF. The READY check before INIT, the command and flag registers, and resets (O9, O11, O12, O13, O20, O52). -/

namespace Sys2Proof.Machine

open Sys2Proof.Claims

/-! ### Before the first INIT (R119) -/

theorem runCommandNone_uninitialized {s : State} (h : s.engine = none) (body : Geometry → Except Err State) :
    runCommandNone s body = .next (s.recordCompletion .notReady) := by
  rw [runCommandNone, whenReady_uninitialized h, finish_error]

theorem runCommandOne_uninitialized {s : State} (h : s.engine = none) (sel : ChSel)
    (body : Geometry → Chan → Except Err State) :
    runCommandOne s sel body = .next (s.recordCompletion .notReady) := by
  rw [runCommandOne, whenReady_uninitialized h, finish_error]

theorem runCommandMany_uninitialized {s : State} (h : s.engine = none) (sel : ChSel)
    (body : Geometry → List Chan → Except Err State) :
    runCommandMany s sel body = .next (s.recordCompletion .notReady) := by
  rw [runCommandMany, whenReady_uninitialized h, finish_error]

/-- Settles O9: every command but NOP and INIT makes the READY check first, whatever its channel class. -/
theorem uninitializedRefusesCommands : Obligations.UninitializedRefusesCommands := by
  intro i s h hnop hinit
  cases i with
  | nop => exact absurd rfl hnop
  | init => exact absurd rfl hinit
  | importCfg | setpSpread | step | run | fftFwd | fftInv | stats => exact runCommandNone_uninitialized h _
  | loadf | cmul | growth | getv | geval | lookup => exact runCommandOne_uninitialized h _ _
  | setp | buildKernel | buildGrowth | swap | clear | randomize | place | circle | setv =>
    exact runCommandMany_uninitialized h _ _

/-! ### Accesses to registers -/

theorem performAccess_read_reg (s : State) (r : Reg) :
    s.performAccess (.read (BitVec.ofNat 36 r.offset) 8) = s.okay (s.readReg r) :=
  (s.performAccess_register r 0).1

theorem performAccess_write_reg (s : State) (r : Reg) (w : Word) :
    s.performAccess (.write (BitVec.ofNat 36 r.offset) 8 w) = s.writeReg r w :=
  (s.performAccess_register r w).2

theorem writeReg_cmd_idle {s : State} (h : s.busy = false) (w : Word) : s.writeReg .cmd w = (s.accept w).okay 0 := by
  simp [State.writeReg, h]

theorem writeReg_cmd_busy {s : State} (h : s.busy = true) (w : Word) :
    s.writeReg .cmd w = { s with overrun := true }.slverr := by
  simp [State.writeReg, h]

theorem writeReg_ctrl_idle {s : State} (h : s.busy = false) (w : Word) :
    s.writeReg .ctrl w = if w.getLsbD 0 then s.resetBlock.okay 0 else s.okay 0 := by
  simp [State.writeReg, h]

/-- Settles O11: the two answers to a CMD write, what CMD reads as, and the operands a command takes. -/
theorem cmdWriteAcceptsOrOverruns : Obligations.CmdWriteAcceptsOrOverruns := by
  refine fun s w => ⟨fun h => ?_, fun h => ?_, performAccess_read_reg s .cmd, fun r h => ?_, fun h => ?_⟩
  · exact (performAccess_write_reg s .cmd w).trans (writeReg_cmd_idle h w)
  · exact (performAccess_write_reg s .cmd w).trans (writeReg_cmd_busy h w)
  · rw [State.operands, h]
  · rw [State.operands, h]

/-- Settles O12. -/
theorem statusWriteClearsNamedBits : Obligations.StatusWriteClearsNamedBits :=
  fun s w => performAccess_write_reg s .status w

/-! ### The interrupt registers (R41, R42, R335) -/

/-- The line is high exactly while the two register words have a common bit. -/
theorem line_iff_words (i : IrqRegs) : i.line = true ↔ (i.statusWord &&& i.enableWord) ≠ 0 := by
  unfold IrqRegs.line IrqRegs.statusWord IrqRegs.enableWord
  cases i.doneEn <;> cases i.errEn <;> cases i.donePend <;> cases i.errPend <;> decide

theorem line_iff (i : IrqRegs) :
    i.line = true ↔ (i.donePend = true ∧ i.doneEn = true) ∨ (i.errPend = true ∧ i.errEn = true) := by
  rw [IrqRegs.line, Bool.or_eq_true, Bool.and_eq_true, Bool.and_eq_true]

/-- Settles O13: while idle the two registers read as their words. -/
theorem interruptRegistersAndLine : Obligations.InterruptRegistersAndLine := by
  refine fun s w => ⟨performAccess_write_reg s .irqEn w, performAccess_write_reg s .irqStatus w, line_iff s.irq,
    fun idle => ?_⟩
  rw [line_iff_words, State.readReg, State.readReg, State.irqEnWord_idle (running_of_idle idle)]

/-! ### Resets (R360 to R364) -/

/-- Every register after a reset reads as R360's table says. -/
theorem readReg_afterReset (inst : Instance) (draws : Draws) (epochs : Epochs) (schedule : List HostEvent)
    (resp : Option BusResp) (r : Reg) :
    (State.afterReset inst draws epochs schedule resp).readReg r = resetWord inst r := by
  cases r with
  | status =>
    show (0 : BitVec 40) ++ Err.ok.code ++ Err.ok.code ++ (0 : BitVec 3) ++ BitVec.ofBool false ++ BitVec.ofBool false
      ++ BitVec.ofBool false ++ BitVec.ofBool false ++ BitVec.ofBool false = (0 : Word)
    decide
  | irqEn =>
    show IrqRegs.enableWord ⟨false, false, false, false⟩ = 0
    decide
  | irqStatus =>
    show IrqRegs.statusWord ⟨false, false, false, false⟩ = 0
    decide
  | bank =>
    show (0 : BitVec 61) ++ BitVec.ofBool false ++ BitVec.ofBool false ++ BitVec.ofBool false = (0 : Word)
    decide
  | statsFlags =>
    show StatsRegs.zero.flagsWord = 0
    decide
  | stg k => cases k <;> rfl
  | com k => cases k <;> rfl
  | impCom k => cases k <;> rfl
  | p c k => cases c <;> cases k <;> rfl
  | impP c k => cases c <;> cases k <;> rfl
  | _ => rfl

/-- What either reset leaves, wherever the bus response and the event list stand. -/
theorem afterReset_registers {inst : Instance} {draws : Draws} {epochs : Epochs} {schedule : List HostEvent}
    {resp : Option BusResp} {t : State} (h : t = State.afterReset inst draws epochs schedule resp) :
    (∀ r : Reg, t.readReg r = resetWord inst r) ∧ t.busy = false ∧ t.inst = inst ∧
      (∀ a : Arr, a ≠ .pattern → t.arrSize a = 0) ∧ t.draws.rng = draws.rng ∧ Memory.wf t.mem := by
  subst h
  exact ⟨readReg_afterReset _ _ _ _ _, rfl, rfl, fun _ ha => arrSize_uninitialized rfl ha, rfl, List.Pairwise.nil⟩

/-- Settles O20: a soft reset and the reset input leave `State.afterReset` with the constants and stream positions kept. -/
theorem resetsLeaveTheResetState : Obligations.ResetsLeaveTheResetState := by
  rintro s t (⟨idle, w, hw, h⟩ | ⟨es, hes, h⟩)
  · have hreset : s.performAccess (.write 0x010 8 w) = s.resetBlock.okay 0 := by
      rw [show (0x010 : BitVec 36) = BitVec.ofNat 36 Reg.ctrl.offset by rfl, performAccess_write_reg,
        writeReg_ctrl_idle idle, if_pos hw]
    exact afterReset_registers (resp := some ⟨0, false⟩) (h.symm.trans hreset)
  · have hreset : step s = .next { s with schedule := es }.resetBlock := by
      simp only [step, State.nextEvent, hes]
    rw [hreset, Host.Outcome.next.injEq] at h
    exact afterReset_registers h.symm

/-- Settles O52. -/
theorem resetStateSatisfiesTheInvariants : Obligations.ResetStateSatisfiesTheInvariants :=
  ⟨machineInv_afterReset _ _ _ _ _, fun _ hg => (nomatch hg), readReg_afterReset _ _ _ _ _⟩

end Sys2Proof.Machine
end

section
/-! PROOF. Accesses while a command is executing, refused accesses, and writes to storing registers (O14, O17, O19). -/

namespace Sys2Proof.Machine

open Sys2Proof.Claims

/-! ### Refused accesses (R82 to R88) -/

theorem performAccess_illegal (s : State) {addr : BitVec 36} {size : Nat} (h : legalBeat addr size = false) (w : Word) :
    s.performAccess (.read addr size) = s.slverr ∧ s.performAccess (.write addr size w) = s.slverr := by
  simp [State.performAccess, h]

/-- A read whose word is refused is refused at every size. -/
theorem performAccess_read_refused {s : State} {addr : BitVec 36} (size : Nat) (h : s.readWord addr = s.slverr) :
    s.performAccess (.read addr size) = s.slverr := by
  simp [State.performAccess, h]

/-- A write whose word is refused is refused at every size. -/
theorem performAccess_write_refused {s : State} {addr : BitVec 36} {w : Word} (size : Nat)
    (h : s.writeWord addr w = s.slverr) : s.performAccess (.write addr size w) = s.slverr := by
  simp [State.performAccess, h]

theorem readWord_reserved {s : State} {addr : BitVec 36} (hr : regionOf addr = 0)
    (h : Reg.ofOffset (offsetOf addr) = none) : s.readWord addr = s.slverr := by
  simp [State.readWord, hr, h]

theorem writeWord_reserved {s : State} {addr : BitVec 36} (w : Word) (hr : regionOf addr = 0)
    (h : Reg.ofOffset (offsetOf addr) = none) : s.writeWord addr w = s.slverr := by
  simp [State.writeWord, hr, h]

theorem readWord_noWindow {s : State} {addr : BitVec 36} (hr : regionOf addr ≠ 0)
    (h : s.windowOf (regionOf addr) = none) : s.readWord addr = s.slverr := by
  simp [State.readWord, hr, h]

theorem writeWord_noWindow {s : State} {addr : BitVec 36} (w : Word) (hr : regionOf addr ≠ 0)
    (h : s.windowOf (regionOf addr) = none) : s.writeWord addr w = s.slverr := by
  simp [State.writeWord, hr, h]

/-- Region 0 is no window. -/
theorem regionOf_ne_zero {s : State} {addr : BitVec 36} {win : Window} (h : s.windowOf (regionOf addr) = some win) :
    regionOf addr ≠ 0 := by
  intro h0
  rw [h0] at h
  cases h

/-- What a read in a window does, by its cases. -/
theorem readWord_window {s : State} {addr : BitVec 36} {win : Window} (h : s.windowOf (regionOf addr) = some win) :
    s.readWord addr =
      if s.busy then s.slverr
      else if offsetOf addr / 8 < s.arrSize win.arr then s.okay (s.readElem win.arr (offsetOf addr / 8))
      else s.slverr := by
  simp only [State.readWord, if_neg (regionOf_ne_zero h), h]

/-- What a write in a window does, by its cases. -/
theorem writeWord_window {s : State} {addr : BitVec 36} {win : Window} (h : s.windowOf (regionOf addr) = some win)
    (w : Word) :
    s.writeWord addr w =
      if s.busy then s.slverr
      else if win.writable && decide (offsetOf addr / 8 < s.arrSize win.arr) then
        (s.writeElem win.arr (offsetOf addr / 8) w).okay 0
      else s.slverr := by
  simp only [State.writeWord, if_neg (regionOf_ne_zero h), h]

theorem windowOf_reserved (s : State) {r : Nat} (h : 0x18 < r) : s.windowOf r = none := by
  unfold State.windowOf
  split <;> first | rfl | exact absurd h (by decide)

/-- A read-only register refuses every write. -/
theorem writeReg_readOnly (s : State) {r : Reg} (h : accessOf r = .ro) (w : Word) : s.writeReg r w = s.slverr := by
  have hwrite : s.staged.write w r = none := by cases r <;> first | rfl | cases h
  rw [writeReg_other s w (by rintro (rfl | rfl | rfl | rfl | rfl) <;> cases h), hwrite]
  exact ite_self _

/-- Settles O19, cause by cause. -/
theorem refusedAccessesChangeNothing : Obligations.RefusedAccessesChangeNothing := by
  refine fun s addr size w => ⟨fun h => performAccess_illegal s h w, fun h => ?_, fun win hwin hsize => ?_,
    fun win hwin hro => ?_, fun h0 hno => ?_, fun r hro => ?_, rfl⟩
  · have h0 : regionOf addr ≠ 0 := by omega
    have hnone := windowOf_reserved s h
    exact ⟨performAccess_read_refused size (readWord_noWindow h0 hnone),
      performAccess_write_refused size (writeWord_noWindow w h0 hnone)⟩
  · exact ⟨performAccess_read_refused size (by simp [readWord_window hwin, hsize.not_gt]),
      performAccess_write_refused size (by simp [writeWord_window hwin, hsize.not_gt])⟩
  · exact performAccess_write_refused size (by simp [writeWord_window hwin, hro])
  · have hnone := Reg.ofOffset_eq_none hno
    exact ⟨performAccess_read_refused size (readWord_reserved h0 hnone),
      performAccess_write_refused size (writeWord_reserved w h0 hnone)⟩
  · exact (performAccess_write_reg s r w).trans (writeReg_readOnly s hro w)

/-! ### While a command is executing (R90) -/

theorem readWord_busy {s : State} (h : s.busy = true) {addr : BitVec 36} (hr : regionOf addr ≠ 0) :
    s.readWord addr = s.slverr := by
  cases hwin : s.windowOf (regionOf addr) with
  | none => exact readWord_noWindow hr hwin
  | some win => rw [readWord_window hwin, if_pos h]

theorem writeWord_busy {s : State} (h : s.busy = true) {addr : BitVec 36} (hr : regionOf addr ≠ 0) (w : Word) :
    s.writeWord addr w = s.slverr := by
  cases hwin : s.windowOf (regionOf addr) with
  | none => exact writeWord_noWindow w hr hwin
  | some win => rw [writeWord_window hwin, if_pos h]

theorem writeReg_busy {s : State} (h : s.busy = true) {r : Reg} (w : Word) (h1 : r ≠ .status) (h2 : r ≠ .irqEn)
    (h3 : r ≠ .irqStatus) (h4 : r ≠ .cmd) : s.writeReg r w = s.slverr := by
  by_cases h5 : r = .ctrl
  · subst h5
    simp [State.writeReg, h]
  · rw [writeReg_other s w (by simp [h1, h2, h3, h4, h5]), if_pos h]

/-- While a command is executing, what its accesses can write shows in STATUS and IRQ_STATUS only. -/
theorem readReg_busy {s t : State} (h : s.busy = true) {r : Reg} (h1 : r ≠ .status) (h2 : r ≠ .irqStatus)
    (ht : ∃ (firstErr : Err) (errCmd : Word) (busErr overrun : Bool) (irq : IrqRegs) (resp : Option BusResp),
      t = { s with
        firstErr := firstErr, errCmd := errCmd, busErr := busErr, overrun := overrun, irq := irq, resp := resp }) :
    t.readReg r = s.readReg r := by
  obtain ⟨run, hrun⟩ := Option.isSome_iff_exists.mp h
  obtain ⟨firstErr, errCmd, busErr, overrun, irq, resp, ht⟩ := ht
  have hrunT : t.running = some run := ht ▸ hrun
  cases r with
  | status => exact absurd rfl h1
  | irqStatus => exact absurd rfl h2
  | errCmd => exact (State.errCmdWord_busy hrunT).trans (State.errCmdWord_busy hrun).symm
  | irqEn => exact (State.irqEnWord_busy hrunT).trans (State.irqEnWord_busy hrun).symm
  | _ => rw [ht]; rfl

/-- The accept event changes the readings of CMD and STATUS only. -/
theorem readReg_accept {s : State} (idle : s.busy = false) (w data : Word) {r : Reg} (h1 : r ≠ .status)
    (h2 : r ≠ .cmd) :
    ((s.accept w).okay data).readReg r = s.readReg r := by
  have hnone := running_of_idle idle
  cases r with
  | status => exact absurd rfl h1
  | cmd => exact absurd rfl h2
  | errCmd => exact (State.errCmdWord_idle hnone).symm
  | irqEn => exact (State.irqEnWord_idle hnone).symm
  | _ => rfl

/-- Settles O14: all that an access can write meanwhile is named by `State.performAccess_busy`. -/
theorem busyRefusesAccesses : Obligations.BusyRefusesAccesses := by
  refine ⟨fun s h => ⟨fun addr size w hr => ?_, fun r w h1 h2 h3 h4 => ?_, fun a => ⟨?_, fun r h1 h2 => ?_⟩⟩,
    fun s w idle r h1 h2 => ?_⟩
  · exact ⟨performAccess_read_refused size (readWord_busy h hr),
      performAccess_write_refused size (writeWord_busy h hr w)⟩
  · exact (performAccess_write_reg s r w).trans (writeReg_busy h w h1 h2 h3 h4)
  · obtain ⟨firstErr, errCmd, busErr, overrun, irq, resp, ht⟩ := State.performAccess_busy h a
    rw [ht]
  · exact readReg_busy h h1 h2 (State.performAccess_busy h a)
  · have haccept := (performAccess_write_reg s .cmd w).trans (writeReg_cmd_idle idle w)
    exact (congrArg (fun t => t.readReg r) haccept).trans (readReg_accept idle w 0 h1 h2)

/-! ### Storing registers (R57, R92) -/

theorem Params.get_set_same (p : Params) (k : ParamIx) (w : Word) : (p.set k w).get k = w := by cases k <;> rfl

theorem Params.get_set_other (p : Params) {j k : ParamIx} (h : j ≠ k) (w : Word) : (p.set k w).get j = p.get j := by
  cases j <;> cases k <;> first | rfl | exact absurd rfl h

/-- The registers the model stores are those of the map that store and do nothing else. -/
theorem write_isSome_iff (g : StagedRegs) (w : Word) (r : Reg) : (g.write w r).isSome = true ↔ Storing r := by
  cases r <;> simp [StagedRegs.write, Storing, accessOf]

theorem writeReg_storing {s : State} (idle : s.busy = false) {r : Reg} {w : Word} {staged : StagedRegs}
    (h : s.staged.write w r = some staged) : s.writeReg r w = { s with staged := staged }.okay 0 := by
  rw [writeReg_other s w (by rintro (rfl | rfl | rfl | rfl | rfl) <;> cases h), h]
  simp [idle]

theorem impP_set_same (t : Per3 Params) (c : Chan) (k : ParamIx) (w : Word) :
    ((t.set c ((t.get c).set k w)).get c).get k = w := by
  rw [Per3.get_set_same, Params.get_set_same]

/-- Setting field `k` of a record leaves every other field of every record as it was. -/
theorem impP_set_other (t : Per3 Params) {b c : Chan} {j k : ParamIx} (h : b = c → j ≠ k) (w : Word) :
    ((t.set c ((t.get c).set k w)).get b).get j = (t.get b).get j := by
  by_cases hbc : b = c
  · subst hbc
    rw [Per3.get_set_same, Params.get_set_other _ (h rfl)]
  · rw [Per3.get_set_other _ hbc]

/-- A stored word reads back. -/
theorem readReg_write_same {s : State} {r : Reg} {w : Word} {staged : StagedRegs}
    (h : s.staged.write w r = some staged) : State.readReg { s with staged := staged } r = w := by
  cases r with
  | stg k => cases h; exact Params.get_set_same _ k w
  | impCom k => cases h; exact Params.get_set_same _ k w
  | impP c k => cases h; exact impP_set_same s.staged.impP c k w
  | arg0 | arg1 | arg2 | arg3 | gridSize | channelsCfg | resCfg | importSize | patW | patH => cases h; rfl
  | _ => cases h

/-- A stored word shows in no other register. -/
theorem readReg_write_other {s : State} {r q : Reg} {w : Word} {staged : StagedRegs}
    (h : s.staged.write w r = some staged) (hq : q ≠ r) :
    State.readReg { s with staged := staged } q = s.readReg q := by
  cases r with
  | stg k =>
    cases h
    cases q with
    | stg j => exact Params.get_set_other _ (by rintro rfl; exact hq rfl) w
    | _ => rfl
  | impCom k =>
    cases h
    cases q with
    | impCom j => exact Params.get_set_other _ (by rintro rfl; exact hq rfl) w
    | _ => rfl
  | impP c k =>
    cases h
    cases q with
    | impP b j => exact impP_set_other _ (by rintro rfl rfl; exact hq rfl) w
    | _ => rfl
  | arg0 | arg1 | arg2 | arg3 | gridSize | channelsCfg | resCfg | importSize | patW | patH =>
    cases h
    cases q <;> first | rfl | exact absurd rfl hq
  | _ => cases h

/-- Settles O17. -/
theorem stagedRegisterWriteReadsBack : Obligations.StagedRegisterWriteReadsBack := by
  refine ⟨fun s r w idle hstoring => ?_, fun r w g => write_isSome_iff g w r, fun s w idle hw => ?_⟩
  · obtain ⟨staged, hwrite⟩ := Option.isSome_iff_exists.mp ((write_isSome_iff s.staged w r).mpr hstoring)
    refine ⟨_, (performAccess_write_reg s r w).trans (writeReg_storing idle hwrite), rfl, ?_, fun q hq => ?_, rfl, rfl⟩
    · exact readReg_write_same (s := { s with resp := some ⟨0, false⟩ }) hwrite
    · exact readReg_write_other (s := { s with resp := some ⟨0, false⟩ }) hwrite hq
  · refine (performAccess_write_reg s .ctrl w).trans ((writeReg_ctrl_idle idle w).trans ?_)
    rw [if_neg (Bool.eq_false_iff.mp hw)]
    rfl

end Sys2Proof.Machine
end

section
/-! PROOF. The registers at their offsets, field by field (O16). -/

namespace Sys2Proof.Machine

open Sys2Proof.Claims

/-! ### The fields of the register words -/

theorem hwcfgWord_fields (i : Instance) :
    (i.hwcfgWord.extractLsb' 0 8).toNat = i.log2NMax ∧ i.hwcfgWord.extractLsb' 8 8 = 3 ∧
    (i.hwcfgWord.extractLsb' 16 32).toNat = i.resMax ∧ i.hwcfgWord.extractLsb' 48 16 = 0 := by
  have hlog : i.log2NMax < 2 ^ 8 := by
    unfold Instance.log2NMax
    omega
  have hres : i.resMax < 2 ^ 32 := by
    unfold Instance.resMax
    omega
  unfold Instance.hwcfgWord
  refine ⟨?_, ?_, ?_, ?_⟩
  · rw [BitVec.extractLsb'_append_eq_right, BitVec.toNat_ofNat, Nat.mod_eq_of_lt hlog]
  · rw [BitVec.extractLsb'_append_eq_of_le (by decide)]
    exact BitVec.extractLsb'_append_eq_right
  · iterate 2 rw [BitVec.extractLsb'_append_eq_of_le (by decide)]
    exact (congrArg BitVec.toNat BitVec.extractLsb'_append_eq_right).trans
      ((BitVec.toNat_ofNat _ _).trans (Nat.mod_eq_of_lt hres))
  · iterate 3 rw [BitVec.extractLsb'_append_eq_of_le (by decide)]
    exact BitVec.extractLsb'_eq_self

theorem err_iff (s : State) : s.err = true ↔ s.firstErr ≠ .ok := by simp [State.err]

/-- The flag bits of STATUS (R35). -/
theorem statusWord_flags (s : State) :
    s.statusWord.getLsbD 0 = s.busy ∧ s.statusWord.getLsbD 1 = s.ready ∧ s.statusWord.getLsbD 2 = s.err ∧
    s.statusWord.getLsbD 3 = s.busErr ∧ s.statusWord.getLsbD 4 = s.overrun := by
  simp only [State.statusWord, BitVec.getLsbD_append]
  simp

/-- The zero bits and the error codes of STATUS (R35). -/
theorem statusWord_codes (s : State) :
    s.statusWord.extractLsb' 5 3 = 0 ∧ s.statusWord.extractLsb' 8 8 = s.lastErr.code ∧
    s.statusWord.extractLsb' 16 8 = s.firstErr.code ∧ s.statusWord.extractLsb' 24 40 = 0 := by
  unfold State.statusWord
  refine ⟨?_, ?_, ?_, ?_⟩
  · iterate 5 rw [BitVec.extractLsb'_append_eq_of_le (by decide)]
    exact BitVec.extractLsb'_append_eq_right
  · iterate 6 rw [BitVec.extractLsb'_append_eq_of_le (by decide)]
    exact BitVec.extractLsb'_append_eq_right
  · iterate 7 rw [BitVec.extractLsb'_append_eq_of_le (by decide)]
    exact BitVec.extractLsb'_append_eq_right
  · iterate 8 rw [BitVec.extractLsb'_append_eq_of_le (by decide)]
    exact BitVec.extractLsb'_eq_self

theorem enableWord_flags (i : IrqRegs) : i.enableWord.getLsbD 0 = i.doneEn ∧ i.enableWord.getLsbD 1 = i.errEn := by
  simp only [IrqRegs.enableWord, BitVec.getLsbD_append]
  simp

theorem irqStatusWord_fields (i : IrqRegs) :
    i.statusWord.getLsbD 0 = i.donePend ∧ i.statusWord.getLsbD 1 = i.errPend ∧ i.statusWord.extractLsb' 2 62 = 0 := by
  unfold IrqRegs.statusWord
  cases i.donePend <;> cases i.errPend <;> decide

theorem flagsWord_fields (t : StatsRegs) :
    t.flagsWord.getLsbD 0 = t.centroidValid ∧ t.flagsWord.extractLsb' 1 63 = 0 := by
  unfold StatsRegs.flagsWord
  cases t.centroidValid <;> decide

/-- The bits of BANK (R48). -/
theorem bankWord_fields (s : State) :
    s.bankWord.extractLsb' 3 61 = 0 ∧ ∀ c : Chan, s.bankWord.getLsbD c.index = (s.bank.get c && s.activeChan c) := by
  unfold State.bankWord
  refine ⟨?_, fun c => ?_⟩
  · iterate 3 rw [BitVec.extractLsb'_append_eq_of_le (by decide)]
    exact BitVec.extractLsb'_eq_self
  · simp only [BitVec.getLsbD_append]
    cases c <;> simp [Chan.index, Per3.get]

theorem bankWord_uninitialized {s : State} (h : s.engine = none) : s.bankWord = 0 := by
  simp only [State.bankWord, State.activeChan, h, Bool.and_false]
  decide

/-! ### The geometry registers (R47) -/

theorem geometryWord_uninitialized {s : State} (h : s.engine = none) (f : Geometry → Nat) : s.geometryWord f = 0 := by
  rw [State.geometryWord, h]

theorem geometryWord_toNat {s : State} {g : Geometry} (h : s.engine = some g) {f : Geometry → Nat}
    (hf : f g ≤ 2 ^ 24) : (s.geometryWord f).toNat = f g := by
  rw [State.geometryWord, h]
  exact (BitVec.toNat_ofNat _ _).trans (Nat.mod_eq_of_lt (by omega))

theorem Geometry.log2n_le (g : Geometry) : g.log2n ≤ 12 := by
  unfold Geometry.log2n
  omega

theorem Geometry.chanCount_le (g : Geometry) : g.chanCount ≤ 3 := by
  unfold Geometry.chanCount
  cases g.channels <;> decide

/-! ### Reading at an address -/

theorem readsAs_reg (s : State) (r : Reg) : ReadsAs s (BitVec.ofNat 36 r.offset) (s.readReg r) :=
  performAccess_read_reg s r

theorem readsAs_errCmd_idle {s : State} (h : s.running = none) : ReadsAs s 0x050 s.errCmd :=
  State.errCmdWord_idle h ▸ readsAs_reg s .errCmd

theorem readsAs_irqEn_idle {s : State} (h : s.running = none) : ReadsAs s 0x058 s.irq.enableWord :=
  State.irqEnWord_idle h ▸ readsAs_reg s .irqEn

theorem readsAs_errCmd_busy {s : State} {r : Running} (h : s.running = some r) : ReadsAs s 0x050 r.errCmd :=
  State.errCmdWord_busy h ▸ readsAs_reg s .errCmd

theorem readsAs_irqEn_busy {s : State} {r : Running} (h : s.running = some r) : ReadsAs s 0x058 r.irqEn :=
  State.irqEnWord_busy h ▸ readsAs_reg s .irqEn

/-- The geometry registers before the first INIT read 0. -/
theorem readsAs_geometry_uninitialized {s : State} (h : s.engine = none) :
    ReadsAs s 0x0A0 0 ∧ ReadsAs s 0x0A8 0 ∧ ReadsAs s 0x0B0 0 ∧ ReadsAs s 0x0B8 0 :=
  ⟨geometryWord_uninitialized h Geometry.n ▸ readsAs_reg s .n,
    geometryWord_uninitialized h Geometry.chanCount ▸ readsAs_reg s .channels,
    geometryWord_uninitialized h Geometry.res ▸ readsAs_reg s .res,
    geometryWord_uninitialized h Geometry.log2n ▸ readsAs_reg s .log2n⟩

/-- The geometry registers of a Ready engine read the latched geometry. -/
theorem readsAs_geometry_ready {s : State} {g : Geometry} (h : s.engine = some g) :
    ∃ n c res l : Word,
      (ReadsAs s 0x0A0 n ∧ n.toNat = g.n) ∧ (ReadsAs s 0x0A8 c ∧ c.toNat = g.chanCount) ∧
      (ReadsAs s 0x0B0 res ∧ res.toNat = g.res) ∧
      (ReadsAs s 0x0B8 l ∧ l.toNat = g.log2n ∧ n.toNat = 2 ^ l.toNat) := by
  have hn : (s.geometryWord Geometry.n).toNat = g.n := geometryWord_toNat h (g.n_le.trans (by decide))
  have hl : (s.geometryWord Geometry.log2n).toNat = g.log2n := geometryWord_toNat h (g.log2n_le.trans (by decide))
  refine ⟨s.geometryWord Geometry.n, s.geometryWord Geometry.chanCount, s.geometryWord Geometry.res,
    s.geometryWord Geometry.log2n, ⟨readsAs_reg s .n, hn⟩, ⟨readsAs_reg s .channels, ?_⟩,
    ⟨readsAs_reg s .res, geometryWord_toNat h g.res_le⟩, readsAs_reg s .log2n, hl, ?_⟩
  · exact geometryWord_toNat h (g.chanCount_le.trans (by decide))
  · rw [hn, hl, Geometry.n]

/-- The parameter registers read at their offsets (R50). -/
theorem readsAs_params (s : State) (k : ParamIx) :
    ReadsAs s (paramAddr 0x100 k) (s.staged.stg.get k) ∧ ReadsAs s (paramAddr 0x140 k) (s.com.get k) ∧
    ReadsAs s (paramAddr 0x200 k) (s.p.c0.get k) ∧ ReadsAs s (paramAddr 0x240 k) (s.p.c1.get k) ∧
    ReadsAs s (paramAddr 0x280 k) (s.p.c2.get k) ∧ ReadsAs s (paramAddr 0x400 k) (s.staged.impP.c0.get k) ∧
    ReadsAs s (paramAddr 0x440 k) (s.staged.impP.c1.get k) ∧ ReadsAs s (paramAddr 0x480 k) (s.staged.impP.c2.get k) ∧
    ReadsAs s (paramAddr 0x4C0 k) (s.staged.impCom.get k) :=
  ⟨readsAs_reg s (.stg k), readsAs_reg s (.com k), readsAs_reg s (.p .c0 k), readsAs_reg s (.p .c1 k),
    readsAs_reg s (.p .c2 k), readsAs_reg s (.impP .c0 k), readsAs_reg s (.impP .c1 k), readsAs_reg s (.impP .c2 k),
    readsAs_reg s (.impCom k)⟩

/-- BANK reads the active banks of the channels below C. -/
theorem readsAs_bank (s : State) :
    ∃ w : Word, ReadsAs s 0x0C0 w ∧ w.extractLsb' 3 61 = 0 ∧
      (∀ (g : Geometry) (c : Chan), s.engine = some g →
        w.getLsbD c.index = (decide (c.index < g.chanCount) && s.bank.get c)) ∧
      (s.engine = none → w = 0) := by
  refine ⟨s.bankWord, readsAs_reg s .bank, (bankWord_fields s).1, fun g c h => ?_, bankWord_uninitialized⟩
  rw [(bankWord_fields s).2 c, activeChan_ready h, Bool.and_comm, Geometry.active]

/-- STATUS reads its flags and codes. -/
theorem readsAs_status (s : State) :
    ∃ w : Word, ReadsAs s 0x018 w ∧ (w.getLsbD 0 = true ↔ ∃ r, s.running = some r) ∧
      (w.getLsbD 1 = true ↔ ∃ g, s.engine = some g) ∧ (w.getLsbD 2 = true ↔ s.firstErr ≠ .ok) ∧
      w.getLsbD 3 = s.busErr ∧ w.getLsbD 4 = s.overrun ∧ w.extractLsb' 5 3 = 0 ∧
      w.extractLsb' 8 8 = s.lastErr.code ∧ w.extractLsb' 16 8 = s.firstErr.code ∧ w.extractLsb' 24 40 = 0 := by
  obtain ⟨hbusy, hready, herr, hbusErr, hoverrun⟩ := statusWord_flags s
  refine ⟨s.statusWord, readsAs_reg s .status, ?_, ?_, ?_, hbusErr, hoverrun, statusWord_codes s⟩
  · rw [hbusy, State.busy, Option.isSome_iff_exists]
  · rw [hready, State.ready, Option.isSome_iff_exists]
  · rw [herr, err_iff]

theorem code_eq_errCode (e : Err) : e.code = errCode e := by cases e <;> rfl

/-- Settles O16, register by register in the order of the map. -/
theorem registersReadAtTheirOffsets : Obligations.RegistersReadAtTheirOffsets := by
  intro s
  refine ⟨performAccess_read_reg s, fun addr hr hno =>
      performAccess_read_refused 8 (readWord_reserved hr (Reg.ofOffset_eq_none hno)),
    readsAs_reg s .id, ⟨_, readsAs_reg s .hwcfg, hwcfgWord_fields s.inst⟩, readsAs_reg s .ctrl, readsAs_status s,
    readsAs_reg s .cmd, readsAs_reg s .arg0, readsAs_reg s .arg1, readsAs_reg s .arg2, readsAs_reg s .arg3,
    readsAs_reg s .result,
    fun idle => ⟨readsAs_errCmd_idle idle, _, readsAs_irqEn_idle idle, (enableWord_flags s.irq).1,
      (enableWord_flags s.irq).2, enableWord_high s.irq⟩,
    fun r hr => ⟨readsAs_errCmd_busy hr, readsAs_irqEn_busy hr⟩,
    ⟨_, readsAs_reg s .irqStatus, irqStatusWord_fields s.irq⟩,
    readsAs_reg s .gridSize, readsAs_reg s .channelsCfg, readsAs_reg s .resCfg, readsAs_reg s .importSize,
    readsAs_geometry_uninitialized, fun g => readsAs_geometry_ready, readsAs_bank s,
    readsAs_reg s .patW, readsAs_reg s .patH, readsAs_params s,
    readsAs_reg s .spreadDr, readsAs_reg s .spreadDMu, readsAs_reg s .spreadDSigma,
    readsAs_reg s .step, readsAs_reg s .mass, readsAs_reg s .centerX, readsAs_reg s .centerY, readsAs_reg s .velocity,
    ⟨_, readsAs_reg s .statsFlags, flagsWord_fields s.stats⟩, code_eq_errCode⟩

end Sys2Proof.Machine
end

section
/-! PROOF. The windows: which array each region shows, and what reads and writes of an element do (O18). -/

namespace Sys2Proof.Machine

open Sys2Proof.Claims

/-! ### The window map (R85) -/

/-- The windows by region number: the array shown, and whether the host may write it; in the order of `windowMap`. -/
def windowTable (s : State) : List (Nat × Arr × Bool) :=
  [(0x01, s.activeField .c0, true), (0x04, .kernel .c0, false), (0x07, .ktfRe .c0, false), (0x0A, .ktfIm .c0, false),
    (0x0F, .gtab .c0, false), (0x16, .stage .c0, true),
    (0x02, s.activeField .c1, true), (0x05, .kernel .c1, false), (0x08, .ktfRe .c1, false), (0x0B, .ktfIm .c1, false),
    (0x10, .gtab .c1, false), (0x17, .stage .c1, true),
    (0x03, s.activeField .c2, true), (0x06, .kernel .c2, false), (0x09, .ktfRe .c2, false), (0x0C, .ktfIm .c2, false),
    (0x11, .gtab .c2, false), (0x18, .stage .c2, true),
    (0x0D, .sre, true), (0x0E, .sim, true), (0x12, .twCos, false), (0x13, .twSin, false), (0x14, .bitrev, false),
    (0x15, .pattern, true)]

/-- The window map gives the windows of the table the model's sizes. -/
theorem windowMap_eq (s : State) :
    windowMap s = (windowTable s).map fun e => ⟨e.1, e.2.1, e.2.2, s.arrSize e.2.1⟩ := by
  cases h : s.engine with
  | none =>
    simp [windowMap, windowTable, h, State.arrSize, State.sizeForChan, State.sizeOf, State.activeField, Chan.index,
      Instance.nMax]
  | some g =>
    cases hc : g.channels <;>
      simp [windowMap, windowTable, h, hc, State.arrSize, State.sizeForChan, State.sizeOf, State.activeField, Chan.index,
        Instance.nMax, Geometry.active, Geometry.cells, Geometry.chanCount, ChanCount.count]

theorem windowOf_windowTable (s : State) :
    ∀ e ∈ windowTable s, s.windowOf e.1 = some ⟨e.2.1, e.2.2⟩ ∧ e.1 < 2 ^ 8 := by
  simp [windowTable, State.windowOf]

/-- A region that no row names shows nothing. -/
theorem windowOf_unlisted {s : State} {r : Nat} (h : ∀ row ∈ windowMap s, row.region ≠ r) : s.windowOf r = none := by
  simp only [windowMap_eq, windowTable, List.map_cons, List.map_nil, List.forall_mem_cons] at h
  unfold State.windowOf
  split <;> simp_all

/-! ### Host addresses of elements -/

theorem windowAddr_toNat {r i : Nat} (hr : r < 2 ^ 8) (hi : i < 2 ^ 25) :
    (windowAddr r i).toNat = r * 2 ^ 28 + 8 * i :=
  (BitVec.toNat_ofNat _ _).trans (Nat.mod_eq_of_lt (by omega))

/-- The address of an element is aligned, and its fields are its region and its byte offset (R83). -/
theorem windowAddr_fields {r i : Nat} (hr : r < 2 ^ 8) (hi : i < 2 ^ 25) :
    regionOf (windowAddr r i) = r ∧ offsetOf (windowAddr r i) = 8 * i ∧ legalBeat (windowAddr r i) 8 = true := by
  have haddr := windowAddr_toNat hr hi
  have hbits : (windowAddr r i).extractLsb' 0 3 = 0 := by
    apply BitVec.eq_of_toNat_eq
    rw [BitVec.extractLsb'_toNat, haddr, Nat.shiftRight_zero]
    show (r * 2 ^ 28 + 8 * i) % 2 ^ 3 = 0
    omega
  refine ⟨?_, ?_, ?_⟩
  · rw [regionOf, BitVec.extractLsb'_toNat, haddr, Nat.shiftRight_eq_div_pow]
    omega
  · rw [offsetOf, BitVec.extractLsb'_toNat, haddr, Nat.shiftRight_zero]
    omega
  · simp [legalBeat, hbits]

/-! ### Elements -/

/-- A read of an element of a window while idle is answered with that element. -/
theorem performAccess_read_window {s : State} {addr : BitVec 36} {win : Window} (idle : s.busy = false)
    (legal : legalBeat addr 8 = true) (h : s.windowOf (regionOf addr) = some win)
    (index : offsetOf addr / 8 < s.arrSize win.arr) :
    s.performAccess (.read addr 8) = s.okay (s.readElem win.arr (offsetOf addr / 8)) := by
  simp [State.performAccess, legal, readWord_window h, idle, index]

/-- A write to an element of a writable window while idle writes that element. -/
theorem performAccess_write_window {s : State} {addr : BitVec 36} {win : Window} (idle : s.busy = false)
    (legal : legalBeat addr 8 = true) (h : s.windowOf (regionOf addr) = some win) (writable : win.writable = true)
    (index : offsetOf addr / 8 < s.arrSize win.arr) (w : Word) :
    s.performAccess (.write addr 8 w) = (s.writeElem win.arr (offsetOf addr / 8) w).okay 0 := by
  simp [State.performAccess, legal, writeWord_window h, idle, writable, index]

theorem readsAs_window {s : State} {r i : Nat} {win : Window} (idle : s.busy = false)
    (h : s.windowOf r = some win) (hr : r < 2 ^ 8) (index : i < s.arrSize win.arr) :
    ReadsAs s (windowAddr r i) (s.readElem win.arr i) := by
  obtain ⟨hregion, hoffset, hlegal⟩ := windowAddr_fields hr (i := i) (by have := arrSize_le s win.arr; omega)
  have hi : offsetOf (windowAddr r i) / 8 = i := by omega
  have hread := performAccess_read_window idle hlegal (hregion.symm ▸ h) (hi.symm ▸ index)
  rwa [hi] at hread

theorem okay_readElem (s : State) (data : Word) (a : Arr) (i : Nat) : (s.okay data).readElem a i = s.readElem a i :=
  readElem_congr rfl rfl a i

/-- A written element reads back at the next access. -/
theorem performAccess_read_written {s : State} {addr : BitVec 36} {win : Window} (idle : s.busy = false)
    (legal : legalBeat addr 8 = true) (h : s.windowOf (regionOf addr) = some win)
    (index : offsetOf addr / 8 < s.arrSize win.arr) (w : Word) :
    ((s.writeElem win.arr (offsetOf addr / 8) w).okay 0).performAccess (.read addr 8) =
      ((s.writeElem win.arr (offsetOf addr / 8) w).okay 0).okay w := by
  have hread := performAccess_read_window (s := (s.writeElem win.arr (offsetOf addr / 8) w).okay 0) idle legal h index
  rwa [okay_readElem, readElem_writeElem_same] at hread

theorem readByte_writeElem_okay (s : State) (a : Arr) (i : Nat) (w data : Word) :
    BytesKeptOutside s ((s.writeElem a i w).okay data) (InElem a i) := by
  intro x hx
  unfold InElem at hx
  exact (readByte_congr rfl rfl x).trans (readByte_writeElem_outside s a i w x (by omega))

/-- Lane `j` of a word of lanes. -/
theorem wordOfLanes_lane (b : Nat → Byte) {j : Nat} (hj : j < 8) :
    (wordOfLanes b).extractLsb' (8 * j) 8 = b j := by
  unfold wordOfLanes
  interval_cases j <;> repeat rw [BitVec.extractLsb'_append_eq_of_le (by decide)]
  on_goal 8 => exact BitVec.extractLsb'_eq_self
  all_goals exact BitVec.extractLsb'_append_eq_right

/-- Byte `8i + j` of an array is lane `j` of its element `i`. -/
theorem readElem_lane (s : State) (a : Arr) (i : Nat) {j : Nat} (hj : j < 8) :
    (s.readElem a i).extractLsb' (8 * j) 8 = s.readByte (a.base + 8 * i + j) :=
  wordOfLanes_lane (fun j => s.readByte (a.addr i + j)) hj

theorem readArray_getD (s : State) (a : Arr) {n i : Nat} (h : i < n) (d : Word) :
    (s.readArray a n).getD i d = s.readElem a i := by
  have hlen : i < (s.readArray a n).length := by rwa [readArray_length]
  rw [List.getD_eq_getElem _ _ hlen, readArray_getElem]

/-- Settles O18: the rows of the map, the regions outside it, writes that read back, and elements as bytes. -/
theorem windowWriteReadsBack : Obligations.WindowWriteReadsBack := by
  refine ⟨fun s row hrow => ?_, fun s r => windowOf_unlisted, fun s addr w win idle legal h writable index => ?_,
    fun s a i => ⟨fun j hj => readElem_lane s a i hj, fun n => ⟨readArray_length s a n, fun hi => ?_⟩⟩⟩
  · rw [windowMap_eq, List.mem_map] at hrow
    obtain ⟨e, he, rfl⟩ := hrow
    obtain ⟨hwindow, hregion⟩ := windowOf_windowTable s e he
    exact ⟨hwindow, rfl, fun idle i hi => readsAs_window (win := ⟨e.2.1, e.2.2⟩) idle hwindow hregion hi⟩
  · exact ⟨_, performAccess_write_window idle legal h writable index w, rfl,
      performAccess_read_written idle legal h index w, readByte_writeElem_okay s _ _ w 0, rfl⟩
  · exact readArray_getD s a hi posZero

end Sys2Proof.Machine
end

section
/-! PROOF. What one event does, by the event and by what it finds: reads without side effect, the command that runs, and
that no event stops the machine (O5, O7, O15). -/

namespace Sys2Proof.Machine

/-! ### Reads (R88, R92) -/

/-- A read has two answers: OKAY with the register or the element, or SLVERR. -/
theorem readWord_answer (s : State) (addr : BitVec 36) :
    (∃ w, s.readWord addr = s.okay w) ∨ s.readWord addr = s.slverr := by
  by_cases hr : regionOf addr = 0
  · cases hreg : Reg.ofOffset (offsetOf addr) with
    | none => exact .inr (readWord_reserved hr hreg)
    | some r => exact .inl ⟨s.readReg r, by simp [State.readWord, hr, hreg]⟩
  · cases hwin : s.windowOf (regionOf addr) with
    | none => exact .inr (readWord_noWindow hr hwin)
    | some win =>
      rw [readWord_window hwin]
      split_ifs
      · exact .inr rfl
      · exact .inl ⟨_, rfl⟩
      · exact .inr rfl

/-- Settles O15: a misaligned or wrong-sized read is refused, and every other one has an answer of `readWord_answer`. -/
theorem readsHaveNoSideEffect : Obligations.ReadsHaveNoSideEffect := by
  intro s addr size
  by_cases hlegal : legalBeat addr size = true
  · have hread : s.performAccess (.read addr size) = s.readWord addr := if_pos hlegal
    rw [hread]
    exact readWord_answer s addr
  · exact .inr (performAccess_illegal s (Bool.not_eq_true _ ▸ hlegal) 0).1

/-! ### The complete event (R89) -/

theorem completeEvent_command {s : State} {r : Running} {i : Instr} (h : s.running = some r)
    (hi : decode r.word = .ok i) : completeEvent s = exec i s := by
  simp only [completeEvent, completeWord, h, hi]

theorem completeEvent_rejected {s : State} {r : Running} {e : DecodeError} (h : s.running = some r)
    (he : decode r.word = .error e) : completeEvent s = .next (s.recordCompletion (DecodeError.err e)) := by
  simp only [completeEvent, completeWord, h, he, State.rejectWord, finish_error]

theorem completeEvent_idle {s : State} (h : s.running = none) : completeEvent s = .next s := by
  simp only [completeEvent, h]

/-! ### One step, by its event (R91) -/

theorem step_access {s : State} {a : BusAccess} {es : List HostEvent} (h : s.schedule = .access a :: es) :
    step s = .next ({ s with schedule := es }.performAccess a) := by
  simp only [step, State.nextEvent, h]

theorem step_complete {s : State} {es : List HostEvent} (h : s.schedule = .complete :: es) :
    step s = completeEvent { s with schedule := es } := by
  simp only [step, State.nextEvent, h]

theorem step_resetInput {s : State} {es : List HostEvent} (h : s.schedule = .resetInput :: es) :
    step s = .next { s with schedule := es }.resetBlock := by
  simp only [step, State.nextEvent, h]

/-- With no event left an executing command completes; with none executing `completeEvent` keeps the state as well. -/
theorem step_noEvent {s : State} (h : s.schedule = []) : step s = completeEvent s := by
  cases hrun : s.running with
  | none => simp [step, State.nextEvent, State.busy, h, hrun, completeEvent_idle hrun]
  | some r => simp [step, State.nextEvent, State.busy, h, hrun]

/-- Settles O5, from the equation of `step` for each event. -/
theorem stepRunsTheLatchedCommand : Obligations.StepRunsTheLatchedCommand := by
  refine ⟨fun s r i hrun hi => ⟨fun es hes => ?_, fun hes => ?_⟩, fun s a es hes => step_access hes,
    fun s hes hrun => ?_⟩
  · exact (step_complete hes).trans (completeEvent_command hrun hi)
  · exact (step_noEvent hes).trans (completeEvent_command hrun hi)
  · exact (step_noEvent hes).trans (completeEvent_idle hrun)

/-! ### Every event answers a next state -/

/-- Every command ends through `finish`: NOP with OK, INIT by its own checks, the others behind the READY check. -/
theorem exec_eq_finish (i : Instr) (s : State) : ∃ effect, exec i s = finish s effect := by
  cases i with
  | nop => exact ⟨.ok s, rfl⟩
  | init => exact ⟨s.initEngine, rfl⟩
  | _ => exact ⟨whenReady s _, rfl⟩

theorem finish_answers (s : State) (effect : Except Err State) : ∃ t, finish s effect = .next t := by
  cases effect with
  | ok u => exact ⟨_, finish_ok s u⟩
  | error e => exact ⟨_, finish_error s e⟩

theorem exec_answers (i : Instr) (s : State) : ∃ t, exec i s = .next t := by
  obtain ⟨effect, heffect⟩ := exec_eq_finish i s
  rw [heffect]
  exact finish_answers s effect

theorem completeEvent_answers (s : State) : ∃ t, completeEvent s = .next t := by
  cases hrun : s.running with
  | none => exact ⟨s, completeEvent_idle hrun⟩
  | some r =>
    cases hword : decode r.word with
    | ok i =>
      rw [completeEvent_command hrun hword]
      exact exec_answers i s
    | error e => exact ⟨_, completeEvent_rejected hrun hword⟩

/-- Settles O7: accesses and resets answer at once, and a complete event ends in `finish` or keeps the state. -/
theorem stepNeverStops : Obligations.StepNeverStops := by
  intro s
  rcases hlist : s.schedule with _ | ⟨_ | _ | _, es⟩
  case nil =>
    rw [step_noEvent hlist]
    exact completeEvent_answers s
  case cons.access a => exact ⟨_, step_access hlist⟩
  case cons.complete =>
    rw [step_complete hlist]
    exact completeEvent_answers _
  case cons.resetInput => exact ⟨_, step_resetInput hlist⟩

end Sys2Proof.Machine
end

section
/-! PROOF. Decoding and encoding: a word by its fields, the words a row of the opcode map admits, and the two directions of
the round trip (O1, O2, O3). -/

namespace Sys2Proof

open Sys2Proof.Laws Sys2Proof.Claims

/-! ### The fields of a word (R110) -/

/-- The RSV field, bits 63:16 (R110). -/
def rsvOf (w : Word) : BitVec 48 := w.extractLsb' 16 48

/-- The four fields are the whole word: no bit stands outside them. -/
theorem word_eq_append_fields (w : Word) : w = rsvOf w ++ flagsOf w ++ chOf w ++ opcOf w := by
  have hflags : rsvOf w ++ flagsOf w = w.extractLsb' 10 54 :=
    BitVec.extractLsb'_append_extractLsb'_eq_extractLsb' rfl
  have hch : w.extractLsb' 10 54 ++ chOf w = w.extractLsb' 8 56 :=
    BitVec.extractLsb'_append_extractLsb'_eq_extractLsb' rfl
  have hopc : w.extractLsb' 8 56 ++ opcOf w = w.extractLsb' 0 64 :=
    BitVec.extractLsb'_append_extractLsb'_eq_extractLsb' rfl
  rw [hflags, hch, hopc, BitVec.extractLsb'_eq_self]

theorem word_eq_iff_fields (w v : Word) :
    w = v ↔ rsvOf w = rsvOf v ∧ flagsOf w = flagsOf v ∧ chOf w = chOf v ∧ opcOf w = opcOf v := by
  constructor
  · rintro rfl
    exact ⟨rfl, rfl, rfl, rfl⟩
  · rintro ⟨hrsv, hflags, hch, hopc⟩
    rw [word_eq_append_fields w, hrsv, hflags, hch, hopc, ← word_eq_append_fields v]

@[simp] theorem rsvOf_and (w v : Word) : rsvOf (w &&& v) = rsvOf w &&& rsvOf v := BitVec.extractLsb'_and

@[simp] theorem flagsOf_and (w v : Word) : flagsOf (w &&& v) = flagsOf w &&& flagsOf v := BitVec.extractLsb'_and

@[simp] theorem chOf_and (w v : Word) : chOf (w &&& v) = chOf w &&& chOf v := BitVec.extractLsb'_and

@[simp] theorem opcOf_and (w v : Word) : opcOf (w &&& v) = opcOf w &&& opcOf v := BitVec.extractLsb'_and

/-- A field that is 0 under a mask is kept by the mask's complement. -/
theorem and_not_of_and_eq_zero {n : Nat} {b m : BitVec n} (h : b &&& m = 0) : b &&& ~~~m = b := by
  calc b &&& ~~~m = b &&& m ||| b &&& ~~~m := by rw [h]; exact BitVec.zero_or.symm
    _ = b := by rw [← BitVec.and_or_distrib_left, BitVec.or_not_self, BitVec.and_allOnes]

/-! ### The operands in the fields (R112, R115, R116) -/

theorem bits_chSelOfBits (b : BitVec 2) : (chSelOfBits b).bits = b := by
  revert b
  decide

theorem maskOfFlags_bits (m : ParamMask) : maskOfFlags m.bits = m := by
  obtain ⟨r, mu, sigma, dt, kmu, ksigma⟩ := m
  revert r mu sigma dt kmu ksigma
  decide

theorem bits_maskOfFlags (f : BitVec 6) : (maskOfFlags f).bits = f := by
  revert f
  decide

/-- A single flag in FLAGS[0], as INC of STATS and SRC of PLACE are. -/
theorem flag_eq_and_one (f : BitVec 6) : (if f[0] then 1#6 else 0#6) = f &&& 1#6 := by
  revert f
  decide

theorem bits_srcOfFlags (f : BitVec 6) : (srcOfFlags f).bits = f &&& 1#6 := by
  revert f
  decide

theorem srcOfFlags_bits (src : PatternSource) : srcOfFlags src.bits = src := by cases src <;> rfl

/-! ### The words a row admits (R118, R119) -/

/-- The row that the OPC field selects. -/
def opcodeRow (o : BitVec 8) : Option Row := rows.find? (fun r => r.opc == o)

/-- The fields of `w` are such as the row allows: RSV is 0, and so is each bit of FLAGS and CH that the mask fixes. -/
def Row.Admits (r : Row) (w : Word) : Prop :=
  rsvOf w = 0 ∧ flagsOf w &&& flagsOf r.mask = 0 ∧ chOf w &&& chOf r.mask = 0

theorem opcodeRow_eq_some {o : BitVec 8} {r : Row} (h : opcodeRow o = some r) : r ∈ rows ∧ r.opc = o :=
  ⟨List.mem_of_find?_eq_some h, by simpa using List.find?_some h⟩

/-- Every row fixes RSV, OPC and some bits of FLAGS and CH, and fixes the latter to 0. -/
theorem row_fields : ∀ r ∈ rows,
    (rsvOf r.mask = BitVec.allOnes 48 ∧ opcOf r.mask = BitVec.allOnes 8) ∧
    rsvOf r.pattern = 0 ∧ flagsOf r.pattern = 0 ∧ chOf r.pattern = 0 ∧ opcOf r.pattern = r.opc := by
  decide

/-- The match of R119, field by field. -/
theorem matches_iff_admits {w : Word} {r : Row} (h : opcodeRow (opcOf w) = some r) :
    w &&& r.mask = r.pattern ↔ r.Admits w := by
  obtain ⟨hmem, hopc⟩ := opcodeRow_eq_some h
  obtain ⟨⟨hmaskRsv, hmaskOpc⟩, hrsv, hflags, hch, hpatOpc⟩ := row_fields r hmem
  simp only [word_eq_iff_fields, rsvOf_and, flagsOf_and, chOf_and, opcOf_and, hmaskRsv, hmaskOpc, hrsv, hflags, hch,
    hpatOpc, hopc, BitVec.and_allOnes, and_true, Row.Admits]

theorem decode_unassigned {w : Word} (h : opcodeRow (opcOf w) = none) : decode w = .error .illegalOpcode := by
  unfold opcodeRow at h
  simp only [decode, h]

theorem decode_admitted {w : Word} {r : Row} (h : opcodeRow (opcOf w) = some r) (hw : r.Admits w) :
    decode w = .ok (r.build (chSelOfBits (chOf w)) (flagsOf w)) := by
  have hmatch := (matches_iff_admits h).mpr hw
  unfold opcodeRow at h
  simp only [decode, h, if_pos hmatch]

theorem decode_notAdmitted {w : Word} {r : Row} (h : opcodeRow (opcOf w) = some r) (hw : ¬ r.Admits w) :
    decode w = .error .illegalCmd := by
  have hmatch := (matches_iff_admits h).not.mpr hw
  unfold opcodeRow at h
  simp only [decode, h, if_neg hmatch]

/-- The only way a word decodes: its OPC has a row, and that row admits it. -/
theorem row_of_decode {w : Word} {i : Instr} (h : decode w = .ok i) :
    ∃ r, opcodeRow (opcOf w) = some r ∧ r.Admits w ∧ r.build (chSelOfBits (chOf w)) (flagsOf w) = i := by
  cases hrow : opcodeRow (opcOf w) with
  | none =>
    rw [decode_unassigned hrow] at h
    cases h
  | some r =>
    by_cases hw : r.Admits w
    · rw [decode_admitted hrow hw] at h
      exact ⟨r, rfl, hw, by simpa using h⟩
    · rw [decode_notAdmitted hrow hw] at h
      cases h

/-! ### Words that are no command (R120) -/

/-- The opcode map has no row for exactly the opcodes R120 lists. -/
theorem opcodeRow_eq_none_iff (o : BitVec 8) : opcodeRow o = none ↔ UnassignedOpc o := by
  have hnone : opcodeRow o = none ↔ ∀ r ∈ rows, r.opc ≠ o := by simp [opcodeRow]
  rw [hnone]
  simp only [rows, List.forall_mem_cons, List.not_mem_nil, false_imp_iff, implies_true, and_true, ne_eq, UnassignedOpc]
  bv_omega

theorem decode_eq_illegalOpcode_iff (w : Word) : decode w = .error .illegalOpcode ↔ UnassignedOpc (opcOf w) := by
  rw [← opcodeRow_eq_none_iff]
  cases hrow : opcodeRow (opcOf w) with
  | none => simp [decode_unassigned hrow]
  | some r => by_cases hw : r.Admits w <;> simp [decode_admitted, decode_notAdmitted, hrow, hw]

/-! ### The two directions of the round trip -/

/-- The row of a command admits its operand fields and builds the command from them. -/
theorem opcodeRow_opcode (i : Instr) :
    ∃ r, opcodeRow i.opcode = some r ∧ i.flagBits &&& flagsOf r.mask = 0 ∧ i.chSel.bits &&& chOf r.mask = 0 ∧
      r.build i.chSel i.flagBits = i := by
  cases i with
  | nop | init | importCfg | step | run | fftFwd | fftInv => exact ⟨_, rfl, rfl, rfl, rfl⟩
  | setp ch m => exact ⟨_, rfl, BitVec.and_zero, BitVec.and_zero, congrArg (Instr.setp ch) (maskOfFlags_bits m)⟩
  | setpSpread m => exact ⟨_, rfl, BitVec.and_zero, BitVec.zero_and, congrArg Instr.setpSpread (maskOfFlags_bits m)⟩
  | stats inc => cases inc <;> exact ⟨_, rfl, rfl, rfl, rfl⟩
  | place ch src =>
    have hfree : src.bits &&& 0x3E = 0 := by cases src <;> rfl
    exact ⟨_, rfl, hfree, BitVec.and_zero, congrArg (Instr.place ch) (srcOfFlags_bits src)⟩
  | _ ch => exact ⟨_, rfl, BitVec.zero_and, BitVec.and_zero, rfl⟩

theorem build_opcode : ∀ r ∈ rows, ∀ c f, (r.build c f).opcode = r.opc := by
  simp [rows, Instr.opcode]

/-- The command keeps of a CH field the bits that the row's mask leaves free. -/
theorem build_chSel_bits : ∀ r ∈ rows, ∀ b f, (r.build (chSelOfBits b) f).chSel.bits = b &&& ~~~chOf r.mask := by
  have hfree (b : BitVec 2) : b &&& 3#2 = b := BitVec.and_allOnes
  have hzero : (ChSel.ch .c0).bits = 0 := rfl
  simp [rows, Instr.chSel, chOf, bits_chSelOfBits, hfree, hzero]

/-- The command keeps of a FLAGS field the bits that the row's mask leaves free. -/
theorem build_flagBits : ∀ r ∈ rows, ∀ c f, (r.build c f).flagBits = f &&& ~~~flagsOf r.mask := by
  have hfree (f : BitVec 6) : f &&& 63#6 = f := BitVec.and_allOnes
  simp [rows, Instr.flagBits, flagsOf, hfree, bits_maskOfFlags, bits_srcOfFlags, flag_eq_and_one]

/-- Settles O1: the word has the command's fields, and the row of its OPC reads the command back from them. -/
theorem decodeInvertsEncode : Obligations.DecodeInvertsEncode := by
  intro i
  obtain ⟨r, hrow, hflags, hch, hbuild⟩ := opcodeRow_opcode i
  obtain ⟨hrsv, hflagsOf, hsel, hopc⟩ := encode_fields i
  have hchOf : chOf (encode i) = i.chSel.bits := chOf_fields _ _ _
  have hadmits : r.Admits (encode i) := ⟨hrsv, by rw [hflagsOf, hflags], by rw [hchOf, hch]⟩
  rw [decode_admitted (hopc.symm ▸ hrow) hadmits, hsel, hflagsOf, hbuild]

/-- Settles O2: the word and the word of its command have the same four fields. -/
theorem encodeInvertsDecode : Obligations.EncodeInvertsDecode := by
  intro w i h
  obtain ⟨r, hrow, ⟨hrsv, hflags, hch⟩, rfl⟩ := row_of_decode h
  obtain ⟨hmem, hopc⟩ := opcodeRow_eq_some hrow
  rw [encode, build_flagBits r hmem, build_chSel_bits r hmem, build_opcode r hmem, hopc,
    and_not_of_and_eq_zero hflags, and_not_of_and_eq_zero hch, ← hrsv, ← word_eq_append_fields]

/-- Settles O3: each word of R121 is the word of the command the rule gives it for. -/
theorem exampleWordsDecode : Obligations.ExampleWordsDecode :=
  ⟨decodeInvertsEncode .nop, decodeInvertsEncode .init,
    decodeInvertsEncode (.setp (.ch .c0) ⟨false, false, false, true, false, false⟩),
    decodeInvertsEncode (.setpSpread ⟨true, false, false, false, false, false⟩), decodeInvertsEncode .step,
    decodeInvertsEncode (.stats true), decodeInvertsEncode (.clear .all), decodeInvertsEncode (.place .all .field),
    decodeInvertsEncode (.getv (.ch .c2))⟩

end Sys2Proof
end

section
/-! PROOF. Words that are no command, and channels that a command refuses (O4, O10). -/

namespace Sys2Proof.Machine

/-! ### Completing a word that is no command (R119, R120) -/

/-- Settles O4: the decoder's error is the one the completion record takes, and its OPC says which of the two. -/
theorem illegalWordsEndWithTheirCode : Obligations.IllegalWordsEndWithTheirCode := by
  refine ⟨fun s r es hrun hes hno => ?_, fun w i hopc hi => ?_⟩
  · cases hword : decode r.word with
    | ok i => exact absurd hword (hno i)
    | error e =>
      have hstep : step s = .next ({ s with schedule := es }.recordCompletion (DecodeError.err e)) :=
        (step_complete hes).trans (completeEvent_rejected hrun hword)
      rw [← decode_eq_illegalOpcode_iff, hword, hstep]
      cases e <;> simp [DecodeError.err]
  · rw [(decode_eq_illegalOpcode_iff w).mpr hopc] at hi
    cases hi

/-! ### Refused channels (R112, R119) -/

theorem active_iff (g : Geometry) (c : Chan) : g.active c = true ↔ c.index < g.chanCount := decide_eq_true_iff

theorem chansOf_inactive {g : Geometry} {c : Chan} (h : g.chanCount ≤ c.index) :
    chansOf g (.ch c) = .error .badChannel := by
  simp [chansOf, active_iff, h]

/-- In the class `one` 0b11 is refused like an inactive channel. -/
theorem chanOfOne_refused {g : Geometry} {sel : ChSel} (h : ∀ c, sel = .ch c → g.chanCount ≤ c.index) :
    chanOfOne g sel = .error .badChannel := by
  cases sel with
  | ch c => simp [chanOfOne, active_iff, h c rfl]
  | all => rfl

theorem runCommandOne_refused {s : State} {g : Geometry} {sel : ChSel} {e : Err} (h : s.engine = some g)
    (hsel : chanOfOne g sel = .error e) (body : Geometry → Chan → Except Err State) :
    runCommandOne s sel body = .next (s.recordCompletion e) := by
  rw [runCommandOne, whenReady_ready h, hsel, finish_error]

theorem runCommandMany_refused {s : State} {g : Geometry} {sel : ChSel} {e : Err} (h : s.engine = some g)
    (hsel : chansOf g sel = .error e) (body : Geometry → List Chan → Except Err State) :
    runCommandMany s sel body = .next (s.recordCompletion e) := by
  rw [runCommandMany, whenReady_ready h, hsel, finish_error]

/-- A command of the class `one` whose channel is refused ends with the channel error. -/
theorem exec_one_refused {i : Instr} {s : State} {g : Geometry} (h : s.engine = some g) (hclass : i.chClass = .one)
    (hsel : chanOfOne g i.chSel = .error .badChannel) : exec i s = .next (s.recordCompletion .badChannel) := by
  cases i with
  | loadf | cmul | growth | getv | geval | lookup => exact runCommandOne_refused h hsel _
  | _ => cases hclass

/-- A command of the class `one-or-all` whose channel set is refused ends with the channel error. -/
theorem exec_oneOrAll_refused {i : Instr} {s : State} {g : Geometry} (h : s.engine = some g)
    (hclass : i.chClass = .oneOrAll) (hsel : chansOf g i.chSel = .error .badChannel) :
    exec i s = .next (s.recordCompletion .badChannel) := by
  cases i with
  | setp | buildKernel | buildGrowth | swap | clear | randomize | place | circle | setv =>
    exact runCommandMany_refused h hsel _
  | _ => cases hclass

/-- Settles O10: the channel check of the command's class refuses the selector before the command begins. -/
theorem inactiveChannelsAreRefused : Obligations.InactiveChannelsAreRefused := by
  refine ⟨fun i s g h hclass hsel => ?_, fun g => ⟨fun c => ⟨active_iff g c, fun hc => ?_⟩, rfl, ?_⟩⟩
  · cases hi : i.chClass with
    | none => exact absurd hi hclass
    | one =>
      refine exec_one_refused h hi (chanOfOne_refused fun c hc => ?_)
      rcases hsel with ⟨-, hall⟩ | ⟨d, hd, hle⟩
      · rw [hall] at hc; cases hc
      · rw [hd] at hc; cases hc; exact hle
    | oneOrAll =>
      rcases hsel with ⟨hone, -⟩ | ⟨c, hc, hle⟩
      · rw [hi] at hone; cases hone
      · exact exec_oneOrAll_refused h hi (by rw [hc, chansOf_inactive hle])
  · exact chansOf_active ((active_iff g c).mpr hc)
  · obtain ⟨log2NPred, channels, resExtra⟩ := g
    cases channels with
    | one => exact .inl ⟨rfl, rfl⟩
    | three => exact .inr ⟨rfl, rfl⟩

end Sys2Proof.Machine
end

section
/-! PROOF. The commands that write the scratch arrays: what they leave there and what they leave alone (O31, O33). -/

namespace Sys2Proof.Machine

open Sys2Proof.Claims

/-! ### Writing the scratch arrays -/

theorem Cplx.at_scratch (s : State) (g : Geometry) {i : Nat} (h : i < g.cells) :
    Cplx.at (s.scratch g) i = (s.readElem .sre i, s.readElem .sim i) :=
  Prod.ext (readArray_getD s .sre h posZero) (readArray_getD s .sim h posZero)

@[simp] theorem scratch_recordCompletion (s : State) (e : Err) (g : Geometry) :
    (s.recordCompletion e).scratch g = s.scratch g := by
  rw [State.scratch, readArray_recordCompletion, readArray_recordCompletion, State.scratch]

section
variable {s : State} {g : Geometry} {v : Cplx} (re : v.re.length = g.cells) (im : v.im.length = g.cells)
include re im

/-- What is written to the scratch arrays is read back. -/
theorem scratch_writeScratch : (s.writeScratch v).scratch g = v := by
  have hcells := g.cells_le
  have hre : (s.writeScratch v).readArray .sre g.cells = v.re := by
    rw [State.writeScratch, readArray_writeArray_other _ (by decide) _ _ (im.trans_le hcells) hcells, ← re,
      readArray_writeArray_same]
  have him : (s.writeScratch v).readArray .sim g.cells = v.im := by
    rw [State.writeScratch, ← im, readArray_writeArray_same]
  rw [State.scratch, hre, him]

/-- Writing the scratch arrays leaves every byte outside them as it was. -/
theorem bytesKept_writeScratch :
    BytesKeptOutside s (s.writeScratch v) (fun x => InArr .sre g.cells x ∨ InArr .sim g.cells x) := fun x hx => by
  simp only [InArr, not_or, not_and_or, not_le, not_lt] at hx
  obtain ⟨hre, him⟩ := hx
  rw [State.writeScratch, readByte_writeArray_outside _ _ _ _ (im ▸ him), readByte_writeArray_outside _ _ _ _ (re ▸ hre)]

/-- A command whose effect is to draw and then to write the scratch arrays. -/
theorem writeScratch_completed (draws : Draws) {t : State}
    (ht : t = (State.writeScratch { s with draws := draws } v).recordCompletion .ok) :
    Ran s s t ∧ t.scratch g = v ∧
      BytesKeptOutside s t (fun x => InArr .sre g.cells x ∨ InArr .sim g.cells x) := by
  subst ht
  refine ⟨?_, ?_, fun x hx => ?_⟩
  · exact ran_recordCompletion ⟨rfl, rfl, rfl, rfl, rfl, rfl, rfl, rfl, rfl⟩ ⟨rfl, rfl, rfl, rfl, rfl, rfl⟩ rfl rfl rfl
  · rw [scratch_recordCompletion, scratch_writeScratch re im]
  · rw [readByte_recordCompletion]
    exact bytesKept_writeScratch re im x hx

end

/-! ### LOADF (R150) -/

theorem exec_loadf_ready {s : State} {g : Geometry} {c : Chan} (h : s.engine = some g) (hc : g.active c = true) :
    exec (.loadf (.ch c)) s = .next ((s.loadField g c).recordCompletion .ok) :=
  runCommandOne_ready h hc _

/-- What LOADF stores: the active field, with imaginary parts 0. -/
def fieldAsCplx (s : State) (g : Geometry) (c : Chan) : Cplx :=
  ⟨s.readArray (s.activeField c) g.cells, List.replicate g.cells posZero⟩

theorem loadField_eq (s : State) (g : Geometry) (c : Chan) : s.loadField g c = s.writeScratch (fieldAsCplx s g c) := rfl

theorem Cplx.at_fieldAsCplx (s : State) (g : Geometry) (c : Chan) {i : Nat} (h : i < g.cells) :
    Cplx.at (fieldAsCplx s g c) i = (s.readElem (s.activeField c) i, posZero) :=
  Prod.ext (readArray_getD s _ h posZero) (List.getD_replicate _ h)

/-- Settles O31: LOADF writes the field, with imaginary parts 0, to the scratch arrays, and they read back. -/
theorem loadfCopiesTheField : Obligations.LoadfCopiesTheField := by
  intro s g c hg hc
  obtain ⟨ran, hscratch, bytes⟩ := writeScratch_completed (v := fieldAsCplx s g c) (readArray_length _ _ _)
    List.length_replicate s.draws (congrArg (State.recordCompletion · .ok) (loadField_eq s g c))
  refine ⟨_, exec_loadf_ready hg hc, ran, fun i hi => Prod.mk_inj.mp ?_, bytes⟩
  rw [← Cplx.at_fieldAsCplx s g c hi, ← hscratch, Cplx.at_scratch _ g hi]

/-! ### CMUL (R153) -/

theorem exec_cmul_ready {s : State} {g : Geometry} {c : Chan} (h : s.engine = some g) (hc : g.active c = true) :
    exec (.cmul (.ch c)) s = .next ((s.multiplyScratch g c).recordCompletion .ok) :=
  runCommandOne_ready h hc _

/-- The model's product names the operations of R153 in the same order. -/
theorem complexMul_eq_productOf (a b c d : Word) : complexMul a b c d = productOf a b c d := rfl

/-- A list of complex numbers as a sequence of real and a sequence of imaginary parts. -/
def Cplx.ofPairs (ps : List (Word × Word)) : Cplx := ⟨ps.map Prod.fst, ps.map Prod.snd⟩

theorem Cplx.at_ofPairs {ps : List (Word × Word)} {i : Nat} {p : Word × Word} (h : ps[i]? = some p) :
    Cplx.at (Cplx.ofPairs ps) i = p := by
  simp [Cplx.at, Cplx.ofPairs, h]

theorem multiplyScratch_eq (s : State) (g : Geometry) (c : Chan) :
    s.multiplyScratch g c =
      State.writeScratch { s with draws := ((multiplyElems s c g.cells).run s.draws).2 }
        (Cplx.ofPairs ((multiplyElems s c g.cells).run s.draws).1) := rfl

theorem multiplyElems_length (s : State) (c : Chan) (n : Nat) (d : Draws) :
    ((multiplyElems s c n).run d).1.length = n := by
  rw [multiplyElems, forEach_length, List.length_range]

/-- Element `i` of what CMUL stores is the product of the elements `i`. -/
theorem multiplyElems_getElem? (s : State) (c : Chan) {n i : Nat} (h : i < n) (d : Draws) :
    ∃ e, ((multiplyElems s c n).run d).1[i]? = some ((productOf (s.readElem .sre i) (s.readElem .sim i)
      (s.readElem (.ktfRe c) i) (s.readElem (.ktfIm c) i)).run e).1 := by
  obtain ⟨e, he⟩ := forEach_getElem (fun i => productOf (s.readElem .sre i) (s.readElem .sim i)
    (s.readElem (.ktfRe c) i) (s.readElem (.ktfIm c) i)) (List.range n) d i (by simpa using h)
  rw [List.getElem_range] at he
  exact ⟨e, he⟩

/-- Settles O33: CMUL writes the list of the products to the scratch arrays, and they read back. -/
theorem cmulMultipliesElementwise : Obligations.CmulMultipliesElementwise := by
  refine ⟨complexMul_eq_productOf, fun s g c hg hc => ?_⟩
  have hlen := multiplyElems_length s c g.cells s.draws
  obtain ⟨ran, hscratch, bytes⟩ := writeScratch_completed
    (v := Cplx.ofPairs ((multiplyElems s c g.cells).run s.draws).1) (by rw [Cplx.ofPairs, List.length_map, hlen])
    (by rw [Cplx.ofPairs, List.length_map, hlen]) _ (congrArg (State.recordCompletion · .ok) (multiplyScratch_eq s g c))
  refine ⟨_, exec_cmul_ready hg hc, ran, fun i hi => ?_, bytes⟩
  obtain ⟨e, he⟩ := multiplyElems_getElem? s c hi s.draws
  exact ⟨e, by rw [← Cplx.at_scratch _ g hi, hscratch, Cplx.at_ofPairs he]⟩

end Sys2Proof.Machine
end

section
/-! PROOF. Bit reversal, its table, and the permutation of the transform (O58; R141, R142). -/

namespace Sys2Proof.Machine

open Sys2Proof.Claims

/-! ### Bit reversal (R141) -/

theorem reverseBits_lt (n i : Nat) : reverseBits n i < 2 ^ n := by
  induction n generalizing i with
  | zero => exact Nat.one_pos
  | succ n ih =>
    have hrest := ih (i / 2)
    have hbit : i % 2 * 2 ^ n ≤ 1 * 2 ^ n := Nat.mul_le_mul_right _ (by omega)
    rw [reverseBits, Nat.pow_succ]
    omega

/-- Bit `j` of the reversed number is bit `n - 1 - j`. -/
theorem testBit_reverseBits (n i j : Nat) (h : j < n) : (reverseBits n i).testBit j = i.testBit (n - 1 - j) := by
  induction n generalizing i with
  | zero => exact absurd h (Nat.not_lt_zero j)
  | succ n ih =>
    rw [reverseBits, Nat.mul_comm, Nat.testBit_two_pow_mul_add _ (reverseBits_lt n (i / 2))]
    split
    case isTrue hj =>
      rw [ih (i / 2) hj, Nat.testBit_div_two, show n - 1 - j + 1 = n + 1 - 1 - j by omega]
    case isFalse hj =>
      obtain rfl : j = n := by omega
      simp [Nat.testBit_zero]

theorem reverseBits_reverseBits {n i : Nat} (h : i < 2 ^ n) : reverseBits n (reverseBits n i) = i := by
  apply Nat.eq_of_testBit_eq
  intro j
  rcases Nat.lt_or_ge j n with hj | hj
  · rw [testBit_reverseBits n _ j hj, testBit_reverseBits n _ _ (by omega), show n - 1 - (n - 1 - j) = j by omega]
  · have hpow : 2 ^ n ≤ 2 ^ j := Nat.pow_le_pow_right (by decide) hj
    rw [Nat.testBit_lt_two_pow ((reverseBits_lt n _).trans_le hpow), Nat.testBit_lt_two_pow (h.trans_le hpow)]

theorem getD_map_range {α : Type} (f : Nat → α) {n i : Nat} (h : i < n) (d : α) :
    ((List.range n).map f).getD i d = f i := by
  simp [h]

/-- Settles O58: reversing twice puts every bit back, and the table lists the reversals. -/
theorem bitReversalIsAnInvolution : Obligations.BitReversalIsAnInvolution :=
  ⟨fun n i h => ⟨reverseBits_lt n i, reverseBits_reverseBits h, testBit_reverseBits n i⟩,
    fun n => ⟨by simp [bitrevTable], fun _ h => getD_map_range _ h 0⟩⟩

/-! ### The permutation (R142) -/

theorem getD_swapAt {ws : List Word} {i j : Nat} (hi : i < ws.length) (hj : j < ws.length) (k : Nat) :
    (swapAt ws i j).getD k posZero = ws.getD (Equiv.swap i j k) posZero := by
  rw [Equiv.swap_apply_def, swapAt]
  split_ifs <;> grind

/-- What the permutation does at index `i`: an exchange with the reversed index where that is larger. -/
def permuteAt (t : FftTables) (v : Cplx) (i : Nat) : Cplx :=
  if i < t.rev.getD i 0 then ⟨swapAt v.re i (t.rev.getD i 0), swapAt v.im i (t.rev.getD i 0)⟩ else v

theorem permute_eq_foldl (t : FftTables) (v : Cplx) :
    permute t v = (List.range (2 ^ t.log2n)).foldl (permuteAt t) v := rfl

theorem permuteAt_sized {t u : FftTables} {v : Cplx} (h : Cplx.Sized u v) (i : Nat) : Cplx.Sized u (permuteAt t v i) := by
  obtain ⟨hre, him⟩ := h
  rw [permuteAt]
  split
  · exact ⟨by simpa [swapAt] using hre, by simpa [swapAt] using him⟩
  · exact ⟨hre, him⟩

/-- Where the exchanges at the indices below `m` take the element at index `k` from: an element has moved where its index
or the reversed one is below `m`. -/
def exchangedBelow (n m k : Nat) : Nat := if k < m ∨ reverseBits n k < m then reverseBits n k else k

theorem exchangedBelow_zero (n k : Nat) : exchangedBelow n 0 k = k := by simp [exchangedBelow]

theorem exchangedBelow_all {n k : Nat} (h : k < 2 ^ n) : exchangedBelow n (2 ^ n) k = reverseBits n k := if_pos (.inl h)

/-- The exchange at index `m` moves its two elements, which have not moved before. -/
theorem exchangedBelow_swap {n m k : Nat} (hm : m < 2 ^ n) (hk : k < 2 ^ n) (h : m < reverseBits n m) :
    exchangedBelow n m (Equiv.swap m (reverseBits n m) k) = exchangedBelow n (m + 1) k := by
  have hmm := reverseBits_reverseBits hm
  have hkk := reverseBits_reverseBits hk
  rw [Equiv.swap_apply_def]
  split_ifs with h1 h2
  · subst h1
    rw [exchangedBelow, exchangedBelow, hmm, if_neg (by omega), if_pos (by omega)]
  · subst h2
    rw [exchangedBelow, exchangedBelow, hmm, if_neg (by omega), if_pos (by omega)]
  · have hne : reverseBits n k ≠ m := fun he => h2 (by rw [← he, hkk])
    exact if_congr (by omega) rfl rfl

/-- Where no exchange is made, the reversed index is the same or has had its exchange. -/
theorem exchangedBelow_succ {n m k : Nat} (hk : k < 2 ^ n) (h : ¬ m < reverseBits n m) :
    exchangedBelow n m k = exchangedBelow n (m + 1) k := by
  have hkk := reverseBits_reverseBits hk
  rcases Nat.lt_trichotomy (reverseBits n m) m with hlt | heq | hgt
  · refine if_congr ⟨by omega, fun hle => ?_⟩ rfl rfl
    rcases eq_or_ne k m with rfl | hkm
    · exact .inr hlt
    rcases eq_or_ne (reverseBits n k) m with hrm | hrm
    · exact .inl (by rwa [← hrm, hkk, hrm] at hlt)
    · omega
  · rcases eq_or_ne k m with rfl | hkm
    · rw [exchangedBelow, exchangedBelow, heq, ite_self, ite_self]
    · have hrm : reverseBits n k ≠ m := fun he => hkm (by rw [← hkk, he, heq])
      exact if_congr (by omega) rfl rfl
  · exact absurd hgt h

theorem at_exchange {v : Cplx} {i j n : Nat} (hre : v.re.length = n) (him : v.im.length = n) (hi : i < n) (hj : j < n)
    (k : Nat) : Cplx.at ⟨swapAt v.re i j, swapAt v.im i j⟩ k = Cplx.at v (Equiv.swap i j k) :=
  Prod.ext (getD_swapAt (hre ▸ hi) (hre ▸ hj) k) (getD_swapAt (him ▸ hi) (him ▸ hj) k)

theorem swap_lt {i j k n : Nat} (hi : i < n) (hj : j < n) (hk : k < n) : Equiv.swap i j k < n := by
  rw [Equiv.swap_apply_def]
  split_ifs <;> assumption

theorem foldl_permuteAt_sized {t u : FftTables} {v : Cplx} (h : Cplx.Sized u v) (is : List Nat) :
    Cplx.Sized u (is.foldl (permuteAt t) v) :=
  List.foldlRecOn _ _ h fun _ hw i _ => permuteAt_sized hw i

theorem permute_sized {t u : FftTables} {v : Cplx} (h : Cplx.Sized u v) : Cplx.Sized u (permute t v) :=
  foldl_permuteAt_sized h _

theorem at_foldl_permuteAt {t : FftTables} {v : Cplx} (hv : Cplx.Sized t v)
    (hrev : t.rev = (List.range (2 ^ t.log2n)).map (reverseBits t.log2n)) {m : Nat} (hm : m ≤ 2 ^ t.log2n) {k : Nat}
    (hk : k < 2 ^ t.log2n) :
    Cplx.at ((List.range m).foldl (permuteAt t) v) k = Cplx.at v (exchangedBelow t.log2n m k) := by
  induction m generalizing k with
  | zero => rw [exchangedBelow_zero]; rfl
  | succ m ih =>
    obtain ⟨hre, him⟩ := foldl_permuteAt_sized (t := t) hv (List.range m)
    have hlt := reverseBits_lt t.log2n m
    rw [List.range_succ, List.foldl_append, List.foldl_cons, List.foldl_nil, permuteAt, hrev, getD_map_range _ hm]
    split
    case isTrue hlarger =>
      rw [at_exchange hre him hm hlt, ih (Nat.le_of_succ_le hm) (swap_lt hm hlt hk), exchangedBelow_swap hm hk hlarger]
    case isFalse hsmaller => rw [ih (Nat.le_of_succ_le hm) hk, exchangedBelow_succ hk hsmaller]

/-- The permutation takes every element from its bit-reversed index. -/
theorem at_permute {t : FftTables} {v : Cplx} (hv : Cplx.Sized t v)
    (hrev : t.rev = (List.range (2 ^ t.log2n)).map (reverseBits t.log2n)) {i : Nat} (h : i < 2 ^ t.log2n) :
    Cplx.at (permute t v) i = Cplx.at v (reverseBits t.log2n i) := by
  rw [permute_eq_foldl, at_foldl_permuteAt hv hrev le_rfl h, exchangedBelow_all h]

end Sys2Proof.Machine
end

section
/-! PROOF. The one-dimensional transform: butterflies, stages and the division (R143, R144). -/

namespace Sys2Proof.Machine

open Sys2Proof.Claims

/-! ### Elements of a sequence -/

/-- Give element `i` of a complex sequence a value. -/
def Cplx.setAt (v : Cplx) (i : Nat) (x : Word × Word) : Cplx := ⟨v.re.set i x.1, v.im.set i x.2⟩

theorem Cplx.at_setAt_same {t : FftTables} {v : Cplx} (hv : Cplx.Sized t v) {i : Nat} (hi : i < 2 ^ t.log2n)
    (x : Word × Word) : Cplx.at (v.setAt i x) i = x := by
  obtain ⟨hre, him⟩ := hv
  simp [Cplx.at, Cplx.setAt, hre, him, hi]

theorem Cplx.at_setAt_other (v : Cplx) {i k : Nat} (h : i ≠ k) (x : Word × Word) :
    Cplx.at (v.setAt i x) k = Cplx.at v k := by
  simp [Cplx.at, Cplx.setAt, h]

theorem Cplx.setAt_sized {t : FftTables} {v : Cplx} (hv : Cplx.Sized t v) (i : Nat) (x : Word × Word) :
    Cplx.Sized t (v.setAt i x) := by
  obtain ⟨hre, him⟩ := hv
  exact ⟨by simpa [Cplx.setAt] using hre, by simpa [Cplx.setAt] using him⟩

/-! ### Folds that take draws -/

/-- What every step of a fold keeps, the fold keeps. -/
theorem foldlM_keeps {α β : Type} {f : β → α → Num β} {P : β → Prop} {as : List α}
    (h : ∀ b, ∀ a ∈ as, ∀ d, P b → P ((f b a).run d).1) {b : β} (hb : P b) (d : Draws) :
    P ((as.foldlM f b).run d).1 := by
  induction as generalizing b d with
  | nil => exact hb
  | cons a as ih =>
    rw [List.foldlM_cons]
    exact ih (fun c x hx => h c x (List.mem_cons_of_mem a hx)) (h b a List.mem_cons_self d hb) _

/-! ### Butterflies -/

/-- The twiddle of R143: the conjugate for the forward transform. -/
def twiddle (t : FftTables) (inv : Bool) (k : Nat) : Word × Word :=
  (t.cos.getD k posZero, if inv then t.sin.getD k posZero else fneg (t.sin.getD k posZero))

/-- The model's butterfly is that of the claims on its two elements, which it replaces. -/
theorem butterfly_eq (t : FftTables) (inv : Bool) (k lo hi : Nat) (v : Cplx) :
    butterfly t inv k lo hi v =
      butterflyOf (twiddle t inv k) (Cplx.at v lo) (Cplx.at v hi) >>= fun r =>
        pure ((v.setAt lo r.1).setAt hi r.2) := rfl

theorem butterfly_sized {t u : FftTables} {inv : Bool} {k lo hi : Nat} {v : Cplx} (hv : Cplx.Sized u v) (d : Draws) :
    Cplx.Sized u ((butterfly t inv k lo hi v).run d).1 := by
  rw [butterfly_eq, run_bind, run_pure]
  exact Cplx.setAt_sized (Cplx.setAt_sized hv _ _) _ _

theorem at_butterfly_other (t : FftTables) (inv : Bool) (k : Nat) {lo hi i : Nat} (hlo : lo ≠ i) (hhi : hi ≠ i)
    (v : Cplx) (d : Draws) : Cplx.at ((butterfly t inv k lo hi v).run d).1 i = Cplx.at v i := by
  rw [butterfly_eq, run_bind, run_pure, Cplx.at_setAt_other _ hhi, Cplx.at_setAt_other _ hlo]

theorem at_butterfly_pair {t u : FftTables} (inv : Bool) (k : Nat) {lo hi : Nat} {v : Cplx} (hv : Cplx.Sized u v)
    (hlo : lo < hi) (hhi : hi < 2 ^ u.log2n) (d : Draws) :
    (Cplx.at ((butterfly t inv k lo hi v).run d).1 lo, Cplx.at ((butterfly t inv k lo hi v).run d).1 hi) =
      ((butterflyOf (twiddle t inv k) (Cplx.at v lo) (Cplx.at v hi)).run d).1 := by
  rw [butterfly_eq, run_bind, run_pure, Cplx.at_setAt_same (Cplx.setAt_sized hv _ _) hhi,
    Cplx.at_setAt_other _ hlo.ne', Cplx.at_setAt_same hv (hlo.trans hhi)]

/-! ### A stage (R143) -/

/-- The lower element of the pair of a base `b` and a `j` below `half`. -/
def pairLow (half : Nat) (bj : Nat × Nat) : Nat := bj.1 * (2 * half) + bj.2

/-- The butterfly of a stage at one pair. -/
def stageButterfly (t : FftTables) (inv : Bool) (half : Nat) (v : Cplx) (bj : Nat × Nat) : Num Cplx :=
  butterfly t inv (bj.2 * (2 ^ t.log2n / (2 * half))) (pairLow half bj) (pairLow half bj + half) v

/-- The pairs of a stage, in the model's order. -/
def stagePairs (t : FftTables) (half : Nat) : List (Nat × Nat) :=
  List.range (2 ^ t.log2n / (2 * half)) ×ˢ List.range half

theorem fftStage_eq (t : FftTables) (inv : Bool) (half : Nat) (v : Cplx) :
    fftStage t inv half v = (stagePairs t half).foldlM (stageButterfly t inv half) v := rfl

theorem mem_stagePairs {t : FftTables} {half : Nat} {bj : Nat × Nat} :
    bj ∈ stagePairs t half ↔ bj.1 < 2 ^ t.log2n / (2 * half) ∧ bj.2 < half := by
  rw [stagePairs, List.mem_product, List.mem_range, List.mem_range]

theorem stagePairs_nodup (t : FftTables) (half : Nat) : (stagePairs t half).Nodup :=
  List.nodup_range.product List.nodup_range

theorem pairLow_add_half_lt {t : FftTables} {half : Nat} {bj : Nat × Nat} (h : bj ∈ stagePairs t half) :
    pairLow half bj + half < 2 ^ t.log2n := by
  obtain ⟨hb, hj⟩ := mem_stagePairs.mp h
  calc pairLow half bj + half < (bj.1 + 1) * (2 * half) := by
        rw [pairLow, Nat.add_mul]
        omega
    _ ≤ 2 ^ t.log2n / (2 * half) * (2 * half) := Nat.mul_le_mul_right _ hb
    _ ≤ 2 ^ t.log2n := Nat.div_mul_le_self _ _

theorem mul_add_div_of_lt {n x : Nat} (b : Nat) (h : x < n) : (b * n + x) / n = b := by
  rw [Nat.add_comm, Nat.add_mul_div_right _ _ (Nat.zero_lt_of_lt h), Nat.div_eq_of_lt h, Nat.zero_add]

theorem mul_add_mod_of_lt {n x : Nat} (b : Nat) (h : x < n) : (b * n + x) % n = x := by
  rw [Nat.mul_add_mod_self_right, Nat.mod_eq_of_lt h]

/-- The block and the place within it, both determined by the index. -/
theorem mul_add_inj {b c x y n : Nat} (hx : x < n) (hy : y < n) (h : b * n + x = c * n + y) : b = c ∧ x = y := by
  constructor
  · rw [← mul_add_div_of_lt b hx, h, mul_add_div_of_lt c hy]
  · rw [← mul_add_mod_of_lt b hx, h, mul_add_mod_of_lt c hy]

/-- Different pairs of a stage have no element in common. -/
theorem pairLow_disjoint {half : Nat} {p q : Nat × Nat} (hp : p.2 < half) (hq : q.2 < half) (h : p ≠ q) :
    pairLow half p ≠ pairLow half q ∧ pairLow half p ≠ pairLow half q + half ∧
    pairLow half p + half ≠ pairLow half q ∧ pairLow half p + half ≠ pairLow half q + half := by
  have hsame : pairLow half p ≠ pairLow half q := fun he => by
    obtain ⟨h1, h2⟩ := mul_add_inj (by omega) (by omega) he
    exact h (Prod.ext h1 h2)
  refine ⟨hsame, fun he => ?_, fun he => ?_, fun he => hsame (Nat.add_right_cancel he)⟩
  · have := (mul_add_inj (by omega) (by omega) (he.trans (Nat.add_assoc _ _ _))).2
    omega
  · have := (mul_add_inj (by omega) (by omega) ((Nat.add_assoc _ _ _).symm.trans he)).2
    omega

theorem foldl_stageButterfly_sized {t u : FftTables} {inv : Bool} {half : Nat} {v : Cplx} (hv : Cplx.Sized u v)
    (ps : List (Nat × Nat)) (d : Draws) : Cplx.Sized u ((ps.foldlM (stageButterfly t inv half) v).run d).1 :=
  foldlM_keeps (P := Cplx.Sized u) (fun _ _ _ d hw => butterfly_sized hw d) hv d

theorem fftStage_sized {t u : FftTables} {inv : Bool} {half : Nat} {v : Cplx} (hv : Cplx.Sized u v) (d : Draws) :
    Cplx.Sized u ((fftStage t inv half v).run d).1 :=
  foldl_stageButterfly_sized hv (stagePairs t half) d

/-- The two elements of a pair are in `w` as in `v`. -/
def PairKept (half : Nat) (p : Nat × Nat) (v w : Cplx) : Prop :=
  Cplx.at w (pairLow half p) = Cplx.at v (pairLow half p) ∧
  Cplx.at w (pairLow half p + half) = Cplx.at v (pairLow half p + half)

/-- Butterflies at other pairs keep the elements of a pair. -/
theorem pairKept_foldlM_others (t : FftTables) (inv : Bool) {half : Nat} {p : Nat × Nat} (hp : p.2 < half)
    {qs : List (Nat × Nat)} (hqs : ∀ q ∈ qs, q.2 < half ∧ q ≠ p) (v : Cplx) (d : Draws) :
    PairKept half p v ((qs.foldlM (stageButterfly t inv half) v).run d).1 := by
  refine foldlM_keeps (P := PairKept half p v) (fun w q hq d hw => ?_) ⟨rfl, rfl⟩ d
  obtain ⟨hj, hne⟩ := hqs q hq
  obtain ⟨h1, h2, h3, h4⟩ := pairLow_disjoint hj hp hne
  obtain ⟨hlo, hhi⟩ := hw
  exact ⟨(at_butterfly_other _ _ _ h1 h3 _ _).trans hlo, (at_butterfly_other _ _ _ h2 h4 _ _).trans hhi⟩

/-- A stage replaces every pair by its butterfly: the other butterflies touch neither element. -/
theorem at_fftStage_pair {t : FftTables} (inv : Bool) {half : Nat} {v : Cplx} (hv : Cplx.Sized t v) (d : Draws)
    {p : Nat × Nat} (hp : p ∈ stagePairs t half) : ∃ e,
    (Cplx.at ((fftStage t inv half v).run d).1 (pairLow half p),
      Cplx.at ((fftStage t inv half v).run d).1 (pairLow half p + half)) =
    ((butterflyOf (twiddle t inv (p.2 * (2 ^ t.log2n / (2 * half)))) (Cplx.at v (pairLow half p))
      (Cplx.at v (pairLow half p + half))).run e).1 := by
  obtain ⟨before, after, hsplit⟩ := List.append_of_mem hp
  have hnodup := stagePairs_nodup t half
  rw [hsplit, List.nodup_middle, List.nodup_cons, List.mem_append, not_or] at hnodup
  obtain ⟨⟨hnotBefore, hnotAfter⟩, -⟩ := hnodup
  have hj : ∀ q ∈ stagePairs t half, q.2 < half := fun q hq => (mem_stagePairs.mp hq).2
  have hbefore : ∀ q ∈ before, q.2 < half ∧ q ≠ p := fun q hq =>
    ⟨hj q (by simp [hsplit, hq]), fun he => hnotBefore (he ▸ hq)⟩
  have hafter : ∀ q ∈ after, q.2 < half ∧ q ≠ p := fun q hq =>
    ⟨hj q (by simp [hsplit, hq]), fun he => hnotAfter (he ▸ hq)⟩
  obtain ⟨hlo, hhi⟩ := pairKept_foldlM_others t inv (hj p hp) hbefore v d
  have hsized := foldl_stageButterfly_sized (t := t) (inv := inv) (half := half) hv before d
  refine ⟨((before.foldlM (stageButterfly t inv half) v).run d).2, ?_⟩
  rw [fftStage_eq, hsplit, List.foldlM_append, run_bind, List.foldlM_cons, run_bind]
  obtain ⟨hlo', hhi'⟩ := pairKept_foldlM_others t inv (hj p hp) hafter _ _
  rw [hlo', hhi']
  have hpos : 0 < half := (Nat.zero_le _).trans_lt (hj p hp)
  rw [stageButterfly, at_butterfly_pair inv _ hsized (by omega) (pairLow_add_half_lt hp), hlo, hhi]

/-! ### The stages and the division (R143, R144) -/

theorem fftStages_eq_foldlM (t : FftTables) (inv : Bool) (n m : Nat) (v : Cplx) :
    fftStages t inv n (2 ^ m) v = (List.range' m n).foldlM (fun w m => fftStage t inv (2 ^ m) w) v := by
  induction n generalizing m v with
  | zero => rfl
  | succ n ih =>
    rw [List.range'_succ, List.foldlM_cons, fftStages, ← Nat.pow_succ']
    simp only [ih]

theorem stagesOf_eq (t : FftTables) (inv : Bool) (v : Cplx) :
    fftStages t inv t.log2n 1 (permute t v) = stagesOf t inv v := by
  rw [stagesOf, List.range_eq_range']
  exact fftStages_eq_foldlM t inv t.log2n 0 _

/-- Every part of a sequence divided by N (R144). -/
def divideByN (t : FftTables) (v : Cplx) : Num Cplx := do
  let re ← forEach (fun x => fdiv x (ofNat64 (2 ^ t.log2n))) v.re
  let im ← forEach (fun x => fdiv x (ofNat64 (2 ^ t.log2n))) v.im
  pure { re := re, im := im }

theorem fft1_forward (t : FftTables) (v : Cplx) (d : Draws) : (fft1 t false v).run d = (stagesOf t false v).run d := by
  rw [← stagesOf_eq]
  rfl

theorem fft1_inverse (t : FftTables) (v : Cplx) : fft1 t true v = stagesOf t true v >>= divideByN t := by
  rw [← stagesOf_eq]
  rfl

theorem stagesOf_sized {t : FftTables} {inv : Bool} {v : Cplx} (hv : Cplx.Sized t v) (d : Draws) :
    Cplx.Sized t ((stagesOf t inv v).run d).1 :=
  foldlM_keeps (P := Cplx.Sized t) (fun _ _ _ d hw => fftStage_sized hw d) (permute_sized hv) d

theorem divideByN_sized {t : FftTables} {v : Cplx} (hv : Cplx.Sized t v) (d : Draws) :
    Cplx.Sized t ((divideByN t v).run d).1 := by
  obtain ⟨hre, him⟩ := hv
  exact ⟨(forEach_length _ _ _).trans hre, (forEach_length _ _ _).trans him⟩

theorem fft1_sized {t : FftTables} {inv : Bool} {v : Cplx} (hv : Cplx.Sized t v) (d : Draws) :
    Cplx.Sized t ((fft1 t inv v).run d).1 := by
  cases inv with
  | false => rw [fft1_forward]; exact stagesOf_sized hv d
  | true => rw [fft1_inverse, run_bind]; exact divideByN_sized (stagesOf_sized hv d) _

/-- Element `i` of a traversed list of words. -/
theorem forEach_getD {f : Word → Num Word} {ws : List Word} {i : Nat} (h : i < ws.length) (d : Draws) :
    ∃ e, ((forEach f ws).run d).1.getD i posZero = ((f (ws.getD i posZero)).run e).1 := by
  obtain ⟨e, he⟩ := forEach_getElem f ws d i h
  exact ⟨e, by rw [List.getD_eq_getElem?_getD, he, Option.getD_some, List.getD_eq_getElem _ _ h]⟩

theorem at_divideByN {t : FftTables} {v : Cplx} (hv : Cplx.Sized t v) (d : Draws) {i : Nat} (h : i < 2 ^ t.log2n) :
    ∃ e e', Cplx.at ((divideByN t v).run d).1 i =
      (((fdiv (Cplx.at v i).1 (ofNat64 (2 ^ t.log2n))).run e).1,
        ((fdiv (Cplx.at v i).2 (ofNat64 (2 ^ t.log2n))).run e').1) := by
  obtain ⟨hre, him⟩ := hv
  obtain ⟨e, he⟩ := forEach_getD (f := fun x => fdiv x (ofNat64 (2 ^ t.log2n))) (hre ▸ h) d
  obtain ⟨e', he'⟩ := forEach_getD (f := fun x => fdiv x (ofNat64 (2 ^ t.log2n))) (him ▸ h) _
  exact ⟨e, e', Prod.ext he he'⟩

end Sys2Proof.Machine
end

section
/-! PROOF. The two-dimensional transform, and FFT_FWD and FFT_INV (O32; R145, R151, R152). -/

namespace Sys2Proof.Machine

open Sys2Proof.Claims

/-! ### Rows and columns (R145) -/

theorem rowOf_sized (t : FftTables) (a : Cplx) (y : Nat) : Cplx.Sized t (rowOf (2 ^ t.log2n) a y) := by
  simp [Cplx.Sized, rowOf]

/-- The rows or columns of an array, each transformed, one after another. -/
def transformLines (t : FftTables) (inv : Bool) (line : Nat → Cplx) : Num (List Cplx) :=
  forEach (fun y => fft1 t inv (line y)) (List.range (2 ^ t.log2n))

theorem fft2_eq (t : FftTables) (inv : Bool) (a : Cplx) :
    fft2 t inv a =
      transformLines t inv (rowOf (2 ^ t.log2n) a) >>= fun rows =>
        transformLines t inv (columnOf (2 ^ t.log2n) (ofRows rows)) >>= fun cols =>
          pure (ofColumns (2 ^ t.log2n) cols) := rfl

/-- Line `y` of a list of lines. -/
def lineAt (lines : List Cplx) (y : Nat) : Cplx := lines.getD y ⟨[], []⟩

theorem lineAt_transformLines (t : FftTables) (inv : Bool) (line : Nat → Cplx) (d : Draws) {y : Nat}
    (h : y < 2 ^ t.log2n) :
    ∃ e, lineAt ((transformLines t inv line).run d).1 y = ((fft1 t inv (line y)).run e).1 := by
  obtain ⟨e, he⟩ := forEach_getElem (fun y => fft1 t inv (line y)) (List.range (2 ^ t.log2n)) d y (by simpa using h)
  rw [List.getElem_range] at he
  exact ⟨e, by rw [lineAt, transformLines, List.getD_eq_getElem?_getD, he, Option.getD_some]⟩

/-- Element `y * n + x` of lines of length `n` one after another is element `x` of line `y`. -/
theorem getD_flatMap_lines (f : Cplx → List Word) {n x : Nat} (hx : x < n) {lines : List Cplx}
    (hlen : ∀ l ∈ lines, (f l).length = n) {y : Nat} (hy : y < lines.length) :
    (lines.flatMap f).getD (y * n + x) posZero = (f (lineAt lines y)).getD x posZero := by
  induction lines generalizing y with
  | nil => exact absurd hy (Nat.not_lt_zero y)
  | cons l lines ih =>
    have hl := hlen l List.mem_cons_self
    rw [List.flatMap_cons]
    cases y with
    | zero =>
      rw [Nat.zero_mul, Nat.zero_add, List.getD_append _ _ _ _ (hl ▸ hx)]
      rfl
    | succ y =>
      rw [List.getD_append_right _ _ _ _ (by rw [hl, Nat.succ_mul]; omega), hl,
        show (y + 1) * n + x - n = y * n + x by rw [Nat.succ_mul]; omega]
      exact ih (fun m hm => hlen m (List.mem_cons_of_mem l hm)) (Nat.lt_of_succ_lt_succ hy)

/-- A column of an array given by its rows. -/
theorem columnOf_ofRows {n x : Nat} (hx : x < n) {rows : List Cplx} (hcount : rows.length = n)
    (hlen : ∀ r ∈ rows, r.re.length = n ∧ r.im.length = n) :
    columnOf n (ofRows rows) x =
      { re := (List.range n).map fun y => (lineAt rows y).re.getD x posZero
        im := (List.range n).map fun y => (lineAt rows y).im.getD x posZero } := by
  rw [columnOf, ofRows, Cplx.mk.injEq]
  constructor
  · exact List.map_congr_left fun y hy =>
      getD_flatMap_lines Cplx.re hx (fun r hr => (hlen r hr).1) (hcount ▸ List.mem_range.mp hy)
  · exact List.map_congr_left fun y hy =>
      getD_flatMap_lines Cplx.im hx (fun r hr => (hlen r hr).2) (hcount ▸ List.mem_range.mp hy)

theorem at_ofColumns {n x y : Nat} (hx : x < n) (hy : y < n) (cols : List Cplx) :
    Cplx.at (ofColumns n cols) (y * n + x) = Cplx.at (lineAt cols x) y := by
  have hindex : y * n + x < n * n :=
    calc y * n + x < (y + 1) * n := by rw [Nat.succ_mul]; omega
      _ ≤ n * n := Nat.mul_le_mul_right _ hy
  rw [Cplx.at, ofColumns, getD_map_range _ hindex, getD_map_range _ hindex, mul_add_mod_of_lt y hx,
    mul_add_div_of_lt y hx]
  rfl

/-- `fft2` transforms every row, then every column of what that leaves. -/
theorem fft2_rows_columns (t : FftTables) (inv : Bool) (a : Cplx) (d : Draws) : ∃ rows cols : Nat → Cplx,
    (∀ y, y < 2 ^ t.log2n → ∃ e, rows y = ((fft1 t inv (rowOf (2 ^ t.log2n) a y)).run e).1) ∧
    (∀ x, x < 2 ^ t.log2n → ∃ e, cols x = ((fft1 t inv
      { re := (List.range (2 ^ t.log2n)).map fun y => (rows y).re.getD x posZero
        im := (List.range (2 ^ t.log2n)).map fun y => (rows y).im.getD x posZero }).run e).1) ∧
    ∀ x y, x < 2 ^ t.log2n → y < 2 ^ t.log2n →
      Cplx.at ((fft2 t inv a).run d).1 (y * 2 ^ t.log2n + x) = Cplx.at (cols x) y := by
  have hcount : ((transformLines t inv (rowOf (2 ^ t.log2n) a)).run d).1.length = 2 ^ t.log2n := by
    rw [transformLines, forEach_length, List.length_range]
  have hlen : ∀ r ∈ ((transformLines t inv (rowOf (2 ^ t.log2n) a)).run d).1, Cplx.Sized t r :=
    forEach_all (fun y e => fft1_sized (rowOf_sized t a y) e) _ d
  rw [fft2_eq, run_bind, run_bind, run_pure]
  refine ⟨lineAt _, lineAt _, fun y hy => lineAt_transformLines t inv _ d hy, fun x hx => ?_,
    fun x y hx hy => at_ofColumns hx hy _⟩
  rw [← columnOf_ofRows hx hcount hlen]
  exact lineAt_transformLines t inv _ _ hx

/-! ### FFT_FWD and FFT_INV (R151, R152) -/

theorem exec_fft_ready {s : State} {g : Geometry} (h : s.engine = some g) (inv : Bool) :
    exec (if inv then .fftInv else .fftFwd) s = .next ((s.transformScratch g inv).recordCompletion .ok) := by
  cases inv with
  | false => exact runCommandNone_ready h _
  | true => exact runCommandNone_ready h _

theorem transformScratch_eq (s : State) (g : Geometry) (inv : Bool) :
    s.transformScratch g inv =
      State.writeScratch { s with draws := ((fft2 (s.fftTables g) inv (s.scratch g)).run s.draws).2 }
        ((fft2 (s.fftTables g) inv (s.scratch g)).run s.draws).1 := rfl

theorem two_pow_div_double {n m : Nat} (h : m < n) : 2 ^ n / (2 * 2 ^ m) = 2 ^ (n - (m + 1)) := by
  rw [← Nat.pow_succ', Nat.pow_div h (by decide)]

/-- Settles O32: in a stage the pairs are disjoint, so each butterfly finds the elements the stage began with; the rest is
what the permutation, the stages, the division, the rows and the columns leave, each by its own lemma. -/
theorem fftTransformsTheScratchArrays : Obligations.FftTransformsTheScratchArrays := by
  refine ⟨fun s g => ⟨rfl, rfl⟩, fun s g inv hg => ?_, fft2_rows_columns, fun t v hv hrev i => at_permute hv hrev,
    fun t inv v d m hv hm b j hb hj => ?_, fun t v d hv => ⟨fft1_forward t v d, fun i hi => ?_⟩⟩
  · obtain ⟨hre, him⟩ := fft2_length (s.fftTables g) inv (s.scratch g) s.draws
    exact ⟨_, exec_fft_ready hg inv,
      writeScratch_completed hre him _ (congrArg (State.recordCompletion · .ok) (transformScratch_eq s g inv))⟩
  · have hpairs := two_pow_div_double hm
    have hmem : (b, j) ∈ stagePairs t (2 ^ m) := mem_stagePairs.mpr ⟨hpairs ▸ hb, hj⟩
    obtain ⟨e, he⟩ := at_fftStage_pair inv hv d hmem
    rw [pairLow, hpairs, ← Nat.pow_succ'] at he
    exact ⟨e, he⟩
  · rw [fft1_inverse, run_bind]
    exact at_divideByN (stagesOf_sized hv d) _ hi

end Sys2Proof.Machine
end

section
/-! PROOF. The enclosure of the twiddle cosines, and the twiddles as rounded cosines and sines (O59; R140). -/

namespace Sys2Proof.Machine

open Sys2Proof.Claims

/-! ### The half-angle formula -/

/-- `y` lies between the two ends, each with `p` fraction bits. -/
def Encloses (p : Nat) (c : Int × Int) (y : ℝ) : Prop := (c.1 : ℝ) / 2 ^ p ≤ y ∧ y ≤ (c.2 : ℝ) / 2 ^ p

theorem Encloses.neg {p : Nat} {c : Int × Int} {y : ℝ} (h : Encloses p c y) : Encloses p (-c.2, -c.1) (-y) := by
  obtain ⟨hlo, hhi⟩ := h
  simp only [Encloses, Int.cast_neg, neg_div]
  exact ⟨neg_le_neg hhi, neg_le_neg hlo⟩

theorem cast_toNat_le {z : Int} {x : ℝ} (hx : 0 ≤ x) (h : (z : ℝ) ≤ x) : (z.toNat : ℝ) ≤ x := by
  rcases le_total 0 z with hz | hz
  · rwa [← Int.cast_natCast, Int.toNat_of_nonneg hz]
  · rwa [Int.toNat_of_nonpos hz, Nat.cast_zero]

theorem le_cast_toNat {z : Int} {x : ℝ} (h : x ≤ z) : x ≤ (z.toNat : ℝ) :=
  h.trans (by exact_mod_cast Int.self_le_toNat z)

/-- The square root of `v`, rounded up: the upper end of `halfAngle`. -/
def sqrtUp (v : Nat) : Int := if isqrt v * isqrt v = v then (isqrt v : Int) else (isqrt v : Int) + 1

theorem halfAngle_eq (p : Nat) (c : Int × Int) :
    halfAngle p c =
      ((isqrt ((2 ^ p + c.1).toNat * 2 ^ p / 2) : Int), sqrtUp (ceilDiv ((2 ^ p + c.2).toNat * 2 ^ p) 2)) := rfl

theorem sqrtUp_nonneg (v : Nat) : (0 : ℝ) ≤ sqrtUp v := by
  rw [sqrtUp]
  split <;> positivity

theorem le_sqrtUp_sq (v : Nat) : (v : ℝ) ≤ (sqrtUp v : ℝ) ^ 2 := by
  rw [sqrtUp, sq]
  split
  case isTrue h => exact_mod_cast h.ge
  case isFalse h => exact_mod_cast (isqrt_spec v).2.le

theorem isqrt_sq_le (v : Nat) : (isqrt v : ℝ) ^ 2 ≤ v := by
  rw [sq]
  exact_mod_cast (isqrt_spec v).1

/-- The enclosure of `cos t` from that of `cos 2t = 2 (cos t)^2 - 1`, for `y = cos t` not negative. -/
theorem halfAngle_encloses {p : Nat} {c : Int × Int} {y : ℝ} (hy : 0 ≤ y) (h : Encloses p c (2 * y ^ 2 - 1)) :
    Encloses p (halfAngle p c) y := by
  have hscale : (0 : ℝ) < 2 ^ p := by positivity
  obtain ⟨hlo, hhi⟩ := h
  rw [div_le_iff₀ hscale] at hlo
  rw [le_div_iff₀ hscale] at hhi
  have hsq : (y * 2 ^ p) ^ 2 = 2 * y ^ 2 * 2 ^ p * 2 ^ p / 2 := by ring
  have hnonneg : (0 : ℝ) ≤ 2 * y ^ 2 * 2 ^ p := by positivity
  rw [Encloses, div_le_iff₀ hscale, le_div_iff₀ hscale, halfAngle_eq]
  constructor
  · have hshift : ((2 ^ p + c.1).toNat : ℝ) ≤ 2 * y ^ 2 * 2 ^ p :=
      cast_toNat_le hnonneg (by push_cast; linarith)
    rw [Int.cast_natCast, ← sq_le_sq₀ (Nat.cast_nonneg _) (by positivity), hsq]
    refine (isqrt_sq_le _).trans ?_
    calc (((2 ^ p + c.1).toNat * 2 ^ p / 2 : Nat) : ℝ) ≤ (2 ^ p + c.1).toNat * 2 ^ p / 2 := by
          exact_mod_cast Nat.cast_div_le (α := ℝ) (m := (2 ^ p + c.1).toNat * 2 ^ p) (n := 2)
      _ ≤ 2 * y ^ 2 * 2 ^ p * 2 ^ p / 2 := by gcongr
  · have hshift : 2 * y ^ 2 * 2 ^ p ≤ ((2 ^ p + c.2).toNat : ℝ) := le_cast_toNat (by push_cast; linarith)
    rw [← sq_le_sq₀ (by positivity) (sqrtUp_nonneg _), hsq]
    refine le_trans ?_ (le_sqrtUp_sq _)
    calc 2 * y ^ 2 * 2 ^ p * 2 ^ p / 2 ≤ ((2 ^ p + c.2).toNat : ℝ) * 2 ^ p / 2 := by gcongr
      _ ≤ (ceilDiv ((2 ^ p + c.2).toNat * 2 ^ p) 2 : Nat) := by
          exact_mod_cast div_le_cast_ceilDiv ((2 ^ p + c.2).toNat * 2 ^ p) Nat.two_pos

/-! ### The angles -/

/-- The angle of the fraction `k/2^n` of a turn. -/
noncomputable def turnAngle (n k : Nat) : ℝ := 2 * Real.pi * k / 2 ^ n

@[simp] theorem turnAngle_zero (n : Nat) : turnAngle n 0 = 0 := by simp [turnAngle]

theorem turnAngle_double (n k : Nat) : turnAngle n k = 2 * turnAngle (n + 1) k := by
  rw [turnAngle, turnAngle, pow_succ]
  field_simp

theorem turnAngle_quarter {n k : Nat} (h : 4 * k = 2 ^ n) : turnAngle n k = Real.pi / 2 := by
  have hk : (4 : ℝ) * k = 2 ^ n := by exact_mod_cast h
  rw [turnAngle, ← hk, div_eq_div_iff (by rw [hk]; positivity) two_ne_zero]
  ring

/-- Angles up to a quarter of a turn have no negative cosine. -/
theorem cos_turnAngle_nonneg {n k : Nat} (h : 4 * k ≤ 2 ^ n) : 0 ≤ Real.cos (turnAngle n k) := by
  have hk : (4 : ℝ) * k ≤ 2 ^ n := by exact_mod_cast h
  have hpi := Real.pi_pos
  have hnonneg : 0 ≤ turnAngle n k := by rw [turnAngle]; positivity
  refine Real.cos_nonneg_of_neg_pi_div_two_le_of_le (by linarith) ?_
  rw [turnAngle, div_le_iff₀ (by positivity)]
  nlinarith

/-- `cos t = -cos (pi - t)`. -/
theorem cos_turnAngle_reflect {n k : Nat} (h : k ≤ 2 ^ n) :
    Real.cos (turnAngle (n + 1) k) = -Real.cos (turnAngle (n + 1) (2 ^ n - k)) := by
  rw [← Real.cos_pi_sub]
  congr 1
  rw [turnAngle, turnAngle, Nat.cast_sub h, pow_succ]
  push_cast
  field_simp
  ring

/-- The sine is the cosine of the distance from pi/2, in quarters of `1/2^n` of a turn. -/
theorem sin_turnAngle (n k : Nat) :
    Real.sin (turnAngle n k) =
      Real.cos (turnAngle (n + 2) (if 4 * k ≤ 2 ^ n then 2 ^ n - 4 * k else 4 * k - 2 ^ n)) := by
  split
  case isTrue h =>
    rw [← Real.cos_pi_div_two_sub]
    congr 1
    rw [turnAngle, turnAngle, Nat.cast_sub h, pow_add]
    push_cast
    field_simp
    ring
  case isFalse h =>
    rw [← Real.cos_sub_pi_div_two]
    congr 1
    rw [turnAngle, turnAngle, Nat.cast_sub (not_le.mp h).le, pow_add]
    push_cast
    field_simp
    ring

/-! ### The enclosure -/

/-- One half-angle step, up to a quarter of a turn. -/
theorem halfAngle_encloses_turn {p n k : Nat} {c : Int × Int} (h : 4 * k ≤ 2 ^ (n + 1))
    (hc : Encloses p c (Real.cos (turnAngle n k))) : Encloses p (halfAngle p c) (Real.cos (turnAngle (n + 1) k)) := by
  rw [turnAngle_double, Real.cos_two_mul] at hc
  exact halfAngle_encloses (cos_turnAngle_nonneg h) hc

theorem encloses_one (p : Nat) : Encloses p (2 ^ p, 2 ^ p) 1 := by
  simp [Encloses]

theorem cosEnclosure_zero (p n : Nat) : cosEnclosure p n 0 = (2 ^ p, 2 ^ p) := by cases n <;> rfl

theorem cosEnclosure_quarter (p n : Nat) : cosEnclosure p (n + 2) (2 ^ n) = (0, 0) := by
  rw [cosEnclosure, if_neg (Nat.two_pow_pos n).ne', if_pos (by rw [pow_add]; omega)]

theorem cosEnclosure_encloses (p : Nat) {n k : Nat} (h : 2 * k ≤ 2 ^ n) :
    Encloses p (cosEnclosure p n k) (Real.cos (turnAngle n k)) := by
  induction n generalizing k with
  | zero =>
    obtain rfl : k = 0 := by omega
    rw [cosEnclosure_zero, turnAngle_zero, Real.cos_zero]
    exact encloses_one p
  | succ n ih =>
    have hpow : 2 ^ (n + 1) = 2 * 2 ^ n := Nat.pow_succ'
    rw [cosEnclosure]
    split_ifs with h0 hquarter hbelow
    · rw [h0, turnAngle_zero, Real.cos_zero]
      exact encloses_one p
    · rw [turnAngle_quarter hquarter, Real.cos_pi_div_two]
      simp [Encloses]
    · exact halfAngle_encloses_turn hbelow.le (ih (by omega))
    · rw [cos_turnAngle_reflect (by omega)]
      exact (halfAngle_encloses_turn (by omega) (ih (by omega))).neg

/-! ### Rounding the two ends -/

theorem roundsTo_roundFixed (p : Nat) (x : Int) :
    RoundsTo (|(x : ℝ) / 2 ^ p| * 2 ^ 1074) (roundUnits (x.natAbs * 2 ^ 1074) (2 ^ p)) := by
  have hscale : (0 : ℝ) < 2 ^ p := by positivity
  have hvalue : |(x : ℝ) / 2 ^ p| * 2 ^ 1074 = ((x.natAbs * 2 ^ 1074 : Nat) : ℝ) / (2 ^ p : Nat) := by
    rw [cast_scaled_div, Nat.cast_natAbs, Int.cast_abs, abs_div, Nat.cast_pow, Nat.cast_ofNat, abs_of_pos hscale]
  rw [hvalue]
  exact roundsTo_roundUnits _ (Nat.two_pow_pos p)

theorem roundFixed_eq_iff {p : Nat} {x y : Int} :
    roundFixed p x = roundFixed p y ↔
      (x < 0 ↔ y < 0) ∧
        roundUnits (x.natAbs * 2 ^ 1074) (2 ^ p) = roundUnits (y.natAbs * 2 ^ 1074) (2 ^ p) := by
  have hx := (roundsTo_roundFixed p x).lt_two_pow
  have hy := (roundsTo_roundFixed p y).lt_two_pow
  constructor
  · intro h
    have hsign := congrArg signBit h
    have hmag := congrArg magnitude h
    rw [roundFixed, roundFixed, signBit_ofMagnitude _ hx, signBit_ofMagnitude _ hy, decide_eq_decide] at hsign
    rw [roundFixed, roundFixed, magnitude_ofMagnitude _ hx, magnitude_ofMagnitude _ hy] at hmag
    exact ⟨hsign, hmag⟩
  · rintro ⟨hsign, hmag⟩
    rw [roundFixed, roundFixed, hmag, decide_eq_decide.mpr hsign]

/-- Where both ends round to one word, they have one sign, and what lies between them rounds to that word. -/
theorem Encloses.rounded {p : Nat} {c : Int × Int} {y : ℝ} (h : Encloses p c y)
    (heq : roundFixed p c.1 = roundFixed p c.2) : Rounded (roundFixed p c.1) y := by
  have hscale : (0 : ℝ) < 2 ^ p := by positivity
  have hunit : (0 : ℝ) ≤ 2 ^ 1074 := by positivity
  obtain ⟨hlo, hhi⟩ := h
  obtain ⟨hsign, hmag⟩ := roundFixed_eq_iff.mp heq
  have hrlo := roundsTo_roundFixed p c.1
  have hrhi := roundsTo_roundFixed p c.2
  rw [← hmag] at hrhi
  rw [roundFixed]
  rcases lt_or_ge c.1 0 with hneg | hpos
  · have hhineg : (c.2 : ℝ) / 2 ^ p < 0 := div_neg_of_neg_of_pos (by exact_mod_cast hsign.mp hneg) hscale
    have hy : y < 0 := hhi.trans_lt hhineg
    rw [abs_of_neg (hlo.trans_lt hy)] at hrlo
    rw [abs_of_neg hhineg] at hrhi
    refine rounded_ofMagnitude ?_ (fun _ => hy.le) (fun hf => absurd hneg (of_decide_eq_false hf))
    rw [abs_of_neg hy]
    exact hrhi.between hrlo (mul_le_mul_of_nonneg_right (neg_le_neg hhi) hunit)
      (mul_le_mul_of_nonneg_right (neg_le_neg hlo) hunit)
  · have hlopos : 0 ≤ (c.1 : ℝ) / 2 ^ p := div_nonneg (by exact_mod_cast hpos) hscale.le
    have hy : 0 ≤ y := hlopos.trans hlo
    rw [abs_of_nonneg hlopos] at hrlo
    rw [abs_of_nonneg (hy.trans hhi)] at hrhi
    refine rounded_ofMagnitude ?_ (fun ht => absurd (of_decide_eq_true ht) (not_lt.mpr hpos)) (fun _ => hy)
    rw [abs_of_nonneg hy]
    exact hrlo.between hrhi (mul_le_mul_of_nonneg_right hlo hunit) (mul_le_mul_of_nonneg_right hhi hunit)

/-! ### The twiddles -/

/-- A twiddle that a rung of the ladder decides is the cosine rounded. -/
theorem cosTurn_rounded {n k : Nat} (h : 2 * k ≤ 2 ^ n) (hdecided : CosDecided n k) :
    Rounded (cosTurn n k) (Real.cos (turnAngle n k)) := by
  obtain ⟨w, hw⟩ := hdecided
  obtain ⟨p, -, hagree, rfl⟩ := firstAgreed_eq_some hw
  rw [cosTurn, hw, Option.getD_some]
  exact (cosEnclosure_encloses p h).rounded hagree

theorem sinTurn_rounded {n k : Nat} (h : 2 * k < 2 ^ n)
    (hdecided : CosDecided (n + 2) (if 4 * k ≤ 2 ^ n then 2 ^ n - 4 * k else 4 * k - 2 ^ n)) :
    Rounded (sinTurn n k) (Real.sin (turnAngle n k)) := by
  rw [sinTurn, sin_turnAngle]
  refine cosTurn_rounded ?_ hdecided
  rw [pow_add]
  split <;> omega

/-- An exact enclosure is decided on the first rung. -/
theorem cosTurn_of_exact {n k : Nat} {x : Int} (h : cosEnclosure 192 n k = (x, x)) : cosTurn n k = roundFixed 192 x := by
  rw [cosTurn, precisionLadder, firstAgreed, h, if_pos rfl, Option.getD_some]

theorem cosTurn_zero (n : Nat) : cosTurn n 0 = 0x3FF0000000000000 := by
  rw [cosTurn_of_exact (cosEnclosure_zero 192 n)]
  decide +kernel

theorem cosTurn_quarter (n : Nat) : cosTurn (n + 2) (2 ^ n) = 0x0000000000000000 := by
  rw [cosTurn_of_exact (cosEnclosure_quarter 192 n)]
  decide +kernel

theorem sinTurn_zero (n : Nat) : sinTurn n 0 = 0x0000000000000000 := by
  rw [sinTurn, if_pos (Nat.zero_le _)]
  exact cosTurn_quarter n

theorem sinTurn_quarter (n : Nat) : sinTurn (n + 2) (2 ^ n) = 0x3FF0000000000000 := by
  have hquarter : 4 * 2 ^ n = 2 ^ (n + 2) := by rw [pow_add]; omega
  rw [sinTurn, if_pos hquarter.le, hquarter, Nat.sub_self, cosTurn_zero]

/-- Settles O59: half-angle steps keep the enclosure, and what both its ends round to, the cosine rounds to. -/
theorem cosEnclosureEncloses : Obligations.CosEnclosureEncloses :=
  ⟨fun p _ _ h => cosEnclosure_encloses p h, fun _ _ => cosTurn_rounded, fun _ _ => sinTurn_rounded,
    fun _ _ h => ⟨getD_map_range _ h _, getD_map_range _ h _⟩,
    fun n => ⟨cosTurn_zero n, sinTurn_zero n, cosTurn_quarter n, sinTurn_quarter n⟩⟩

end Sys2Proof.Machine
end

section
/-! PROOF. The kernel's geometry: fftShift (O57; R174), and the reflections and the exchange under which a cell's value does
not change (R170, R178). -/

namespace Sys2Proof.Machine

open Sys2Proof.Claims

/-! ### Row-major indices (R11) -/

theorem rowMajor_lt {n x y : Nat} (hx : x < n) (hy : y < n) : y * n + x < n * n :=
  calc y * n + x < (y + 1) * n := by rw [Nat.succ_mul]; omega
    _ ≤ n * n := Nat.mul_le_mul_right _ hy

/-- Every index of an N by N array is that of a cell. -/
theorem exists_rowMajor {n i : Nat} (h : i < n * n) : ∃ x y, x < n ∧ y < n ∧ i = y * n + x := by
  have hn : 0 < n := Nat.pos_of_mul_pos_right (Nat.zero_lt_of_lt h)
  exact ⟨i % n, i / n, Nat.mod_lt i hn, Nat.div_lt_of_lt_mul h, (Nat.div_add_mod' i n).symm⟩

theorem Geometry.half_add_half (g : Geometry) : g.n / 2 + g.n / 2 = g.n := by
  rw [Geometry.n, Geometry.log2n, Nat.pow_succ]
  omega

/-! ### fftShift (R174) -/

/-- The coordinate fftShift takes from. -/
def shiftedBy (n h x : Nat) : Nat := (x + h) % n

theorem shiftedBy_lt {n : Nat} (hn : 0 < n) (h x : Nat) : shiftedBy n h x < n := Nat.mod_lt _ hn

/-- A shift by half an even length, twice, moves nothing. -/
theorem shiftedBy_shiftedBy {n h x : Nat} (heven : h + h = n) (hx : x < n) : shiftedBy n h (shiftedBy n h x) = x := by
  rw [shiftedBy, shiftedBy, Nat.mod_add_mod, Nat.add_assoc, heven, Nat.add_mod_right, Nat.mod_eq_of_lt hx]

theorem wrapMod_add_natCast (n h x : Nat) : wrapMod ((x : Int) + (h : Nat)) n = shiftedBy n h x := by
  rw [wrapMod, ← Int.natCast_add, ← Int.natCast_emod, Int.toNat_natCast, shiftedBy]

@[simp] theorem fftShift_length (n : Nat) (k : List Word) : (fftShift n k).length = n * n := by simp [fftShift]

theorem fftShift_getD {n x y : Nat} (hx : x < n) (hy : y < n) (k : List Word) :
    (fftShift n k).getD (y * n + x) posZero = k.getD (shiftedBy n (n / 2) y * n + shiftedBy n (n / 2) x) posZero := by
  rw [fftShift, getD_map_range _ (rowMajor_lt hx hy), mul_add_div_of_lt y hx, mul_add_mod_of_lt y hx]
  rfl

/-- Settles O57: each coordinate is shifted by N/2, and twice N/2 is N. -/
theorem fftShiftIsAnInvolution : Obligations.FftShiftIsAnInvolution := by
  intro g k hk
  have hn := g.n_pos
  have heven := g.half_add_half
  refine ⟨fun x y hx hy => ?_, ?_, ?_⟩
  · rw [wrapMod_add_natCast, wrapMod_add_natCast]
    exact fftShift_getD hx hy k
  · have hcentre : shiftedBy g.n (g.n / 2) 0 = g.n / 2 := by
      rw [shiftedBy, Nat.zero_add, Nat.mod_eq_of_lt (by omega)]
    have h := fftShift_getD hn hn k
    rwa [hcentre, Nat.zero_mul] at h
  · refine List.ext_getElem (by rw [fftShift_length, hk, Geometry.cells]) fun i h1 h2 => ?_
    rw [← List.getD_eq_getElem _ posZero h1, ← List.getD_eq_getElem _ posZero h2]
    obtain ⟨x, y, hx, hy, rfl⟩ := exists_rowMajor (hk ▸ h2)
    rw [fftShift_getD hx hy, fftShift_getD (shiftedBy_lt hn _ _) (shiftedBy_lt hn _ _), shiftedBy_shiftedBy heven hx,
      shiftedBy_shiftedBy heven hy]

/-! ### The toroidal distance to the centre (R19, R170) -/

theorem dvd_wrapMod_sub (a : Int) {n : Nat} (hn : 0 < n) : (n : Int) ∣ wrapMod a n - a := by
  rw [cast_wrapMod a hn]
  exact Int.dvd_emod_sub_self

/-- Coordinates that are opposite about `b` on the torus are equally far from it. -/
theorem tdist_eq_of_opposite {n : Nat} (hn : 0 < n) {a a' b : Int} (h : (n : Int) ∣ (a - b) + (a' - b)) :
    tdist n a b = tdist n a' b := by
  have hu := wrapMod_lt (a - b) hn
  have hu' := wrapMod_lt (a' - b) hn
  have hsum : n ∣ wrapMod (a - b) n + wrapMod (a' - b) n := by
    have hdvd := ((dvd_wrapMod_sub (a - b) hn).add (dvd_wrapMod_sub (a' - b) hn)).add h
    rw [← add_sub_add_comm, sub_add_cancel] at hdvd
    exact_mod_cast hdvd
  obtain ⟨q, hq⟩ := hsum
  have hq2 : q < 2 := Nat.lt_of_mul_lt_mul_left (a := n) (by omega)
  unfold tdist
  interval_cases q <;> omega

/-- A reflection of a coordinate at the centre of an axis of even length (R178). -/
theorem tdist_reflect {n : Nat} (heven : n / 2 + n / 2 = n) {x : Nat} (hx : x < n) :
    tdist n ((n - x) % n : Nat) (n / 2 : Nat) = tdist n x (n / 2 : Nat) := by
  refine tdist_eq_of_opposite (Nat.zero_lt_of_lt hx) ?_
  rcases Nat.eq_zero_or_pos x with rfl | hpos
  · rw [Nat.sub_zero, Nat.mod_self]
    exact ⟨-1, by omega⟩
  · rw [Nat.mod_eq_of_lt (by omega)]
    exact ⟨0, by omega⟩

/-- Coordinates as far above and below the centre are equally far from it, whatever the length (R178). -/
theorem tdist_centre_add_sub {n : Nat} (hn : 0 < n) (c : Nat) (a : Int) :
    tdist n (wrapMod (c + a) n) c = tdist n (wrapMod (c - a) n) c := by
  refine tdist_eq_of_opposite hn ?_
  have h := (dvd_wrapMod_sub (c + a) hn).add (dvd_wrapMod_sub (c - a) hn)
  rwa [show (wrapMod (c + a) n - (c + a) + (wrapMod (c - a) n - (c - a)) : Int) =
    wrapMod (c + a) n - c + (wrapMod (c - a) n - c) by ring] at h

/-! ### The value of a cell (R170, R171) -/

/-- The model's value of a cell names the operations of R170 and R171 in the same order. -/
theorem kernelVal_eq_kernelValueOf : kernelVal = kernelValueOf := rfl

/-- A cell's value depends on its distances to the centre only. -/
theorem kernelVal_congr {n x y x' y' : Nat} (p : Params) (hx : tdist n x (n / 2 : Nat) = tdist n x' (n / 2 : Nat))
    (hy : tdist n y (n / 2 : Nat) = tdist n y' (n / 2 : Nat)) : kernelVal n p x y = kernelVal n p x' y' := by
  unfold kernelVal
  rw [hx, hy]

theorem cellDistance_comm (dx dy : Nat) : cellDistance dx dy = cellDistance dy dx := by
  rw [cellDistance, Nat.add_comm, cellDistance]

theorem kernelVal_comm (n : Nat) (p : Params) (x y : Nat) : kernelVal n p x y = kernelVal n p y x := by
  unfold kernelVal
  rw [cellDistance_comm]

end Sys2Proof.Machine
end

section
/-! PROOF. Computations at different stream positions: the streams give NaN bits only, so that results agree up to the bits of
a NaN, and whether a kernel is valid does not depend on them (assumption 1; R171, R172). -/

namespace Sys2Proof.Machine

open Sys2Proof.Claims

/-! ### The same value, NaN bits apart -/

theorem sameValue_refl (a : Word) : SameValue a a := .inl rfl

theorem sameValue_fneg {a b : Word} (h : SameValue a b) : SameValue (fneg a) (fneg b) := by
  rcases h with rfl | ⟨ha, hb⟩
  · exact sameValue_refl _
  · exact .inr ⟨by rwa [isNan_fneg], by rwa [isNan_fneg]⟩

theorem flt_of_nan {a b : Word} (h : isNan a = true ∨ isNan b = true) : flt a b = false := by
  rcases h with h | h <;> simp [flt, h]

/-- A comparison does not see the bits of a NaN (R13). -/
theorem flt_congr {a a' b b' : Word} (ha : SameValue a a') (hb : SameValue b b') : flt a b = flt a' b' := by
  rcases ha with rfl | ⟨hnan, hnan'⟩
  · rcases hb with rfl | ⟨hnan, hnan'⟩
    · rfl
    · rw [flt_of_nan (.inr hnan), flt_of_nan (.inr hnan')]
  · rw [flt_of_nan (.inl hnan), flt_of_nan (.inl hnan')]

/-! ### Related results -/

/-- Wherever the streams stand for the one and for the other computation, their results are related by `R`. -/
def Agree {α : Type} (R : α → α → Prop) (m k : Num α) : Prop := ∀ d e, R (m.run d).1 (k.run e).1

section
variable {α β : Type} {R : α → α → Prop} {S : β → β → Prop}

theorem agree_pure {a b : α} (h : R a b) : Agree R (pure a) (pure b) := fun _ _ => h

theorem agree_bind {m k : Num α} {f f' : α → Num β} (hm : Agree R m k) (hf : ∀ a b, R a b → Agree S (f a) (f' b)) :
    Agree S (m >>= f) (k >>= f') := fun d e => hf _ _ (hm d e) _ _

theorem agree_forEach {f f' : α → Num β} (h : ∀ a, Agree S (f a) (f' a)) (as : List α) :
    Agree (List.Forall₂ S) (forEach f as) (forEach f' as) := by
  induction as with
  | nil => exact agree_pure .nil
  | cons a as ih => exact agree_bind (h a) fun _ _ hb => agree_bind ih fun _ _ hbs => agree_pure (.cons hb hbs)

end

/-! ### The operations -/

/-- A computation that draws a NaN, or answers one word and draws nothing. -/
def Settled (m : Num Word) : Prop := m = drawNan ∨ ∃ w, m = pure w

theorem settled_drawNan : Settled drawNan := .inl rfl

theorem settled_pure (w : Word) : Settled (pure w) := .inr ⟨w, rfl⟩

theorem settled_ite {p : Prop} [Decidable p] {m k : Num Word} (hm : Settled m) (hk : Settled k) :
    Settled (if p then m else k) := by
  split <;> assumption

theorem agree_drawNan : Agree SameValue drawNan drawNan := fun d e =>
  .inr ⟨answersNan_drawNan d, answersNan_drawNan e⟩

theorem Settled.agree {m : Num Word} (h : Settled m) : Agree SameValue m m := by
  rcases h with rfl | ⟨w, rfl⟩
  · exact agree_drawNan
  · exact agree_pure (sameValue_refl w)

theorem settled_fadd (a b : Word) : Settled (fadd a b) := by
  unfold fadd
  split
  case h_3 => exact settled_ite (settled_pure _) settled_drawNan
  case h_6 => exact settled_ite (settled_pure _) (settled_pure _)
  all_goals simp only [settled_drawNan, settled_pure]

theorem settled_fmul (a b : Word) : Settled (fmul a b) := by
  unfold fmul
  split
  case h_4 | h_5 => apply settled_ite <;> simp only [settled_drawNan, settled_pure]
  all_goals simp only [settled_drawNan, settled_pure]

theorem settled_fdiv (a b : Word) : Settled (fdiv a b) := by
  unfold fdiv
  split
  case h_6 => exact settled_ite (settled_ite settled_drawNan (settled_pure _)) (settled_pure _)
  all_goals simp only [settled_drawNan, settled_pure]

theorem settled_fsqrt (a : Word) : Settled (fsqrt a) := by
  unfold fsqrt
  split
  case h_4 => exact settled_ite (settled_pure _) (settled_ite settled_drawNan (settled_pure _))
  all_goals simp only [settled_drawNan, settled_pure]

theorem settled_exp64 (a : Word) : Settled (exp64 a) := by
  unfold exp64
  split
  case h_4 => exact settled_ite (settled_pure _) (settled_ite (settled_pure _) (settled_pure _))
  all_goals simp only [settled_drawNan, settled_pure]

/-- A binary operation that draws a NaN for a NaN operand does not see the bits of one. -/
theorem agree_binary {op : Word → Word → Num Word} (settled : ∀ a b, Settled (op a b))
    (nan : ∀ a b, isNan a = true ∨ isNan b = true → op a b = drawNan) {a a' b b' : Word} (ha : SameValue a a')
    (hb : SameValue b b') : Agree SameValue (op a b) (op a' b') := by
  rcases ha with rfl | ⟨hnan, hnan'⟩
  · rcases hb with rfl | ⟨hnan, hnan'⟩
    · exact (settled a b).agree
    · rw [nan _ _ (.inr hnan), nan _ _ (.inr hnan')]
      exact agree_drawNan
  · rw [nan _ _ (.inl hnan), nan _ _ (.inl hnan')]
    exact agree_drawNan

section
variable {a a' b b' : Word} (ha : SameValue a a') (hb : SameValue b b')
include ha hb

theorem agree_fadd : Agree SameValue (fadd a b) (fadd a' b') :=
  agree_binary settled_fadd (fun _ _ h => (fadd_fmul_fdiv_of_nan h).1) ha hb

theorem agree_fsub : Agree SameValue (fsub a b) (fsub a' b') := agree_fadd ha (sameValue_fneg hb)

theorem agree_fmul : Agree SameValue (fmul a b) (fmul a' b') :=
  agree_binary settled_fmul (fun _ _ h => (fadd_fmul_fdiv_of_nan h).2.1) ha hb

theorem agree_fdiv : Agree SameValue (fdiv a b) (fdiv a' b') :=
  agree_binary settled_fdiv (fun _ _ h => (fadd_fmul_fdiv_of_nan h).2.2) ha hb

end

theorem agree_exp64 {a a' : Word} (h : SameValue a a') : Agree SameValue (exp64 a) (exp64 a') := by
  rcases h with rfl | ⟨hnan, hnan'⟩
  · exact (settled_exp64 a).agree
  · rw [exp64_nan hnan, exp64_nan hnan']
    exact agree_drawNan

/-! ### The kernel -/

theorem agree_kernelVal (n : Nat) (p : Params) (x y : Nat) :
    Agree SameValue (kernelVal n p x y) (kernelVal n p x y) := by
  refine agree_bind (settled_fsqrt _).agree fun _ _ hd => agree_bind (agree_fdiv hd (sameValue_refl _)) fun _ _ hr => ?_
  rw [flt_congr hr (sameValue_refl fOne)]
  split
  · exact agree_bind (agree_fsub hr (sameValue_refl _)) fun _ _ ht => agree_bind (agree_fmul ht ht) fun _ _ hnum =>
      agree_bind (settled_fmul _ _).agree fun _ _ hss => agree_bind (agree_fmul (sameValue_refl _) hss) fun _ _ hden =>
      agree_bind (agree_fdiv hnum hden) fun _ _ hq => agree_exp64 (sameValue_fneg hq)
  · exact agree_pure (sameValue_refl _)

theorem agree_foldlM_fadd {ws vs : List Word} (h : List.Forall₂ SameValue ws vs) {a b : Word} (hab : SameValue a b) :
    Agree SameValue (ws.foldlM fadd a) (vs.foldlM fadd b) := by
  induction h generalizing a b with
  | nil => exact agree_pure hab
  | cons hw _ ih =>
    rw [List.foldlM_cons, List.foldlM_cons]
    exact agree_bind (agree_fadd hab hw) fun _ _ => ih

theorem agree_kernelRaw (n : Nat) (p : Params) :
    Agree (fun r r' => List.Forall₂ SameValue r.1 r'.1 ∧ SameValue r.2 r'.2) (kernelRaw n p) (kernelRaw n p) :=
  agree_bind (agree_forEach (fun i => agree_kernelVal n p (i % n) (i / n)) _) fun _ _ hvals =>
    agree_bind (agree_foldlM_fadd hvals (sameValue_refl posZero)) fun _ _ hsum => agree_pure ⟨hvals, hsum⟩

/-- Whether a kernel is valid does not depend on where the streams stand. -/
theorem agree_kernelOk (n : Nat) (p : Params) : Agree Eq (kernelOk n p) (kernelOk n p) :=
  agree_bind (agree_kernelRaw n p) fun _ _ ⟨_, hsum⟩ => agree_pure (flt_congr (sameValue_refl _) hsum)

theorem kernelsOk_cons (n : Nat) (p : Params) (ps : List Params) (d : Draws) :
    ((kernelsOk n (p :: ps)).run d).1 =
      (((kernelOk n p).run d).1 && ((kernelsOk n ps).run ((kernelOk n p).run d).2).1) := by
  rw [kernelsOk, run_bind]
  cases ((kernelOk n p).run d).1 <;> rfl

/-- The kernels of a list are valid exactly if each of them is. -/
theorem kernelsOk_iff (n : Nat) (ps : List Params) (d : Draws) :
    ((kernelsOk n ps).run d).1 = true ↔ ∀ p ∈ ps, ∀ e, ((kernelOk n p).run e).1 = true := by
  induction ps generalizing d with
  | nil => exact iff_of_true rfl (List.forall_mem_nil _)
  | cons p ps ih =>
    rw [kernelsOk_cons, Bool.and_eq_true, ih, List.forall_mem_cons]
    exact and_congr_left fun _ => ⟨fun h e => (agree_kernelOk n p e d).trans h, fun h => h d⟩

end Sys2Proof.Machine
end

section
/-! PROOF. The elements of a kernel: its values, their sum and their quotients (R170 to R173), its symmetry (O56; R178), and
that a valid kernel holds no NaN. -/

namespace Sys2Proof.Machine

open Sys2Proof.Claims

/-! ### Values, sum and quotients -/

theorem kernelRaw_length (n : Nat) (p : Params) (d : Draws) : ((kernelRaw n p).run d).1.1.length = n * n := by
  rw [kernelRaw, run_bind, run_bind, run_pure, forEach_length, List.length_range]

theorem kernelRaw_getD (n : Nat) (p : Params) (d : Draws) {i : Nat} (h : i < n * n) : ∃ e,
    ((kernelRaw n p).run d).1.1.getD i posZero = ((kernelVal n p (i % n) (i / n)).run e).1 := by
  obtain ⟨e, he⟩ := forEach_getElem (fun i => kernelVal n p (i % n) (i / n)) (List.range (n * n)) d i (by simpa using h)
  rw [List.getElem_range] at he
  exact ⟨e, by rw [kernelRaw, run_bind, run_bind, run_pure, List.getD_eq_getElem?_getD, he, Option.getD_some]⟩

theorem foldlM_fadd_eq_sumOf (ws : List Word) (a : Word) : ws.foldlM fadd a = sumOf a ws := by
  induction ws generalizing a with
  | nil => rfl
  | cons w ws ih =>
    rw [List.foldlM_cons, sumOf]
    exact congrArg (fadd a w >>= ·) (funext ih)

/-- The second part of `kernelRaw` is the sum of the first. -/
theorem kernelRaw_sum (n : Nat) (p : Params) (d : Draws) : ∃ e,
    ((kernelRaw n p).run d).1.2 = ((sumOf posZero ((kernelRaw n p).run d).1.1).run e).1 :=
  ⟨_, by rw [← foldlM_fadd_eq_sumOf]; rfl⟩

theorem kernelOk_eq (n : Nat) (p : Params) (d : Draws) :
    ((kernelOk n p).run d).1 = flt posZero ((kernelRaw n p).run d).1.2 := rfl

theorem buildKernel_getD (t : FftTables) (p : Params) (d : Draws) {n : Nat} (hn : n = 2 ^ t.log2n) {i : Nat}
    (h : i < n * n) : ∃ e, ((buildKernel t p).run d).1.kernel.getD i posZero =
      ((fdiv (((kernelRaw n p).run d).1.1.getD i posZero) ((kernelRaw n p).run d).1.2).run e).1 := by
  subst hn
  have hlen : i < ((kernelRaw (2 ^ t.log2n) p).run d).1.1.length := by rwa [kernelRaw_length]
  exact forEach_getD hlen _

/-- The transform arrays are the forward transform of the shifted KERNEL, with imaginary part +0.0 (R174, R175). -/
theorem buildKernel_ktf (t : FftTables) (p : Params) (d : Draws) {n : Nat} (hn : n = 2 ^ t.log2n) : ∃ e,
    ((buildKernel t p).run d).1.ktf =
      ((fft2 t false ⟨fftShift n ((buildKernel t p).run d).1.kernel, List.replicate (n * n) posZero⟩).run e).1 := by
  subst hn
  exact ⟨_, rfl⟩

/-! ### Symmetry (R178) -/

/-- Cells with the same value have the same element of KERNEL. -/
theorem sameValue_kernel (t : FftTables) (p : Params) (d : Draws) {n : Nat} (hn : n = 2 ^ t.log2n) {x y x' y' : Nat}
    (hx : x < n) (hy : y < n) (hx' : x' < n) (hy' : y' < n) (h : kernelVal n p x y = kernelVal n p x' y') :
    SameValue (((buildKernel t p).run d).1.kernel.getD (y * n + x) posZero)
      (((buildKernel t p).run d).1.kernel.getD (y' * n + x') posZero) := by
  obtain ⟨e, he⟩ := buildKernel_getD t p d hn (rowMajor_lt hx hy)
  obtain ⟨e', he'⟩ := buildKernel_getD t p d hn (rowMajor_lt hx' hy')
  obtain ⟨f, hf⟩ := kernelRaw_getD n p d (rowMajor_lt hx hy)
  obtain ⟨f', hf'⟩ := kernelRaw_getD n p d (rowMajor_lt hx' hy')
  rw [mul_add_mod_of_lt y hx, mul_add_div_of_lt y hx] at hf
  rw [mul_add_mod_of_lt y' hx', mul_add_div_of_lt y' hx', ← h] at hf'
  rw [he, he', hf, hf']
  exact agree_fdiv (agree_kernelVal n p x y f f') (sameValue_refl _) e e'

/-! ### A valid kernel holds no NaN -/

/-- A sum that is no NaN has no NaN among its terms. -/
theorem not_nan_of_sumOf {ws : List Word} {a : Word} {d : Draws} (h : isNan ((sumOf a ws).run d).1 = false) :
    isNan a = false ∧ ∀ w ∈ ws, isNan w = false := by
  induction ws generalizing a d with
  | nil => exact ⟨h, List.forall_mem_nil _⟩
  | cons w ws ih =>
    rw [sumOf, run_bind] at h
    obtain ⟨hfirst, hrest⟩ := ih h
    have hterms : ¬ (isNan a = true ∨ isNan w = true) := fun hnan => by
      rw [(fadd_fmul_fdiv_of_nan hnan).1, answersNan_drawNan d] at hfirst
      cases hfirst
    rw [not_or, Bool.not_eq_true, Bool.not_eq_true] at hterms
    exact ⟨hterms.1, List.forall_mem_cons.mpr ⟨hterms.2, hrest⟩⟩

theorem not_nan_of_kernelRaw {n : Nat} {p : Params} {d : Draws} (h : isNan ((kernelRaw n p).run d).1.2 = false) {i : Nat}
    (hi : i < n * n) : isNan (((kernelRaw n p).run d).1.1.getD i posZero) = false := by
  obtain ⟨e, he⟩ := kernelRaw_sum n p d
  rw [he] at h
  rw [List.getD_eq_getElem _ _ (by rwa [kernelRaw_length])]
  exact (not_nan_of_sumOf h).2 _ (List.getElem_mem _)

/-- A quotient by a finite word other than 0 is a NaN for a NaN dividend only. -/
theorem not_nan_fdiv {a b : Word} (ha : isNan a = false) (hb : magnitude b < infMagnitude) (hb0 : realWord b ≠ 0)
    (d : Draws) : isNan ((fdiv a b).run d).1 = false := by
  rcases lt_or_eq_of_le ((isNan_eq_false_iff a).mp ha) with hfin | hinf
  · rw [isNan_eq_false_iff]
    exact (fdiv_rounded hfin hb hb0 d).1.1
  · rw [(fdiv_inf_finite hinf hb).1 d]
    split
    · rwa [isNan_fneg]
    · exact ha

theorem realWord_ne_zero_of_pos {w : Word} (hfin : magnitude w < infMagnitude) (h : flt posZero w = true) :
    realWord w ≠ 0 := by
  obtain ⟨-, -, hkey⟩ := (flt_iff _ _).mp h
  have habs := natAbs_orderKey w
  rw [show orderKey posZero = 0 by decide] at hkey
  rw [Ne, realWord_eq_zero hfin]
  omega

/-- No element of a valid kernel with a finite sum is a NaN. -/
theorem not_nan_kernel (t : FftTables) {p : Params} {d : Draws} {n : Nat} (hn : n = 2 ^ t.log2n)
    (hok : ((kernelOk n p).run d).1 = true) (hfin : magnitude ((kernelRaw n p).run d).1.2 < infMagnitude) {i : Nat}
    (hi : i < n * n) : isNan (((buildKernel t p).run d).1.kernel.getD i posZero) = false := by
  rw [kernelOk_eq] at hok
  obtain ⟨e, he⟩ := buildKernel_getD t p d hn hi
  rw [he]
  exact not_nan_fdiv (not_nan_of_kernelRaw ((isNan_eq_false_iff _).mpr hfin.le) hi) hfin
    (realWord_ne_zero_of_pos hfin hok) e

/-- Settles O56: exchanged and reflected cells are as far from the centre, so they have the same value, and the streams
change no more than the bits of a NaN. -/
theorem kernelIsSymmetric : Obligations.KernelIsSymmetric := by
  refine ⟨fun g p x y hx hy => ⟨kernelVal_comm g.n p x y, kernelVal_congr p (tdist_reflect g.half_add_half hx) rfl,
    kernelVal_congr p rfl (tdist_reflect g.half_add_half hy)⟩, fun t p d n k hn hk => ?_⟩
  have hpos : 0 < n := hn ▸ Nat.two_pow_pos _
  have hwrap (a : Int) : wrapMod a n < n := wrapMod_lt a hpos
  refine ⟨fun x y hx hy => ?_, fun a b => ⟨?_, ?_⟩, fun hok hfin x y hx hy => ?_⟩
  · rw [hk, hk]
    exact sameValue_kernel t p d hn hx hy hy hx (kernelVal_comm n p x y)
  · rw [hk, hk]
    exact sameValue_kernel t p d hn (hwrap _) (hwrap _) (hwrap _) (hwrap _)
      (kernelVal_congr p (tdist_centre_add_sub hpos _ a) rfl)
  · rw [hk, hk]
    exact sameValue_kernel t p d hn (hwrap _) (hwrap _) (hwrap _) (hwrap _)
      (kernelVal_congr p rfl (tdist_centre_add_sub hpos _ b))
  · rw [hk]
    exact not_nan_kernel t hn hok hfin (rowMajor_lt hx hy)

end Sys2Proof.Machine
end

section
/-! PROOF. BUILD_KERNEL (O29; R170 to R177), and the commands that would give a channel a kernel without mass (O26). -/

namespace Sys2Proof.Machine

open Sys2Proof.Claims

/-! ### Rebuilding the kernels of a list of channels -/

/-- Rebuilding kernels writes memory and takes draws; nothing else. -/
theorem foldl_rebuildKernel_eq (g : Geometry) (cs : List Chan) (s : State) :
    ∃ mem draws, cs.foldl (fun t c => t.rebuildKernel g c) s = { s with mem := mem, draws := draws } := by
  induction cs generalizing s with
  | nil => exact ⟨s.mem, s.draws, rfl⟩
  | cons c cs ih =>
    obtain ⟨mem, draws, h⟩ := ih (s.rebuildKernel g c)
    exact ⟨mem, draws, by rw [List.foldl_cons, h, rebuildKernel_eq]⟩

theorem outsideKernel_iff (g : Geometry) (c : Chan) (x : Nat) : OutsideKernel g c x ↔ ¬ InKernel g c x := by
  simp only [OutsideKernel, InKernel, InArr]
  omega

/-- Rebuilding kernels leaves every byte outside their arrays as it was. -/
theorem readByte_foldl_rebuildKernel (g : Geometry) (cs : List Chan) (s : State) (x : Nat)
    (h : ∀ c ∈ cs, ¬ InKernel g c x) : (cs.foldl (fun t c => t.rebuildKernel g c) s).readByte x = s.readByte x := by
  induction cs generalizing s with
  | nil => rfl
  | cons c cs ih =>
    obtain ⟨hc, hcs⟩ := List.forall_mem_cons.mp h
    rw [List.foldl_cons, ih _ hcs, readByte_rebuildKernel s g c x ((outsideKernel_iff g c x).mpr hc)]

/-- After the rebuilds of a list of channels the kernel of each of them is built: its last rebuild builds it, and those of
other channels keep it. -/
theorem kernelBuilt_of_mem (g : Geometry) {cs : List Chan} {b : Chan} (hb : b ∈ cs) (s : State) :
    KernelBuilt (cs.foldl (fun t c => t.rebuildKernel g c) s) g b := by
  induction cs generalizing s with
  | nil => cases hb
  | cons c cs ih =>
    rw [List.foldl_cons]
    rcases List.mem_cons.mp hb with rfl | hb
    · have hbuilt : KernelBuilt (s.rebuildKernel g b) g b := kernelBuilt_rebuildKernel fun h => absurd rfl h
      have hrest : Updates false g (s.rebuildKernel g b)
          (cs.foldl (fun t c => t.rebuildKernel g c) (s.rebuildKernel g b)) :=
        updates_foldl (fun t c _ => .single (.rebuildKernel t c)) _
      exact hrest.keeps (P := fun u => KernelBuilt u g b) (fun _ _ hu hb => hu.kernelBuilt hb) hbuilt
    · exact ih hb (s.rebuildKernel g c)

/-! ### BUILD_KERNEL (R177) -/

theorem exec_buildKernel_ready {s : State} {g : Geometry} {sel : ChSel} {cs : List Chan} (h : s.engine = some g)
    (hc : chansOf g sel = .ok cs) : exec (.buildKernel sel) s = finish s (s.buildKernels g cs) :=
  runCommandMany_ready h hc _

/-- What BUILD_KERNEL leaves where every kernel has mass. -/
def State.kernelsRebuilt (s : State) (g : Geometry) (cs : List Chan) : State :=
  (cs.foldl (fun t c => t.rebuildKernel g c) (s.drawing (kernelsOk g.n (cs.map s.p.get))).2).forgetScratch

theorem buildKernels_valid {s : State} {g : Geometry} {cs : List Chan}
    (h : ((kernelsOk g.n (cs.map s.p.get)).run s.draws).1 = true) :
    s.buildKernels g cs = .ok (s.kernelsRebuilt g cs) := if_pos h

theorem buildKernels_zeroMass {s : State} {g : Geometry} {cs : List Chan}
    (h : ((kernelsOk g.n (cs.map s.p.get)).run s.draws).1 = false) :
    s.buildKernels g cs = .error .kernelZeroMass := if_neg (ne_true_of_eq_false h)

theorem kernelBuilt_kernelsRebuilt (s : State) (g : Geometry) {cs : List Chan} {c : Chan} (hc : c ∈ cs) :
    KernelBuilt (s.kernelsRebuilt g cs) g c :=
  (Update.forgetScratch (rng := false) (g := g) _).kernelBuilt (kernelBuilt_of_mem g hc _)

theorem outside_of_not_inScratch {x : Nat} (h : ¬ InScratch x) :
    x < Arr.base .sre ∨ Arr.base .sim + 2 ^ 28 ≤ x := by
  simp only [InScratch, InArr, Arr.base, Arr.region] at h ⊢
  omega

theorem bytesKept_kernelsRebuilt (s : State) (g : Geometry) (cs : List Chan) :
    BytesKeptOutside s (s.kernelsRebuilt g cs) (fun x => InScratch x ∨ ∃ c ∈ cs, InKernel g c x) := fun x hx => by
  obtain ⟨hscratch, hkernels⟩ := not_or.mp hx
  rw [State.kernelsRebuilt, readByte_forgetScratch _ _ (outside_of_not_inScratch hscratch),
    readByte_foldl_rebuildKernel g cs _ x fun c hc hin => hkernels ⟨c, hc, hin⟩, readByte_drawing]

theorem ran_kernelsRebuilt (s : State) (g : Geometry) (cs : List Chan) :
    Ran s s ((s.kernelsRebuilt g cs).recordCompletion .ok) := by
  obtain ⟨mem, draws, hfold⟩ := foldl_rebuildKernel_eq g cs (s.drawing (kernelsOk g.n (cs.map s.p.get))).2
  rw [State.kernelsRebuilt, hfold]
  exact ran_recordCompletion ⟨rfl, rfl, rfl, rfl, rfl, rfl, rfl, rfl, rfl⟩ ⟨rfl, rfl, rfl, rfl, rfl, rfl⟩ rfl rfl rfl

/-- Settles O29: the command rebuilds the kernels of its channels one after another, and each is what `build_kernel` gives. -/
theorem buildKernelWritesKernelArrays : Obligations.BuildKernelWritesKernelArrays := by
  refine ⟨fun s g sel cs hg hcs hok => ?_, fun n p d => ?_, kernelsOk_iff, fun t p d n hn => ?_⟩
  · refine ⟨(s.kernelsRebuilt g cs).recordCompletion .ok, ?_, ran_kernelsRebuilt s g cs, fun c hc => ?_, fun x hx => ?_⟩
    · rw [exec_buildKernel_ready hg hcs, buildKernels_valid hok, finish_ok]
    · exact (cachesKept_of_mem rfl rfl rfl).kernelBuilt (kernelBuilt_kernelsRebuilt s g hc)
    · rw [readByte_recordCompletion]
      exact bytesKept_kernelsRebuilt s g cs x hx
  · refine ⟨kernelRaw_length n p d, fun i hi => ?_, kernelRaw_sum n p d, by rw [kernelOk_eq]⟩
    exact kernelVal_eq_kernelValueOf ▸ kernelRaw_getD n p d hi
  · refine ⟨?_, fun i hi => buildKernel_getD t p d hn hi, buildKernel_ktf t p d hn⟩
    obtain ⟨hlen, -, -⟩ := buildKernel_length t p d
    rw [hlen, hn]

/-! ### Kernels without mass (R172, R227) -/

/-- A parameter change that would leave a changed kernel without mass, with the new records given channel by channel. -/
theorem commitParams_zeroMass {s : State} {g : Geometry} {cs : List Chan} (newCom : Params) {newP : Per3 Params}
    {new : Chan → Params} (hnew : ∀ c ∈ cs, newP.get c = new c)
    (h : ((kernelsOk g.n ((cs.filter fun c => (s.p.get c).kernelDiffers (new c)).map new)).run s.draws).1 = false) :
    s.commitParams g cs newCom newP = .error .kernelZeroMass := by
  have hfilter : (cs.filter fun c => (s.p.get c).kernelDiffers (newP.get c)) =
      cs.filter fun c => (s.p.get c).kernelDiffers (new c) := List.filter_congr fun c hc => by rw [hnew c hc]
  have hchanged : (cs.filter fun c => (s.p.get c).kernelDiffers (newP.get c)).map newP.get =
      (cs.filter fun c => (s.p.get c).kernelDiffers (new c)).map new := by
    rw [hfilter]
    exact List.map_congr_left fun c hc => hnew c (List.mem_of_mem_filter hc)
  rcases commitParams_cases s g cs newCom newP with ⟨-, herror⟩ | ⟨hok, -⟩
  · exact herror
  · rw [hchanged, h] at hok
    cases hok

theorem initEngine_zeroMass {s : State} {g : Geometry} (hg : initGeometry s.inst s.operands = .ok g)
    (h : ((kernelsOk g.n (g.chans.map ((initParams s.inst g s.p s.operands.stg).run s.draws).1.get)).run
      ((initParams s.inst g s.p s.operands.stg).run s.draws).2).1 = false) :
    s.initEngine = .error .kernelZeroMass := by
  rw [State.initEngine, hg]
  exact if_neg (ne_true_of_eq_false h)

/-- The records SETP stages, channel by channel (R224). -/
theorem get_merge (p : Per3 Params) (staged : Params) (m : ParamMask) (c : Chan) :
    Per3.get ⟨p.c0.merge staged m, p.c1.merge staged m, p.c2.merge staged m⟩ c = (p.get c).merge staged m := by
  cases c <;> rfl

/-- IMPORT gives every active channel its staged record (R310). -/
theorem importParams_get (g : Geometry) (p imp : Per3 Params) {c : Chan} (hc : c ∈ g.chans) :
    (importParams g p imp).get c = imp.get c := by
  cases hg : g.channels with
  | one =>
    rw [Geometry.chans, hg] at hc
    rw [importParams, hg, List.mem_singleton.mp hc]
    rfl
  | three => rw [importParams, hg]

/-- Settles O26: INIT and BUILD_KERNEL check their kernels themselves, the other three through `commitParams`. -/
theorem zeroMassKernelIsRefused : Obligations.ZeroMassKernelIsRefused := by
  refine ⟨fun s g hg h => ?_, fun s g hg => ⟨fun sel cs m hcs h => ?_, fun m hthree h => ?_, fun hsize h => ?_,
    fun sel cs hcs h => ?_⟩⟩
  · exact congrArg (finish s) (initEngine_zeroMass hg h)
  · have heffect : s.setParams g cs m = .error .kernelZeroMass :=
      commitParams_zeroMass _ (fun c _ => get_merge s.p _ m c) h
    exact (runCommandMany_ready hg hcs _).trans (congrArg (finish s) heffect)
  · have heffect : s.setCommonParams g m = .error .kernelZeroMass := by
      rw [State.setCommonParams, hthree]
      exact commitParams_zeroMass _ (fun _ _ => rfl) h
    exact (runCommandNone_ready hg _).trans (congrArg (finish s) heffect)
  · have hcommit := commitParams_zeroMass s.operands.impCom (fun c => importParams_get g s.p s.operands.impP) h
    have heffect : s.importConfig g = .error .kernelZeroMass := by
      rw [State.importConfig, argNat, if_neg (not_not_intro hsize), hcommit]
    exact (runCommandNone_ready hg _).trans (congrArg (finish s) heffect)
  · rw [exec_buildKernel_ready hg hcs, buildKernels_zeroMass h, finish_error]

end Sys2Proof.Machine
end

section
/-! PROOF. The floor of a word (R16), reading the growth table (O49; R193, R199), and GROWTH (O34; R200, R201). -/

namespace Sys2Proof.Machine

open Sys2Proof.Claims

/-! ### The floor of a word (R16) -/

/-- The model's floor is the floor of the real value; of -0.0 too. -/
theorem floorNat_eq_floor {w : Word} (hfin : magnitude w < infMagnitude) (h : 0 ≤ realWord w) :
    floorNat w = ⌊realWord w⌋₊ := by
  have hunpack := unpack_of_finite hfin
  cases hs : signBit w with
  | true =>
    rw [le_antisymm (realWord_nonpos hs) h, Nat.floor_zero, floorNat, hunpack, hs]
  | false =>
    rw [hs] at hunpack
    have hvalue : realWord w = (unitsOfMagnitude (magnitude w) : ℝ) / (2 ^ 1074 : Nat) := by
      rw [realWord_of_unpack hunpack, Nat.cast_pow]
      rfl
    rw [hvalue, Nat.floor_div_eq_div, floorNat, hunpack]

theorem floorOf_floorNat {w : Word} (hfin : magnitude w < infMagnitude) (h : 0 ≤ realWord w) : FloorOf w (floorNat w) := by
  rw [floorNat_eq_floor hfin h]
  exact ⟨Nat.floor_le h, Nat.lt_floor_add_one _⟩

/-! ### Rounding between integers -/

/-- The integers up to 2^53 are values of magnitudes. -/
theorem exists_realOf_eq {n : Nat} (hn : n ≤ 2 ^ 53) : ∃ p, p < infMagnitude ∧ realOf p = n := by
  obtain ⟨hfin, hvalue⟩ := ofNat64_exact hn
  refine ⟨_, hfin, ?_⟩
  rw [← abs_of_nonneg (Nat.cast_nonneg (α := ℝ) n), ← hvalue, realWord]
  split <;> simp [abs_of_nonneg (realOf_nonneg _)]

/-- Rounding does not pass an integer up to 2^53; with `lo = hi` it is exact. -/
theorem rounded_between {w : Word} {y : ℝ} {lo hi : Nat} (h : Rounded w y) (hlo : lo ≤ y) (hhi : y ≤ hi)
    (hsmall : hi ≤ 2 ^ 53) : magnitude w < infMagnitude ∧ lo ≤ realWord w ∧ realWord w ≤ hi := by
  obtain ⟨hmag, hneg, -, hinf, hnearest⟩ := h
  have hy : 0 ≤ y := (Nat.cast_nonneg lo).trans hlo
  have hhi53 : (hi : ℝ) ≤ 2 ^ 53 := by exact_mod_cast hsmall
  rw [abs_of_nonneg hy] at hinf hnearest
  have hfin : magnitude w < infMagnitude := by
    refine lt_of_le_of_ne hmag fun heq => absurd (hinf.mp heq) (not_le.mpr ?_)
    calc y ≤ 2 ^ 53 := hhi.trans hhi53
      _ < 2 ^ 54 - 1 := by norm_num
      _ ≤ (2 ^ 54 - 1) * 2 ^ 970 := le_mul_of_one_le_right (by norm_num) (one_le_pow₀ one_le_two)
  obtain ⟨p, hp, hpv⟩ := exists_realOf_eq (n := lo) (by exact_mod_cast (hlo.trans hhi).trans hhi53)
  obtain ⟨q, hq, hqv⟩ := exists_realOf_eq hsmall
  obtain ⟨hnearLo, -⟩ := hnearest hfin p hp
  obtain ⟨hnearHi, -⟩ := hnearest hfin q hq
  rw [hpv, abs_sub_comm (lo : ℝ), abs_of_nonneg (sub_nonneg.mpr hlo), abs_le] at hnearLo
  rw [hqv, abs_of_nonneg (sub_nonneg.mpr hhi), abs_le] at hnearHi
  refine ⟨hfin, ?_⟩
  cases hs : signBit w with
  | false =>
    rw [realWord, if_neg (by simp [hs])]
    constructor <;> linarith
  | true =>
    have hzero : y = 0 := le_antisymm (hneg hs) hy
    rw [realWord, if_pos hs]
    constructor <;> linarith [Nat.cast_nonneg (α := ℝ) lo]

/-! ### The unit interval -/

theorem realWord_le_of_orderKey_le {a b : Word} (h : orderKey a ≤ orderKey b) : realWord a ≤ realWord b := by
  rw [realWord_eq_unitsOfKey, realWord_eq_unitsOfKey]
  gcongr
  exact unitsOfKey_strictMono.monotone h

theorem realWord_posZero : realWord posZero = 0 := (realWord_eq_zero_iff (neg := false) (k := 0) (by decide)).mpr rfl

theorem realWord_fOne : realWord fOne = 1 := by
  obtain ⟨-, hlo, hhi⟩ := rounded_between (lo := 1) (hi := 1) rounded_fOne (by simp) (by simp) (by decide)
  exact le_antisymm (by simpa using hhi) (by simpa using hlo)

theorem inUnit_bounds {v : Word} (h : InUnit v) :
    magnitude v < infMagnitude ∧ 0 ≤ realWord v ∧ realWord v ≤ 1 := by
  obtain ⟨hlo, hhi⟩ := h
  obtain ⟨-, -, hlo⟩ := (fle_iff _ _).mp hlo
  obtain ⟨-, -, hhi⟩ := (fle_iff _ _).mp hhi
  refine ⟨?_, realWord_posZero ▸ realWord_le_of_orderKey_le hlo, realWord_fOne ▸ realWord_le_of_orderKey_le hhi⟩
  have hz : orderKey posZero = 0 := by decide
  have ho : orderKey fOne < infMagnitude := by decide
  rw [← natAbs_orderKey]
  omega

/-! ### The table position (R193) -/

theorem Geometry.res_pred_le (g : Geometry) : g.res - 1 ≤ 2 ^ 53 := by
  have := g.res_le
  omega

/-- The clamped operand times RES - 1, rounded: the floor of it is the index `lookup` reads. -/
def tablePosition (res : Nat) (u : Word) : Num Word := fmul (clamp01 u) (ofNat64 (res - 1))

/-- The position lies between what integers the exact product lies. -/
theorem tablePosition_between (g : Geometry) (u : Word) (d : Draws) {lo hi : Nat}
    (hlo : lo ≤ realWord (clamp01 u) * (g.res - 1 : Nat)) (hhi : realWord (clamp01 u) * (g.res - 1 : Nat) ≤ hi)
    (hsmall : hi ≤ 2 ^ 53) :
    magnitude ((tablePosition g.res u).run d).1 < infMagnitude ∧ lo ≤ realWord ((tablePosition g.res u).run d).1 ∧
      realWord ((tablePosition g.res u).run d).1 ≤ hi := by
  obtain ⟨hfin, hvalue⟩ := ofNat64_exact g.res_pred_le
  obtain ⟨hclamp, -⟩ := inUnit_bounds (inUnit_clamp01 u)
  obtain ⟨hrounded, -⟩ := fmul_rounded hclamp hfin d
  rw [hvalue] at hrounded
  exact rounded_between hrounded hlo hhi hsmall

/-- The floor of the position lies between what integers the exact product lies. -/
theorem floorNat_tablePosition_between (g : Geometry) (u : Word) (d : Draws) {lo hi : Nat}
    (hlo : lo ≤ realWord (clamp01 u) * (g.res - 1 : Nat)) (hhi : realWord (clamp01 u) * (g.res - 1 : Nat) ≤ hi)
    (hsmall : hi ≤ 2 ^ 53) :
    lo ≤ floorNat ((tablePosition g.res u).run d).1 ∧ floorNat ((tablePosition g.res u).run d).1 ≤ hi := by
  obtain ⟨hfin, hlo, hhi⟩ := tablePosition_between g u d hlo hhi hsmall
  rw [floorNat_eq_floor hfin ((Nat.cast_nonneg lo).trans hlo)]
  exact ⟨Nat.le_floor hlo, Nat.floor_le_of_le hhi⟩

theorem realWord_clamp01_mul_nonneg (g : Geometry) (u : Word) :
    ((0 : Nat) : ℝ) ≤ realWord (clamp01 u) * (g.res - 1 : Nat) := by
  obtain ⟨-, hlo, -⟩ := inUnit_bounds (inUnit_clamp01 u)
  rw [Nat.cast_zero]
  positivity

theorem realWord_clamp01_mul_le (g : Geometry) (u : Word) :
    realWord (clamp01 u) * (g.res - 1 : Nat) ≤ (g.res - 1 : Nat) :=
  have ⟨_, _, hhi⟩ := inUnit_bounds (inUnit_clamp01 u)
  mul_le_of_le_one_left (Nat.cast_nonneg _) hhi

theorem floorOf_tablePosition (g : Geometry) (u : Word) (d : Draws) :
    FloorOf ((tablePosition g.res u).run d).1 (floorNat ((tablePosition g.res u).run d).1) := by
  obtain ⟨hfin, hlo, -⟩ := tablePosition_between g u d (realWord_clamp01_mul_nonneg g u) (realWord_clamp01_mul_le g u)
    g.res_pred_le
  exact floorOf_floorNat hfin (by simpa using hlo)

theorem floorNat_tablePosition_lt (g : Geometry) (u : Word) (d : Draws) :
    floorNat ((tablePosition g.res u).run d).1 < g.res := by
  obtain ⟨-, hhi⟩ := floorNat_tablePosition_between g u d (realWord_clamp01_mul_nonneg g u)
    (realWord_clamp01_mul_le g u) g.res_pred_le
  have : 2 ≤ g.res := Nat.le_add_left 2 _
  omega

/-- The clamp to the last entry (R193) never acts: `lookup` reads the entry at the floor of the position. -/
theorem run_lookupGrowth (s : State) (g : Geometry) (c : Chan) (u : Word) (d : Draws) :
    (s.lookupGrowth g c u).run d =
      (s.readElem (.gtab c) (floorNat ((tablePosition g.res u).run d).1), ((tablePosition g.res u).run d).2) := by
  have hlt := floorNat_tablePosition_lt g u d
  rw [← Nat.min_eq_left (Nat.le_pred_of_lt hlt)]
  rfl

/-! ### LOOKUP (R199) -/

theorem realWord_clamp01_of_nonpos {u : Word} (h : isNan u = true ∨ fle u posZero = true) : realWord (clamp01 u) = 0 := by
  rcases h with hnan | hle
  · rw [clamp01_of_nan hnan, realWord_posZero]
  · obtain ⟨hnan, -, hkey⟩ := (fle_iff u posZero).mp hle
    cases hlt : flt u posZero with
    | true => rw [clamp01_of_negative hlt, realWord_posZero]
    | false =>
      have hone : orderKey posZero ≤ orderKey fOne := by decide
      obtain ⟨-, -, hkey'⟩ := (fle_iff posZero u).mp (fle_of_flt_eq_false hnan (by decide) hlt)
      rw [clamp01_of_unit hnan hlt (flt_eq_false_of_orderKey_le (hkey.trans hone)), ← realWord_posZero]
      exact le_antisymm (realWord_le_of_orderKey_le hkey) (realWord_le_of_orderKey_le hkey')

theorem realWord_clamp01_of_one_le {u : Word} (h : fle fOne u = true) : realWord (clamp01 u) = 1 := by
  obtain ⟨-, hnan, hkey⟩ := (fle_iff fOne u).mp h
  cases hlt : flt fOne u with
  | true => rw [clamp01_of_above hlt, realWord_fOne]
  | false =>
    have hone : orderKey posZero ≤ orderKey fOne := by decide
    obtain ⟨-, -, hkey'⟩ := (fle_iff u fOne).mp (fle_of_flt_eq_false (by decide) hnan hlt)
    rw [clamp01_of_unit hnan (flt_eq_false_of_orderKey_le (hone.trans hkey)) hlt, ← realWord_fOne]
    exact le_antisymm (realWord_le_of_orderKey_le hkey') (realWord_le_of_orderKey_le hkey)

theorem clamp01_of_inside {u : Word} (hlo : flt posZero u = true) (hhi : flt u fOne = true) : clamp01 u = u := by
  obtain ⟨-, hnan, hlo⟩ := (flt_iff posZero u).mp hlo
  obtain ⟨-, -, hhi⟩ := (flt_iff u fOne).mp hhi
  exact clamp01_of_unit hnan (flt_eq_false_of_orderKey_le hlo.le) (flt_eq_false_of_orderKey_le hhi.le)

theorem exec_lookup_ready {s : State} {g : Geometry} {c : Chan} (h : s.engine = some g) (hc : g.active c = true) :
    exec (.lookup (.ch c)) s = .next ((s.resultOf (s.lookupGrowth g c s.operands.arg0)).recordCompletion .ok) :=
  runCommandOne_ready h hc _

/-- A command whose effect is to draw a word into RESULT. -/
theorem ran_resultOf (s : State) (m : Num Word) :
    Ran s { s with result := (m.run s.draws).1 } ((s.resultOf m).recordCompletion .ok) :=
  ran_recordCompletion ⟨rfl, rfl, rfl, rfl, rfl, rfl, rfl, rfl, rfl⟩ ⟨rfl, rfl, rfl, rfl, rfl, rfl⟩ rfl rfl rfl

/-- Settles O49: the entry is the one at the floor of the position, which at 0 and at 1.0 is exact. -/
theorem lookupReadsTheTable : Obligations.LookupReadsTheTable := by
  refine ⟨fun w hfin hsign => floorOf_floorNat hfin (realWord_nonneg hsign), fun s g c hg hc => ?_⟩
  have hran := ran_resultOf s (s.lookupGrowth g c s.operands.arg0)
  rw [run_lookupGrowth] at hran
  refine ⟨_, _, exec_lookup_ready hg hc, floorNat_tablePosition_lt g _ _, hran, rfl, rfl, fun h => ?_, fun h => ?_,
    fun hlo hhi => ?_⟩
  · have hzero := realWord_clamp01_of_nonpos h
    obtain ⟨-, hle⟩ := floorNat_tablePosition_between g s.operands.arg0 s.draws (lo := 0) (hi := 0) (by simp [hzero])
      (by simp [hzero]) (by decide)
    exact Nat.le_zero.mp hle
  · have hone := realWord_clamp01_of_one_le h
    obtain ⟨hge, hle⟩ := floorNat_tablePosition_between g s.operands.arg0 s.draws (lo := g.res - 1) (hi := g.res - 1)
      (by rw [hone, one_mul]) (by rw [hone, one_mul]) g.res_pred_le
    exact le_antisymm hle hge
  · rw [tablePosition, clamp01_of_inside hlo hhi]

/-! ### GROWTH (R200, R201) -/

theorem exec_growth_ready {s : State} {g : Geometry} {c : Chan} (h : s.engine = some g) (hc : g.active c = true) :
    exec (.growth (.ch c)) s = .next ((s.growField g c).recordCompletion .ok) :=
  runCommandOne_ready h hc _

theorem nextField_length (s : State) (g : Geometry) (c : Chan) (d : Draws) :
    ((s.nextField g c).run d).1.length = g.cells := by
  rw [State.nextField, forEach_length, List.length_range]

/-- Cell `i` of the next field is the update of cell `i` (R201). -/
theorem nextField_getElem? (s : State) (g : Geometry) (c : Chan) {i : Nat} (h : i < g.cells) (d : Draws) :
    ∃ e, ((s.nextField g c).run d).1[i]? =
      some ((s.nextCell g c (s.readElem (s.activeField c) i) (s.readElem .sre i)).run e).1 := by
  obtain ⟨e, he⟩ := forEach_getElem (fun i => s.nextCell g c (s.readElem (s.activeField c) i) (s.readElem .sre i))
    (List.range g.cells) d i (by simpa using h)
  rw [List.getElem_range] at he
  exact ⟨e, he⟩

theorem readElem_growField (s : State) (g : Geometry) (c : Chan) {i : Nat} (h : i < g.cells) :
    ∃ e, (s.growField g c).readElem (s.inactiveField c) i =
      ((s.nextCell g c (s.readElem (s.activeField c) i) (s.readElem .sre i)).run e).1 := by
  have hlen : i < ((s.nextField g c).run s.draws).1.length := (nextField_length s g c s.draws).symm ▸ h
  obtain ⟨e, he⟩ := nextField_getElem? s g c h s.draws
  rw [List.getElem?_eq_getElem hlen, Option.some.injEq] at he
  exact ⟨e, (readElem_writeArray_same _ _ _ _ hlen).trans he⟩

theorem bytesKept_growField (s : State) (g : Geometry) (c : Chan) :
    BytesKeptOutside s (s.growField g c) (InArr (s.inactiveField c) g.cells) := fun x hx => by
  rw [State.growField, readByte_writeArray_outside _ _ _ _ ?_, readByte_drawing]
  rw [drawing_fst, nextField_length]
  unfold InArr at hx
  omega

/-- The operations of R200 in their order; the last one clamps. -/
theorem run_nextCell (s : State) (g : Geometry) (c : Chan) (f u : Word) (e : Draws) : ∃ d' d'',
    ((s.nextCell g c f u).run e).1 = clamp01 ((fadd f ((fmul (s.p.get c).dt
      (s.readElem (.gtab c) (floorNat ((tablePosition g.res u).run e).1))).run d').1).run d'').1 := by
  rw [State.nextCell, run_bind, run_lookupGrowth]
  exact ⟨_, _, rfl⟩

theorem inUnit_nextCell (s : State) (g : Geometry) (c : Chan) (f u : Word) (e : Draws) :
    InUnit ((s.nextCell g c f u).run e).1 := by
  obtain ⟨d', d'', h⟩ := run_nextCell s g c f u e
  exact h ▸ inUnit_clamp01 _

@[simp] theorem readElem_recordCompletion (s : State) (e : Err) (a : Arr) (i : Nat) :
    (s.recordCompletion e).readElem a i = s.readElem a i := readElem_congr rfl rfl a i

theorem ran_growField (s : State) (g : Geometry) (c : Chan) : Ran s s ((s.growField g c).recordCompletion .ok) :=
  ran_recordCompletion ⟨rfl, rfl, rfl, rfl, rfl, rfl, rfl, rfl, rfl⟩ ⟨rfl, rfl, rfl, rfl, rfl, rfl⟩ rfl rfl rfl

/-- Settles O34: the cells of the next field, read back from the inactive bank. -/
theorem growthWritesTheInactiveBank : Obligations.GrowthWritesTheInactiveBank := by
  intro s g c hg hc
  refine ⟨_, exec_growth_ready hg hc, ran_growField s g c, fun i hi => ?_, fun x hx => ?_⟩
  · obtain ⟨e, he⟩ := readElem_growField s g c hi
    obtain ⟨d', d'', hcell⟩ := run_nextCell s g c (s.readElem (s.activeField c) i) (s.readElem .sre i) e
    rw [readElem_recordCompletion]
    exact ⟨he ▸ inUnit_nextCell s g c _ _ e, ⟨e, he⟩, _, _, _, _, e, d', d'', rfl, floorOf_tablePosition g _ e,
      floorNat_tablePosition_lt g _ e, rfl, rfl, he.trans hcell⟩
  · rw [readByte_recordCompletion]
    exact bytesKept_growField s g c x hx

end Sys2Proof.Machine
end

section
/-! PROOF. STEP (O38; R236, R237): what the phases of one channel write, and that the channels do not touch one another. -/

namespace Sys2Proof.Machine

open Sys2Proof.Claims

/-! ### Bytes that are kept -/

theorem bytesKept_trans {s t u : State} {p : Nat → Prop} (hst : BytesKeptOutside s t p) (htu : BytesKeptOutside t u p) :
    BytesKeptOutside s u p := fun x hx => (htu x hx).trans (hst x hx)

/-- No element of an array lies in another array. -/
theorem not_inArr_of_ne {a b : Arr} (hab : a ≠ b) {n i j : Nat} (hn : n ≤ 2 ^ 25) (hi : i < 2 ^ 24) (hj : j < 8) :
    ¬ InArr b n (a.addr i + j) := fun hin => by
  unfold InArr Arr.addr at hin
  exact Arr.disjoint hab (i := 8 * i + j) (j := a.addr i + j - b.base) (by omega) (by unfold Arr.addr; omega)
    (by unfold Arr.addr; omega)

theorem not_inScratch_field (c : Chan) (bank : Bool) {i j : Nat} (hi : i < 2 ^ 24) (hj : j < 8) :
    ¬ InScratch ((Arr.field c bank).addr i + j) :=
  not_or.mpr ⟨not_inArr_of_ne Arr.noConfusion le_rfl hi hj, not_inArr_of_ne Arr.noConfusion le_rfl hi hj⟩

theorem inScratch_of_cells {g : Geometry} {x : Nat} (h : InArr .sre g.cells x ∨ InArr .sim g.cells x) : InScratch x := by
  have := g.cells_le
  unfold InScratch InArr at *
  omega

theorem bytesKept_drawn_scratch {s : State} {g : Geometry} {v : Cplx} (draws : Draws) (re : v.re.length = g.cells)
    (im : v.im.length = g.cells) : BytesKeptOutside s (State.writeScratch { s with draws := draws } v) InScratch :=
  fun x hx => bytesKept_writeScratch (s := { s with draws := draws }) re im x fun hin => hx (inScratch_of_cells hin)

/-! ### The phases of one channel (R237) -/

theorem bytesKept_loadField (s : State) (g : Geometry) (c : Chan) : BytesKeptOutside s (s.loadField g c) InScratch :=
  bytesKept_drawn_scratch (v := fieldAsCplx s g c) s.draws (readArray_length _ _ _) List.length_replicate

theorem bytesKept_transformScratch (s : State) (g : Geometry) (inv : Bool) :
    BytesKeptOutside s (s.transformScratch g inv) InScratch :=
  have ⟨re, im⟩ := fft2_length (s.fftTables g) inv (s.scratch g) s.draws
  bytesKept_drawn_scratch _ re im

theorem bytesKept_multiplyScratch (s : State) (g : Geometry) (c : Chan) :
    BytesKeptOutside s (s.multiplyScratch g c) InScratch :=
  have hlen := multiplyElems_length s c g.cells s.draws
  bytesKept_drawn_scratch (v := Cplx.ofPairs _) _ ((List.length_map _).trans hlen) ((List.length_map _).trans hlen)

/-- Phases 1 to 4: the convolution of a channel's field with its kernel, into the scratch arrays. -/
def State.convolveField (s : State) (g : Geometry) (c : Chan) : State :=
  (((s.loadField g c).transformScratch g false).multiplyScratch g c).transformScratch g true

theorem stepChannel_eq (s : State) (g : Geometry) (c : Chan) :
    s.stepChannel g c = ((s.convolveField g c).growField g c).swapBank c := rfl

@[simp] theorem convolveField_bank (s : State) (g : Geometry) (c : Chan) : (s.convolveField g c).bank = s.bank := by
  simp [State.convolveField]

theorem bytesKept_convolveField (s : State) (g : Geometry) (c : Chan) :
    BytesKeptOutside s (s.convolveField g c) InScratch :=
  bytesKept_trans (bytesKept_loadField s g c) <| bytesKept_trans (bytesKept_transformScratch _ g false) <|
    bytesKept_trans (bytesKept_multiplyScratch _ g c) (bytesKept_transformScratch _ g true)

/-! ### Channel after channel (R236) -/

/-- From `s` to `t` the channels of a list took a step: their banks flipped, their new fields lie in [0, 1], and nothing
but their inactive banks and the scratch arrays was written. -/
structure Advanced (g : Geometry) (cs : List Chan) (s t : State) : Prop where
  flipped : ∀ c ∈ cs, t.bank.get c = !s.bank.get c
  bankKept : ∀ c, c ∉ cs → t.bank.get c = s.bank.get c
  inUnit : ∀ c ∈ cs, ∀ i, i < g.cells → InUnit (t.readElem (t.activeField c) i)
  bytesKept : BytesKeptOutside s t (fun x => InScratch x ∨ ∃ c ∈ cs, InArr (s.inactiveField c) g.cells x)

/-- Phases 5 and 6 from a state in which only the scratch arrays were written. -/
theorem advanced_growField_swapBank {s u : State} (g : Geometry) (c : Chan) (hbank : u.bank = s.bank)
    (hbytes : BytesKeptOutside s u InScratch) : Advanced g [c] s ((u.growField g c).swapBank c) where
  flipped b hb := by
    obtain rfl := List.mem_singleton.mp hb
    rw [swapBank_bank, growField_bank, Per3.get_set_same, hbank]
  bankKept b hb := by
    rw [swapBank_bank, growField_bank, Per3.get_set_other _ (mt List.mem_singleton.mpr hb), hbank]
  inUnit b hb i hi := by
    obtain rfl := List.mem_singleton.mp hb
    obtain ⟨e, he⟩ := readElem_growField u g b hi
    have hactive : ((u.growField g b).swapBank b).activeField b = u.inactiveField b := by
      rw [State.activeField, swapBank_bank, growField_bank, Per3.get_set_same, State.inactiveField]
    rw [hactive, readElem_congr (swapBank_mem _ b) (swapBank_epochs _ b), he]
    exact inUnit_nextCell u g b _ _ e
  bytesKept x hx := by
    obtain ⟨hscratch, hfield⟩ := not_or.mp hx
    have hout : ¬ InArr (u.inactiveField c) g.cells x := fun hin =>
      hfield ⟨c, List.mem_singleton_self c, by rwa [State.inactiveField, ← hbank]⟩
    rw [readByte_congr (swapBank_mem _ c) (swapBank_epochs _ c), bytesKept_growField u g c x hout, hbytes x hscratch]

theorem advanced_stepChannel (s : State) (g : Geometry) (c : Chan) : Advanced g [c] s (s.stepChannel g c) :=
  stepChannel_eq s g c ▸
    advanced_growField_swapBank g c (convolveField_bank s g c) (bytesKept_convolveField s g c)

/-- A step of other channels keeps a field. -/
theorem Advanced.readElem_other {g : Geometry} {cs : List Chan} {s t : State} (h : Advanced g cs s t) {c : Chan}
    (hc : c ∉ cs) (bank : Bool) {i : Nat} (hi : i < g.cells) :
    t.readElem (.field c bank) i = s.readElem (.field c bank) i := by
  have hcells := g.cells_le
  refine readElem_of_bytes fun j hj => h.bytesKept _ (not_or.mpr ⟨not_inScratch_field c bank (by omega) hj, ?_⟩)
  rintro ⟨b, hb, hin⟩
  refine not_inArr_of_ne (fun heq => ?_) (by omega) (by omega) hj hin
  cases heq
  exact hc hb

/-- Steps of different channels, one list of channels after the other. -/
theorem Advanced.append {g : Geometry} {as bs : List Chan} {s t u : State} (hst : Advanced g as s t)
    (htu : Advanced g bs t u) (hdisjoint : as.Disjoint bs) : Advanced g (as ++ bs) s u where
  flipped c hc := by
    rcases List.mem_append.mp hc with ha | hb
    · rw [htu.bankKept c (hdisjoint ha), hst.flipped c ha]
    · rw [htu.flipped c hb, hst.bankKept c fun ha => hdisjoint ha hb]
  bankKept c hc := by
    obtain ⟨ha, hb⟩ := not_or.mp (mt List.mem_append.mpr hc)
    rw [htu.bankKept c hb, hst.bankKept c ha]
  inUnit c hc i hi := by
    rcases List.mem_append.mp hc with ha | hb
    · have hbank := htu.bankKept c (hdisjoint ha)
      rw [State.activeField, hbank, htu.readElem_other (hdisjoint ha) _ hi]
      exact hst.inUnit c ha i hi
    · exact htu.inUnit c hb i hi
  bytesKept x hx := by
    obtain ⟨hscratch, hfields⟩ := not_or.mp hx
    refine (htu.bytesKept x (not_or.mpr ⟨hscratch, ?_⟩)).trans (hst.bytesKept x (not_or.mpr ⟨hscratch, ?_⟩))
    · rintro ⟨b, hb, hin⟩
      rw [State.inactiveField, hst.bankKept b fun ha => hdisjoint ha hb] at hin
      exact hfields ⟨b, List.mem_append_right as hb, hin⟩
    · rintro ⟨a, ha, hin⟩
      exact hfields ⟨a, List.mem_append_left bs ha, hin⟩

theorem advanced_nil {g : Geometry} {s t : State} (hbank : t.bank = s.bank) (hbytes : BytesKeptOutside s t InScratch) :
    Advanced g [] s t where
  flipped _ hc := absurd hc List.not_mem_nil
  bankKept c _ := by rw [hbank]
  inUnit _ hc := absurd hc List.not_mem_nil
  bytesKept x hx := hbytes x fun hin => hx (.inl hin)

theorem advanced_foldl_stepChannel (g : Geometry) {cs : List Chan} (hnodup : cs.Nodup) (s : State) :
    Advanced g cs s (cs.foldl (fun t c => t.stepChannel g c) s) := by
  induction cs generalizing s with
  | nil => exact advanced_nil rfl fun _ _ => rfl
  | cons c cs ih =>
    obtain ⟨hc, hnodup⟩ := List.nodup_cons.mp hnodup
    rw [List.foldl_cons]
    exact (advanced_stepChannel s g c).append (ih hnodup (s.stepChannel g c)) (List.singleton_disjoint.mpr hc)

/-! ### The body of STEP -/

theorem Geometry.chans_nodup (g : Geometry) : g.chans.Nodup := by
  unfold Geometry.chans
  cases g.channels <;> decide

/-- The statistics and the scratch arrays that STEP leaves unspecified are no field. -/
theorem advanced_stepOnce (s : State) (g : Geometry) : Advanced g g.chans s (s.stepOnce g) := by
  have hfold := advanced_foldl_stepChannel g g.chans_nodup s
  rw [← List.append_nil g.chans]
  refine hfold.append (advanced_nil (by simp [State.stepOnce]) fun x hx => ?_) (List.disjoint_nil_right _)
  rw [State.stepOnce, readByte_forgetScratch _ x (outside_of_not_inScratch hx)]
  exact readByte_congr (recomputeStats_mem _ g true) (recomputeStats_epochs _ g true) x

/-- The steps of the channels write no engine register but the banks. -/
theorem foldl_stepChannel_regs (g : Geometry) (cs : List Chan) (s : State) :
    (cs.foldl (fun t c => t.stepChannel g c) s).result = s.result ∧
    (cs.foldl (fun t c => t.stepChannel g c) s).com = s.com ∧
    (cs.foldl (fun t c => t.stepChannel g c) s).p = s.p ∧
    (cs.foldl (fun t c => t.stepChannel g c) s).stats = s.stats := by
  induction cs generalizing s with
  | nil => exact ⟨rfl, rfl, rfl, rfl⟩
  | cons c cs ih => simpa using ih (s.stepChannel g c)

theorem ran_stepOnce (s : State) (g : Geometry) :
    Ran s { s with bank := (s.stepOnce g).bank, stats := (s.stepOnce g).stats } ((s.stepOnce g).recordCompletion .ok) := by
  have hframe := (updates_stepOnce (rng := false) (g := g) s).frame
  obtain ⟨hresult, hcom, hp, -⟩ := foldl_stepChannel_regs g g.chans s
  refine ran_recordCompletion ?_ ⟨by rw [hframe], ?_, rfl, ?_, ?_, rfl⟩ (by rw [hframe]) (by rw [hframe])
    (by rw [hframe])
  · rw [hframe]
    exact ⟨rfl, rfl, rfl, rfl, rfl, rfl, rfl, rfl, rfl⟩
  · rw [State.stepOnce, forgetScratch_result, recomputeStats_result, hresult]
  · rw [State.stepOnce, forgetScratch_com, recomputeStats_com, hcom]
  · rw [State.stepOnce, forgetScratch_p, recomputeStats_p, hp]

/-- STEP is counted whichever of the two records the mass selects (R266). -/
theorem statsFromSums_step (n : Nat) (inc : Bool) (old : StatsRegs) (t : Sums) (d : Draws) :
    ((statsFromSums n inc old t).run d).1.step = if inc then old.step + 1 else old.step := by
  by_cases h : flt posZero t.mass = true
  · simp only [statsFromSums, if_pos h, run_bind, run_pure]
  · simp only [statsFromSums, if_neg h, run_pure]

theorem recomputeStats_step (s : State) (g : Geometry) (inc : Bool) :
    (s.recomputeStats g inc).stats.step = if inc then s.stats.step + 1 else s.stats.step := by
  simp only [State.recomputeStats, drawing_fst, State.nextStats, run_bind, statsFromSums_step]

theorem stepOnce_step (s : State) (g : Geometry) : (s.stepOnce g).stats.step = s.stats.step + 1 := by
  obtain ⟨-, -, -, hstats⟩ := foldl_stepChannel_regs g g.chans s
  rw [State.stepOnce, forgetScratch_stats, recomputeStats_step, hstats]
  rfl

theorem exec_step_ready {s : State} {g : Geometry} (h : s.engine = some g) :
    exec .step s = .next ((s.stepOnce g).recordCompletion .ok) := runCommandNone_ready h _

/-- Settles O38: the active channels advance one after another, and the statistics count the step. -/
theorem stepAdvancesTheFields : Obligations.StepAdvancesTheFields := by
  intro s g hg
  have hstep := advanced_stepOnce s g
  refine ⟨_, exec_step_ready hg, ran_stepOnce s g, fun c => ?_, fun c i hc hi => ?_, stepOnce_step s g, fun x hx => ?_⟩
  · split
    case isTrue hc => exact hstep.flipped c (mem_chans_of_active hc)
    case isFalse hc => exact hstep.bankKept c (mt active_of_mem_chans hc)
  · rw [readElem_recordCompletion]
    exact hstep.inUnit c (mem_chans_of_active hc) i hi
  · rw [readByte_recordCompletion]
    refine hstep.bytesKept x fun hin => hx (hin.imp_right ?_)
    rintro ⟨c, hc, hfield⟩
    exact ⟨c, active_of_mem_chans hc, hfield⟩

end Sys2Proof.Machine
end

section
/-! PROOF. NOP (O21), SWAP (O35), commands one after another: STEP as its primitives (O37), RUN as its STEPs (O39). -/

namespace Sys2Proof.Machine

open Sys2Proof.Claims

/-! ### NOP (R223) -/

/-- Settles O21: the effect of NOP is the state itself. -/
theorem nopOnlyCompletes : Obligations.NopOnlyCompletes := fun s =>
  ⟨_, finish_ok s s, ran_recordCompletion ⟨rfl, rfl, rfl, rfl, rfl, rfl, rfl, rfl, rfl⟩ ⟨rfl, rfl, rfl, rfl, rfl, rfl⟩
    rfl rfl rfl, rfl, rfl, rfl⟩

/-! ### SWAP (R241) -/

theorem exec_swap_ready {s : State} {g : Geometry} {sel : ChSel} {cs : List Chan} (h : s.engine = some g)
    (hc : chansOf g sel = .ok cs) : exec (.swap sel) s = .next ((cs.foldl State.swapBank s).recordCompletion .ok) :=
  runCommandMany_ready h hc _

/-- Swapping banks writes BANK; nothing else. -/
theorem foldl_swapBank_eq (cs : List Chan) (s : State) :
    cs.foldl State.swapBank s = { s with bank := (cs.foldl State.swapBank s).bank } := by
  induction cs generalizing s with
  | nil => rfl
  | cons c cs ih => rw [List.foldl_cons, ih]; rfl

/-- No channel set names a channel twice, so no bank is swapped back. -/
theorem nodup_of_chansOf {g : Geometry} {sel : ChSel} {cs : List Chan} (h : chansOf g sel = .ok cs) : cs.Nodup := by
  cases sel with
  | ch c =>
    by_cases hc : g.active c = true
    · rw [chansOf_active hc] at h
      cases h
      exact List.nodup_singleton c
    · simp [chansOf, hc] at h
  | all =>
    cases h
    exact g.chans_nodup

theorem foldl_swapBank_bank {cs : List Chan} (hnodup : cs.Nodup) (s : State) (b : Chan) :
    (cs.foldl State.swapBank s).bank.get b = if b ∈ cs then !s.bank.get b else s.bank.get b := by
  induction cs generalizing s with
  | nil => rfl
  | cons c cs ih =>
    obtain ⟨hc, hnodup⟩ := List.nodup_cons.mp hnodup
    rw [List.foldl_cons, ih hnodup, swapBank_bank]
    by_cases hbc : b = c
    · subst hbc
      rw [if_neg hc, if_pos List.mem_cons_self, Per3.get_set_same]
    · simp only [List.mem_cons, hbc, false_or, Per3.get_set_other _ hbc]

/-- Settles O35: each swap flips one bank bit, and the channels of the set are different. -/
theorem swapFlipsBanks : Obligations.SwapFlipsBanks := by
  intro s g sel cs hg hcs
  refine ⟨_, exec_swap_ready hg hcs, ?_, foldl_swapBank_bank (nodup_of_chansOf hcs) s, ?_⟩
  · rw [foldl_swapBank_eq]
    exact ran_recordCompletion ⟨rfl, rfl, rfl, rfl, rfl, rfl, rfl, rfl, rfl⟩ ⟨rfl, rfl, rfl, rfl, rfl, rfl⟩ rfl rfl rfl
  · rw [foldl_swapBank_eq]
    exact ⟨rfl, rfl, rfl⟩

/-! ### Commands one after another -/

/-- In the Ready state with geometry `g` the command always completes with OK and the effect `f`, which keeps the engine
Ready and neither reads nor writes what the completion record R330 writes. -/
structure HasEffect (g : Geometry) (i : Instr) (f : State → State) : Prop where
  exec_ready : ∀ s, s.engine = some g → exec i s = .next ((f s).recordCompletion .ok)
  engine : ∀ s, (f s).engine = s.engine
  record : ∀ s, f (s.recordCompletion .ok) = (f s).recordCompletion .ok

/-- A second OK changes nothing in the completion record. -/
theorem recordCompletion_ok_idem (s : State) :
    (s.recordCompletion .ok).recordCompletion .ok = s.recordCompletion .ok := by
  simp [State.recordCompletion]

/-- Commands after a completed one do the effects of all of them, under the one completion record. -/
theorem execAll_completed {g : Geometry} {ps : List (Instr × (State → State))} (h : ∀ p ∈ ps, HasEffect g p.1 p.2)
    {s : State} (hg : s.engine = some g) :
    execAll (ps.map Prod.fst) (s.recordCompletion .ok) =
      .next ((ps.foldl (fun t p => p.2 t) s).recordCompletion .ok) := by
  induction ps generalizing s with
  | nil => rfl
  | cons p ps ih =>
    obtain ⟨hp, hps⟩ := List.forall_mem_cons.mp h
    rw [List.map_cons, execAll, hp.exec_ready (s.recordCompletion .ok) hg, hp.record, recordCompletion_ok_idem,
      List.foldl_cons]
    exact ih hps ((hp.engine s).trans hg)

/-- The first command of a list records its completion, and with it that of the commands before it. -/
theorem execAll_ready {g : Geometry} {ps : List (Instr × (State → State))} (h : ∀ p ∈ ps, HasEffect g p.1 p.2)
    (hne : ps ≠ []) {s : State} (hg : s.engine = some g) :
    execAll (ps.map Prod.fst) s = .next ((ps.foldl (fun t p => p.2 t) s).recordCompletion .ok) := by
  cases ps with
  | nil => exact absurd rfl hne
  | cons p ps =>
    obtain ⟨hp, hps⟩ := List.forall_mem_cons.mp h
    rw [List.map_cons, execAll, hp.exec_ready s hg]
    exact execAll_completed hps ((hp.engine s).trans hg)

/-! ### The primitives of a step (R239) -/

/-- The primitive commands of one channel's step with their effects: phases 1 to 6 of R237. -/
def channelEffects (g : Geometry) (c : Chan) : List (Instr × (State → State)) :=
  [ (.loadf (.ch c), fun s => s.loadField g c), (.fftFwd, fun s => s.transformScratch g false),
    (.cmul (.ch c), fun s => s.multiplyScratch g c), (.fftInv, fun s => s.transformScratch g true),
    (.growth (.ch c), fun s => s.growField g c), (.swap (.ch c), fun s => s.swapBank c) ]

/-- The primitive commands of one step with their effects. -/
def stepEffects (g : Geometry) : List (Instr × (State → State)) :=
  g.chans.flatMap (channelEffects g) ++ [(.stats true, fun s => s.recomputeStats g true)]

theorem stepPrimitives_eq (g : Geometry) : stepPrimitives g = (stepEffects g).map Prod.fst := by
  rw [stepEffects, List.map_append, List.map_flatMap]
  rfl

/-! What a computation reads of the state is no part of the completion record. -/

theorem drawing_recordCompletion {α : Type} (s : State) (e : Err) (m : Num α) :
    (s.recordCompletion e).drawing m = ((s.drawing m).1, (s.drawing m).2.recordCompletion e) := rfl

theorem writeScratch_recordCompletion (s : State) (e : Err) (v : Cplx) :
    (s.recordCompletion e).writeScratch v = (s.writeScratch v).recordCompletion e := rfl

theorem multiplyElems_recordCompletion (s : State) (e : Err) (c : Chan) (cells : Nat) :
    multiplyElems (s.recordCompletion e) c cells = multiplyElems s c cells := by
  simp only [multiplyElems, readElem_recordCompletion]

theorem multiplyScratch_recordCompletion (s : State) (e : Err) (g : Geometry) (c : Chan) :
    (s.recordCompletion e).multiplyScratch g c = (s.multiplyScratch g c).recordCompletion e := by
  rw [State.multiplyScratch, multiplyElems_recordCompletion, drawing_recordCompletion, writeScratch_recordCompletion,
    State.multiplyScratch]

theorem nextField_recordCompletion (s : State) (e : Err) (g : Geometry) (c : Chan) :
    (s.recordCompletion e).nextField g c = s.nextField g c := by
  simp only [State.nextField, readElem_recordCompletion]
  rfl

theorem growField_recordCompletion (s : State) (e : Err) (g : Geometry) (c : Chan) :
    (s.recordCompletion e).growField g c = (s.growField g c).recordCompletion e := by
  rw [State.growField, nextField_recordCompletion]
  rfl

theorem hasEffect_of_mem_channelEffects {g : Geometry} {c : Chan} (hc : g.active c = true) :
    ∀ p ∈ channelEffects g c, HasEffect g p.1 p.2 := by
  simp only [channelEffects, List.forall_mem_cons, List.not_mem_nil, false_imp_iff, implies_true, and_true]
  exact ⟨⟨fun _ hg => exec_loadf_ready hg hc, fun s => loadField_engine s g c, fun _ => rfl⟩,
    ⟨fun _ hg => exec_fft_ready hg false, fun s => transformScratch_engine s g false, fun _ => rfl⟩,
    ⟨fun _ hg => exec_cmul_ready hg hc, fun s => multiplyScratch_engine s g c, fun s => multiplyScratch_recordCompletion s .ok g c⟩,
    ⟨fun _ hg => exec_fft_ready hg true, fun s => transformScratch_engine s g true, fun _ => rfl⟩,
    ⟨fun _ hg => exec_growth_ready hg hc, fun s => growField_engine s g c, fun s => growField_recordCompletion s .ok g c⟩,
    ⟨fun _ hg => exec_swap_ready hg (chansOf_active hc), fun _ => rfl, fun _ => rfl⟩⟩

theorem exec_stats_ready {s : State} {g : Geometry} (h : s.engine = some g) (inc : Bool) :
    exec (.stats inc) s = .next ((s.recomputeStats g inc).recordCompletion .ok) := runCommandNone_ready h _

theorem hasEffect_of_mem_stepEffects (g : Geometry) : ∀ p ∈ stepEffects g, HasEffect g p.1 p.2 := by
  intro p hp
  rcases List.mem_append.mp hp with hchan | hstats
  · obtain ⟨c, hc, hmem⟩ := List.mem_flatMap.mp hchan
    exact hasEffect_of_mem_channelEffects (active_of_mem_chans hc) p hmem
  · obtain rfl := List.mem_singleton.mp hstats
    exact ⟨fun _ hg => exec_stats_ready hg true, fun s => recomputeStats_engine s g true, fun _ => rfl⟩

/-- What the primitives of a step do, and STEP forgets the scratch arrays of (R242). -/
def State.stepKept (s : State) (g : Geometry) : State :=
  (g.chans.foldl (fun t c => t.stepChannel g c) s).recomputeStats g true

theorem stepOnce_eq (s : State) (g : Geometry) : s.stepOnce g = (s.stepKept g).forgetScratch := rfl

theorem foldl_stepEffects (g : Geometry) (s : State) :
    (stepEffects g).foldl (fun t p => p.2 t) s = s.stepKept g := by
  rw [stepEffects, List.foldl_append, List.foldl_flatMap]
  rfl

/-- A byte of the scratch regions reads as a fresh free value once they are forgotten (R242, assumption 3). -/
theorem readByte_forgetScratch_inside (s : State) {x : Nat} (h : InScratch x) :
    s.forgetScratch.readByte x = Config.unspecified (s.epochs.scratch + 1) x := by
  have hregion : Arr.base .sre ≤ x ∧ x < Arr.base .sim + 2 ^ 28 ∧ (x / 2 ^ 28 = 0x0D ∨ x / 2 ^ 28 = 0x0E) := by
    simp only [InScratch, InArr, Arr.base, Arr.region] at h ⊢
    omega
  obtain ⟨hlo, hhi, hregion⟩ := hregion
  rw [State.readByte, forgetScratch_mem, Memory.read_forget_inside _ _ _ _ ⟨hlo, hhi⟩, forgetScratch_epochs]
  simp only [Epochs.at, hregion, if_true]

/-- Settles O37: the primitives do the phases of STEP one by one, up to the forgetting. -/
theorem stepEqualsThePrimitiveSequence : Obligations.StepEqualsThePrimitiveSequence := by
  refine ⟨fun s g hg => ⟨(s.stepKept g).recordCompletion .ok, ?_, ?_⟩, fun u => ⟨rfl, fun x hx => ?_, fun x hx => ?_⟩⟩
  · rw [stepPrimitives_eq, execAll_ready (hasEffect_of_mem_stepEffects g) (by simp [stepEffects]) hg, foldl_stepEffects]
  · rw [exec_step_ready hg, stepOnce_eq]
    rfl
  · exact readByte_forgetScratch u x (outside_of_not_inScratch hx)
  · exact readByte_forgetScratch_inside u hx

/-! ### RUN (R240) -/

/-- Effects one after another read and write no completion record where none of them does. -/
theorem foldl_effects_recordCompletion {g : Geometry} {ps : List (Instr × (State → State))}
    (h : ∀ p ∈ ps, HasEffect g p.1 p.2) (s : State) :
    ps.foldl (fun t p => p.2 t) (s.recordCompletion .ok) = (ps.foldl (fun t p => p.2 t) s).recordCompletion .ok := by
  induction ps generalizing s with
  | nil => rfl
  | cons p ps ih =>
    obtain ⟨hp, hps⟩ := List.forall_mem_cons.mp h
    rw [List.foldl_cons, hp.record, ih hps, List.foldl_cons]

theorem hasEffect_step (g : Geometry) : HasEffect g .step fun s => s.stepOnce g where
  exec_ready _ hg := exec_step_ready hg
  engine s := (updates_stepOnce (rng := false) s).engine
  record s := by
    rw [stepOnce_eq, ← foldl_stepEffects, foldl_effects_recordCompletion (hasEffect_of_mem_stepEffects g),
      foldl_stepEffects, stepOnce_eq]
    rfl

theorem foldl_replicate_step (g : Geometry) (n : Nat) (s : State) :
    (List.replicate n ((.step : Instr), fun t : State => t.stepOnce g)).foldl (fun t p => p.2 t) s =
      State.runSteps g n s := by
  induction n generalizing s with
  | zero => rfl
  | succ n ih => exact ih (s.stepOnce g)

theorem exec_run_ready {s : State} {g : Geometry} (h : s.engine = some g) :
    exec .run s = .next ((State.runSteps g s.operands.arg0.toNat s).recordCompletion .ok) := runCommandNone_ready h _

/-- Settles O39: RUN's effect is that of its STEPs, none of which reads the completion record of the one before. -/
theorem runRepeatsStep : Obligations.RunRepeatsStep := by
  refine fun s g hg => ⟨fun hzero => ?_, fun hpos => ⟨_, exec_run_ready hg, ?_⟩⟩
  · rw [exec_run_ready hg, hzero]
    rfl
  · have hne : s.operands.arg0.toNat ≠ 0 := fun h => hpos (BitVec.eq_of_toNat_eq h)
    have hall := execAll_ready (ps := List.replicate s.operands.arg0.toNat (.step, fun t => t.stepOnce g))
      (fun p hp => List.eq_of_mem_replicate hp ▸ hasEffect_step g) (by simpa using hne) hg
    rwa [List.map_replicate, foldl_replicate_step] at hall

end Sys2Proof.Machine
end

section
/-! PROOF. INIT: the checks in their order (O22), the records of the channels (O24), and the engine it builds (O23). -/

namespace Sys2Proof.Machine

open Sys2Proof.Claims

/-! ### The structural checks (R220, R321) -/

/-- The test of R220 for GRID_SIZE refuses exactly what is no power of two. -/
theorem gridSize_refused_iff (n : Word) : (n = 0 ∨ n &&& (n - 1) ≠ 0) ↔ ¬ ∃ k, n.toNat = 2 ^ k := by
  by_cases hzero : n = 0
  · subst hzero
    exact iff_of_true (.inl rfl) fun ⟨k, hk⟩ => (Nat.two_pow_pos k).ne hk
  · have hpos : n.toNat ≠ 0 := fun h => hzero (BitVec.eq_of_toNat_eq h)
    have hone : (1 : Word) ≤ n := BitVec.le_def.mpr (Nat.one_le_iff_ne_zero.mpr hpos)
    have hnat : (n &&& (n - 1)).toNat = n.toNat &&& (n.toNat - 1) := by
      rw [BitVec.toNat_and, BitVec.toNat_sub_of_le hone]
      rfl
    rw [or_iff_right hzero, ne_eq, ← BitVec.toNat_inj, hnat]
    exact not_congr (Nat.and_sub_one_eq_zero_iff_isPowerOfTwo hpos)

section checks

variable {inst : Instance} {r : StagedRegs}

theorem initGeometry_gridNotPow2 (hpow : ¬ ∃ k, r.gridSize.toNat = 2 ^ k) :
    initGeometry inst r = .error .gridNotPow2 := if_pos ((gridSize_refused_iff _).mpr hpow)

theorem initGeometry_pow2 (hpow : ∃ k, r.gridSize.toNat = 2 ^ k) :
    initGeometry inst r =
      if r.gridSize.toNat < 2 ∨ 2 ^ inst.log2NMax < r.gridSize.toNat then .error .gridRange
      else if r.channelsCfg ≠ 1 ∧ r.channelsCfg ≠ 3 then .error .badChannelsCfg
      else if r.resCfg.toNat < 2 ∨ inst.resMax < r.resCfg.toNat then .error .badResolution
      else
        .ok { log2NPred := Fin.ofNat 12 (r.gridSize.toNat.log2 - 1)
              channels := if r.channelsCfg = 1 then .one else .three
              resExtra := Fin.ofNat 16777215 (r.resCfg.toNat - 2) } :=
  if_neg fun h => (gridSize_refused_iff _).mp h hpow

/-- A configuration that passes every check latches its own geometry (R47). -/
theorem initGeometry_ok {k : Nat} {g : Geometry} (hk : 1 ≤ k) (hmax : k ≤ inst.log2NMax)
    (hgrid : r.gridSize.toNat = 2 ^ k) (hcfg : r.channelsCfg = 1 ∨ r.channelsCfg = 3) (hres : 2 ≤ r.resCfg.toNat)
    (hresMax : r.resCfg.toNat ≤ inst.resMax) (hlog : g.log2n = k) (hcount : g.chanCount = r.channelsCfg.toNat)
    (hgres : g.res = r.resCfg.toNat) : initGeometry inst r = .ok g := by
  have htwo : 2 ≤ 2 ^ k := Nat.le_self_pow (by omega) 2
  have hnMax : 2 ^ k ≤ 2 ^ inst.log2NMax := Nat.pow_le_pow_right (by decide) hmax
  rw [initGeometry_pow2 ⟨k, hgrid⟩, if_neg (by omega), if_neg (by tauto), if_neg (by omega), hgrid, Nat.log2_two_pow]
  obtain ⟨log2NPred, channels, resExtra⟩ := g
  simp only [Geometry.log2n, Geometry.res, Geometry.chanCount] at hlog hgres hcount
  have hlogFin : Fin.ofNat 12 (k - 1) = log2NPred := Fin.ext (by simp only [Fin.ofNat]; omega)
  have hresFin : Fin.ofNat 16777215 (r.resCfg.toNat - 2) = resExtra := Fin.ext (by simp only [Fin.ofNat]; omega)
  have hchannels : (if r.channelsCfg = 1 then ChanCount.one else .three) = channels := by
    rcases hcfg with hone | hthree
    · rw [hone] at hcount ⊢
      cases channels <;> first | rfl | cases hcount
    · rw [hthree] at hcount ⊢
      cases channels <;> first | rfl | cases hcount
  rw [hlogFin, hresFin, hchannels]

end checks

theorem exec_init_refused {s : State} {e : Err} (h : initGeometry s.inst s.operands = .error e) :
    exec .init s = .next (s.recordCompletion e) := by
  have heffect : s.initEngine = .error e := by rw [State.initEngine, h]
  exact congrArg (finish s) heffect

/-- Settles O22: each check is passed by what the ones before it let through. -/
theorem initChecksInOrder : Obligations.InitChecksInOrder := by
  refine fun s => ⟨fun hpow => exec_init_refused (initGeometry_gridNotPow2 hpow), fun hpow => ?_⟩
  have hgeometry := initGeometry_pow2 (inst := s.inst) hpow
  refine ⟨fun hrange => exec_init_refused (hgeometry.trans (if_pos hrange)), fun htwo hmax => ?_⟩
  rw [if_neg (not_or.mpr ⟨not_lt.mpr htwo, not_lt.mpr hmax⟩)] at hgeometry
  refine ⟨fun hone hthree => exec_init_refused (hgeometry.trans (if_pos ⟨hone, hthree⟩)), fun hcfg hres => ?_⟩
  rw [if_neg (by tauto), if_pos hres] at hgeometry
  exact exec_init_refused hgeometry

/-! ### The records of the channels (R221, R233) -/

/-- Channel 0 subtracts the spread constants from R, MU and SIGMA. -/
theorem run_spread_c0 (inst : Instance) (p : Params) (d : Draws) : ∃ e e',
    ((p.spread inst .c0).run d).1 =
      { p with
        r := ((fsub p.r 0x4000000000000000).run d).1
        mu := ((fsub p.mu inst.spreadDMu).run e).1
        sigma := ((fsub p.sigma inst.spreadDSigma).run e').1 } := by
  simp only [Params.spread, run_bind, run_pure]
  exact ⟨_, _, rfl⟩

/-- Channel 2 adds the spread constants to R, MU and SIGMA. -/
theorem run_spread_c2 (inst : Instance) (p : Params) (d : Draws) : ∃ e e',
    ((p.spread inst .c2).run d).1 =
      { p with
        r := ((fadd p.r 0x4000000000000000).run d).1
        mu := ((fadd p.mu inst.spreadDMu).run e).1
        sigma := ((fadd p.sigma inst.spreadDSigma).run e').1 } := by
  simp only [Params.spread, run_bind, run_pure]
  exact ⟨_, _, rfl⟩

/-- The three records that are derived from `p`, field by field: what `spread` gives from the stream positions `d`. -/
structure SpreadFrom (inst : Instance) (p : Params) (d : Draws) (q : Per3 Params) : Prop where
  c1 : q.c1 = p
  c0_r : q.c0.r = ((fsub p.r 0x4000000000000000).run d).1
  c0_mu : ∃ e, q.c0.mu = ((fsub p.mu inst.spreadDMu).run e).1
  c0_sigma : ∃ e, q.c0.sigma = ((fsub p.sigma inst.spreadDSigma).run e).1
  c2_r : ∃ e, q.c2.r = ((fadd p.r 0x4000000000000000).run e).1
  c2_mu : ∃ e, q.c2.mu = ((fadd p.mu inst.spreadDMu).run e).1
  c2_sigma : ∃ e, q.c2.sigma = ((fadd p.sigma inst.spreadDSigma).run e).1
  copied : ∀ c, (q.get c).dt = p.dt ∧ (q.get c).kmu = p.kmu ∧ (q.get c).ksigma = p.ksigma

theorem spreadFrom_spreadAll (inst : Instance) (p : Params) (d : Draws) :
    SpreadFrom inst p d ((spreadAll inst p).run d).1 := by
  obtain ⟨e, hall⟩ : ∃ e, ((spreadAll inst p).run d).1 =
      ⟨((p.spread inst .c0).run d).1, p, ((p.spread inst .c2).run e).1⟩ := ⟨_, rfl⟩
  obtain ⟨e0, e0', h0⟩ := run_spread_c0 inst p d
  obtain ⟨e2, e2', h2⟩ := run_spread_c2 inst p e
  rw [hall, h0, h2]
  refine ⟨rfl, rfl, ⟨e0, rfl⟩, ⟨e0', rfl⟩, ⟨e, rfl⟩, ⟨e2, rfl⟩, ⟨e2', rfl⟩, fun c => ?_⟩
  cases c <;> exact ⟨rfl, rfl, rfl⟩

/-- Settles O24: the multi-channel records are the spread of the staged one. -/
theorem initParamsSpreadTheStagedRecord : Obligations.InitParamsSpreadTheStagedRecord := by
  intro inst g p stg d
  refine ⟨fun hone => ?_, fun hthree => ?_⟩
  · rw [initParams, hone]
    rfl
  · have heq : initParams inst g p stg = spreadAll inst stg := by rw [initParams, hthree]
    obtain ⟨c1, r0, mu0, sigma0, r2, mu2, sigma2, copied⟩ := spreadFrom_spreadAll inst stg d
    rw [heq]
    exact ⟨c1, r0, mu0, sigma0, r2, mu2, sigma2, copied⟩

/-! ### Bytes of different arrays -/

/-- No byte lies in two arrays. -/
theorem not_inArr_of_inArr {a b : Arr} {m n x : Nat} (h : InArr a m x) (hab : a ≠ b) (hm : m ≤ 2 ^ 25)
    (hn : n ≤ 2 ^ 25) : ¬ InArr b n x := fun hb => by
  unfold InArr at h hb
  exact Arr.disjoint hab (i := x - a.base) (j := x - b.base) (by omega) (by omega) (by omega)

theorem inArr_addr {a : Arr} {n i j : Nat} (hi : i < n) (hj : j < 8) : InArr a n (a.addr i + j) := by
  unfold InArr Arr.addr
  omega

/-- A byte outside an array's region lies outside any elements written there. -/
theorem outside_of_not_inArr {a : Arr} {n x : Nat} (h : ¬ InArr a (2 ^ 24) x) (hn : n ≤ 2 ^ 24) :
    x < a.base ∨ a.base + 8 * n ≤ x := by
  unfold InArr at h
  omega

/-! ### What INIT writes for a channel (R220, R222) -/

/-- The arrays INIT builds for a channel. -/
def channelArrs (c : Chan) : List Arr :=
  [.kernel c, .ktfRe c, .ktfIm c, .gtab c, .field c false, .field c true]

/-- Building a channel writes memory and takes draws; nothing else. -/
theorem initChannel_eq (s : State) (g : Geometry) (c : Chan) :
    s.initChannel g c = { s with mem := (s.initChannel g c).mem, draws := (s.initChannel g c).draws } := by
  simp only [State.initChannel, State.rebuildKernel, State.writeKernel, State.rebuildTable, State.writeArray,
    State.drawing]

/-- Building a channel leaves every byte outside its arrays as it was. -/
theorem readByte_initChannel (s : State) (g : Geometry) (c : Chan) {x : Nat}
    (h : ∀ a ∈ channelArrs c, ¬ InArr a (2 ^ 24) x) : (s.initChannel g c).readByte x = s.readByte x := by
  simp only [channelArrs, List.forall_mem_cons, List.not_mem_nil, false_imp_iff, implies_true, and_true] at h
  obtain ⟨hkernel, hre, him, htable, hfalse, htrue⟩ := h
  have hzeros : (List.replicate g.cells posZero).length ≤ 2 ^ 24 := List.length_replicate.trans_le g.cells_le
  rw [State.initChannel, readByte_writeArray_outside _ _ _ _ (outside_of_not_inArr htrue hzeros),
    readByte_writeArray_outside _ _ _ _ (outside_of_not_inArr hfalse hzeros),
    readByte_rebuildTable _ _ _ _ (outside_of_not_inArr htable g.res_le),
    readByte_rebuildKernel _ _ _ _ ⟨outside_of_not_inArr hkernel g.cells_le, outside_of_not_inArr hre g.cells_le,
      outside_of_not_inArr him g.cells_le⟩]

/-- Both banks of a built channel are empty. -/
theorem readElem_initChannel (s : State) (g : Geometry) (c : Chan) (bank : Bool) {i : Nat} (hi : i < g.cells) :
    (s.initChannel g c).readElem (.field c bank) i = posZero := by
  have hcells := g.cells_le
  have hzero : ∀ t : State, (t.writeArray (.field c bank) (List.replicate g.cells posZero)).readElem (.field c bank) i =
      posZero := fun t => by
    rw [readElem_writeArray_same _ _ _ _ (List.length_replicate.symm ▸ hi), List.getElem_replicate]
  rw [State.initChannel]
  cases bank with
  | true => exact hzero _
  | false =>
    rw [readElem_writeArray_other _ (by simp) _ _ (List.length_replicate.trans_le hcells) (by omega)]
    exact hzero _

/-! ### Channel after channel -/

theorem foldl_initChannel_eq (g : Geometry) (cs : List Chan) (s : State) :
    ∃ mem draws, cs.foldl (fun t c => t.initChannel g c) s = { s with mem := mem, draws := draws } := by
  induction cs generalizing s with
  | nil => exact ⟨s.mem, s.draws, rfl⟩
  | cons c cs ih =>
    obtain ⟨mem, draws, h⟩ := ih (s.initChannel g c)
    exact ⟨mem, draws, by rw [List.foldl_cons, h, initChannel_eq]⟩

theorem readByte_foldl_initChannel (g : Geometry) (cs : List Chan) (s : State) {x : Nat}
    (h : ∀ c ∈ cs, ∀ a ∈ channelArrs c, ¬ InArr a (2 ^ 24) x) :
    (cs.foldl (fun t c => t.initChannel g c) s).readByte x = s.readByte x := by
  induction cs generalizing s with
  | nil => rfl
  | cons c cs ih =>
    obtain ⟨hc, hcs⟩ := List.forall_mem_cons.mp h
    rw [List.foldl_cons, ih _ hcs, readByte_initChannel s g c hc]

theorem field_not_mem_channelArrs {b c : Chan} (h : b ≠ c) (bank : Bool) : Arr.field b bank ∉ channelArrs c := by
  simp [channelArrs, h]

/-- After the channels of a list are built, both banks of each of them are empty: the last building of a channel empties
them, and those of other channels keep them. -/
theorem readElem_foldl_initChannel {g : Geometry} {cs : List Chan} {b : Chan} (hb : b ∈ cs) (s : State) (bank : Bool)
    {i : Nat} (hi : i < g.cells) :
    (cs.foldl (fun t c => t.initChannel g c) s).readElem (.field b bank) i = posZero := by
  have hcells := g.cells_le
  induction cs generalizing s with
  | nil => cases hb
  | cons c cs ih =>
    rw [List.foldl_cons]
    by_cases hmem : b ∈ cs
    · exact ih hmem _
    · obtain rfl := (List.mem_cons.mp hb).resolve_right hmem
      refine (readElem_of_bytes fun j hj => readByte_foldl_initChannel g cs _ fun c hc a ha => ?_).trans
        (readElem_initChannel s g b bank hi)
      have hne : Arr.field b bank ≠ a := fun heq =>
        field_not_mem_channelArrs (ne_of_mem_of_not_mem hc hmem).symm bank (heq ▸ ha)
      exact not_inArr_of_inArr (inArr_addr hi hj) hne (by omega) (by omega)

/-! ### The bytes INIT keeps -/

/-- PATTERN survives the dropping of the arrays INIT sizes (R95). -/
theorem readByte_forgetSized_pattern (s : State) {x : Nat} (h : InArr .pattern (2 ^ 25) x) :
    s.forgetSized.readByte x = s.readByte x := by
  have hregion : x / 2 ^ 28 = 0x15 := by
    simp only [InArr, Arr.base, Arr.region] at h
    omega
  have hmem : Memory.read s.forgetSized.mem x = Memory.read s.mem x := by
    refine Memory.read_filter_keep _ x (fun _ => ?_) s.mem
    rw [InArr] at h
    simp only [Bool.and_eq_true, decide_eq_true_eq]
    omega
  have hat : ∀ e : Epochs, e.at x = e.power := fun e => by
    simp only [Epochs.at, hregion]
    rfl
  rw [State.readByte, hmem, forgetSized_epochs, hat, State.readByte, hat]

theorem readByte_writeTables (s : State) (g : Geometry) {x : Nat}
    (h : ∀ a ∈ [Arr.twCos, .twSin, .bitrev], ¬ InArr a (2 ^ 24) x) : (s.writeTables g).readByte x = s.readByte x := by
  simp only [List.forall_mem_cons, List.not_mem_nil, false_imp_iff, implies_true, and_true] at h
  obtain ⟨hcos, hsin, hrev⟩ := h
  have hn := g.n_le
  have hlenCos : (cosTable g.log2n).length = g.n / 2 := by simp [cosTable, Geometry.n]
  have hlenSin : (sinTable g.log2n).length = g.n / 2 := by simp [sinTable, Geometry.n]
  have hlenRev : (bitrevTable g.log2n).length = g.n := by simp [bitrevTable, Geometry.n]
  rw [State.writeTables, readByte_writeArray_outside _ _ _ _ (outside_of_not_inArr hrev (by omega)),
    readByte_writeArray_outside _ _ _ _ (outside_of_not_inArr hsin (by omega)),
    readByte_writeArray_outside _ _ _ _ (outside_of_not_inArr hcos (by omega))]

theorem readByte_commitInit_pattern (s : State) (g : Geometry) (newP : Per3 Params) {x : Nat}
    (h : InArr .pattern (2 ^ 25) x) : (s.commitInit g newP).readByte x = s.readByte x := by
  have hout : ∀ a, a ≠ .pattern → ¬ InArr a (2 ^ 24) x := fun a ha =>
    not_inArr_of_inArr h ha.symm (by decide) (by decide)
  calc (s.commitInit g newP).readByte x
      = (s.initStart g newP).readByte x :=
        readByte_foldl_initChannel g g.chans _ fun c _ a ha => hout a (by rintro rfl; simp [channelArrs] at ha)
    _ = s.forgetSized.readByte x :=
        readByte_writeTables _ g fun a ha => hout a (by rintro rfl; simp at ha)
    _ = s.readByte x := readByte_forgetSized_pattern s h

/-! ### The engine INIT builds (R220) -/

/-- The commit of INIT writes the geometry, COM, P, BANK, the statistics and memory; nothing else. -/
theorem commitInit_eq (s : State) (g : Geometry) (newP : Per3 Params) :
    ∃ mem draws epochs, s.commitInit g newP =
      { s with
        engine := some g, com := s.operands.stg, p := newP, bank := .const false, stats := .zero
        mem := mem, draws := draws, epochs := epochs } := by
  obtain ⟨mem, draws, h⟩ := foldl_initChannel_eq g g.chans (s.initStart g newP)
  exact ⟨mem, draws, _, h⟩

theorem ran_commitInit (s : State) (g : Geometry) (newP : Per3 Params) :
    Ran s { s with engine := some g, com := s.operands.stg, p := newP, bank := .const false, stats := .zero }
      ((s.commitInit g newP).recordCompletion .ok) := by
  obtain ⟨mem, draws, epochs, h⟩ := commitInit_eq s g newP
  rw [h]
  exact ran_recordCompletion ⟨rfl, rfl, rfl, rfl, rfl, rfl, rfl, rfl, rfl⟩ ⟨rfl, rfl, rfl, rfl, rfl, rfl⟩ rfl rfl rfl

/-- A checked geometry whose kernels have mass is committed, after the draws of the checks. -/
theorem initEngine_valid {s : State} {g : Geometry} (hg : initGeometry s.inst s.operands = .ok g)
    (h : ((kernelsOk g.n (g.chans.map ((initParams s.inst g s.p s.operands.stg).run s.draws).1.get)).run
      ((initParams s.inst g s.p s.operands.stg).run s.draws).2).1 = true) :
    ∃ d, s.initEngine =
      .ok (State.commitInit { s with draws := d } g ((initParams s.inst g s.p s.operands.stg).run s.draws).1) := by
  rw [State.initEngine, hg]
  exact ⟨_, if_pos h⟩

/-- Settles O23: the geometry is the configuration's own, and the commit builds every active channel. -/
theorem initBuildsTheEngine : Obligations.InitBuildsTheEngine := by
  intro s k g hk hmax hgrid hcfg hres hresMax hlog hcount hgres hok
  have hgeometry := initGeometry_ok hk hmax hgrid hcfg hres hresMax hlog hcount hgres
  obtain ⟨d, heffect⟩ := initEngine_valid hgeometry hok
  refine ⟨_, congrArg (finish s) heffect, ran_commitInit { s with draws := d } g _, fun c b i hc hi => ?_,
    cachesValid_recordCompletion .ok (cachesValid_commitInit _ g _), fun x hx => ?_⟩
  · rw [readElem_recordCompletion]
    exact readElem_foldl_initChannel (mem_chans_of_active hc) _ b hi
  · exact readByte_commitInit_pattern { s with draws := d } g _ hx

end Sys2Proof.Machine
end

section
/-! PROOF. Parameter changes (R224 to R233): what the atomic change leaves, for SETP (O25), SETP_SPREAD (O27) and IMPORT
(O28). -/

namespace Sys2Proof.Machine

open Sys2Proof.Claims

/-! ### Masks, merges and changed fields (R115, R224, R225) -/

/-- The mask is bits 10 to 15 of the word (R115). -/
theorem getLsbD_of_maskOfFlags {w : Word} {m : ParamMask} (h : maskOfFlags (flagsOf w) = m) :
    w.getLsbD 10 = m.r ∧ w.getLsbD 11 = m.mu ∧ w.getLsbD 12 = m.sigma ∧ w.getLsbD 13 = m.dt ∧ w.getLsbD 14 = m.kmu ∧
      w.getLsbD 15 = m.ksigma := by
  subst h
  simp [maskOfFlags, flagsOf]

theorem maskOfFlags_encode (m : ParamMask) {i : Instr} (h : i.flagBits = m.bits) :
    maskOfFlags (flagsOf (encode i)) = m := by
  obtain ⟨-, hflags, -, -⟩ := Laws.encode_fields i
  rw [hflags, h, maskOfFlags_bits]

theorem Params.kernelDiffers_iff (p q : Params) :
    p.kernelDiffers q = true ↔ p.r ≠ q.r ∨ p.kmu ≠ q.kmu ∨ p.ksigma ≠ q.ksigma := by
  simp [Params.kernelDiffers, or_assoc]

theorem Params.tableDiffers_iff (p q : Params) : p.tableDiffers q = true ↔ p.mu ≠ q.mu ∨ p.sigma ≠ q.sigma := by
  simp [Params.tableDiffers]

/-! ### The selective rebuild (R226) -/

/-- Byte `x` lies in an array that the change of the records from `s` to `t` rebuilds, or in the scratch arrays where a
kernel is rebuilt (R226, R242). -/
def RebuiltAt (g : Geometry) (s t : State) (x : Nat) : Prop :=
  ∃ c, ((s.p.get c).kernelDiffers (t.p.get c) = true ∧ (InKernel g c x ∨ InScratch x)) ∨
    ((s.p.get c).tableDiffers (t.p.get c) = true ∧ InArr (.gtab c) g.res x)

/-- From `s` to `t` the kernels and tables of the changed records were rebuilt, and no byte written but those of
`RebuiltAt`. -/
structure SelectivelyRebuilt (g : Geometry) (s t : State) : Prop where
  kernel : ∀ c, (s.p.get c).kernelDiffers (t.p.get c) = true → KernelBuilt t g c
  table : ∀ c, (s.p.get c).tableDiffers (t.p.get c) = true → TableBuilt t g c
  bytes : BytesKeptOutside s t (RebuiltAt g s t)

theorem selectivelyRebuilt_refl (g : Geometry) (s : State) : SelectivelyRebuilt g s s where
  kernel c h := by rw [Params.kernelDiffers_self] at h; cases h
  table c h := by rw [Params.tableDiffers_self] at h; cases h
  bytes _ _ := rfl

/-- The registers that are no parameters have no part in a rebuild. -/
theorem SelectivelyRebuilt.of_start {g : Geometry} {s s' t : State} (h : SelectivelyRebuilt g s' t) (hp : s'.p = s.p)
    (hmem : s'.mem = s.mem) (hepochs : s'.epochs = s.epochs) : SelectivelyRebuilt g s t where
  kernel c hc := h.kernel c (hp ▸ hc)
  table c hc := h.table c (hp ▸ hc)
  bytes x hx := (h.bytes x (by rwa [RebuiltAt, hp])).trans (readByte_congr hmem hepochs x)

theorem Updates.kernelBuilt {rng : Bool} {g : Geometry} {s t : State} (h : Updates rng g s t) {c : Chan}
    (hs : KernelBuilt s g c) : KernelBuilt t g c :=
  h.keeps (P := fun u => KernelBuilt u g c) (fun _ _ hu => hu.kernelBuilt) hs

theorem Updates.tableBuilt {rng : Bool} {g : Geometry} {s t : State} (h : Updates rng g s t) {c : Chan}
    (hs : TableBuilt s g c) : TableBuilt t g c :=
  h.keeps (P := fun u => TableBuilt u g c) (fun _ _ hu => hu.tableBuilt) hs

/-- Two changes, of which no record is changed by both. -/
theorem SelectivelyRebuilt.trans {g : Geometry} {s t u : State} (hst : SelectivelyRebuilt g s t)
    (htu : SelectivelyRebuilt g t u) (hupdates : Updates false g t u)
    (hone : ∀ c, t.p.get c = s.p.get c ∨ u.p.get c = t.p.get c) : SelectivelyRebuilt g s u where
  kernel c h := by
    rcases hone c with hs | hu
    · exact htu.kernel c (hs ▸ h)
    · exact hupdates.kernelBuilt (hst.kernel c (hu ▸ h))
  table c h := by
    rcases hone c with hs | hu
    · exact htu.table c (hs ▸ h)
    · exact hupdates.tableBuilt (hst.table c (hu ▸ h))
  bytes x hx := by
    refine (htu.bytes x fun ⟨c, hc⟩ => hx ⟨c, ?_⟩).trans (hst.bytes x fun ⟨c, hc⟩ => hx ⟨c, ?_⟩)
    · rcases hone c with hs | hu
      · rwa [← hs]
      · rw [hu, Params.kernelDiffers_self, Params.tableDiffers_self] at hc
        simp at hc
    · rcases hone c with hs | hu
      · rw [hs, Params.kernelDiffers_self, Params.tableDiffers_self] at hc
        simp at hc
      · rwa [hu]

theorem replaceParams_p (s : State) (g : Geometry) (c : Chan) (new : Params) :
    (s.replaceParams g c new).p = s.p.set c new := by rw [replaceParams_eq]

/-- Replacing a record rebuilds what its changed bits ask for. -/
theorem selectivelyRebuilt_replaceParams (s : State) (g : Geometry) (c : Chan) (new : Params) :
    SelectivelyRebuilt g s (s.replaceParams g c new) where
  kernel b h := by
    rw [replaceParams_p] at h
    by_cases hbc : b = c
    · subst hbc
      rw [Per3.get_set_same] at h
      have hbuilt : KernelBuilt (State.rebuildKernel { s with p := s.p.set b new } g b) g b :=
        kernelBuilt_rebuildKernel fun hne => absurd rfl hne
      rw [replaceParams_eq_if, if_pos h]
      split
      · exact kernelBuilt_rebuildTable b hbuilt
      · exact hbuilt
    · rw [Per3.get_set_other _ hbc, Params.kernelDiffers_self] at h
      cases h
  table b h := by
    rw [replaceParams_p] at h
    by_cases hbc : b = c
    · subst hbc
      rw [Per3.get_set_same] at h
      rw [replaceParams_eq_if, if_pos h]
      exact tableBuilt_rebuildTable_same _ g b
    · rw [Per3.get_set_other _ hbc, Params.tableDiffers_self] at h
      cases h
  bytes x hx := by
    have hget : (s.replaceParams g c new).p.get c = new := by rw [replaceParams_p, Per3.get_set_same]
    refine readByte_replaceParams s g c new x (fun hk => ?_) fun ht => ?_
    · exact (outsideKernel_iff g c x).mpr fun hin => hx ⟨c, .inl ⟨by rwa [hget], .inl hin⟩⟩
    · have hout : ¬ InArr (.gtab c) g.res x := fun hin => hx ⟨c, .inr ⟨by rwa [hget], hin⟩⟩
      unfold InArr at hout
      omega

/-! ### Record after record -/

section records

variable (g : Geometry) (newP : Per3 Params)

theorem foldl_replaceParams_eq (cs : List Chan) (s : State) :
    ∃ p mem draws, cs.foldl (fun t c => t.replaceParams g c (newP.get c)) s =
      { s with p := p, mem := mem, draws := draws } := by
  induction cs generalizing s with
  | nil => exact ⟨s.p, s.mem, s.draws, rfl⟩
  | cons c cs ih =>
    obtain ⟨p, mem, draws, h⟩ := ih (s.replaceParams g c (newP.get c))
    exact ⟨p, mem, draws, by rw [List.foldl_cons, h, replaceParams_eq]⟩

theorem foldl_replaceParams_get (cs : List Chan) (s : State) (b : Chan) :
    (cs.foldl (fun t c => t.replaceParams g c (newP.get c)) s).p.get b =
      if b ∈ cs then newP.get b else s.p.get b := by
  induction cs generalizing s with
  | nil => rfl
  | cons c cs ih =>
    rw [List.foldl_cons, ih, replaceParams_p]
    by_cases hbc : b = c
    · subst hbc
      rw [Per3.get_set_same, if_pos List.mem_cons_self, ite_self]
    · simp only [List.mem_cons, hbc, false_or, Per3.get_set_other _ hbc]

theorem selectivelyRebuilt_foldl_replaceParams (cs : List Chan) (s : State) :
    SelectivelyRebuilt g s (cs.foldl (fun t c => t.replaceParams g c (newP.get c)) s) := by
  induction cs generalizing s with
  | nil => exact selectivelyRebuilt_refl g s
  | cons c cs ih =>
    refine (selectivelyRebuilt_replaceParams s g c (newP.get c)).trans (ih _)
      (updates_foldl (fun t c _ => .single (.replaceParams t c _)) _) fun b => ?_
    by_cases hbc : b = c
    · subst hbc
      exact .inr (by rw [foldl_replaceParams_get, if_pos List.mem_cons_self, replaceParams_p, Per3.get_set_same])
    · exact .inl (by rw [replaceParams_p, Per3.get_set_other _ hbc])

end records

/-! ### The atomic change (R227) -/

/-- What a parameter change leaves where every changed kernel has mass: COM and the records of its channels replaced,
with the selective rebuild, and nothing else written. -/
structure ParamsCommitted (g : Geometry) (cs : List Chan) (newCom : Params) (newP : Per3 Params) (s t : State) :
    Prop where
  frame : ∃ mem draws epochs,
    t = { s with com := newCom, p := t.p, mem := mem, draws := draws, epochs := epochs }
  get : ∀ c, t.p.get c = if c ∈ cs then newP.get c else s.p.get c
  rebuilt : SelectivelyRebuilt g s t

/-- Forgetting the scratch arrays is part of the rebuild of a kernel (R242). -/
theorem SelectivelyRebuilt.forgetScratch {g : Geometry} {s t : State} (h : SelectivelyRebuilt g s t) {c : Chan}
    (hc : (s.p.get c).kernelDiffers (t.p.get c) = true) : SelectivelyRebuilt g s t.forgetScratch where
  kernel b hb := (Update.forgetScratch (rng := false) t).kernelBuilt (h.kernel b hb)
  table b hb := (Update.forgetScratch (rng := false) t).tableBuilt (h.table b hb)
  bytes x hx := by
    have hout : ¬ InScratch x := fun hin => hx ⟨c, .inl ⟨hc, .inr hin⟩⟩
    exact (readByte_forgetScratch t x (outside_of_not_inScratch hout)).trans (h.bytes x hx)

/-- Records replaced one after another, and the scratch arrays forgotten where a kernel changed. -/
theorem paramsCommitted_foldl (g : Geometry) (cs : List Chan) (newCom : Params) (newP : Per3 Params) (s : State)
    (draws : Draws) {t : State}
    (ht : t = cs.foldl (fun t c => t.replaceParams g c (newP.get c)) { s with draws := draws, com := newCom }) :
    ParamsCommitted g cs newCom newP s
      (if (cs.filter fun c => (s.p.get c).kernelDiffers (newP.get c)).isEmpty then t else t.forgetScratch) := by
  obtain ⟨p, mem, draws', hframe⟩ := foldl_replaceParams_eq g newP cs { s with draws := draws, com := newCom }
  have hget := foldl_replaceParams_get g newP cs { s with draws := draws, com := newCom }
  have hrebuilt : SelectivelyRebuilt g s t :=
    ht ▸ (selectivelyRebuilt_foldl_replaceParams g newP cs
      { s with draws := draws, com := newCom }).of_start rfl rfl rfl
  rw [← ht] at hframe hget
  split
  next => exact ⟨⟨mem, draws', s.epochs, by rw [hframe]⟩, hget, hrebuilt⟩
  next hchanged =>
    obtain ⟨c, hc⟩ := List.exists_mem_of_ne_nil _ (mt List.isEmpty_iff.mpr hchanged)
    obtain ⟨hmem, hdiffers⟩ := List.mem_filter.mp hc
    refine ⟨⟨t.forgetScratch.mem, draws', t.forgetScratch.epochs, by rw [hframe]; rfl⟩, hget,
      hrebuilt.forgetScratch (c := c) ?_⟩
    rwa [hget, if_pos hmem]

/-- A parameter change whose changed kernels have mass, with the new records given channel by channel. -/
theorem commitParams_valid {s : State} {g : Geometry} {cs : List Chan} (newCom : Params) {newP : Per3 Params}
    {new : Chan → Params} (hnew : ∀ c ∈ cs, newP.get c = new c)
    (h : ((kernelsOk g.n ((cs.filter fun c => (s.p.get c).kernelDiffers (new c)).map new)).run s.draws).1 = true) :
    ∃ t, s.commitParams g cs newCom newP = .ok t ∧ ParamsCommitted g cs newCom newP s t := by
  have hfilter : (cs.filter fun c => (s.p.get c).kernelDiffers (newP.get c)) =
      cs.filter fun c => (s.p.get c).kernelDiffers (new c) := List.filter_congr fun c hc => by rw [hnew c hc]
  have hchanged : (cs.filter fun c => (s.p.get c).kernelDiffers (newP.get c)).map newP.get =
      (cs.filter fun c => (s.p.get c).kernelDiffers (new c)).map new := by
    rw [hfilter]
    exact List.map_congr_left fun c hc => hnew c (List.mem_of_mem_filter hc)
  rcases commitParams_cases s g cs newCom newP with ⟨hfail, -⟩ | ⟨-, t, ht, hcommit⟩
  · rw [hchanged, h] at hfail
    cases hfail
  · exact ⟨_, hcommit, paramsCommitted_foldl g cs newCom newP s _ ht⟩

section committed

variable {g : Geometry} {cs : List Chan} {newCom : Params} {newP : Per3 Params} {s t : State}

theorem ParamsCommitted.ran (h : ParamsCommitted g cs newCom newP s t) :
    Ran s { s with com := newCom, p := t.p } (t.recordCompletion .ok) := by
  obtain ⟨mem, draws, epochs, hframe⟩ := h.frame
  rw [hframe]
  exact ran_recordCompletion ⟨rfl, rfl, rfl, rfl, rfl, rfl, rfl, rfl, rfl⟩ ⟨rfl, rfl, rfl, rfl, rfl, rfl⟩ rfl rfl rfl

/-- What is rebuilt belongs to a channel of the change: the other records are kept. -/
theorem ParamsCommitted.rebuiltAt (h : ParamsCommitted g cs newCom newP s t) {x : Nat} (hx : RebuiltAt g s t x) :
    ∃ c ∈ cs, ((s.p.get c).kernelDiffers (t.p.get c) = true ∧ (InKernel g c x ∨ InScratch x)) ∨
      ((s.p.get c).tableDiffers (t.p.get c) = true ∧ InArr (.gtab c) g.res x) := by
  obtain ⟨c, hc⟩ := hx
  refine ⟨c, ?_, hc⟩
  by_contra hmem
  rw [h.get, if_neg hmem, Params.kernelDiffers_self, Params.tableDiffers_self] at hc
  simp at hc

end committed

theorem SelectivelyRebuilt.recordCompletion {g : Geometry} {s t : State} (h : SelectivelyRebuilt g s t) :
    SelectivelyRebuilt g s (t.recordCompletion .ok) where
  kernel c hc := (cachesKept_of_mem rfl rfl rfl).kernelBuilt (h.kernel c hc)
  table c hc := tableBuilt_recordCompletion (h.table c hc)
  bytes x hx := h.bytes x hx

/-! ### SETP (R228, R229) -/

/-- Settles O25: SETP is the atomic change to the merged records, with COM as it is. -/
theorem setpMergesAndRebuildsSelectively : Obligations.SetpMergesAndRebuildsSelectively := by
  refine ⟨fun sel m w hw => getLsbD_of_maskOfFlags ?_, fun _ _ _ => rfl,
    fun p q => ⟨p.kernelDiffers_iff q, p.tableDiffers_iff q⟩, fun s g sel cs m hg hcs hok => ?_⟩
  · rcases hw with rfl | rfl <;> exact maskOfFlags_encode m rfl
  · obtain ⟨t, hcommit, hcommitted⟩ := commitParams_valid s.com (fun c _ => get_merge s.p s.operands.stg m c) hok
    have heffect : s.setParams g cs m = .ok t := hcommit
    obtain ⟨kernel, table, bytes⟩ := hcommitted.rebuilt.recordCompletion
    refine ⟨t.recordCompletion .ok, ?_, hcommitted.ran, fun c => ?_, fun c _ => kernel c, fun c _ => table c,
      fun x hx => bytes x ?_⟩
    · exact (runCommandMany_ready hg hcs _).trans (congrArg (finish s) heffect)
    · rw [recordCompletion_p, hcommitted.get, get_merge]
    · intro hrebuilt
      obtain ⟨c, hc, hkernel | htable⟩ := hcommitted.rebuiltAt hrebuilt
      · exact hx (.inl ⟨c, hc, hkernel⟩)
      · exact hx (.inr ⟨c, hc, htable⟩)

/-! ### SETP_SPREAD (R231 to R233) -/

theorem Per3.ext_get {α : Type} {a b : Per3 α} (h : ∀ c, a.get c = b.get c) : a = b := by
  obtain ⟨a0, a1, a2⟩ := a
  obtain ⟨b0, b1, b2⟩ := b
  have h0 : a0 = b0 := h .c0
  have h1 : a1 = b1 := h .c1
  have h2 : a2 = b2 := h .c2
  rw [h0, h1, h2]

theorem mem_chans_of_three {g : Geometry} (h : g.channels = .three) (c : Chan) : c ∈ g.chans := by
  rw [Geometry.chans, h]
  cases c <;> decide

theorem exec_setpSpread_ready {s : State} {g : Geometry} (h : s.engine = some g) (m : ParamMask) :
    exec (.setpSpread m) s = finish s (s.setCommonParams g m) := runCommandNone_ready h _

/-- Settles O27: SETP_SPREAD is the atomic change of every channel to the spread of the merged COM, from the state after
the draws of the spread. -/
theorem setpSpreadDerivesEveryChannel : Obligations.SetpSpreadDerivesEveryChannel := by
  refine ⟨fun inst p d q hq => ?_, fun s g m hg => ⟨fun hone => ?_, fun hthree hok => ?_⟩⟩
  · subst hq
    obtain ⟨c1, r0, mu0, sigma0, r2, mu2, sigma2, copied⟩ := spreadFrom_spreadAll inst p d
    exact ⟨c1, ⟨d, r0⟩, mu0, sigma0, r2, mu2, sigma2, copied⟩
  · have heffect : s.setCommonParams g m = .error .badChannel := by rw [State.setCommonParams, hone]
    rw [exec_setpSpread_ready hg, heffect, finish_error]
  · obtain ⟨t, hcommit, hcommitted⟩ := commitParams_valid
      (s := (s.drawing (spreadAll s.inst (s.com.merge s.operands.stg m))).2) (s.com.merge s.operands.stg m)
      (fun _ _ => rfl) hok
    have heffect : s.setCommonParams g m = .ok t := by
      rw [State.setCommonParams, hthree]
      exact hcommit
    have hp : t.p = ((spreadAll s.inst (s.com.merge s.operands.stg m)).run s.draws).1 :=
      Per3.ext_get fun c => by rw [hcommitted.get, if_pos (mem_chans_of_three hthree c)]
    obtain ⟨kernel, table, bytes⟩ := hcommitted.rebuilt.recordCompletion
    refine ⟨t.recordCompletion .ok, ?_, hp ▸ hcommitted.ran, kernel, table, bytes⟩
    rw [exec_setpSpread_ready hg, heffect, finish_ok]

/-! ### IMPORT (R310, R311) -/

/-- Copying a staged field writes the active bank; nothing else. -/
theorem foldl_importField_eq (g : Geometry) (cs : List Chan) (s : State) :
    ∃ mem, cs.foldl (fun u c => u.importField g c) s = { s with mem := mem } := by
  induction cs generalizing s with
  | nil => exact ⟨s.mem, rfl⟩
  | cons c cs ih =>
    obtain ⟨mem, h⟩ := ih (s.importField g c)
    exact ⟨mem, h⟩

theorem bytesKept_importField (s : State) (g : Geometry) (c : Chan) :
    BytesKeptOutside s (s.importField g c) (InArr (s.activeField c) g.cells) := fun x hx => by
  refine readByte_writeArray_outside _ _ _ _ ?_
  rw [readArray_length]
  unfold InArr at hx
  omega

theorem bytesKept_foldl_importField (g : Geometry) (cs : List Chan) (s : State) :
    BytesKeptOutside s (cs.foldl (fun u c => u.importField g c) s)
      (fun x => ∃ c ∈ cs, InArr (s.activeField c) g.cells x) := by
  induction cs generalizing s with
  | nil => exact fun _ _ => rfl
  | cons c cs ih =>
    intro x hx
    have hfirst := bytesKept_importField s g c x fun hin => hx ⟨c, List.mem_cons_self, hin⟩
    refine (ih (s.importField g c) x ?_).trans hfirst
    rintro ⟨b, hb, hin⟩
    exact hx ⟨b, List.mem_cons_of_mem c hb, hin⟩

theorem readElem_importField (s : State) (g : Geometry) (c : Chan) {i : Nat} (hi : i < g.cells) :
    (s.importField g c).readElem (s.activeField c) i = s.readElem (.stage c) i := by
  rw [State.importField, readElem_writeArray_same _ _ _ _ ((readArray_length s _ _).symm ▸ hi), readArray_getElem]

/-- The fields of a list of channels are copied: the last copy of a channel gives it its staged field, and no copy
writes a staged field or the field of another channel. -/
theorem readElem_foldl_importField {g : Geometry} {cs : List Chan} {b : Chan} (hb : b ∈ cs) (s : State) {i : Nat}
    (hi : i < g.cells) :
    (cs.foldl (fun u c => u.importField g c) s).readElem (s.activeField b) i = s.readElem (.stage b) i := by
  have hcells := g.cells_le
  induction cs generalizing s with
  | nil => cases hb
  | cons c cs ih =>
    rw [List.foldl_cons]
    by_cases hmem : b ∈ cs
    · refine (ih hmem (s.importField g c)).trans ?_
      exact readElem_writeArray_other _ (Arr.noConfusion) _ _ ((readArray_length s _ _).trans_le hcells) (by omega)
    · obtain rfl := (List.mem_cons.mp hb).resolve_right hmem
      refine (readElem_of_bytes fun j hj => bytesKept_foldl_importField g cs (s.importField g b) _ ?_).trans
        (readElem_importField s g b hi)
      rintro ⟨c, hc, hin⟩
      refine not_inArr_of_inArr (inArr_addr hi hj) (fun heq => ?_) (by omega) (by omega) hin
      cases heq
      exact hmem hc

/-- No parameter change writes an IMPORT_STAGE array. -/
theorem not_rebuiltAt_stage {g : Geometry} {s t : State} {c : Chan} {x : Nat} (h : InArr (.stage c) g.cells x) :
    ¬ RebuiltAt g s t x := by
  have hcells := g.cells_le
  have hres := g.res_le
  have hout : ∀ {a : Arr} {n : Nat}, Arr.stage c ≠ a → n ≤ 2 ^ 25 → ¬ InArr a n x := fun hne hn =>
    not_inArr_of_inArr h hne (by omega) hn
  rintro ⟨b, ⟨-, (hin | hin | hin) | (hin | hin)⟩ | ⟨-, hin⟩⟩
  all_goals exact hout Arr.noConfusion (by omega) hin

/-- What IMPORT does after its parameter change: every active field is copied (R311). -/
def State.importFields (s : State) (g : Geometry) : State := g.chans.foldl (fun u c => u.importField g c) s

theorem importFields_eq (s : State) (g : Geometry) : ∃ mem, s.importFields g = { s with mem := mem } :=
  foldl_importField_eq g g.chans s

@[simp] theorem importFields_p (s : State) (g : Geometry) : (s.importFields g).p = s.p := by
  obtain ⟨mem, h⟩ := importFields_eq s g
  rw [h]

theorem updates_importFields {rng : Bool} (s : State) (g : Geometry) : Updates rng g s (s.importFields g) :=
  updates_foldl (fun t _ _ => .single (.writeArray t _ _ rfl (readArray_length _ _ _))) s

theorem exec_importCfg_ready {s : State} {g : Geometry} (h : s.engine = some g) :
    exec .importCfg s = finish s (s.importConfig g) := runCommandNone_ready h _

theorem importConfig_ok {s t : State} {g : Geometry} (hsize : s.operands.importSize.toNat = g.n)
    (h : s.commitParams g g.chans s.operands.impCom (importParams g s.p s.operands.impP) = .ok t) :
    s.importConfig g = .ok (t.importFields g) := by
  rw [State.importConfig, argNat, if_neg (not_not_intro hsize), h]
  rfl

section imported

variable {g : Geometry} {newCom : Params} {newP : Per3 Params} {s t : State}
  (h : ParamsCommitted g g.chans newCom newP s t)
include h

theorem ParamsCommitted.activeField (c : Chan) : t.activeField c = s.activeField c := by
  obtain ⟨mem, draws, epochs, hframe⟩ := h.frame
  rw [hframe]
  rfl

/-- The staged fields are those of the state before the parameter change. -/
theorem ParamsCommitted.readElem_importFields {c : Chan} {i : Nat} (hc : g.active c = true) (hi : i < g.cells) :
    (t.importFields g).readElem (s.activeField c) i = s.readElem (.stage c) i := by
  rw [← h.activeField, State.importFields, readElem_foldl_importField (mem_chans_of_active hc) t hi]
  exact readElem_of_bytes fun j hj => h.rebuilt.bytes _ (not_rebuiltAt_stage (inArr_addr hi hj))

theorem ParamsCommitted.bytesKept_importFields :
    BytesKeptOutside s (t.importFields g) (fun x => ∃ c, g.active c = true ∧ (InArr (s.activeField c) g.cells x ∨
      ((s.p.get c).kernelDiffers (t.p.get c) = true ∧ (InKernel g c x ∨ InScratch x)) ∨
      ((s.p.get c).tableDiffers (t.p.get c) = true ∧ InArr (.gtab c) g.res x))) := fun x hx => by
  refine (bytesKept_foldl_importField g g.chans t x ?_).trans (h.rebuilt.bytes x fun hrebuilt => ?_)
  · rintro ⟨c, hc, hin⟩
    exact hx ⟨c, active_of_mem_chans hc, .inl (h.activeField c ▸ hin)⟩
  · obtain ⟨c, hc, hin⟩ := h.rebuiltAt hrebuilt
    exact hx ⟨c, active_of_mem_chans hc, .inr hin⟩

theorem ParamsCommitted.ran_importFields :
    Ran s { s with com := newCom, p := t.p } ((t.importFields g).recordCompletion .ok) := by
  obtain ⟨mem, hfields⟩ := importFields_eq t g
  rw [hfields]
  exact h.ran

end imported

/-- Settles O28: the atomic change to the staged records, then the copies of the staged fields, which are data. -/
theorem importTakesTheStagedConfig : Obligations.ImportTakesTheStagedConfig := by
  intro s g hg
  refine ⟨fun hsize => ?_, fun hsize hok => ?_⟩
  · have heffect : s.importConfig g = .error .sizeMismatch := if_pos hsize
    rw [exec_importCfg_ready hg, heffect, finish_error]
  obtain ⟨t, hcommit, hcommitted⟩ :=
    commitParams_valid s.operands.impCom (fun c => importParams_get g s.p s.operands.impP) hok
  have hp : ((t.importFields g).recordCompletion .ok).p = t.p := importFields_p t g
  refine ⟨(t.importFields g).recordCompletion .ok, ?_, hp.symm ▸ hcommitted.ran_importFields, fun c => ?_,
    fun c i hc hi => ?_, fun c hc => ?_, fun c hc => ?_, hp.symm ▸ hcommitted.bytesKept_importFields⟩
  · rw [exec_importCfg_ready hg, importConfig_ok hsize hcommit, finish_ok]
  · rw [hp, hcommitted.get]
    by_cases hc : g.active c = true
    · rw [if_pos (mem_chans_of_active hc), if_pos hc, importParams_get g _ _ (mem_chans_of_active hc)]
    · rw [if_neg (mt active_of_mem_chans hc), if_neg hc]
  · rw [readElem_recordCompletion, hcommitted.readElem_importFields hc hi]
  · have hbuilt := (updates_importFields (rng := false) t g).kernelBuilt (hcommitted.rebuilt.kernel c (hp ▸ hc))
    exact (cachesKept_of_mem rfl rfl rfl).kernelBuilt hbuilt
  · have hbuilt := (updates_importFields (rng := false) t g).tableBuilt (hcommitted.rebuilt.table c (hp ▸ hc))
    exact tableBuilt_recordCompletion hbuilt

end Sys2Proof.Machine
end

section
/-! PROOF. STATS (O36): the sums in row-major order (R260, R261, R265), half the grid size exactly (R263), and the record
the sums give (R262, R264, R266). -/

namespace Sys2Proof.Machine

open Sys2Proof.Claims

/-! ### The sums -/

theorem statsCell_eq_cellAverage (s : State) (g : Geometry) (i : Nat) : s.statsCell g i = cellAverage s g i := by
  cases hchannels : g.channels with
  | one =>
    rw [State.statsCell, hchannels, cellAverage, if_pos (by rw [Geometry.chanCount, hchannels]; rfl)]
    rfl
  | three =>
    rw [State.statsCell, hchannels, cellAverage, if_neg (by rw [Geometry.chanCount, hchannels]; decide)]
    rfl

/-- The pass over any list of cells, from any sums. -/
theorem foldlM_addCell_eq_statsSums (s : State) (g : Geometry) (is : List Nat) (t : Sums) :
    is.foldlM (fun t i => do addCell t (i % g.n) (i / g.n) (← s.statsCell g i)) t =
      statsSums s g is t.mass t.sx t.sy := by
  induction is generalizing t with
  | nil => rfl
  | cons i is ih =>
    simp only [List.foldlM_cons, statsSums, addCell, statsCell_eq_cellAverage, bind_assoc, pure_bind] at ih ⊢
    simp only [ih]

theorem fieldSums_eq_statsSums (s : State) (g : Geometry) :
    s.fieldSums g = statsSums s g (List.range (g.n * g.n)) posZero posZero posZero :=
  foldlM_addCell_eq_statsSums s g (List.range g.cells) ⟨posZero, posZero, posZero⟩

/-! ### Half the grid size -/

/-- Rounding depends on the quotient alone. -/
theorem roundUnits_mul_right (num den : Nat) {k : Nat} (hk : 0 < k) :
    roundUnits (num * k) (den * k) = roundUnits num den := by
  have hscale (q : Nat) : den * k * q = den * q * k := Nat.mul_right_comm den k q
  have htwice (r : Nat) : 2 * (r * k) = 2 * r * k := (Nat.mul_assoc 2 r k).symm
  simp only [roundUnits, hscale, htwice, Nat.mul_div_mul_right _ _ hk, Nat.mul_mod_mul_right,
    Nat.mul_lt_mul_right hk, Nat.mul_left_inj hk.ne']

/-- An integer up to 2^53 is represented exactly. -/
theorem unpack_ofNat64 {n : Nat} (hn : n ≤ 2 ^ 53) : unpack (ofNat64 n) = .fin false (n * 2 ^ 1074) := by
  obtain ⟨hfin, hvalue⟩ := ofNat64_exact hn
  have hsign : signBit (ofNat64 n) = false := signBit_ofMagnitude _ (roundsTo_roundUnits _ Nat.one_pos).lt_two_pow
  have hunits : realWord (ofNat64 n) * 2 ^ 1074 = unitsOfMagnitude (magnitude (ofNat64 n)) := by
    rw [realWord_mul_unit hfin, hsign]
    rfl
  rw [hvalue] at hunits
  rw [unpack_of_finite hfin, hsign, Real64.fin.injEq]
  refine ⟨rfl, Nat.cast_injective (R := ℝ) ?_⟩
  rw [← hunits, Nat.cast_mul, Nat.cast_pow, Nat.cast_ofNat]

/-- `2*m` over 2, with `u` units to the integer 1. -/
theorem roundUnits_half (m : Nat) {u : Nat} (hu : 0 < u) :
    roundUnits (2 * m * u * u) (2 * u) = roundUnits (m * u) 1 := by
  rw [← roundUnits_mul_right (m * u) 1 (Nat.mul_pos Nat.two_pos hu)]
  congr 1 <;> ring

/-- Half of an even integer up to 2^53 is exact. -/
theorem fdiv_ofNat64_two {m : Nat} (hm : 2 * m ≤ 2 ^ 53) : fdiv (ofNat64 (2 * m)) fTwo = pure (ofNat64 m) := by
  have htwo : fTwo = ofNat64 2 := by decide +kernel
  have hunit : 0 < 2 ^ 1074 := pow_pos Nat.two_pos 1074
  rw [htwo, fdiv_fin_fin (unpack_ofNat64 hm) (unpack_ofNat64 (by decide)),
    if_neg (Nat.mul_pos Nat.two_pos hunit).ne', roundUnits_half m hunit, ofNat64, Bool.xor_self]

theorem fdiv_gridSize_two (g : Geometry) : fdiv (ofNat64 g.n) fTwo = pure (ofNat64 (g.n / 2)) := by
  have hhalf := g.half_add_half
  have hn := g.n_le
  calc fdiv (ofNat64 g.n) fTwo = fdiv (ofNat64 (2 * (g.n / 2))) fTwo := by rw [Nat.two_mul, hhalf]
    _ = pure (ofNat64 (g.n / 2)) := fdiv_ofNat64_two (by omega)

/-! ### The velocity -/

theorem wrapDisplacement_eq_wrapdOf (g : Geometry) (d : Word) : wrapDisplacement g.n d = wrapdOf g.n d := by
  rw [wrapDisplacement, fdiv_gridSize_two, pure_bind, wrapdOf]

theorem velocityTo_invalid (n : Nat) {old : StatsRegs} (h : old.centroidValid = false) (cx cy : Word) :
    velocityTo n old cx cy = pure posZero :=
  if_neg (by rw [h]; decide)

theorem velocityTo_valid (g : Geometry) {old : StatsRegs} (h : old.centroidValid = true) (cx cy : Word) :
    velocityTo g.n old cx cy = velocityBetween g.n old.centerX old.centerY cx cy := by
  simp only [velocityTo, if_pos h, wrapDisplacement_eq_wrapdOf, velocityBetween]

/-! ### The record -/

theorem statsFromSums_massless (n : Nat) (inc : Bool) (old : StatsRegs) {t : Sums} (h : flt posZero t.mass = false) :
    statsFromSums n inc old t =
      pure { old with step := if inc then old.step + 1 else old.step, mass := t.mass, velocity := posZero } := by
  rw [statsFromSums, if_neg (by rw [h]; decide)]

/-- With a mass above zero every field is new; the draws say where in the NaN stream each quotient and the root stand. -/
theorem run_statsFromSums_massive (n : Nat) (inc : Bool) (old : StatsRegs) {t : Sums} (h : flt posZero t.mass = true)
    (d : Draws) : ∃ cx cy dx dy dv, cx = ((fdiv t.sx t.mass).run dx).1 ∧ cy = ((fdiv t.sy t.mass).run dy).1 ∧
      ((statsFromSums n inc old t).run d).1 =
        { step := if inc then old.step + 1 else old.step, mass := t.mass, centerX := cx, centerY := cy,
          velocity := ((velocityTo n old cx cy).run dv).1, centroidValid := true } := by
  rw [statsFromSums, if_pos h]
  exact ⟨_, _, _, _, _, rfl, rfl, rfl⟩

/-- MASS is the sum whichever of the two records it selects. -/
theorem statsFromSums_mass (n : Nat) (inc : Bool) (old : StatsRegs) (t : Sums) (d : Draws) :
    ((statsFromSums n inc old t).run d).1.mass = t.mass := by
  cases h : flt posZero t.mass with
  | false => rw [statsFromSums_massless n inc old h, run_pure]
  | true =>
    obtain ⟨_, _, _, _, _, -, -, hrecord⟩ := run_statsFromSums_massive n inc old h d
    rw [hrecord]

theorem recomputeStats_stats (s : State) (g : Geometry) (inc : Bool) :
    (s.recomputeStats g inc).stats =
      ((statsFromSums g.n inc s.stats ((s.fieldSums g).run s.draws).1).run ((s.fieldSums g).run s.draws).2).1 := by
  rw [State.recomputeStats, drawing_fst, State.nextStats, run_bind]

theorem recomputeStats_mass (s : State) (g : Geometry) (inc : Bool) :
    (s.recomputeStats g inc).stats.mass = ((s.fieldSums g).run s.draws).1.mass := by
  rw [recomputeStats_stats, statsFromSums_mass]

theorem ran_recomputeStats (s : State) (g : Geometry) (inc : Bool) :
    Ran s { s with stats := (s.recomputeStats g inc).stats } ((s.recomputeStats g inc).recordCompletion .ok) :=
  ran_recordCompletion ⟨rfl, rfl, rfl, rfl, rfl, rfl, rfl, rfl, rfl⟩ ⟨rfl, rfl, rfl, rfl, rfl, rfl⟩ rfl rfl rfl

/-- Settles O36: the record of the sums, by whether the mass is above zero. -/
theorem statsRecomputesTheRecord : Obligations.StatsRecomputesTheRecord := by
  intro s g inc hg
  refine ⟨_, exec_stats_ready hg inc, ran_recomputeStats s g inc, recomputeStats_mem s g inc,
    recomputeStats_epochs s g inc, fieldSums_eq_statsSums s g, ?_⟩
  rw [recordCompletion_stats, recomputeStats_mass]
  refine ⟨rfl, recomputeStats_step s g inc, fun hmass => ?_, fun hmass => ?_⟩
  · rw [recomputeStats_stats, statsFromSums_massless _ _ _ hmass, run_pure]
    exact ⟨rfl, rfl, rfl, rfl⟩
  · obtain ⟨cx, cy, dx, dy, dv, hcx, hcy, hrecord⟩ :=
      run_statsFromSums_massive g.n inc s.stats hmass ((s.fieldSums g).run s.draws).2
    rw [recomputeStats_stats, hrecord]
    dsimp only
    refine ⟨rfl, ⟨dx, hcx⟩, ⟨dy, hcy⟩, fun hvalid => ?_, ⟨dv, rfl⟩, fun hvalid => ⟨dv, ?_⟩⟩
    · rw [velocityTo_invalid _ hvalid, run_pure]
    · rw [velocityTo_valid _ hvalid]

end Sys2Proof.Machine
end

section
/-! PROOF. What a paint command writes, channel after channel, and the commands that paint cell by cell: CLEAR (O40),
CIRCLE (O45), SETV (O46); and GETV (O47). -/

namespace Sys2Proof.Machine

open Sys2Proof.Claims

/-! ### Painting -/

/-- From `s` to `t` nothing moved but memory and the stream positions, and of memory no byte outside `w`. -/
structure Painted (s t : State) (w : Nat → Prop) : Prop where
  frame : ∃ mem draws, t = { s with mem := mem, draws := draws }
  bytes : BytesKeptOutside s t w

theorem painted_draws (s : State) (draws : Draws) (w : Nat → Prop) : Painted s { s with draws := draws } w :=
  ⟨⟨_, _, rfl⟩, fun _ _ => rfl⟩

theorem Painted.trans {s t u : State} {w : Nat → Prop} (hst : Painted s t w) (htu : Painted t u w) : Painted s u w := by
  refine ⟨?_, bytesKept_trans hst.bytes htu.bytes⟩
  obtain ⟨_, _, rfl⟩ := hst.frame
  obtain ⟨mem, draws, rfl⟩ := htu.frame
  exact ⟨mem, draws, rfl⟩

theorem Painted.mono {s t : State} {w w' : Nat → Prop} (h : Painted s t w) (hw : ∀ x, w x → w' x) : Painted s t w' :=
  ⟨h.frame, fun x hx => h.bytes x (mt (hw x) hx)⟩

theorem Painted.bank {s t : State} {w : Nat → Prop} (h : Painted s t w) : t.bank = s.bank := by
  obtain ⟨_, _, rfl⟩ := h.frame
  rfl

theorem Painted.ran {s t : State} {w : Nat → Prop} (h : Painted s t w) : Ran s s (t.recordCompletion .ok) := by
  obtain ⟨_, _, rfl⟩ := h.frame
  exact ran_recordCompletion ⟨rfl, rfl, rfl, rfl, rfl, rfl, rfl, rfl, rfl⟩ ⟨rfl, rfl, rfl, rfl, rfl, rfl⟩ rfl rfl rfl

/-- CLEAR and RANDOMIZE also zero STEP and MASS (R281). -/
theorem Painted.ran_resetStepMass {s t : State} {w : Nat → Prop} (h : Painted s t w) :
    Ran s { s with stats := { s.stats with step := 0, mass := 0 } } (t.resetStepMass.recordCompletion .ok) := by
  obtain ⟨_, _, rfl⟩ := h.frame
  exact ran_recordCompletion ⟨rfl, rfl, rfl, rfl, rfl, rfl, rfl, rfl, rfl⟩ ⟨rfl, rfl, rfl, rfl, rfl, rfl⟩ rfl rfl rfl

@[simp] theorem readByte_resetStepMass (s : State) (x : Nat) : s.resetStepMass.readByte x = s.readByte x := rfl

@[simp] theorem readElem_resetStepMass (s : State) (a : Arr) (i : Nat) :
    s.resetStepMass.readElem a i = s.readElem a i := readElem_congr rfl rfl a i

theorem painted_writeArray (s : State) (draws : Draws) (a : Arr) {ws : List Word} {n : Nat} (length : ws.length = n) :
    Painted s (State.writeArray { s with draws := draws } a ws) (InArr a n) := by
  refine ⟨⟨_, _, rfl⟩, fun x hx => readByte_writeArray_outside { s with draws := draws } a ws x ?_⟩
  unfold InArr at hx
  omega

theorem painted_writeElem (s : State) (a : Arr) (i : Nat) (v : Word) : Painted s (s.writeElem a i v) (InElem a i) := by
  refine ⟨⟨_, _, rfl⟩, fun x hx => readByte_writeElem_outside s a i v x ?_⟩
  unfold InElem at hx
  omega

theorem inArr_of_inElem {a : Arr} {i n x : Nat} (hi : i < n) (h : InElem a i x) : InArr a n x := by
  unfold InElem Arr.addr at h
  unfold InArr
  omega

/-! ### Channel after channel -/

theorem activeField_of_bank {s t : State} (h : t.bank = s.bank) (c : Chan) : t.activeField c = s.activeField c :=
  congrArg (fun bank : Per3 Bool => Arr.field c (bank.get c)) h

/-- Wherever the banks are as in `bank`, effect `f` on a channel paints bytes `w` of the channel's active field. -/
structure PaintsFields (g : Geometry) (bank : Per3 Bool) (f : State → Chan → State) (w : Chan → Nat → Prop) : Prop where
  painted : ∀ (t : State) (c : Chan), t.bank = bank → Painted t (f t c) (w c)
  inField : ∀ (c : Chan) (x : Nat), w c x → InArr (.field c (bank.get c)) g.cells x

section fields

variable {g : Geometry} {s t : State} {f : State → Chan → State} {w : Chan → Nat → Prop}
  (h : PaintsFields g s.bank f w)
include h

theorem PaintsFields.foldl (cs : List Chan) (ht : t.bank = s.bank) :
    Painted t (cs.foldl f t) (fun x => ∃ c ∈ cs, w c x) := by
  induction cs generalizing t with
  | nil => exact painted_draws t t.draws _
  | cons c cs ih =>
    have hfirst := h.painted t c ht
    refine (hfirst.mono fun x hx => ⟨c, List.mem_cons_self, hx⟩).trans ?_
    exact (ih (hfirst.bank.trans ht)).mono fun x ⟨b, hb, hx⟩ => ⟨b, List.mem_cons_of_mem c hb, hx⟩

/-- Painting other channels keeps a field. -/
theorem PaintsFields.readElem_other {cs : List Chan} {u : State} (htu : Painted t u (fun x => ∃ c ∈ cs, w c x))
    {b : Chan} (hb : b ∉ cs) {i : Nat} (hi : i < g.cells) :
    u.readElem (s.activeField b) i = t.readElem (s.activeField b) i := by
  have hcells := g.cells_le
  refine readElem_of_bytes fun j hj => htu.bytes _ ?_
  rintro ⟨c, hc, hw⟩
  refine not_inArr_of_inArr (inArr_addr hi hj) (fun heq => ?_) (by omega) (by omega) (h.inField c _ hw)
  cases heq
  exact hb hc

/-- What becomes of the field of one of different channels: its own effect finds it as it was at the start, and it stays
as its own effect leaves it. -/
theorem PaintsFields.foldl_field {cs : List Chan} (hnodup : cs.Nodup) {b : Chan} (hb : b ∈ cs)
    (ht : t.bank = s.bank) : ∃ u : State, u.bank = s.bank ∧
      (∀ i, i < g.cells → u.readElem (s.activeField b) i = t.readElem (s.activeField b) i) ∧
      ∀ i, i < g.cells → (cs.foldl f t).readElem (s.activeField b) i = (f u b).readElem (s.activeField b) i := by
  obtain ⟨as, bs, rfl⟩ := List.append_of_mem hb
  obtain ⟨⟨hbefore, hafter⟩, -⟩ : (b ∉ as ∧ b ∉ bs) ∧ _ := by
    rwa [List.nodup_middle, List.nodup_cons, List.mem_append, not_or] at hnodup
  have hfirst := h.foldl as ht
  have hbank := hfirst.bank.trans ht
  refine ⟨as.foldl f t, hbank, fun i hi => h.readElem_other hfirst hbefore hi, fun i hi => ?_⟩
  rw [List.foldl_append, List.foldl_cons]
  have hlast := h.foldl bs ((h.painted _ b hbank).bank.trans hbank)
  exact h.readElem_other hlast hafter hi

end fields

/-! ### CLEAR (R280, R281) -/

theorem exec_clear_ready {s : State} {g : Geometry} {sel : ChSel} {cs : List Chan} (h : s.engine = some g)
    (hc : chansOf g sel = .ok cs) :
    exec (.clear sel) s =
      .next ((cs.foldl (fun t c => t.clearField g c) s).resetStepMass.recordCompletion .ok) :=
  runCommandMany_ready h hc _

theorem paintsFields_clearField (s : State) (g : Geometry) :
    PaintsFields g s.bank (fun t c => t.clearField g c) (fun c => InArr (s.activeField c) g.cells) where
  painted t c ht := by
    have hactive := activeField_of_bank ht c
    exact hactive ▸ painted_writeArray t t.draws (t.activeField c) List.length_replicate
  inField _ _ hx := hx

/-- Settles O40: a cleared field reads as zeros, and clearing the other channels keeps it. -/
theorem clearZeroesTheFields : Obligations.ClearZeroesTheFields := by
  intro s g sel cs hg hcs
  have hpaints := paintsFields_clearField s g
  have hpainted := hpaints.foldl cs rfl
  refine ⟨_, exec_clear_ready hg hcs, hpainted.ran_resetStepMass, fun c hc i hi => ?_, fun x hx => ?_⟩
  · obtain ⟨t, hbank, -, hfield⟩ := hpaints.foldl_field (nodup_of_chansOf hcs) hc rfl
    rw [readElem_recordCompletion, readElem_resetStepMass, hfield i hi, State.clearField, activeField_of_bank hbank,
      readElem_writeArray_same _ _ _ _ (List.length_replicate.symm ▸ hi), List.getElem_replicate]
  · rw [readByte_recordCompletion, readByte_resetStepMass]
    exact hpainted.bytes x hx

/-! ### SETV and GETV (R297, R298) -/

theorem exec_setv_ready {s : State} {g : Geometry} {sel : ChSel} {cs : List Chan} (h : s.engine = some g)
    (hc : chansOf g sel = .ok cs) :
    exec (.setv sel) s = .next ((cs.foldl (fun t c => t.writeElem (t.activeField c) (s.addressedCell g)
      (clamp01 s.operands.arg2)) s).recordCompletion .ok) :=
  runCommandMany_ready h hc _

theorem exec_getv_ready {s : State} {g : Geometry} {c : Chan} (h : s.engine = some g) (hc : g.active c = true) :
    exec (.getv (.ch c)) s = .next (State.recordCompletion
      { s with result := s.readElem (s.activeField c) (s.addressedCell g) } .ok) :=
  runCommandOne_ready h hc _

theorem paintsFields_writeElem (s : State) {g : Geometry} {k : Nat} (hk : k < g.cells) (v : Word) :
    PaintsFields g s.bank (fun t c => t.writeElem (t.activeField c) k v) (fun c => InElem (s.activeField c) k) where
  painted t c ht := by
    have hactive := activeField_of_bank ht c
    exact hactive ▸ painted_writeElem t (t.activeField c) k v
  inField _ _ hx := inArr_of_inElem hk hx

/-- Settles O46: the written element reads back, and the writes to the other channels keep it. -/
theorem setvWritesOneCell : Obligations.SetvWritesOneCell := by
  intro s g sel cs hg hcs
  have hcell := addressedCell_lt s g
  have hpaints := paintsFields_writeElem s hcell (clamp01 s.operands.arg2)
  have hpainted := hpaints.foldl cs rfl
  refine ⟨_, exec_setv_ready hg hcs, hpainted.ran, fun c hc => ?_, hpainted.bytes⟩
  obtain ⟨t, hbank, -, hfield⟩ := hpaints.foldl_field (nodup_of_chansOf hcs) hc rfl
  refine (readElem_recordCompletion _ _ _ _).trans ((hfield _ hcell).trans ?_)
  rw [activeField_of_bank hbank, readElem_writeElem_same]

/-- Settles O47: the effect is RESULT alone. -/
theorem getvReadsOneCell : Obligations.GetvReadsOneCell := fun _ _ _ hg hc =>
  ⟨_, exec_getv_ready hg hc, rfl,
    ran_recordCompletion ⟨rfl, rfl, rfl, rfl, rfl, rfl, rfl, rfl, rfl⟩ ⟨rfl, rfl, rfl, rfl, rfl, rfl⟩ rfl rfl rfl,
    rfl, rfl, rfl⟩

/-! ### Distances (R19, R296) -/

/-- The root of an integer is no NaN, so a distance takes no draw. -/
theorem cellDistance_eq_pure (dx dy : Nat) : ∃ w, cellDistance dx dy = pure w := by
  have hsign : signBit (ofNat64 (dx * dx + dy * dy)) = false :=
    signBit_ofMagnitude _ (roundsTo_roundUnits _ Nat.one_pos).lt_two_pow
  obtain ⟨hmag, -⟩ := ofNat64_rounded (dx * dx + dy * dy)
  rcases lt_or_eq_of_le hmag with hfin | hinf
  · rw [cellDistance, fsqrt_fin (unpack_of_finite hfin), hsign]
    split
    · exact ⟨_, rfl⟩
    · exact ⟨_, rfl⟩
  · rw [cellDistance, fsqrt_inf (unpack_of_infinite hinf), hsign]
    exact ⟨_, rfl⟩

theorem tdist_le_half (n : Nat) (a b : Int) : tdist n a b ≤ n / 2 := by
  unfold tdist
  omega

theorem paintOffset_all_three {g : Geometry} (h : g.chanCount = 3) (c : Chan) :
    paintOffset g .all c = match c with | .c0 => -1 | .c1 => 0 | .c2 => 1 := by
  have hthree : g.channels = .three := by
    cases hg : g.channels with
    | one => simp [Geometry.chanCount, hg, ChanCount.count] at h
    | three => rfl
  rw [paintOffset, if_pos ⟨rfl, hthree⟩]
  cases c <;> rfl

theorem paintOffset_eq_zero {g : Geometry} {sel : ChSel} (h : sel ≠ .all ∨ g.chanCount = 1) (c : Chan) :
    paintOffset g sel c = 0 := by
  refine if_neg ?_
  rintro ⟨rfl, hthree⟩
  simp [Geometry.chanCount, hthree, ChanCount.count] at h

/-! ### CIRCLE (R296) -/

/-- Channel `c` of CIRCLE, as the operands in `s` say. -/
def State.circleAt (s : State) (g : Geometry) (sel : ChSel) (t : State) (c : Chan) : State :=
  t.circleField g (argInt s.operands.arg0 + paintOffset g sel c) (argInt s.operands.arg1 + paintOffset g sel c)
    s.operands.arg2 (clamp01 s.operands.arg3) c

theorem exec_circle_ready {s : State} {g : Geometry} {sel : ChSel} {cs : List Chan} (h : s.engine = some g)
    (hc : chansOf g sel = .ok cs) :
    exec (.circle sel) s = .next ((cs.foldl (s.circleAt g sel) s).recordCompletion .ok) :=
  runCommandMany_ready h hc _

theorem circledField_length (s : State) (g : Geometry) (cx cy : Int) (radius v : Word) (c : Chan) (d : Draws) :
    ((s.circledField g cx cy radius v c).run d).1.length = g.cells := by
  rw [State.circledField, forEach_length, List.length_range]

theorem run_circleCell (g : Geometry) (cx cy : Int) (radius v : Word) (i : Nat) (old : Word) (d e : Draws) :
    ((circleCell g cx cy radius v i old).run d).1 =
      if fle ((cellDistance (tdist g.n (i % g.n : Nat) cx) (tdist g.n (i / g.n : Nat) cy)).run e).1 radius then v
      else old := by
  obtain ⟨w, hw⟩ := cellDistance_eq_pure (tdist g.n (i % g.n : Nat) cx) (tdist g.n (i / g.n : Nat) cy)
  rw [circleCell, hw, pure_bind, run_pure]
  split <;> rfl

theorem readElem_circleField (s : State) (g : Geometry) (cx cy : Int) (radius v : Word) (c : Chan) {i : Nat}
    (hi : i < g.cells) (e : Draws) :
    (s.circleField g cx cy radius v c).readElem (s.activeField c) i =
      if fle ((cellDistance (tdist g.n (i % g.n : Nat) cx) (tdist g.n (i / g.n : Nat) cy)).run e).1 radius then v
      else s.readElem (s.activeField c) i := by
  have hlen : i < ((s.circledField g cx cy radius v c).run s.draws).1.length :=
    (circledField_length s g cx cy radius v c s.draws).symm ▸ hi
  obtain ⟨d, hd⟩ := forEach_getElem (fun i => circleCell g cx cy radius v i (s.readElem (s.activeField c) i))
    (List.range g.cells) s.draws i (by simpa using hi)
  rw [List.getElem_range, run_circleCell _ _ _ _ _ _ _ d e] at hd
  exact (readElem_writeArray_same _ _ _ _ hlen).trans (Option.some.inj ((List.getElem?_eq_getElem hlen).symm.trans hd))

theorem paintsFields_circleAt (s : State) (g : Geometry) (sel : ChSel) :
    PaintsFields g s.bank (s.circleAt g sel) (fun c => InArr (s.activeField c) g.cells) where
  painted t c ht := by
    have hactive := activeField_of_bank ht c
    exact hactive ▸ painted_writeArray t _ (t.activeField c) (circledField_length t g _ _ _ _ c t.draws)
  inField _ _ hx := hx

/-- Settles O45: a distance does not depend on the streams, and a channel's circle finds the cells it keeps as they were
at the start. -/
theorem circleSetsTheDisc : Obligations.CircleSetsTheDisc := by
  refine ⟨fun g sel c => ⟨?_, fun h => paintOffset_eq_zero h c⟩, fun n a b hn => ?_, fun _ _ => rfl, fun _ => rfl,
    fun s g sel cs hg hcs => ?_⟩
  · rintro rfl h
    exact paintOffset_all_three h c
  · obtain ⟨hlt, hcongr, -⟩ := wrapModIsTheRepresentative (a - b) n hn
    exact ⟨_, hlt, hcongr, rfl, tdist_le_half n a b⟩
  · have hpaints := paintsFields_circleAt s g sel
    have hpainted := hpaints.foldl cs rfl
    refine ⟨_, exec_circle_ready hg hcs, hpainted.ran, fun c hc i hi => ?_, hpainted.bytes⟩
    obtain ⟨t, hbank, hstart, hfield⟩ := hpaints.foldl_field (nodup_of_chansOf hcs) hc rfl
    have hactive := activeField_of_bank hbank c
    have hcell := readElem_circleField t g (argInt s.operands.arg0 + paintOffset g sel c)
      (argInt s.operands.arg1 + paintOffset g sel c) s.operands.arg2 (clamp01 s.operands.arg3) c hi s.draws
    rw [hactive, hstart i hi] at hcell
    exact (readElem_recordCompletion _ _ _ _).trans ((hfield i hi).trans hcell)

end Sys2Proof.Machine
end

section
/-! PROOF. RANDOMIZE (O41; R281 to R285): the draws of a cell, of a field, and of the fields one after another. -/

namespace Sys2Proof.Machine

open Sys2Proof.Claims

/-! ### The draws of a cell and of a list of cells (R282) -/

theorem run_drawRng (d : Draws) : drawRng.run d = (rngDraw d.rng, { d with rng := d.rng + 1 }) := rfl

section cells

variable (g : Geometry) (density lim : Word)

/-- A cell's test on its distance does not depend on the streams; the draws are those the test and the density call for. -/
theorem run_randomCell (i : Nat) (d e : Draws) :
    (randomCell drawRng g density lim i).run d =
      if inDiscOf g lim e i then
        if flt (rngDraw d.rng) density then (rngDraw (d.rng + 1), { d with rng := d.rng + 2 })
        else (posZero, { d with rng := d.rng + 1 })
      else (posZero, d) := by
  obtain ⟨w, hw⟩ := cellDistance_eq_pure ((i % g.n : Nat) - (g.n / 2 : Nat) : Int).natAbs
    ((i / g.n : Nat) - (g.n / 2 : Nat) : Int).natAbs
  rw [randomCell, inDiscOf, hw, pure_bind, run_pure]
  split
  · rw [run_bind, run_drawRng]
    split <;> rfl
  · rfl

/-- The cells of a list take the draws of `seedCells`, from where the RNG stream stands. -/
theorem run_forEach_randomCell (e : Draws) (is : List Nat) (d : Draws) :
    (forEach (randomCell drawRng g density lim) is).run d =
      ((seedCells density (inDiscOf g lim e) is d.rng).1,
        { d with rng := (seedCells density (inDiscOf g lim e) is d.rng).2 }) := by
  induction is generalizing d with
  | nil => rfl
  | cons i is ih =>
    rw [run_forEach_cons, run_randomCell g density lim i d e, seedCells]
    split
    · split <;> rw [ih]
    · rw [ih]

end cells

/-! ### The values (R283 to R285) -/

/-- What the cells of a list get begins with the value of the first: +0.0, or for a cell of the disc an RNG draw. -/
theorem seedCells_cons (density : Word) (inDisc : Nat → Bool) (i : Nat) (is : List Nat) (k : Nat) : ∃ v k',
    seedCells density inDisc (i :: is) k =
      (v :: (seedCells density inDisc is k').1, (seedCells density inDisc is k').2) ∧
    (v = posZero ∨ inDisc i = true ∧ ∃ j, v = rngDraw j) := by
  rw [seedCells]
  split
  case isTrue hdisc =>
    split
    · exact ⟨_, _, rfl, .inr ⟨hdisc, _, rfl⟩⟩
    · exact ⟨_, _, rfl, .inl rfl⟩
  case isFalse => exact ⟨_, _, rfl, .inl rfl⟩

theorem seedCells_length (density : Word) (inDisc : Nat → Bool) (is : List Nat) (k : Nat) :
    (seedCells density inDisc is k).1.length = is.length := by
  induction is generalizing k with
  | nil => rfl
  | cons i is ih =>
    obtain ⟨v, k', h, -⟩ := seedCells_cons density inDisc i is k
    rw [h, List.length_cons, ih, List.length_cons]

theorem seedCells_getElem? (density : Word) (inDisc : Nat → Bool) {is : List Nat} {k m : Nat} {v : Word}
    (h : (seedCells density inDisc is k).1[m]? = some v) :
    v = posZero ∨ (∃ i, is[m]? = some i ∧ inDisc i = true) ∧ ∃ j, v = rngDraw j := by
  induction is generalizing k m with
  | nil => simp [seedCells] at h
  | cons i is ih =>
    obtain ⟨first, k', hcons, hfirst⟩ := seedCells_cons density inDisc i is k
    rw [hcons] at h
    cases m with
    | zero =>
      obtain rfl : first = v := by simpa using h
      exact hfirst.imp_right fun ⟨hdisc, hdraw⟩ => ⟨⟨i, rfl, hdisc⟩, hdraw⟩
    | succ m => exact ih (by simpa using h)

/-- Every value of the RNG stream lies in [0, 1). -/
theorem rngDraw_mem_unit (k : Nat) : fle posZero (rngDraw k) = true ∧ flt (rngDraw k) fOne = true := by
  rw [rngDraw, rngWord]
  split
  case isTrue hlt =>
    have hkey : orderKey posZero = 0 ∧ orderKey fOne = 0x3FF0000000000000 := by decide
    have hpattern : BitVec.ofNat 64 (Config.rng k).val = ofMagnitude false (Config.rng k).val := by simp [ofMagnitude]
    have hmag : magnitude (ofMagnitude false (Config.rng k).val) = (Config.rng k).val :=
      magnitude_ofMagnitude _ (by omega)
    have hdraw : orderKey (ofMagnitude false (Config.rng k).val) = (Config.rng k).val := by
      rw [orderKey, signBit_ofMagnitude _ (by omega), hmag]
      rfl
    have hnan : isNan (ofMagnitude false (Config.rng k).val) = false := by
      rw [isNan_eq_false_iff, hmag, infMagnitude]
      omega
    rw [hpattern]
    refine ⟨(fle_iff _ _).mpr ⟨by decide, hnan, ?_⟩, (flt_iff _ _).mpr ⟨hnan, by decide, ?_⟩⟩
    · omega
    · omega
  case isFalse => exact ⟨by decide, by decide⟩

theorem seedCells_mem_unit (density : Word) (inDisc : Nat → Bool) {is : List Nat} {k m : Nat} {v : Word}
    (h : (seedCells density inDisc is k).1[m]? = some v) : fle posZero v = true ∧ flt v fOne = true := by
  rcases seedCells_getElem? density inDisc h with rfl | ⟨-, j, rfl⟩
  · exact ⟨by decide, by decide⟩
  · exact rngDraw_mem_unit j

theorem seedCells_outside (density : Word) (inDisc : Nat → Bool) {n k i : Nat} {v : Word}
    (h : (seedCells density inDisc (List.range n) k).1[i]? = some v) (hout : inDisc i = false) : v = posZero := by
  rcases seedCells_getElem? density inDisc h with hv | ⟨⟨j, hj, hin⟩, -⟩
  · exact hv
  · obtain ⟨hi, hij⟩ := List.getElem?_eq_some_iff.mp hj
    rw [List.getElem_range] at hij
    rw [← hij, hout] at hin
    cases hin

/-- Every channel of the list is given a field. -/
theorem exists_mem_seedFields (density : Word) (inDisc : Nat → Bool) (cells : Nat) {cs : List Chan} {c : Chan}
    (hc : c ∈ cs) (k : Nat) :
    ∃ k', (c, (seedCells density inDisc (List.range cells) k').1) ∈ (seedFields density inDisc cells cs k).1 := by
  induction cs generalizing k with
  | nil => cases hc
  | cons b cs ih =>
    rcases List.mem_cons.mp hc with rfl | hc
    · exact ⟨k, List.mem_cons_self⟩
    · obtain ⟨k', h⟩ := ih hc (seedCells density inDisc (List.range cells) k).2
      exact ⟨k', List.mem_cons_of_mem _ h⟩

/-! ### Field after field -/

@[simp] theorem readArray_resetStepMass (s : State) (a : Arr) (n : Nat) :
    s.resetStepMass.readArray a n = s.readArray a n := readArray_congr rfl rfl a n

section fields

variable (g : Geometry) (density lim : Word)

theorem randomizeField_eq (e : Draws) (s : State) (c : Chan) :
    s.randomizeField g density lim c =
      State.writeArray
        { s with draws :=
          { s.draws with rng := (seedCells density (inDiscOf g lim e) (List.range g.cells) s.draws.rng).2 } }
        (s.activeField c) (seedCells density (inDiscOf g lim e) (List.range g.cells) s.draws.rng).1 := by
  rw [State.randomizeField, State.drawing, randomField, run_forEach_randomCell g density lim e]

theorem seedCells_range_length (inDisc : Nat → Bool) (n k : Nat) :
    (seedCells density inDisc (List.range n) k).1.length = n := by rw [seedCells_length, List.length_range]

theorem readArray_randomizeField (e : Draws) (s : State) (c : Chan) :
    (s.randomizeField g density lim c).readArray (s.activeField c) g.cells =
      (seedCells density (inDiscOf g lim e) (List.range g.cells) s.draws.rng).1 := by
  have hlen := seedCells_range_length density (inDiscOf g lim e) g.cells s.draws.rng
  rw [randomizeField_eq g density lim e]
  generalize (seedCells density (inDiscOf g lim e) (List.range g.cells) s.draws.rng).1 = ws at hlen ⊢
  rw [← hlen, readArray_writeArray_same]

theorem randomizeField_rng (e : Draws) (s : State) (c : Chan) :
    (s.randomizeField g density lim c).draws.rng =
      (seedCells density (inDiscOf g lim e) (List.range g.cells) s.draws.rng).2 := by
  rw [randomizeField_eq g density lim e, writeArray_draws]

theorem paintsFields_randomizeField (s : State) :
    PaintsFields g s.bank (fun t c => t.randomizeField g density lim c) (fun c => InArr (s.activeField c) g.cells) where
  painted t c ht := by
    rw [randomizeField_eq g density lim t.draws, activeField_of_bank ht]
    exact painted_writeArray t _ (s.activeField c) (seedCells_range_length density _ g.cells _)
  inField _ _ hx := hx

/-- The channels of a list take the draws of `seedFields`, and their fields read back: seeding the later channels keeps the
field of an earlier one. -/
theorem foldl_randomizeField (e : Draws) {cs : List Chan} (hnodup : cs.Nodup) (s : State) :
    (∀ cw ∈ (seedFields density (inDiscOf g lim e) g.cells cs s.draws.rng).1,
      (cs.foldl (fun t c => t.randomizeField g density lim c) s).readArray (s.activeField cw.1) g.cells = cw.2) ∧
    (cs.foldl (fun t c => t.randomizeField g density lim c) s).draws.rng =
      (seedFields density (inDiscOf g lim e) g.cells cs s.draws.rng).2 := by
  induction cs generalizing s with
  | nil => exact ⟨fun _ h => absurd h List.not_mem_nil, rfl⟩
  | cons c cs ih =>
    obtain ⟨hc, hnodup⟩ := List.nodup_cons.mp hnodup
    have hpaints := paintsFields_randomizeField g density lim s
    have hbank := (hpaints.painted s c rfl).bank
    obtain ⟨hfields, hrng⟩ := ih hnodup (s.randomizeField g density lim c)
    rw [randomizeField_rng g density lim e] at hfields hrng
    rw [List.foldl_cons, seedFields]
    refine ⟨fun cw hcw => ?_, hrng⟩
    rcases List.mem_cons.mp hcw with rfl | hcw
    · rw [← readArray_randomizeField g density lim e s c]
      refine List.map_congr_left fun i hi => ?_
      exact hpaints.readElem_other (hpaints.foldl cs hbank) hc (List.mem_range.mp hi)
    · rw [← activeField_of_bank hbank]
      exact hfields cw hcw

end fields

/-! ### RANDOMIZE (R281, R282) -/

theorem exec_randomize_ready {s : State} {g : Geometry} {sel : ChSel} {cs : List Chan} (h : s.engine = some g)
    (hc : chansOf g sel = .ok cs) :
    exec (.randomize sel) s = .next ((s.randomizeFields g cs).recordCompletion .ok) :=
  runCommandMany_ready h hc _

/-- The product that a distance is compared with (R282), for the operands and the streams in `s`. -/
def State.discLimit (s : State) (g : Geometry) : Word := ((fmul s.operands.arg1 (ofNat64 g.n)).run s.draws).1

/-- What RANDOMIZE leaves before it zeroes STEP and MASS. -/
def State.seededFields (s : State) (g : Geometry) (cs : List Chan) : State :=
  cs.foldl (fun t c => t.randomizeField g s.operands.arg0 (s.discLimit g) c)
    { s with draws := ((fmul s.operands.arg1 (ofNat64 g.n)).run s.draws).2 }

theorem randomizeFields_eq (s : State) (g : Geometry) (cs : List Chan) :
    s.randomizeFields g cs = (s.seededFields g cs).resetStepMass := rfl

theorem painted_seededFields (s : State) (g : Geometry) (cs : List Chan) :
    Painted s (s.seededFields g cs) (fun x => ∃ c ∈ cs, InArr (s.activeField c) g.cells x) :=
  (painted_draws s _ _).trans ((paintsFields_randomizeField g s.operands.arg0 (s.discLimit g) s).foldl cs rfl)

/-- The product takes no RNG draw, so the cells start where the RNG stream stands in `s`. -/
theorem seededFields_eq_seedFields (s : State) (g : Geometry) {cs : List Chan} (hnodup : cs.Nodup) :
    (∀ cw ∈ (seedFields s.operands.arg0 (inDiscOf g (s.discLimit g) s.draws) g.cells cs s.draws.rng).1,
      (s.seededFields g cs).readArray (s.activeField cw.1) g.cells = cw.2) ∧
    (s.seededFields g cs).draws.rng =
      (seedFields s.operands.arg0 (inDiscOf g (s.discLimit g) s.draws) g.cells cs s.draws.rng).2 := by
  have hrng := keepsRng_fmul s.operands.arg1 (ofNat64 g.n) s.draws
  exact hrng ▸ foldl_randomizeField g s.operands.arg0 (s.discLimit g) s.draws hnodup
    { s with draws := ((fmul s.operands.arg1 (ofNat64 g.n)).run s.draws).2 }

/-- A cell of a seeded channel holds a value of some list of `seedCells`. -/
theorem readElem_seededFields (s : State) (g : Geometry) {cs : List Chan} (hnodup : cs.Nodup) {c : Chan} (hc : c ∈ cs)
    {i : Nat} (hi : i < g.cells) : ∃ k,
    (seedCells s.operands.arg0 (inDiscOf g (s.discLimit g) s.draws) (List.range g.cells) k).1[i]? =
      some ((s.seededFields g cs).readElem (s.activeField c) i) := by
  obtain ⟨k, hmem⟩ := exists_mem_seedFields s.operands.arg0 (inDiscOf g (s.discLimit g) s.draws) g.cells hc s.draws.rng
  obtain ⟨hread, -⟩ := seededFields_eq_seedFields s g hnodup
  refine ⟨k, (congrArg (·[i]?) (hread _ hmem)).symm.trans ?_⟩
  rw [List.getElem?_eq_getElem (by rwa [readArray_length]), readArray_getElem]

/-- Settles O41: the fields are those of `seedFields`, whose values are RNG draws and zeros. -/
theorem randomizeSeedsADisc : Obligations.RandomizeSeedsADisc := by
  intro s g sel cs hg hcs
  have hnodup := nodup_of_chansOf hcs
  have hpainted := painted_seededFields s g cs
  obtain ⟨hread, hrng⟩ := seededFields_eq_seedFields s g hnodup
  refine ⟨_, (exec_randomize_ready hg hcs).trans (by rw [randomizeFields_eq]), hpainted.ran_resetStepMass,
    hpainted.bytes, ?_⟩
  rintro lim rfl
  refine ⟨fun cw hcw => ?_, hrng, fun c hc i hi => ?_⟩
  · rw [readArray_recordCompletion, readArray_resetStepMass]
    exact hread cw hcw
  · obtain ⟨k, hvalue⟩ := readElem_seededFields s g hnodup hc hi
    rw [readElem_recordCompletion, readElem_resetStepMass]
    exact ⟨seedCells_mem_unit _ _ hvalue, seedCells_outside _ _ hvalue⟩

end Sys2Proof.Machine
end

section
/-! PROOF. The patterns, spans and source indices of PLACE (R290 to R294), and its errors (O44; R321). -/

namespace Sys2Proof.Machine

open Sys2Proof.Claims

/-! ### Integers as words -/

theorem isNan_ofNat64 (n : Nat) : isNan (ofNat64 n) = false :=
  have ⟨hmag, _⟩ := ofNat64_rounded n
  (isNan_eq_false_iff _).mpr hmag

theorem extendedWord_ofNat64 {n : Nat} (hn : n ≤ 2 ^ 53) : extendedWord (ofNat64 n) = ((n : ℝ) : EReal) := by
  obtain ⟨hfin, hvalue⟩ := ofNat64_exact hn
  rw [extendedWord, if_pos hfin, hvalue]

theorem orderKey_ofNat64_mono {m n : Nat} (h : m ≤ n) (hn : n ≤ 2 ^ 53) :
    orderKey (ofNat64 m) ≤ orderKey (ofNat64 n) := by
  rw [← extendedWord_le_iff (isNan_ofNat64 m) (isNan_ofNat64 n), extendedWord_ofNat64 (h.trans hn),
    extendedWord_ofNat64 hn, EReal.coe_le_coe_iff]
  exact_mod_cast h

theorem Geometry.n_small (g : Geometry) : g.n ≤ 2 ^ 53 := g.n_le.trans (by decide)

theorem orderKey_fOne_le_gridSize (g : Geometry) : orderKey fOne ≤ orderKey (ofNat64 g.n) := by
  have hone : fOne = ofNat64 1 := by decide +kernel
  exact (congrArg orderKey hone).trans_le (orderKey_ofNat64_mono g.n_pos g.n_small)

/-! ### Spans (R290, R293) -/

/-- The span for a rounded product of a length and the scale. -/
def spanOfProduct (g : Geometry) (p : Word) : Option Nat :=
  if fle fOne p then (if flt (ofNat64 g.n) p then none else some (floorNat p)) else some 0

theorem run_scaledSpan (g : Geometry) (scale : Word) (l : Nat) (d : Draws) :
    ((scaledSpan g scale l).run d).1 = spanOfProduct g ((fmul (ofNat64 l) scale).run d).1 := by
  rw [scaledSpan, run_bind, spanOfProduct]
  split
  · split <;> rfl
  · rfl

theorem spanOfProduct_below {g : Geometry} {p : Word} (h : fle fOne p = false) : spanOfProduct g p = some 0 :=
  if_neg (by rw [h]; decide)

theorem spanOfProduct_above {g : Geometry} {p : Word} (h : flt (ofNat64 g.n) p = true) : spanOfProduct g p = none := by
  obtain ⟨-, hnan, hlt⟩ := (flt_iff _ _).mp h
  have hone : fle fOne p = true :=
    (fle_iff _ _).mpr ⟨by decide, hnan, (orderKey_fOne_le_gridSize g).trans hlt.le⟩
  rw [spanOfProduct, if_pos hone, if_pos h]

/-- A product from 1.0 to N gives its floor, which is at most N. -/
theorem spanOfProduct_between {g : Geometry} {p : Word} (hlo : fle fOne p = true) (hhi : flt (ofNat64 g.n) p = false) :
    ∃ m, spanOfProduct g p = some m ∧ m ≤ g.n ∧ FloorOf p m := by
  obtain ⟨hfinN, hvalueN⟩ := ofNat64_exact g.n_small
  obtain ⟨-, hnan, hkeyLo⟩ := (fle_iff _ _).mp hlo
  obtain ⟨-, -, hkeyHi⟩ := (fle_iff _ _).mp (fle_of_flt_eq_false (isNan_ofNat64 g.n) hnan hhi)
  have hone : 0 < orderKey fOne := by decide
  have hfin : magnitude p < infMagnitude := by
    have hp := natAbs_orderKey p
    have hN := natAbs_orderKey (ofNat64 g.n)
    omega
  have hnonneg : 0 ≤ realWord p :=
    zero_le_one.trans (realWord_fOne ▸ realWord_le_of_orderKey_le hkeyLo)
  refine ⟨floorNat p, ?_, ?_, floorOf_floorNat hfin hnonneg⟩
  · rw [spanOfProduct, if_pos hlo, if_neg (by rw [hhi]; decide)]
  · rw [floorNat_eq_floor hfin hnonneg]
    exact Nat.floor_le_of_le (hvalueN ▸ realWord_le_of_orderKey_le hkeyHi)

theorem spanOfProduct_le {g : Geometry} {p : Word} {m : Nat} (h : spanOfProduct g p = some m) : m ≤ g.n := by
  by_cases hlo : fle fOne p = true
  · by_cases hhi : flt (ofNat64 g.n) p = true
    · rw [spanOfProduct_above hhi] at h
      cases h
    · obtain ⟨k, hk, hle, -⟩ := spanOfProduct_between hlo (Bool.not_eq_true _ ▸ hhi)
      rw [hk] at h
      cases h
      exact hle
  · rw [spanOfProduct_below (Bool.not_eq_true _ ▸ hlo)] at h
    cases h
    exact Nat.zero_le _

/-- The width's span is decided first, and the height's at the stream positions it leaves. The cases are split with the two
computations named, so that they are not evaluated on the symbolic operands. -/
theorem run_scaledSpans (g : Geometry) (scale : Word) (p : Pattern) (d : Draws) :
    ((scaledSpans g scale p).run d).1 = ((scaledSpan g scale p.width).run d).1.bind fun w =>
      ((scaledSpan g scale p.height).run ((scaledSpan g scale p.width).run d).2).1.map fun h => (w, h) := by
  unfold scaledSpans
  generalize scaledSpan g scale p.width = width
  generalize scaledSpan g scale p.height = height
  as_aux_lemma =>
    rw [run_bind]
    cases (width.run d).1 with
    | none => rfl
    | some w =>
      rw [Option.bind_some, run_bind]
      cases (height.run (width.run d).2).1 <;> rfl

theorem scaledSpans_eq_some {g : Geometry} {scale : Word} {p : Pattern} {d : Draws} {w h : Nat}
    (hspans : ((scaledSpans g scale p).run d).1 = some (w, h)) :
    (∃ e, ((scaledSpan g scale p.width).run e).1 = some w) ∧ ∃ e, ((scaledSpan g scale p.height).run e).1 = some h := by
  rw [run_scaledSpans, Option.bind_eq_some_iff] at hspans
  obtain ⟨w', hwidth, hspans⟩ := hspans
  obtain ⟨h', hheight, hpair⟩ := Option.map_eq_some_iff.mp hspans
  cases hpair
  exact ⟨⟨_, hwidth⟩, _, hheight⟩

theorem scaledSpans_le {g : Geometry} {scale : Word} {p : Pattern} {d : Draws} {w h : Nat}
    (hspans : ((scaledSpans g scale p).run d).1 = some (w, h)) : w ≤ g.n ∧ h ≤ g.n := by
  obtain ⟨⟨e, hwidth⟩, e', hheight⟩ := scaledSpans_eq_some hspans
  rw [run_scaledSpan] at hwidth hheight
  exact ⟨spanOfProduct_le hwidth, spanOfProduct_le hheight⟩

/-- Whether a product is above N does not depend on where the streams stand. -/
theorem scaledSpan_above {g : Geometry} {scale : Word} {l : Nat} {d : Draws}
    (h : flt (ofNat64 g.n) ((fmul (ofNat64 l) scale).run d).1 = true) (e : Draws) :
    ((scaledSpan g scale l).run e).1 = none := by
  rw [run_scaledSpan]
  exact spanOfProduct_above ((flt_congr (sameValue_refl _) ((settled_fmul _ _).agree e d)).trans h)

theorem scaledSpans_above {g : Geometry} {scale : Word} {p : Pattern} {d : Draws}
    (h : flt (ofNat64 g.n) ((fmul (ofNat64 p.width) scale).run d).1 = true ∨
      flt (ofNat64 g.n) ((fmul (ofNat64 p.height) scale).run d).1 = true) :
    ((scaledSpans g scale p).run d).1 = none := by
  rw [run_scaledSpans]
  rcases h with hwidth | hheight
  · rw [scaledSpan_above hwidth, Option.bind_none]
  · exact Option.bind_eq_none_iff.mpr fun w _ => by rw [scaledSpan_above hheight, Option.map_none]

/-! ### Source indices (R294) -/

theorem floorNat_congr {a b : Word} (h : SameValue a b) : floorNat a = floorNat b := by
  rcases h with rfl | ⟨ha, hb⟩
  · rfl
  · rw [floorNat, unpack_of_nan ha, floorNat, unpack_of_nan hb]

theorem run_sourceIndex (scale : Word) (l i : Nat) (d : Draws) :
    ((sourceIndex scale l i).run d).1 = min (floorNat ((fdiv (ofNat64 i) scale).run d).1) (l - 1) := by
  rw [sourceIndex, run_bind, run_pure]

/-- The floor of a NaN quotient is 0, so a source index does not depend on where the streams stand. -/
theorem agree_sourceIndex (scale : Word) (l i : Nat) : Agree Eq (sourceIndex scale l i) (sourceIndex scale l i) := by
  rw [sourceIndex]
  exact agree_bind (settled_fdiv (ofNat64 i) scale).agree fun _ _ hq => agree_pure (by rw [floorNat_congr hq])

/-! ### Patterns (R290 to R292) -/

theorem placePattern_region_ok {s : State} {n : Nat} (g : Geometry) (hn : n = 2 ^ s.inst.log2NMax)
    (hw : s.operands.patW.toNat ≤ n * n) (hh : s.operands.patH.toNat ≤ n * n)
    (harea : s.operands.patW.toNat * s.operands.patH.toNat ≤ n * n) :
    s.placePattern g .pattern =
      .ok ⟨s.operands.patW.toNat, s.operands.patH.toNat, .pattern, s.operands.patW.toNat⟩ := by
  subst hn
  exact if_neg (not_or.mpr ⟨not_lt.mpr hw, not_or.mpr ⟨not_lt.mpr hh, not_lt.mpr harea⟩⟩)

theorem placePattern_region_error {s : State} (g : Geometry)
    (h : s.inst.nMax * s.inst.nMax < s.operands.patW.toNat ∨ s.inst.nMax * s.inst.nMax < s.operands.patH.toNat ∨
      s.inst.nMax * s.inst.nMax < s.operands.patW.toNat * s.operands.patH.toNat) :
    s.placePattern g .pattern = .error .badArg := if_pos h

theorem placePattern_field_ok {s : State} {g : Geometry} {c : Chan} (hc : g.active c = true)
    (harg : s.operands.arg3.toNat = c.index) : s.placePattern g .field = .ok ⟨g.n, g.n, s.activeField c, g.n⟩ := by
  rw [State.placePattern, argNat, harg, if_pos (of_decide_eq_true hc)]
  cases c <;> rfl

theorem placePattern_field_error {s : State} {g : Geometry} (h : g.chanCount ≤ s.operands.arg3.toNat) :
    s.placePattern g .field = .error .badChannel := if_neg (not_lt.mpr h)

/-! ### The ways PLACE ends -/

theorem exec_place_ready {s : State} {g : Geometry} {sel : ChSel} {cs : List Chan} (h : s.engine = some g)
    (hc : chansOf g sel = .ok cs) (source : PatternSource) :
    exec (.place sel source) s = finish s (s.placeFields g sel cs source) :=
  runCommandMany_ready h hc _

theorem placeFields_badPattern {s : State} {g : Geometry} {source : PatternSource} {e : Err}
    (h : s.placePattern g source = .error e) (sel : ChSel) (cs : List Chan) :
    s.placeFields g sel cs source = .error e := by
  rw [State.placeFields, h]

/-- Channel `c` of PLACE, as the operands in `s` say: the pattern is read from `s` (R292). -/
def State.placeAt (s : State) (g : Geometry) (sel : ChSel) (p : Pattern) (span : Nat × Nat) (t : State) (c : Chan) :
    State :=
  t.placeInto s g p span (argInt s.operands.arg0 + 2 * paintOffset g sel c)
    (argInt s.operands.arg1 + 2 * paintOffset g sel c) c

/-- A legal pattern is placed in every channel if its spans are legal, and otherwise the command ends with E_BAD_ARG. As in
`placeFields_ok`, the pattern and the spans get names before the cases are split, in a lemma apart. -/
theorem placeFields_pattern {s : State} {g : Geometry} {source : PatternSource} {p : Pattern}
    (h : s.placePattern g source = .ok p) (sel : ChSel) (cs : List Chan) :
    s.placeFields g sel cs source =
      match ((scaledSpans g s.operands.arg2 p).run s.draws).1 with
      | none => .error .badArg
      | some span => .ok (cs.foldl (s.placeAt g sel p span)
          { s with draws := ((scaledSpans g s.operands.arg2 p).run s.draws).2 }) := by
  unfold State.placeFields
  generalize s.placePattern g source = pattern at h
  generalize scaledSpans g s.operands.arg2 = spans
  as_aux_lemma =>
    subst h
    dsimp only [State.drawing]
    cases ((spans p).run s.draws).1 <;> rfl

theorem placeFields_spans {s : State} {g : Geometry} {source : PatternSource} {p : Pattern} {span : Nat × Nat}
    (h : s.placePattern g source = .ok p) (hspans : ((scaledSpans g s.operands.arg2 p).run s.draws).1 = some span)
    (sel : ChSel) (cs : List Chan) :
    ∃ draws, s.placeFields g sel cs source = .ok (cs.foldl (s.placeAt g sel p span) { s with draws := draws }) :=
  ⟨_, by rw [placeFields_pattern h, hspans]⟩

/-- Settles O44: the two errors of the pattern, and that of a span, which is the same at every stream position. -/
theorem placeRefusesBadPatterns : Obligations.PlaceRefusesBadPatterns := by
  intro s g sel cs hg hcs
  have hspans : ∀ (source : PatternSource) (p : Pattern), s.placePattern g source = .ok p →
      ((scaledSpans g s.operands.arg2 p).run s.draws).1 = none →
      exec (.place sel source) s = .next (s.recordCompletion .badArg) := fun source p hp hnone => by
    rw [exec_place_ready hg hcs, placeFields_pattern hp, hnone, finish_error]
  refine ⟨fun h => ?_, fun h => ?_, hspans, fun source p hp h => hspans source p hp (scaledSpans_above h)⟩
  · rw [exec_place_ready hg hcs, placeFields_badPattern (placePattern_region_error g h), finish_error]
  · rw [exec_place_ready hg hcs, placeFields_badPattern (placePattern_field_error h), finish_error]

end Sys2Proof.Machine
end

section
/-! PROOF. PLACE composites the pattern cell by cell (O43; R290 to R295). -/

namespace Sys2Proof.Machine

open Sys2Proof.Claims

/-! ### Writing back a field of which some elements changed -/

/-- A byte of an array lies in one of its elements. -/
theorem exists_addr_of_inArr {a : Arr} {n x : Nat} (h : InArr a n x) : ∃ i j, i < n ∧ j < 8 ∧ x = a.addr i + j := by
  unfold InArr at h
  exact ⟨(x - a.base) / 8, (x - a.base) % 8, by omega, by omega, by unfold Arr.addr; omega⟩

/-- The bytes of an element that reads as before are as before. -/
theorem readByte_of_readElem {s t : State} {a : Arr} {i : Nat} (h : t.readElem a i = s.readElem a i) {j : Nat}
    (hj : j < 8) : t.readByte (a.addr i + j) = s.readByte (a.addr i + j) := by
  rw [Arr.addr, ← readElem_lane t a i hj, h, readElem_lane s a i hj]

/-- Writing an array of which only the elements in `touched` differ from what they were paints only those. -/
theorem painted_writeArray_touched (s : State) (draws : Draws) (a : Arr) {ws : List Word} {n : Nat}
    (length : ws.length = n) {touched : Nat → Prop}
    (kept : ∀ i, i < n → ¬ touched i → ws.getD i posZero = s.readElem a i) :
    Painted s (State.writeArray { s with draws := draws } a ws) (fun x => ∃ i, touched i ∧ InElem a i x) := by
  have hpainted := painted_writeArray s draws a length
  refine ⟨hpainted.frame, fun x hx => ?_⟩
  by_cases hin : InArr a n x
  · obtain ⟨i, j, hi, hj, rfl⟩ := exists_addr_of_inArr hin
    have hi' : i < ws.length := length.symm ▸ hi
    have hkept := kept i hi fun htouched => hx ⟨i, htouched, by unfold InElem; omega⟩
    rw [List.getD_eq_getElem _ _ hi'] at hkept
    exact readByte_of_readElem ((readElem_writeArray_same _ a ws i hi').trans hkept) hj
  · exact hpainted.bytes x hin

/-! ### Destination cells (R290, R11, R18) -/

/-- The cell that destination offset (i, j) of a span addresses, for a pattern placed at (x, y). -/
def placeTarget (g : Geometry) (span : Nat × Nat) (x y : Int) (ij : Nat × Nat) : Nat :=
  g.idx (wrapMod (x + ij.1 - (span.1 / 2 : Nat)) g.n) (wrapMod (y + ij.2 - (span.2 / 2 : Nat)) g.n)

theorem placeTarget_lt (g : Geometry) (span : Nat × Nat) (x y : Int) (ij : Nat × Nat) :
    placeTarget g span x y ij < g.cells := g.idx_lt (wrapMod_lt _ g.n_pos) (wrapMod_lt _ g.n_pos)

theorem mem_spanOffsets {span ij : Nat × Nat} : ij ∈ spanOffsets span ↔ ij.1 < span.1 ∧ ij.2 < span.2 := by
  obtain ⟨i, j⟩ := ij
  simp [spanOffsets, and_comm]

/-- The offsets are those of the product of the two axes, rows first. -/
theorem spanOffsets_eq (span : Nat × Nat) :
    spanOffsets span = (List.range span.2 ×ˢ List.range span.1).map Prod.swap := by
  simp only [spanOffsets, SProd.sprod, List.product, List.map_flatMap, List.map_map]
  rfl

theorem spanOffsets_nodup (span : Nat × Nat) : (spanOffsets span).Nodup := by
  rw [spanOffsets_eq]
  exact (List.nodup_range.product List.nodup_range).map Prod.swap_injective

/-- Wrapped positions less than N apart are different. -/
theorem wrapMod_offset_injective {n : Nat} (hn : 0 < n) (x k : Int) {i i' : Nat} (hi : i < n) (hi' : i' < n)
    (h : wrapMod (x + i - k) n = wrapMod (x + i' - k) n) : i = i' := by
  have hmod : (x + i - k) % n = (x + i' - k) % n := by rw [← cast_wrapMod _ hn, h, cast_wrapMod _ hn]
  have hdvd : (n : Int) ∣ (i' : Int) - i := by
    have := Int.ModEq.dvd hmod
    rwa [show x + i' - k - (x + i - k) = (i' : Int) - i by ring] at this
  have hzero := Int.eq_zero_of_abs_lt_dvd hdvd (by rw [abs_lt]; omega)
  omega

theorem Geometry.idx_injective (g : Geometry) {x y x' y' : Nat} (hx : x < g.n) (hx' : x' < g.n)
    (h : g.idx x y = g.idx x' y') : x = x' ∧ y = y' := by
  unfold Geometry.idx at h
  have hmod := congrArg (· % g.n) h
  have hdiv := congrArg (· / g.n) h
  simp only [Nat.mul_add_mod_self_right, Nat.mod_eq_of_lt hx, Nat.mod_eq_of_lt hx'] at hmod
  subst hmod
  exact ⟨rfl, Nat.eq_of_mul_eq_mul_right g.n_pos (Nat.add_right_cancel h)⟩

/-- With spans of at most N, different offsets address different cells. -/
theorem placeTarget_injective {g : Geometry} {span : Nat × Nat} (hw : span.1 ≤ g.n) (hh : span.2 ≤ g.n) (x y : Int)
    {ij kl : Nat × Nat} (hij : ij ∈ spanOffsets span) (hkl : kl ∈ spanOffsets span)
    (h : placeTarget g span x y ij = placeTarget g span x y kl) : ij = kl := by
  rw [mem_spanOffsets] at hij hkl
  obtain ⟨hx, hy⟩ := g.idx_injective (wrapMod_lt _ g.n_pos) (wrapMod_lt _ g.n_pos) h
  exact Prod.ext
    (wrapMod_offset_injective g.n_pos x _ (hij.1.trans_le hw) (hkl.1.trans_le hw) hx)
    (wrapMod_offset_injective g.n_pos y _ (hij.2.trans_le hh) (hkl.2.trans_le hh) hy)

/-! ### Cell after cell (R290, R294, R295) -/

section cells

variable (src : State) (g : Geometry) (scale : Word) (p : Pattern) (span : Nat × Nat) (x y : Int)

/-- The source element of destination offset (i, j), with the source indices evaluated at stream positions `d`. -/
def placeSource (d : Draws) (ij : Nat × Nat) : Word :=
  src.readElem p.arr (((sourceIndex scale p.height ij.2).run d).1 * p.stride + ((sourceIndex scale p.width ij.1).run d).1)

/-- A destination offset changes its cell alone, to the clamped sum; its source does not depend on the streams. -/
theorem run_placeCell (f : List Word) (ij : Nat × Nat) (d e : Draws) : ∃ e',
    ((placeCell src g scale p span x y f ij).run d).1 = f.set (placeTarget g span x y ij)
      (clamp01 ((fadd (f.getD (placeTarget g span x y ij) posZero) (placeSource src scale p e ij)).run e').1) := by
  have hx := agree_sourceIndex scale p.width ij.1
  have hy := agree_sourceIndex scale p.height ij.2
  unfold placeCell placeSource
  generalize sourceIndex scale p.width ij.1 = sx at hx ⊢
  generalize sourceIndex scale p.height ij.2 = sy at hy ⊢
  rw [run_bind, run_bind, run_bind, run_pure, hx d e, hy _ e]
  exact ⟨_, rfl⟩

/-- Offsets that address other cells leave a cell as it was. -/
theorem foldlM_placeCell_other {k : Nat} {ijs : List (Nat × Nat)} (h : ∀ ij ∈ ijs, placeTarget g span x y ij ≠ k)
    (f : List Word) (d : Draws) :
    ((ijs.foldlM (placeCell src g scale p span x y) f).run d).1.getD k posZero = f.getD k posZero := by
  induction ijs generalizing f d with
  | nil => rfl
  | cons ij ijs ih =>
    obtain ⟨hij, hijs⟩ := List.forall_mem_cons.mp h
    obtain ⟨e', he'⟩ := run_placeCell src g scale p span x y f ij d d
    rw [List.foldlM_cons, run_bind, ih hijs, he', List.getD_eq_getElem?_getD, List.getElem?_set_ne hij,
      List.getD_eq_getElem?_getD]

/-- Of offsets that address different cells, each leaves the clamped sum in its own: it finds the cell as it was, and the
later ones keep it. -/
theorem foldlM_placeCell_target (e : Draws) {ijs : List (Nat × Nat)} (hnodup : (ijs.map (placeTarget g span x y)).Nodup)
    {ij : Nat × Nat} (hij : ij ∈ ijs) (f : List Word) (hf : f.length = g.cells) (d : Draws) : ∃ e',
    ((ijs.foldlM (placeCell src g scale p span x y) f).run d).1.getD (placeTarget g span x y ij) posZero =
      clamp01 ((fadd (f.getD (placeTarget g span x y ij) posZero) (placeSource src scale p e ij)).run e').1 := by
  induction ijs generalizing f d with
  | nil => cases hij
  | cons kl ijs ih =>
    obtain ⟨hfresh, hnodup⟩ := List.nodup_cons.mp hnodup
    obtain ⟨e', he'⟩ := run_placeCell src g scale p span x y f kl d e
    rw [List.foldlM_cons, run_bind]
    rcases List.mem_cons.mp hij with rfl | hij
    · have hlt : placeTarget g span x y ij < f.length := hf.symm ▸ placeTarget_lt g span x y ij
      refine ⟨e', ?_⟩
      rw [foldlM_placeCell_other _ _ _ _ _ _ _ fun kl hkl heq => hfresh (List.mem_map.mpr ⟨kl, hkl, heq⟩), he',
        List.getD_eq_getElem _ _ (by rwa [List.length_set]), List.getElem_set_self]
    · have hne : placeTarget g span x y kl ≠ placeTarget g span x y ij := fun heq =>
        hfresh (List.mem_map.mpr ⟨ij, hij, heq.symm⟩)
      obtain ⟨e'', he''⟩ := ih hnodup hij ((placeCell src g scale p span x y f kl).run d).1
        ((placeCell_length src scale p span x y f kl d).trans hf) ((placeCell src g scale p span x y f kl).run d).2
      refine ⟨e'', he''.trans ?_⟩
      rw [he', List.getD_eq_getElem?_getD, List.getElem?_set_ne hne, ← List.getD_eq_getElem?_getD]

end cells

/-! ### Field after field -/

section fields

variable (s src : State) (g : Geometry) (p : Pattern) (span : Nat × Nat) (x y : Int) (c : Chan)

/-- The field PLACE leaves in a channel. -/
def State.placedField : Num (List Word) :=
  (spanOffsets span).foldlM (placeCell src g src.operands.arg2 p span x y) (s.readArray (s.activeField c) g.cells)

theorem placeInto_eq : s.placeInto src g p span x y c =
    State.writeArray { s with draws := ((s.placedField src g p span x y c).run s.draws).2 } (s.activeField c)
      ((s.placedField src g p span x y c).run s.draws).1 := rfl

theorem placedField_length (d : Draws) : ((s.placedField src g p span x y c).run d).1.length = g.cells := by
  rw [State.placedField, foldlM_placeCell_length, readArray_length]

theorem painted_placeInto : Painted s (s.placeInto src g p span x y c)
    (fun b => ∃ i, (∃ ij ∈ spanOffsets span, placeTarget g span x y ij = i) ∧ InElem (s.activeField c) i b) := by
  rw [placeInto_eq]
  refine painted_writeArray_touched s _ _ (placedField_length s src g p span x y c s.draws) fun i hi hout => ?_
  rw [State.placedField, foldlM_placeCell_other _ _ _ _ _ _ _ (fun ij hij heq => hout ⟨ij, hij, heq⟩),
    readArray_getD s _ hi]

/-- A cell within the spans gets the clamped sum of what it held and its source. -/
theorem readElem_placeInto (e : Draws) (hw : span.1 ≤ g.n) (hh : span.2 ≤ g.n) {ij : Nat × Nat}
    (hij : ij ∈ spanOffsets span) : ∃ e',
    (s.placeInto src g p span x y c).readElem (s.activeField c) (placeTarget g span x y ij) =
      clamp01 ((fadd (s.readElem (s.activeField c) (placeTarget g span x y ij))
        (placeSource src src.operands.arg2 p e ij)).run e').1 := by
  have hlt := placeTarget_lt g span x y ij
  have hlen := placedField_length s src g p span x y c s.draws
  have hnodup : ((spanOffsets span).map (placeTarget g span x y)).Nodup :=
    (spanOffsets_nodup span).map_on fun _ hij _ hkl => placeTarget_injective hw hh x y hij hkl
  obtain ⟨e', he'⟩ := foldlM_placeCell_target src g src.operands.arg2 p span x y e hnodup hij
    (s.readArray (s.activeField c) g.cells) (readArray_length _ _ _) s.draws
  rw [readArray_getD s _ hlt, ← State.placedField, List.getD_eq_getElem _ _ (hlen.symm ▸ hlt)] at he'
  refine ⟨e', ?_⟩
  rw [placeInto_eq, readElem_writeArray_same _ _ _ _ (hlen.symm ▸ hlt), he']

end fields

/-- The cell of channel `c` that destination offset (i, j) addresses, as the operands in `s` say (R295). -/
def State.placeTargetAt (s : State) (g : Geometry) (sel : ChSel) (span : Nat × Nat) (c : Chan) (ij : Nat × Nat) : Nat :=
  placeTarget g span (argInt s.operands.arg0 + 2 * paintOffset g sel c)
    (argInt s.operands.arg1 + 2 * paintOffset g sel c) ij

theorem paintsFields_placeAt (s : State) (g : Geometry) (sel : ChSel) (p : Pattern) (span : Nat × Nat) :
    PaintsFields g s.bank (s.placeAt g sel p span) (fun c b => ∃ i j, i < span.1 ∧ j < span.2 ∧
      InElem (s.activeField c) (s.placeTargetAt g sel span c (i, j)) b) where
  painted t c ht := by
    refine (painted_placeInto t s g p span _ _ c).mono ?_
    rintro b ⟨_, ⟨⟨i, j⟩, hij, rfl⟩, hb⟩
    obtain ⟨hi, hj⟩ := mem_spanOffsets.mp hij
    exact ⟨i, j, hi, hj, activeField_of_bank ht c ▸ hb⟩
  inField := by
    rintro c b ⟨i, j, -, -, hb⟩
    exact inArr_of_inElem (placeTarget_lt g span _ _ (i, j)) hb

/-! ### PLACE (R290) -/

/-- With legal spans PLACE ends with OK, after painting the addressed cells of each channel: such a cell gets the clamped
sum of what it held at the start and its source, since the other channels' effects keep it. -/
theorem place_composites {s : State} {g : Geometry} {sel : ChSel} {cs : List Chan} {source : PatternSource}
    {p : Pattern} {w h : Nat} (hg : s.engine = some g) (hcs : chansOf g sel = .ok cs) (hp : s.placePattern g source = .ok p)
    (hspans : ((scaledSpans g s.operands.arg2 p).run s.draws).1 = some (w, h)) :
    ∃ u, exec (.place sel source) s = .next (u.recordCompletion .ok) ∧
      Painted s u (fun b => ∃ c ∈ cs, ∃ i j, i < w ∧ j < h ∧
        InElem (s.activeField c) (s.placeTargetAt g sel (w, h) c (i, j)) b) ∧
      ∀ c ∈ cs, ∀ i j, i < w → j < h → ∃ d,
        u.readElem (s.activeField c) (s.placeTargetAt g sel (w, h) c (i, j)) =
          clamp01 ((fadd (s.readElem (s.activeField c) (s.placeTargetAt g sel (w, h) c (i, j)))
            (placeSource s s.operands.arg2 p s.draws (i, j))).run d).1 := by
  obtain ⟨hw, hh⟩ := scaledSpans_le hspans
  have hpaints := paintsFields_placeAt s g sel p (w, h)
  obtain ⟨draws, heffect⟩ := placeFields_spans hp hspans sel cs
  refine ⟨_, by rw [exec_place_ready hg hcs, heffect, finish_ok],
    (painted_draws s draws _).trans (hpaints.foldl cs rfl), fun c hc i j hi hj => ?_⟩
  have hlt : s.placeTargetAt g sel (w, h) c (i, j) < g.cells := placeTarget_lt g (w, h) _ _ (i, j)
  obtain ⟨t, hbank, hstart, hfield⟩ :=
    hpaints.foldl_field (t := { s with draws := draws }) (nodup_of_chansOf hcs) hc rfl
  obtain ⟨d, hd⟩ := readElem_placeInto t s g p (w, h) (argInt s.operands.arg0 + 2 * paintOffset g sel c)
    (argInt s.operands.arg1 + 2 * paintOffset g sel c) c s.draws hw hh (ij := (i, j)) (mem_spanOffsets.mpr ⟨hi, hj⟩)
  rw [activeField_of_bank hbank, ← State.placeTargetAt, hstart _ hlt] at hd
  exact ⟨d, (hfield _ hlt).trans hd⟩

/-- Settles O43: the clauses on patterns, spans and source indices, and the composition of the cells. -/
theorem placeCompositesThePattern : Obligations.PlaceCompositesThePattern := by
  refine ⟨fun _ _ _ => ⟨rfl, rfl, rfl⟩, fun g scale p d w h => scaledSpans_eq_some,
    fun s g n hn => ⟨placePattern_region_ok g hn, fun c => placePattern_field_ok⟩, fun g scale p l d hp => ?_,
    fun scale q l i d hq hfin hsign => ?_, fun s g sel cs source p w h hg hcs hp hspans => ?_⟩
  · rw [run_scaledSpan, ← hp]
    exact ⟨spanOfProduct_below, spanOfProduct_between⟩
  · exact ⟨floorNat q, by rw [run_sourceIndex, hq], floorOf_floorNat hfin (realWord_nonneg hsign)⟩
  · obtain ⟨u, hexec, hpainted, hcells⟩ := place_composites hg hcs hp hspans
    exact ⟨_, hexec, hpainted.ran, fun c hc i j hi hj => readElem_recordCompletion u .ok _ _ ▸ hcells c hc i j hi hj,
      hpainted.bytes⟩

end Sys2Proof.Machine
end

section
/-! PROOF. Completion (O6; R330) and precise errors (O8; R329). -/

namespace Sys2Proof.Machine

open Sys2Proof.Claims

/-! ### Precise errors (R329) -/

/-- Settles O8: a command ends through `finish`, whose two answers are told apart by LAST_ERR: an effect comes with OK, and
an error with the record of the state before. -/
theorem failedCommandChangesNothing : Obligations.FailedCommandChangesNothing := by
  intro i s t h herr
  obtain ⟨effect, heffect⟩ := exec_eq_finish i s
  rcases finish_next_iff.mp (heffect.symm.trans h) with ⟨u, -, rfl⟩ | ⟨e, -, rfl⟩
  · exact absurd (recordCompletion_lastErr u .ok) herr
  · rw [recordCompletion_lastErr]

/-! ### The completion record (R330, R331) -/

theorem completedWith_recordCompletion (s : State) (e : Err) : CompletedWith s (s.recordCompletion e) e :=
  ⟨rfl, rfl, rfl, bne_iff_ne, rfl, rfl, rfl⟩

theorem hostSideKept_recordCompletion (s : State) (e : Err) : HostSideKept s (s.recordCompletion e) :=
  ⟨rfl, rfl, rfl, rfl, rfl, rfl, rfl, rfl, rfl⟩

/-- Updates of the Ready engine end with OK as `Ran` says, since they write nothing of the host's side and nothing of the
completion record. -/
theorem Updates.ran {rng : Bool} {g : Geometry} {s u : State} (h : Updates rng g s u) :
    Ran s u (u.recordCompletion .ok) := by
  rw [h.frame]
  exact ran_recordCompletion ⟨rfl, rfl, rfl, rfl, rfl, rfl, rfl, rfl, rfl⟩ ⟨rfl, rfl, rfl, rfl, rfl, rfl⟩ rfl rfl rfl

/-- However a command ends, its end is the completion record for some code, and the host's side is kept. -/
theorem Ending.completes {rng : Bool} {s t : State} (h : Ending rng s t) :
    ∃ e, CompletedWith s t e ∧ HostSideKept s t := by
  cases h with
  | record e => exact ⟨e, completedWith_recordCompletion s e, hostSideKept_recordCompletion s e⟩
  | updated g u ready updates =>
    obtain ⟨hcompleted, hkept, -⟩ := updates.ran
    exact ⟨.ok, hcompleted, hkept⟩
  | initialized g newP d checked rngKept =>
    obtain ⟨hcompleted, hkept, -⟩ := ran_commitInit { s with draws := d } g newP
    exact ⟨.ok, hcompleted, hkept⟩

theorem exec_completes (i : Instr) (s : State) :
    ∃ t e, exec i s = .next t ∧ CompletedWith s t e ∧ HostSideKept s t := by
  obtain ⟨t, ht⟩ := exec_answers i s
  obtain ⟨e, hcompletes⟩ := (exec_ending ht).completes
  exact ⟨t, e, ht, hcompletes⟩

/-- The complete event of a latched word: that of the command it decodes to, or the record alone. -/
theorem completeEvent_completes {s : State} {r : Running} (h : s.running = some r) :
    ∃ t e, completeEvent s = .next t ∧ CompletedWith s t e ∧ HostSideKept s t := by
  cases hword : decode r.word with
  | ok i =>
    rw [completeEvent_command h hword]
    exact exec_completes i s
  | error e =>
    exact ⟨_, _, completeEvent_rejected h hword, completedWith_recordCompletion s _, hostSideKept_recordCompletion s _⟩

/-- Settles O6: the record itself, every command by the ways it can end, and every latched word. -/
theorem everyCommandCompletes : Obligations.EveryCommandCompletes :=
  ⟨fun s e => ⟨completedWith_recordCompletion s e, rfl⟩, exec_completes, fun _ _ => completeEvent_completes⟩

end Sys2Proof.Machine
end
